-- ==== Sys2Proof/Word.lean ====
section
/-! DEFINITION. The word types of the RL78 (R9, R12): bytes, 16-bit words, 20-bit addresses, 32-bit values. -/

namespace Sys2Proof

/-- One byte (R9). -/
abbrev Byte := BitVec 8

/-- A 16-bit word (R9). -/
abbrev Word := BitVec 16

/-- A 20-bit byte address (R9, R70). -/
abbrev Addr := BitVec 20

/-- A 32-bit value: MACR, BCAX, HLDE (R58, R230). -/
abbrev DWord := BitVec 32

end Sys2Proof
end

