-- ==== Sys2Proof/Syntax.lean ====
section
/-! DEFINITION. The instructions of spec/opcode_table.json, one constructor per mnemonic, with the operand forms of
R94 and R170 as typed arguments. `es` is true in the forms written with `ES:` (R141). -/

namespace Sys2Proof

/-- The 8-bit registers in the order of their numbers R0 to R7 (R21, R124). -/
inductive Reg8 where
  | x | a | c | b | e | d | l | h
  deriving DecidableEq, Repr

/-- The register pairs in the order of their numbers RP0 to RP3 (R21, R124). -/
inductive RegPair where
  | ax | bc | de | hl
  deriving DecidableEq, Repr

/-- Memory operands (R94). The flag `es` says the form carries the byte 11H. -/
inductive Mem where
  /-- `saddr`, `saddrp` (R96) -/
  | saddr (s : Byte)
  /-- `sfr`, `sfrp` (R97) -/
  | sfr (s : Byte)
  /-- `!addr16`, `ES:!addr16` (R95) -/
  | abs (es : Bool) (addr16 : Word)
  /-- `[DE]` (R98) -/
  | de (es : Bool)
  /-- `[DE+byte]` (R100) -/
  | deOff (es : Bool) (off : Byte)
  /-- `[HL]` (R98) -/
  | hl (es : Bool)
  /-- `[HL+byte]` (R100) -/
  | hlOff (es : Bool) (off : Byte)
  /-- `[HL+B]` (R102) -/
  | hlB (es : Bool)
  /-- `[HL+C]` (R102) -/
  | hlC (es : Bool)
  /-- `word[B]` (R100) -/
  | wordB (es : Bool) (base : Word)
  /-- `word[C]` (R100) -/
  | wordC (es : Bool) (base : Word)
  /-- `word[BC]` (R100) -/
  | wordBC (es : Bool) (base : Word)
  /-- `[SP+byte]` (R101) -/
  | spOff (off : Byte)
  deriving DecidableEq, Repr

/-- 8-bit operands: a register, `#byte`, a memory operand, or the SFRs the alias forms name (R140, R170). -/
inductive Opd8 where
  | reg (r : Reg8)
  | imm (v : Byte)
  | mem (m : Mem)
  | psw
  | cs
  | es
  deriving DecidableEq, Repr

/-- 16-bit operands: a register pair, `#word`, a memory operand, or SP (R140, R170). -/
inductive Opd16 where
  | rp (p : RegPair)
  | imm (v : Word)
  | mem (m : Mem)
  | sp
  deriving DecidableEq, Repr

/-- Bit operands (R103, R270). -/
inductive BitOpd where
  | mem (m : Mem) (bit : BitVec 3)
  | a (bit : BitVec 3)
  | psw (bit : BitVec 3)
  | cy
  deriving DecidableEq, Repr

/-- The targets of CALL (R291). -/
inductive CallTarget where
  | rp (p : RegPair)
  | rel16 (d : Word)
  | abs16 (addr16 : Word)
  | abs20 (addr20 : Addr)
  deriving DecidableEq, Repr

/-- The targets of BR (R322). -/
inductive BrTarget where
  | ax
  | rel8 (d : Byte)
  | rel16 (d : Word)
  | abs16 (addr16 : Word)
  | abs20 (addr20 : Addr)
  deriving DecidableEq, Repr

/-- The operands of PUSH and POP (R300, R301). -/
inductive StackOpd where
  | rp (p : RegPair)
  | psw
  deriving DecidableEq, Repr

/-- The instructions (R4 and the PREFIX row of the opcode table). Destination first, as the spec writes them (R160). -/
inductive Instr where
  -- 8-bit transfer (R171 to R177)
  | mov (dst src : Opd8)
  | xch (src : Opd8)
  | oneb (dst : Opd8)
  | clrb (dst : Opd8)
  | movs (es : Bool) (off : Byte)
  -- 16-bit transfer (R191 to R194, R302)
  | movw (dst src : Opd16)
  | xchw (p : RegPair)
  | onew (p : RegPair)
  | clrw (p : RegPair)
  -- 8-bit operations (R201 to R210)
  | add (dst src : Opd8)
  | addc (dst src : Opd8)
  | sub (dst src : Opd8)
  | subc (dst src : Opd8)
  | and (dst src : Opd8)
  | or (dst src : Opd8)
  | xor (dst src : Opd8)
  | cmp (dst src : Opd8)
  | cmp0 (dst : Opd8)
  | cmps (es : Bool) (off : Byte)
  -- 16-bit operations (R220 to R222, R303, R304)
  | addw (src : Opd16)
  | addwSp (v : Byte)
  | subw (src : Opd16)
  | subwSp (v : Byte)
  | cmpw (src : Opd16)
  -- multiply, divide, multiply and accumulate (R225 to R233)
  | mulu
  | mulhu
  | mulh
  | divhu
  | divwu
  | machu
  | mach
  -- increment, decrement (R241 to R244)
  | inc (dst : Opd8)
  | dec (dst : Opd8)
  | incw (dst : Opd16)
  | decw (dst : Opd16)
  -- shifts (R251 to R256)
  | shr (cnt : BitVec 3)
  | shrw (cnt : BitVec 4)
  | shl (r : Reg8) (cnt : BitVec 3)
  | shlw (p : RegPair) (cnt : BitVec 4)
  | sar (cnt : BitVec 3)
  | sarw (cnt : BitVec 4)
  -- rotates (R260 to R264)
  | ror
  | rol
  | rorc
  | rolc
  | rolwc (p : RegPair)
  -- bit manipulation (R271 to R277)
  | mov1 (dst src : BitOpd)
  | and1 (src : BitOpd)
  | or1 (src : BitOpd)
  | xor1 (src : BitOpd)
  | set1 (dst : BitOpd)
  | clr1 (dst : BitOpd)
  | not1
  -- call, return, stack (R291 to R301)
  | call (t : CallTarget)
  | callt (n : BitVec 5)
  | brk
  | ret
  | reti
  | retb
  | push (src : StackOpd)
  | pop (dst : StackOpd)
  -- branches (R322 to R333)
  | br (t : BrTarget)
  | bc (d : Byte)
  | bnc (d : Byte)
  | bz (d : Byte)
  | bnz (d : Byte)
  | bh (d : Byte)
  | bnh (d : Byte)
  | bt (o : BitOpd) (d : Byte)
  | bf (o : BitOpd) (d : Byte)
  | btclr (o : BitOpd) (d : Byte)
  -- skips (R341 to R346)
  | skc
  | sknc
  | skz
  | sknz
  | skh
  | sknh
  -- CPU control (R351 to R358)
  | sel (n : BitVec 2)
  | nop
  | ei
  | di
  | halt
  | stop
  /-- The byte 11H where no ES: form follows (R142, R358). -/
  | prefixByte
  deriving DecidableEq, Repr

end Sys2Proof
end

