-- ==== Sys2Proof/WellFormed.lean ====
section
/-! DEFINITION. Which instruction terms exist: exactly the operand forms of the opcode tables (R131 to R135, R140,
R141, and the operand table of each instruction's rule). A term that is not well formed has no encoding. -/

namespace Sys2Proof

/-- The bytes of `sfr` operands that R140 gives to a form of its own, when A is the other operand of MOV. -/
def sfrOpenForMovA (s : Byte) : Bool := s != 0xFA#8 && s != 0xFC#8 && s != 0xFD#8

/-- The third bytes of CE FB that are the S3 instructions of R135. -/
def isMulDivCode (v : Byte) : Bool :=
  v == 0x01#8 || v == 0x02#8 || v == 0x03#8 || v == 0x05#8 || v == 0x06#8 || v == 0x0B#8

/-- `MOV mem, #byte` (R171). -/
def Mem.movImmForm (v : Byte) : Mem → Bool
  | .saddr _ => true
  | .sfr s => s != 0xFA#8 && s != 0xFC#8 && !(s == 0xFB#8 && isMulDivCode v)
  | .abs _ _ => true
  | .de _ => false
  | .deOff _ _ => true
  | .hl _ => false
  | .hlOff _ _ => true
  | .hlB _ => false
  | .hlC _ => false
  | .wordB _ _ => true
  | .wordC _ _ => true
  | .wordBC _ _ => true
  | .spOff _ => true

/-- `MOV A, mem` and `MOV mem, A` (R171): every memory operand, the sfr bytes of R140 excepted. -/
def Mem.movAForm : Mem → Bool
  | .sfr s => sfrOpenForMovA s
  | .saddr _ | .abs _ _ | .de _ | .deOff _ _ | .hl _ | .hlOff _ _ | .hlB _ | .hlC _
  | .wordB _ _ | .wordC _ _ | .wordBC _ _ | .spOff _ => true

/-- `saddr` and `!addr16`: the memory operands of ONEB, CLRB, CMP0 and of `MOV X/B/C, mem`. -/
def Mem.directForm : Mem → Bool
  | .saddr _ => true
  | .abs _ _ => true
  | .sfr _ | .de _ | .deOff _ _ | .hl _ | .hlOff _ _ | .hlB _ | .hlC _
  | .wordB _ _ | .wordC _ _ | .wordBC _ _ | .spOff _ => false

/-- `saddr`, `!addr16`, `[HL+byte]`: the memory operands of INC, DEC, INCW, DECW, ADDW, SUBW, CMPW. -/
def Mem.incForm : Mem → Bool
  | .saddr _ => true
  | .abs _ _ => true
  | .hlOff _ _ => true
  | .sfr _ | .de _ | .deOff _ _ | .hl _ | .hlB _ | .hlC _
  | .wordB _ _ | .wordC _ _ | .wordBC _ _ | .spOff _ => false

/-- The memory operands of `op A, mem` in the 8-bit operations (R200). -/
def Mem.aluForm : Mem → Bool
  | .saddr _ => true
  | .abs _ _ => true
  | .hl _ => true
  | .hlOff _ _ => true
  | .hlB _ => true
  | .hlC _ => true
  | .sfr _ | .de _ | .deOff _ _ | .wordB _ _ | .wordC _ _ | .wordBC _ _ | .spOff _ => false

/-- The memory operands of `XCH A, mem` (R172). -/
def Mem.xchForm : Mem → Bool
  | .saddr _ | .sfr _ | .abs _ _ | .de _ | .deOff _ _ | .hl _ | .hlOff _ _ | .hlB _ | .hlC _ => true
  | .wordB _ _ | .wordC _ _ | .wordBC _ _ | .spOff _ => false

/-- The memory operands of `MOVW AX, mem` and `MOVW mem, AX` (R191); sfrp F8H is the SP form (R140). -/
def Mem.movwAxForm : Mem → Bool
  | .sfr s => s != 0xF8#8
  | .hlB _ | .hlC _ => false
  | .saddr _ | .abs _ _ | .de _ | .deOff _ _ | .hl _ | .hlOff _ _
  | .wordB _ _ | .wordC _ _ | .wordBC _ _ | .spOff _ => true

/-- The memory operands of `MOVW BC/DE/HL, mem` (R191); the plain address FFF8H is the SP form (R140). -/
def Mem.movwRpForm : Mem → Bool
  | .saddr _ => true
  | .abs es w => es || w != 0xFFF8#16
  | .sfr _ | .de _ | .deOff _ _ | .hl _ | .hlOff _ _ | .hlB _ | .hlC _
  | .wordB _ _ | .wordC _ _ | .wordBC _ _ | .spOff _ => false

/-- The memory operands of the bit instructions but for `!addr16.bit`: saddr, sfr other than PSW, [HL]. -/
def Mem.bitForm : Mem → Bool
  | .saddr _ => true
  | .sfr s => s != 0xFA#8
  | .hl _ => true
  | .abs _ _ | .de _ | .deOff _ _ | .hlOff _ _ | .hlB _ | .hlC _
  | .wordB _ _ | .wordC _ _ | .wordBC _ _ | .spOff _ => false

/-- X, A, C, B: the registers ONEB, CLRB, CMP0 can name (R173, R174, R209). -/
def Reg8.low : Reg8 → Bool
  | .x | .a | .c | .b => true
  | .e | .d | .l | .h => false

/-- AX and BC: the pairs ONEW, CLRW, SHLW, ROLWC can name. -/
def RegPair.low : RegPair → Bool
  | .ax | .bc => true
  | .de | .hl => false

/-- The forms of MOV (R171, R176, R177). -/
def movForm : Opd8 → Opd8 → Bool
  | .reg _, .imm _ => true
  | .mem m, .imm v => m.movImmForm v
  | .psw, .imm _ => true
  | .es, .imm _ => true
  | .cs, .imm _ => true
  | .reg r, .reg q => (r == .a) != (q == .a)
  | .reg r, .mem m => (r == .a && m.movAForm) || ((r == .x || r == .b || r == .c) && m.directForm)
  | .mem m, .reg r => r == .a && m.movAForm
  | .reg r, .psw => r == .a
  | .reg r, .es => r == .a
  | .reg r, .cs => r == .a
  | .psw, .reg r => r == .a
  | .es, .reg r => r == .a
  | .cs, .reg r => r == .a
  | .es, .mem (.saddr _) => true
  | _, _ => false

/-- The forms of XCH A, src (R172). -/
def xchForm : Opd8 → Bool
  | .reg r => r != .a
  | .mem m => m.xchForm
  | .imm _ | .psw | .cs | .es => false

/-- The forms of ONEB, CLRB, CMP0 (R173, R174, R209). -/
def lowByteForm : Opd8 → Bool
  | .reg r => r.low
  | .mem m => m.directForm
  | .imm _ | .psw | .cs | .es => false

/-- The forms of MOVW (R191, R302). -/
def movwForm : Opd16 → Opd16 → Bool
  | .rp _, .imm _ => true
  | .mem (.saddr _), .imm _ => true
  | .mem (.sfr s), .imm _ => s != 0xF8#8
  | .sp, .imm _ => true
  | .rp p, .rp q => (p == .ax) != (q == .ax)
  | .rp p, .mem m => (p == .ax && m.movwAxForm) || (p != .ax && m.movwRpForm)
  | .mem m, .rp p => p == .ax && m.movwAxForm
  | .rp _, .sp => true
  | .sp, .rp p => p == .ax
  | _, _ => false

/-- The forms the eight two-operand byte operations share (R200). -/
def alu8Form : Opd8 → Opd8 → Bool
  | .reg r, .imm _ => r == .a
  | .mem (.saddr _), .imm _ => true
  | .reg r, .reg q => r == .a || q == .a
  | .reg r, .mem m => r == .a && m.aluForm
  | _, _ => false

/-- CMP has the form `!addr16, #byte` besides (R208). -/
def cmpForm : Opd8 → Opd8 → Bool
  | .mem (.abs _ _), .imm _ => true
  | d, s => alu8Form d s

/-- The sources of ADDW AX (R220). -/
def addwForm : Opd16 → Bool
  | .rp _ => true
  | .imm _ => true
  | .mem m => m.incForm
  | .sp => false

/-- The sources of SUBW AX and CMPW AX: no `AX, AX` (R221, R222). -/
def subwForm : Opd16 → Bool
  | .rp p => p != .ax
  | .imm _ => true
  | .mem m => m.incForm
  | .sp => false

/-- The operands of INC and DEC (R241, R242). -/
def incForm : Opd8 → Bool
  | .reg _ => true
  | .mem m => m.incForm
  | .imm _ | .psw | .cs | .es => false

/-- The operands of INCW and DECW (R243, R244). -/
def incwForm : Opd16 → Bool
  | .rp _ => true
  | .mem m => m.incForm
  | .imm _ | .sp => false

/-- The bit operands of MOV1, AND1, OR1, XOR1 beside CY, and of BT, BF, BTCLR (R271 to R274, R324). -/
def bitSrcForm : BitOpd → Bool
  | .mem m _ => m.bitForm
  | .a _ => true
  | .psw _ => true
  | .cy => false

/-- The forms of MOV1 (R271). -/
def mov1Form : BitOpd → BitOpd → Bool
  | .cy, s => bitSrcForm s
  | d, .cy => bitSrcForm d
  | _, _ => false

/-- The operands of SET1 and CLR1 (R275, R276); PSW.7 is EI, DI (R140). -/
def setBitForm : BitOpd → Bool
  | .mem (.abs _ _) _ => true
  | .mem m _ => m.bitForm
  | .a _ => true
  | .psw b => b != 7#3
  | .cy => true

/-- The instruction term is one of the forms of Table 5-8. The PREFIX byte alone is none (R142, R358). -/
def Instr.wf : Instr → Bool
  | .mov d s => movForm d s
  | .xch s => xchForm s
  | .oneb d => lowByteForm d
  | .clrb d => lowByteForm d
  | .movs _ _ => true
  | .movw d s => movwForm d s
  | .xchw p => p != .ax
  | .onew p => p.low
  | .clrw p => p.low
  | .add d s => alu8Form d s
  | .addc d s => alu8Form d s
  | .sub d s => alu8Form d s
  | .subc d s => alu8Form d s
  | .and d s => alu8Form d s
  | .or d s => alu8Form d s
  | .xor d s => alu8Form d s
  | .cmp d s => cmpForm d s
  | .cmp0 d => lowByteForm d
  | .cmps _ _ => true
  | .addw s => addwForm s
  | .addwSp _ => true
  | .subw s => subwForm s
  | .subwSp _ => true
  | .cmpw s => subwForm s
  | .mulu => true
  | .mulhu => true
  | .mulh => true
  | .divhu => true
  | .divwu => true
  | .machu => true
  | .mach => true
  | .inc d => incForm d
  | .dec d => incForm d
  | .incw d => incwForm d
  | .decw d => incwForm d
  | .shr n => n != 0#3
  | .shrw n => n != 0#4
  | .shl r n => (r == .a || r == .b || r == .c) && n != 0#3
  | .shlw p n => p.low && n != 0#4
  | .sar n => n != 0#3
  | .sarw n => n != 0#4
  | .ror => true
  | .rol => true
  | .rorc => true
  | .rolc => true
  | .rolwc p => p.low
  | .mov1 d s => mov1Form d s
  | .and1 s => bitSrcForm s
  | .or1 s => bitSrcForm s
  | .xor1 s => bitSrcForm s
  | .set1 d => setBitForm d
  | .clr1 d => setBitForm d
  | .not1 => true
  | .call _ => true
  | .callt _ => true
  | .brk => true
  | .ret => true
  | .reti => true
  | .retb => true
  | .push _ => true
  | .pop _ => true
  | .br _ => true
  | .bc _ => true
  | .bnc _ => true
  | .bz _ => true
  | .bnz _ => true
  | .bh _ => true
  | .bnh _ => true
  | .bt o _ => bitSrcForm o
  | .bf o _ => bitSrcForm o
  | .btclr o _ => bitSrcForm o
  | .skc => true
  | .sknc => true
  | .skz => true
  | .sknz => true
  | .skh => true
  | .sknh => true
  | .sel _ => true
  | .nop => true
  | .ei => true
  | .di => true
  | .halt => true
  | .stop => true
  | .prefixByte => false

end Sys2Proof
end

