-- ==== Sys2Proof/Decode.lean ====
section
/-! DEFINITION. Bytes to instructions and back. `decode` follows the decoding procedure R123 and the four opcode
maps R131 to R134 cell by cell; `encode` follows the operand tables of the instruction rules (R171 to R358). -/

namespace Sys2Proof

/-! ### Byte helpers -/

/-- The 16-bit value of two bytes, low byte first (R89, R122). -/
def wordOf (lo hi : Byte) : Word := hi ++ lo

/-- Bits 7 to 0 of a word (R16). -/
def loByte (w : Word) : Byte := w.extractLsb' 0 8

/-- Bits 15 to 8 of a word (R16). -/
def hiByte (w : Word) : Byte := w.extractLsb' 8 8

/-- The 8-bit register of a number 0 to 7 (R21, R124). -/
def Reg8.ofNum (n : BitVec 3) : Reg8 :=
  match n.toNat with
  | 0 => .x
  | 1 => .a
  | 2 => .c
  | 3 => .b
  | 4 => .e
  | 5 => .d
  | 6 => .l
  | _ => .h

/-- The number of an 8-bit register (R21, R124). -/
def Reg8.num : Reg8 → BitVec 3
  | .x => 0#3
  | .a => 1#3
  | .c => 2#3
  | .b => 3#3
  | .e => 4#3
  | .d => 5#3
  | .l => 6#3
  | .h => 7#3

/-- The number of a register pair (R21, R124). -/
def RegPair.num : RegPair → BitVec 2
  | .ax => 0#2
  | .bc => 1#2
  | .de => 2#2
  | .hl => 3#2

/-- The high nibble of a byte. -/
def hiNibble (b : Byte) : BitVec 4 := b.extractLsb' 4 4

/-- The low nibble of a byte. -/
def loNibble (b : Byte) : BitVec 4 := b.extractLsb' 0 4

/-- Bits 6 to 4 of a byte: the field `bit`, and `cnt` of an 8-bit shift (R125). -/
def bitField (b : Byte) : BitVec 3 := b.extractLsb' 4 3

/-! ### The ES: forms (R141) -/

/-- The ES: form of a memory operand, where R94 gives it one. -/
def Mem.withEs : Mem → Option Mem
  | .abs _ w => some (.abs true w)
  | .de _ => some (.de true)
  | .deOff _ o => some (.deOff true o)
  | .hl _ => some (.hl true)
  | .hlOff _ o => some (.hlOff true o)
  | .hlB _ => some (.hlB true)
  | .hlC _ => some (.hlC true)
  | .wordB _ w => some (.wordB true w)
  | .wordC _ w => some (.wordC true w)
  | .wordBC _ w => some (.wordBC true w)
  | .saddr _ => none
  | .sfr _ => none
  | .spOff _ => none

/-- The ES: form of an 8-bit operand. -/
def Opd8.withEs : Opd8 → Option Opd8
  | .mem m => m.withEs.map .mem
  | .reg _ | .imm _ | .psw | .cs | .es => none

/-- The ES: form of a 16-bit operand. -/
def Opd16.withEs : Opd16 → Option Opd16
  | .mem m => m.withEs.map .mem
  | .rp _ | .imm _ | .sp => none

/-- The ES: form of a bit operand. -/
def BitOpd.withEs : BitOpd → Option BitOpd
  | .mem m b => m.withEs.map (.mem · b)
  | .a _ | .psw _ | .cy => none

/-- The ES: form of a two-operand byte instruction: one operand at most is a memory operand (R104). -/
def withEs2 (mk : Opd8 → Opd8 → Instr) (d s : Opd8) : Option Instr :=
  match d.withEs with
  | some d' => some (mk d' s)
  | none => s.withEs.map (mk d ·)

/-- The ES: form of MOVW. `MOVW BC/DE/HL, SP` is `MOVW rp, !0FFF8H` (R140), whose ES: form is an ordinary
`ES:!addr16` access (R141). -/
def movwWithEs (d s : Opd16) : Option Instr :=
  match d, s with
  | .rp .ax, .sp => none
  | .rp p, .sp => some (.movw (.rp p) (.mem (.abs true 0xFFF8#16)))
  | d, s =>
    match d.withEs with
    | some d' => some (.movw d' s)
    | none => s.withEs.map (.movw d ·)

/-- The instruction that the byte 11H in front of a plain instruction makes, where Table 5-8 lists one (R141). -/
def Instr.withEs : Instr → Option Instr
  | .mov d s => withEs2 .mov d s
  | .xch s => s.withEs.map .xch
  | .oneb d => d.withEs.map .oneb
  | .clrb d => d.withEs.map .clrb
  | .movs _ o => some (.movs true o)
  | .movw d s => movwWithEs d s
  | .add d s => withEs2 .add d s
  | .addc d s => withEs2 .addc d s
  | .sub d s => withEs2 .sub d s
  | .subc d s => withEs2 .subc d s
  | .and d s => withEs2 .and d s
  | .or d s => withEs2 .or d s
  | .xor d s => withEs2 .xor d s
  | .cmp d s => withEs2 .cmp d s
  | .cmp0 d => d.withEs.map .cmp0
  | .cmps _ o => some (.cmps true o)
  | .addw s => s.withEs.map .addw
  | .subw s => s.withEs.map .subw
  | .cmpw s => s.withEs.map .cmpw
  | .inc d => d.withEs.map .inc
  | .dec d => d.withEs.map .dec
  | .incw d => d.withEs.map .incw
  | .decw d => d.withEs.map .decw
  | .mov1 d s =>
    match d.withEs with
    | some d' => some (.mov1 d' s)
    | none => s.withEs.map (.mov1 d ·)
  | .and1 s => s.withEs.map .and1
  | .or1 s => s.withEs.map .or1
  | .xor1 s => s.withEs.map .xor1
  | .set1 d => d.withEs.map .set1
  | .clr1 d => d.withEs.map .clr1
  | .bt o d => o.withEs.map (.bt · d)
  | .bf o d => o.withEs.map (.bf · d)
  | .btclr o d => o.withEs.map (.btclr · d)
  | .xchw _ | .onew _ | .clrw _ | .addwSp _ | .subwSp _ | .mulu | .mulhu | .mulh | .divhu | .divwu | .machu | .mach
  | .shr _ | .shrw _ | .shl _ _ | .shlw _ _ | .sar _ | .sarw _ | .ror | .rol | .rorc | .rolc | .rolwc _ | .not1
  | .call _ | .callt _ | .brk | .ret | .reti | .retb | .push _ | .pop _ | .br _ | .bc _ | .bnc _ | .bz _ | .bnz _
  | .bh _ | .bnh _ | .skc | .sknc | .skz | .sknz | .skh | .sknh | .sel _ | .nop | .ei | .di | .halt | .stop
  | .prefixByte => none

/-! ### Decoding -/

/-- What the decoder answers on the bytes fetched so far: an instruction that the first of them make up, a wish for
one more byte, or no instruction of Table 5-8 (R145). -/
inductive DecodeResult where
  | done (i : Instr)
  | more
  | undefined
  deriving DecidableEq, Repr

/-- A cell of an opcode map: what it makes of the operand bytes that follow. -/
abbrev MapCell := List Byte → DecodeResult

/-- A blank cell (R145). -/
def cUndef : MapCell := fun _ => .undefined

/-- A cell without operand bytes. -/
def c0 (i : Instr) : MapCell := fun _ => .done i

/-- A cell with one operand byte whose value may select an alias (R140). -/
def c1x (f : Byte → DecodeResult) : MapCell
  | b :: _ => f b
  | [] => .more

/-- A cell with one operand byte. -/
def c1 (f : Byte → Instr) : MapCell := c1x fun b => .done (f b)

/-- A cell with two operand bytes. -/
def c2x (f : Byte → Byte → DecodeResult) : MapCell
  | b :: c :: _ => f b c
  | _ => .more

/-- A cell with a byte field and an immediate byte. -/
def c2 (f : Byte → Byte → Instr) : MapCell := c2x fun b c => .done (f b c)

/-- A cell with a 16-bit field (R122). -/
def cW (f : Word → Instr) : MapCell := c2x fun l h => .done (f (wordOf l h))

/-- A cell with three operand bytes. -/
def c3x (f : Byte → Byte → Byte → DecodeResult) : MapCell
  | b :: c :: d :: _ => f b c d
  | _ => .more

/-- A cell with a 16-bit field and an immediate byte. -/
def cWB (f : Word → Byte → Instr) : MapCell := c3x fun l h v => .done (f (wordOf l h) v)

/-- A cell with a byte field and a 16-bit immediate. -/
def cBW (f : Byte → Word → Instr) : MapCell := c3x fun b l h => .done (f b (wordOf l h))

/-- A cell with a 20-bit address; the upper nibble of `adrs` must be 0 (R127). -/
def cA20 (f : Addr → Instr) : MapCell := c3x fun l h s =>
  if hiNibble s = 0#4 then .done (f ((loNibble s ++ wordOf l h : Addr))) else .undefined

/-- The operand A. -/
def opdA : Opd8 := .reg .a

/-- The operand AX. -/
def opdAX : Opd16 := .rp .ax

/-- `MOV sfr, #byte` and the instructions mapped into its cell CEH (R131, R135, R140). -/
def movSfrImm (s v : Byte) : Instr :=
  if s = 0xFA#8 then .mov .psw (.imm v)
  else if s = 0xFC#8 then .mov .cs (.imm v)
  else if s = 0xFB#8 then
    if v = 0x01#8 then .mulhu
    else if v = 0x02#8 then .mulh
    else if v = 0x03#8 then .divhu
    else if v = 0x0B#8 then .divwu
    else if v = 0x05#8 then .machu
    else if v = 0x06#8 then .mach
    else .mov (.mem (.sfr s)) (.imm v)
  else .mov (.mem (.sfr s)) (.imm v)

/-- The operand of `MOV A, sfr` and `MOV sfr, A` (R140). -/
def sfrOpd (s : Byte) : Opd8 :=
  if s = 0xFA#8 then .psw
  else if s = 0xFC#8 then .cs
  else if s = 0xFD#8 then .es
  else .mem (.sfr s)

/-- The operand of `MOVW AX, sfrp`, `MOVW sfrp, AX`, `MOVW sfrp, #word` (R140). -/
def sfrpOpd (s : Byte) : Opd16 := if s = 0xF8#8 then .sp else .mem (.sfr s)

/-- The source of `MOVW BC/DE/HL, !addr16` (R140). -/
def rpAbsOpd (w : Word) : Opd16 := if w = 0xFFF8#16 then .sp else .mem (.abs false w)

/-- The operand of the `sfr.bit` forms (R140). -/
def sfrBitOpd (s : Byte) (b : BitVec 3) : BitOpd := if s = 0xFA#8 then .psw b else .mem (.sfr s) b

/-- The six cells xAH to xFH of an 8-bit operation in the 1st MAP (R131, R200). -/
def aluCells (mk : Opd8 → Opd8 → Instr) : List MapCell :=
  [c2 fun s v => mk (.mem (.saddr s)) (.imm v), c1 fun s => mk opdA (.mem (.saddr s)), c1 fun v => mk opdA (.imm v),
   c0 (mk opdA (.mem (.hl false))), c1 fun o => mk opdA (.mem (.hlOff false o)),
   cW fun w => mk opdA (.mem (.abs false w))]

/-- The eight cells n0H to n7H of an 8-bit operation in the 2nd MAP: `op r, A` (R132, R200). -/
def aluRegACells (mk : Opd8 → Opd8 → Instr) : List MapCell :=
  [c0 (mk (.reg .x) opdA), c0 (mk (.reg .a) opdA), c0 (mk (.reg .c) opdA), c0 (mk (.reg .b) opdA),
   c0 (mk (.reg .e) opdA), c0 (mk (.reg .d) opdA), c0 (mk (.reg .l) opdA), c0 (mk (.reg .h) opdA)]

/-- The cells n8H and nAH to nFH of an 8-bit operation in the 2nd MAP, `op A, r`, around the cell n9H (R132). -/
def aluARegCells (mk : Opd8 → Opd8 → Instr) (nine : MapCell) : List MapCell :=
  [c0 (mk opdA (.reg .x)), nine, c0 (mk opdA (.reg .c)), c0 (mk opdA (.reg .b)),
   c0 (mk opdA (.reg .e)), c0 (mk opdA (.reg .d)), c0 (mk opdA (.reg .l)), c0 (mk opdA (.reg .h))]

/-- The 1st MAP (R131), rows 0 to 7. The page bytes 31H, 61H, 71H and the byte 11H are taken before the map. -/
def map1a : List MapCell :=
  -- 00H
  [c0 .nop, c0 (.addw opdAX), cW fun w => .addw (.mem (.abs false w)), c0 (.addw (.rp .bc)),
   cW fun w => .addw (.imm w), c0 (.addw (.rp .de)), c1 fun s => .addw (.mem (.saddr s)), c0 (.addw (.rp .hl)),
   c0 (.xch (.reg .x)), cW fun w => .mov opdA (.mem (.wordB false w))] ++ aluCells .add ++
  -- 10H
  [c1 fun v => .addwSp v, cUndef, c0 (.movw (.rp .bc) opdAX), c0 (.movw opdAX (.rp .bc)),
   c0 (.movw (.rp .de) opdAX), c0 (.movw opdAX (.rp .de)), c0 (.movw (.rp .hl) opdAX), c0 (.movw opdAX (.rp .hl)),
   cW fun w => .mov (.mem (.wordB false w)) opdA, cWB fun w v => .mov (.mem (.wordB false w)) (.imm v)] ++
  aluCells .addc ++
  -- 20H
  [c1 fun v => .subwSp v, cUndef, cW fun w => .subw (.mem (.abs false w)), c0 (.subw (.rp .bc)),
   cW fun w => .subw (.imm w), c0 (.subw (.rp .de)), c1 fun s => .subw (.mem (.saddr s)), c0 (.subw (.rp .hl)),
   cW fun w => .mov (.mem (.wordC false w)) opdA, cW fun w => .mov opdA (.mem (.wordC false w))] ++
  aluCells .sub ++
  -- 30H
  [cW fun w => .movw opdAX (.imm w), cUndef, cW fun w => .movw (.rp .bc) (.imm w), c0 (.xchw .bc),
   cW fun w => .movw (.rp .de) (.imm w), c0 (.xchw .de), cW fun w => .movw (.rp .hl) (.imm w), c0 (.xchw .hl),
   cWB fun w v => .mov (.mem (.wordC false w)) (.imm v), cWB fun w v => .mov (.mem (.wordBC false w)) (.imm v)] ++
  aluCells .subc ++
  -- 40H
  [cWB fun w v => .cmp (.mem (.abs false w)) (.imm v), c1 fun v => .mov .es (.imm v),
   cW fun w => .cmpw (.mem (.abs false w)), c0 (.cmpw (.rp .bc)), cW fun w => .cmpw (.imm w), c0 (.cmpw (.rp .de)),
   c1 fun s => .cmpw (.mem (.saddr s)), c0 (.cmpw (.rp .hl)), cW fun w => .mov (.mem (.wordBC false w)) opdA,
   cW fun w => .mov opdA (.mem (.wordBC false w))] ++ aluCells .cmp ++
  -- 50H
  [c1 fun v => .mov (.reg .x) (.imm v), c1 fun v => .mov (.reg .a) (.imm v), c1 fun v => .mov (.reg .c) (.imm v),
   c1 fun v => .mov (.reg .b) (.imm v), c1 fun v => .mov (.reg .e) (.imm v), c1 fun v => .mov (.reg .d) (.imm v),
   c1 fun v => .mov (.reg .l) (.imm v), c1 fun v => .mov (.reg .h) (.imm v),
   cW fun w => .movw (.mem (.wordB false w)) opdAX, cW fun w => .movw opdAX (.mem (.wordB false w))] ++
  aluCells .and ++
  -- 60H
  [c0 (.mov opdA (.reg .x)), cUndef, c0 (.mov opdA (.reg .c)), c0 (.mov opdA (.reg .b)),
   c0 (.mov opdA (.reg .e)), c0 (.mov opdA (.reg .d)), c0 (.mov opdA (.reg .l)), c0 (.mov opdA (.reg .h)),
   cW fun w => .movw (.mem (.wordC false w)) opdAX, cW fun w => .movw opdAX (.mem (.wordC false w))] ++
  aluCells .or ++
  -- 70H
  [c0 (.mov (.reg .x) opdA), cUndef, c0 (.mov (.reg .c) opdA), c0 (.mov (.reg .b) opdA),
   c0 (.mov (.reg .e) opdA), c0 (.mov (.reg .d) opdA), c0 (.mov (.reg .l) opdA), c0 (.mov (.reg .h) opdA),
   cW fun w => .movw (.mem (.wordBC false w)) opdAX, cW fun w => .movw opdAX (.mem (.wordBC false w))] ++
  aluCells .xor

/-- The 1st MAP (R131), rows 8 to F. -/
def map1b : List MapCell :=
  -- 80H
  [c0 (.inc (.reg .x)), c0 (.inc (.reg .a)), c0 (.inc (.reg .c)), c0 (.inc (.reg .b)),
   c0 (.inc (.reg .e)), c0 (.inc (.reg .d)), c0 (.inc (.reg .l)), c0 (.inc (.reg .h)),
   c1 fun o => .mov opdA (.mem (.spOff o)), c0 (.mov opdA (.mem (.de false))),
   c1 fun o => .mov opdA (.mem (.deOff false o)), c0 (.mov opdA (.mem (.hl false))),
   c1 fun o => .mov opdA (.mem (.hlOff false o)), c1 fun s => .mov opdA (.mem (.saddr s)),
   c1 fun s => .mov opdA (sfrOpd s), cW fun w => .mov opdA (.mem (.abs false w))] ++
  -- 90H
  [c0 (.dec (.reg .x)), c0 (.dec (.reg .a)), c0 (.dec (.reg .c)), c0 (.dec (.reg .b)),
   c0 (.dec (.reg .e)), c0 (.dec (.reg .d)), c0 (.dec (.reg .l)), c0 (.dec (.reg .h)),
   c1 fun o => .mov (.mem (.spOff o)) opdA, c0 (.mov (.mem (.de false)) opdA),
   c1 fun o => .mov (.mem (.deOff false o)) opdA, c0 (.mov (.mem (.hl false)) opdA),
   c1 fun o => .mov (.mem (.hlOff false o)) opdA, c1 fun s => .mov (.mem (.saddr s)) opdA,
   c1 fun s => .mov (sfrOpd s) opdA, cW fun w => .mov (.mem (.abs false w)) opdA] ++
  -- A0H
  [cW fun w => .inc (.mem (.abs false w)), c0 (.incw (.rp .ax)), cW fun w => .incw (.mem (.abs false w)),
   c0 (.incw (.rp .bc)), c1 fun s => .inc (.mem (.saddr s)), c0 (.incw (.rp .de)),
   c1 fun s => .incw (.mem (.saddr s)), c0 (.incw (.rp .hl)),
   c1 fun o => .movw opdAX (.mem (.spOff o)), c0 (.movw opdAX (.mem (.de false))),
   c1 fun o => .movw opdAX (.mem (.deOff false o)), c0 (.movw opdAX (.mem (.hl false))),
   c1 fun o => .movw opdAX (.mem (.hlOff false o)), c1 fun s => .movw opdAX (.mem (.saddr s)),
   c1 fun s => .movw opdAX (sfrpOpd s), cW fun w => .movw opdAX (.mem (.abs false w))] ++
  -- B0H
  [cW fun w => .dec (.mem (.abs false w)), c0 (.decw (.rp .ax)), cW fun w => .decw (.mem (.abs false w)),
   c0 (.decw (.rp .bc)), c1 fun s => .dec (.mem (.saddr s)), c0 (.decw (.rp .de)),
   c1 fun s => .decw (.mem (.saddr s)), c0 (.decw (.rp .hl)),
   c1 fun o => .movw (.mem (.spOff o)) opdAX, c0 (.movw (.mem (.de false)) opdAX),
   c1 fun o => .movw (.mem (.deOff false o)) opdAX, c0 (.movw (.mem (.hl false)) opdAX),
   c1 fun o => .movw (.mem (.hlOff false o)) opdAX, c1 fun s => .movw (.mem (.saddr s)) opdAX,
   c1 fun s => .movw (sfrpOpd s) opdAX, cW fun w => .movw (.mem (.abs false w)) opdAX] ++
  -- C0H
  [c0 (.pop (.rp .ax)), c0 (.push (.rp .ax)), c0 (.pop (.rp .bc)), c0 (.push (.rp .bc)),
   c0 (.pop (.rp .de)), c0 (.push (.rp .de)), c0 (.pop (.rp .hl)), c0 (.push (.rp .hl)),
   c2 fun o v => .mov (.mem (.spOff o)) (.imm v), cBW fun s w => .movw (.mem (.saddr s)) (.imm w),
   c2 fun o v => .mov (.mem (.deOff false o)) (.imm v), cBW fun s w => .movw (sfrpOpd s) (.imm w),
   c2 fun o v => .mov (.mem (.hlOff false o)) (.imm v), c2 fun s v => .mov (.mem (.saddr s)) (.imm v),
   c2 movSfrImm, cWB fun w v => .mov (.mem (.abs false w)) (.imm v)] ++
  -- D0H
  [c0 (.cmp0 (.reg .x)), c0 (.cmp0 (.reg .a)), c0 (.cmp0 (.reg .c)), c0 (.cmp0 (.reg .b)),
   c1 fun s => .cmp0 (.mem (.saddr s)), cW fun w => .cmp0 (.mem (.abs false w)), c0 .mulu, c0 .ret,
   c1 fun s => .mov (.reg .x) (.mem (.saddr s)), cW fun w => .mov (.reg .x) (.mem (.abs false w)),
   c1 fun s => .movw (.rp .bc) (.mem (.saddr s)), cW fun w => .movw (.rp .bc) (rpAbsOpd w),
   c1 fun d => .bc d, c1 fun d => .bz d, c1 fun d => .bnc d, c1 fun d => .bnz d] ++
  -- E0H
  [c0 (.oneb (.reg .x)), c0 (.oneb (.reg .a)), c0 (.oneb (.reg .c)), c0 (.oneb (.reg .b)),
   c1 fun s => .oneb (.mem (.saddr s)), cW fun w => .oneb (.mem (.abs false w)), c0 (.onew .ax), c0 (.onew .bc),
   c1 fun s => .mov (.reg .b) (.mem (.saddr s)), cW fun w => .mov (.reg .b) (.mem (.abs false w)),
   c1 fun s => .movw (.rp .de) (.mem (.saddr s)), cW fun w => .movw (.rp .de) (rpAbsOpd w),
   cA20 fun a => .br (.abs20 a), cW fun w => .br (.abs16 w), cW fun w => .br (.rel16 w), c1 fun d => .br (.rel8 d)] ++
  -- F0H
  [c0 (.clrb (.reg .x)), c0 (.clrb (.reg .a)), c0 (.clrb (.reg .c)), c0 (.clrb (.reg .b)),
   c1 fun s => .clrb (.mem (.saddr s)), cW fun w => .clrb (.mem (.abs false w)), c0 (.clrw .ax), c0 (.clrw .bc),
   c1 fun s => .mov (.reg .c) (.mem (.saddr s)), cW fun w => .mov (.reg .c) (.mem (.abs false w)),
   c1 fun s => .movw (.rp .hl) (.mem (.saddr s)), cW fun w => .movw (.rp .hl) (rpAbsOpd w),
   cA20 fun a => .call (.abs20 a), cW fun w => .call (.abs16 w), cW fun w => .call (.rel16 w), cUndef]

/-- The CALLT cell of a second byte: the table entry number is `x :: y`, so that `addr5 = 0080H + 2 * n` (R128). -/
def calltCell (b : Byte) : MapCell := c0 (.callt ((b.extractLsb' 0 2 ++ b.extractLsb' 4 3 : BitVec 5)))

/-- The 2nd MAP (R132), rows 0 to 7. -/
def map2a : List MapCell :=
  aluRegACells .add ++ aluARegCells .add (c1 fun o => .addw (.mem (.hlOff false o))) ++
  aluRegACells .addc ++ aluARegCells .addc cUndef ++
  aluRegACells .sub ++ aluARegCells .sub (c1 fun o => .subw (.mem (.hlOff false o))) ++
  aluRegACells .subc ++ aluARegCells .subc cUndef ++
  aluRegACells .cmp ++ aluARegCells .cmp (c1 fun o => .cmpw (.mem (.hlOff false o))) ++
  aluRegACells .and ++ aluARegCells .and (c1 fun o => .inc (.mem (.hlOff false o))) ++
  aluRegACells .or ++ aluARegCells .or (c1 fun o => .dec (.mem (.hlOff false o))) ++
  aluRegACells .xor ++ aluARegCells .xor (c1 fun o => .incw (.mem (.hlOff false o)))

/-- The cells n0H to n7H of the rows 8 to F of the 2nd MAP: `op A, [HL+B]`, `op A, [HL+C]`, CALLT (R132). -/
def map2Left (mk : Opd8 → Opd8 → Instr) (three : MapCell) (row : Byte) : List MapCell :=
  [c0 (mk opdA (.mem (.hlB false))), cUndef, c0 (mk opdA (.mem (.hlC false))), three,
   calltCell (row + 4#8), calltCell (row + 5#8), calltCell (row + 6#8), calltCell (row + 7#8)]

/-- The 2nd MAP (R132), rows 8 to F. -/
def map2b : List MapCell :=
  -- 80H
  map2Left .add cUndef 0x80#8 ++
  [cUndef, c1 fun o => .decw (.mem (.hlOff false o)), c0 (.xch (.reg .c)), c0 (.xch (.reg .b)),
   c0 (.xch (.reg .e)), c0 (.xch (.reg .d)), c0 (.xch (.reg .l)), c0 (.xch (.reg .h))] ++
  -- 90H
  map2Left .addc cUndef 0x90#8 ++ [cUndef, cUndef, cUndef, cUndef, cUndef, cUndef, cUndef, cUndef] ++
  -- A0H
  map2Left .sub cUndef 0xA0#8 ++
  [c1 fun s => .xch (.mem (.saddr s)), c0 (.xch (.mem (.hlC false))), cW fun w => .xch (.mem (.abs false w)),
   c1 fun s => .xch (.mem (.sfr s)), c0 (.xch (.mem (.hl false))), c1 fun o => .xch (.mem (.hlOff false o)),
   c0 (.xch (.mem (.de false))), c1 fun o => .xch (.mem (.deOff false o))] ++
  -- B0H
  map2Left .subc cUndef 0xB0#8 ++
  [c1 fun s => .mov .es (.mem (.saddr s)), c0 (.xch (.mem (.hlB false))), cUndef, cUndef, cUndef, cUndef, cUndef,
   cUndef] ++
  -- C0H
  map2Left .cmp (c1 fun d => .bh d) 0xC0#8 ++
  [c0 .skc, c0 (.mov opdA (.mem (.hlB false))), c0 (.call (.rp .ax)), c0 (.br .ax), c0 .brk, c0 (.pop .psw),
   c1 fun o => .movs false o, c0 (.sel 0#2)] ++
  -- D0H
  map2Left .and (c1 fun d => .bnh d) 0xD0#8 ++
  [c0 .sknc, c0 (.mov (.mem (.hlB false)) opdA), c0 (.call (.rp .bc)), c0 .ror, c0 .rolc, c0 (.push .psw),
   c1 fun o => .cmps false o, c0 (.sel 1#2)] ++
  -- E0H
  map2Left .or (c0 .skh) 0xE0#8 ++
  [c0 .skz, c0 (.mov opdA (.mem (.hlC false))), c0 (.call (.rp .de)), c0 .rol, c0 .retb, c0 .halt,
   c0 (.rolwc .ax), c0 (.sel 2#2)] ++
  -- F0H
  map2Left .xor (c0 .sknh) 0xF0#8 ++
  [c0 .sknz, c0 (.mov (.mem (.hlC false)) opdA), c0 (.call (.rp .hl)), c0 .rorc, c0 .reti, c0 .stop,
   c0 (.rolwc .bc), c0 (.sel 3#2)]

/-- The cell of a map at a byte. -/
def cellAt (m : List MapCell) (b : Byte) : MapCell := m.getD b.toNat cUndef

/-- The cell of a map given as two halves, for the bytes 00H to 7FH and 80H to FFH. -/
def halfCellAt (a b : List MapCell) (v : Byte) : MapCell :=
  if v.toNat < 128 then a.getD v.toNat cUndef else b.getD (v.toNat - 128) cUndef

/-- The 3rd MAP (R133) by the second byte: bits 6 to 4 are the bit number, bit 7 and the low nibble select. -/
def map3 (b : Byte) : MapCell :=
  let n := bitField b
  if hiNibble b < 8#4 then
    match (loNibble b).toNat with
    | 0x0 => cW fun w => .set1 (.mem (.abs false w) n)
    | 0x1 => c1 fun s => .mov1 (.mem (.saddr s) n) .cy
    | 0x2 => c1 fun s => .set1 (.mem (.saddr s) n)
    | 0x3 => c1 fun s => .clr1 (.mem (.saddr s) n)
    | 0x4 => c1 fun s => .mov1 .cy (.mem (.saddr s) n)
    | 0x5 => c1 fun s => .and1 (.mem (.saddr s) n)
    | 0x6 => c1 fun s => .or1 (.mem (.saddr s) n)
    | 0x7 => c1 fun s => .xor1 (.mem (.saddr s) n)
    | 0x8 => cW fun w => .clr1 (.mem (.abs false w) n)
    | 0x9 => c1 fun s => .mov1 (sfrBitOpd s n) .cy
    | 0xA => c1 fun s => if s = 0xFA#8 ∧ n = 7#3 then .ei else .set1 (sfrBitOpd s n)
    | 0xB => c1 fun s => if s = 0xFA#8 ∧ n = 7#3 then .di else .clr1 (sfrBitOpd s n)
    | 0xC => c1 fun s => .mov1 .cy (sfrBitOpd s n)
    | 0xD => c1 fun s => .and1 (sfrBitOpd s n)
    | 0xE => c1 fun s => .or1 (sfrBitOpd s n)
    | _ => c1 fun s => .xor1 (sfrBitOpd s n)
  else
    match (loNibble b).toNat with
    | 0x0 => if n = 0#3 then c0 (.set1 .cy) else if n = 4#3 then c0 .not1 else cUndef
    | 0x1 => c0 (.mov1 (.mem (.hl false) n) .cy)
    | 0x2 => c0 (.set1 (.mem (.hl false) n))
    | 0x3 => c0 (.clr1 (.mem (.hl false) n))
    | 0x4 => c0 (.mov1 .cy (.mem (.hl false) n))
    | 0x5 => c0 (.and1 (.mem (.hl false) n))
    | 0x6 => c0 (.or1 (.mem (.hl false) n))
    | 0x7 => c0 (.xor1 (.mem (.hl false) n))
    | 0x8 => if n = 0#3 then c0 (.clr1 .cy) else cUndef
    | 0x9 => c0 (.mov1 (.a n) .cy)
    | 0xA => c0 (.set1 (.a n))
    | 0xB => c0 (.clr1 (.a n))
    | 0xC => c0 (.mov1 .cy (.a n))
    | 0xD => c0 (.and1 (.a n))
    | 0xE => c0 (.or1 (.a n))
    | _ => c0 (.xor1 (.a n))

/-- An 8-bit shift cell: counts 1 to 7 (R125, R250). -/
def shiftCell (f : BitVec 3 → Instr) (b : Byte) : MapCell :=
  if hiNibble b < 8#4 ∧ bitField b ≠ 0#3 then c0 (f (bitField b)) else cUndef

/-- A 16-bit shift cell: counts 1 to 15 (R125, R250). -/
def shiftwCell (f : BitVec 4 → Instr) (b : Byte) : MapCell :=
  if hiNibble b ≠ 0#4 then c0 (f (hiNibble b)) else cUndef

/-- The 4th MAP (R134) by the second byte. -/
def map4 (b : Byte) : MapCell :=
  let n := bitField b
  let low : Bool := hiNibble b < 8#4
  match (loNibble b).toNat with
  | 0x0 => if low then c2 fun s d => .btclr (.mem (.saddr s) n) d else c2 fun s d => .btclr (sfrBitOpd s n) d
  | 0x1 => if low then c1 fun d => .btclr (.a n) d else c1 fun d => .btclr (.mem (.hl false) n) d
  | 0x2 => if low then c2 fun s d => .bt (.mem (.saddr s) n) d else c2 fun s d => .bt (sfrBitOpd s n) d
  | 0x3 => if low then c1 fun d => .bt (.a n) d else c1 fun d => .bt (.mem (.hl false) n) d
  | 0x4 => if low then c2 fun s d => .bf (.mem (.saddr s) n) d else c2 fun s d => .bf (sfrBitOpd s n) d
  | 0x5 => if low then c1 fun d => .bf (.a n) d else c1 fun d => .bf (.mem (.hl false) n) d
  | 0x6 => cUndef
  | 0x7 => shiftCell (.shl .c ·) b
  | 0x8 => shiftCell (.shl .b ·) b
  | 0x9 => shiftCell (.shl .a ·) b
  | 0xA => shiftCell .shr b
  | 0xB => shiftCell .sar b
  | 0xC => shiftwCell (.shlw .bc ·) b
  | 0xD => shiftwCell (.shlw .ax ·) b
  | 0xE => shiftwCell .shrw b
  | _ => shiftwCell .sarw b

/-- Decoding without PREFIX (R121, R123): the first byte selects a cell or one of the maps of the page bytes. -/
def decodePlain : List Byte → DecodeResult
  | [] => .more
  | b :: rest =>
    if b = 0x61#8 then
      match rest with
      | [] => .more
      | b2 :: ops => halfCellAt map2a map2b b2 ops
    else if b = 0x71#8 then
      match rest with
      | [] => .more
      | b2 :: ops => map3 b2 ops
    else if b = 0x31#8 then
      match rest with
      | [] => .more
      | b2 :: ops => map4 b2 ops
    else halfCellAt map1a map1b b rest

/-- What 11H in front of a plain decoding makes: the ES: form, or the bare PREFIX byte where the form has none
(R141, R142). -/
def DecodeResult.addEs : DecodeResult → DecodeResult
  | .done i =>
    match i.withEs with
    | some j => .done j
    | none => .done .prefixByte
  | .more => .more
  | .undefined => .undefined

/-- The decoding procedure R123 on the bytes fetched so far. Bytes after the instruction's own do not matter. -/
def decode : List Byte → DecodeResult
  | [] => .more
  | b :: rest => if b = 0x11#8 then (decodePlain rest).addEs else decodePlain (b :: rest)

/-! ### Encoding -/

/-- The operand bytes of a memory operand (R122). -/
def Mem.operandBytes : Mem → List Byte
  | .saddr s => [s]
  | .sfr s => [s]
  | .abs _ w => [loByte w, hiByte w]
  | .de _ => []
  | .deOff _ o => [o]
  | .hl _ => []
  | .hlOff _ o => [o]
  | .hlB _ => []
  | .hlC _ => []
  | .wordB _ w => [loByte w, hiByte w]
  | .wordC _ w => [loByte w, hiByte w]
  | .wordBC _ w => [loByte w, hiByte w]
  | .spOff o => [o]

/-- The operand is written with `ES:`. -/
def Mem.hasEs : Mem → Bool
  | .abs e _ => e
  | .de e => e
  | .deOff e _ => e
  | .hl e => e
  | .hlOff e _ => e
  | .hlB e => e
  | .hlC e => e
  | .wordB e _ => e
  | .wordC e _ => e
  | .wordBC e _ => e
  | .saddr _ => false
  | .sfr _ => false
  | .spOff _ => false

def Opd8.hasEs : Opd8 → Bool
  | .mem m => m.hasEs
  | .reg _ | .imm _ | .psw | .cs | .es => false

def Opd16.hasEs : Opd16 → Bool
  | .mem m => m.hasEs
  | .rp _ | .imm _ | .sp => false

def BitOpd.hasEs : BitOpd → Bool
  | .mem m _ => m.hasEs
  | .a _ | .psw _ | .cy => false

/-- The instruction carries the PREFIX byte (R141). -/
def Instr.hasEs : Instr → Bool
  | .mov d s | .add d s | .addc d s | .sub d s | .subc d s | .and d s | .or d s | .xor d s | .cmp d s =>
    d.hasEs || s.hasEs
  | .xch o | .oneb o | .clrb o | .cmp0 o | .inc o | .dec o => o.hasEs
  | .movs e _ | .cmps e _ => e
  | .movw d s => d.hasEs || s.hasEs
  | .addw o | .subw o | .cmpw o | .incw o | .decw o => o.hasEs
  | .mov1 d s => d.hasEs || s.hasEs
  | .and1 o | .or1 o | .xor1 o | .set1 o | .clr1 o => o.hasEs
  | .bt o _ | .bf o _ | .btclr o _ => o.hasEs
  | .xchw _ | .onew _ | .clrw _ | .addwSp _ | .subwSp _ | .mulu | .mulhu | .mulh | .divhu | .divwu | .machu | .mach
  | .shr _ | .shrw _ | .shl _ _ | .shlw _ _ | .sar _ | .sarw _ | .ror | .rol | .rorc | .rolc | .rolwc _ | .not1
  | .call _ | .callt _ | .brk | .ret | .reti | .retb | .push _ | .pop _ | .br _ | .bc _ | .bnc _ | .bz _ | .bnz _
  | .bh _ | .bnh _ | .skc | .sknc | .skz | .sknz | .skh | .sknh | .sel _ | .nop | .ei | .di | .halt | .stop
  | .prefixByte => false

/-- A register number in the low three bits of an opcode byte (R124). -/
def plusReg (base : Byte) (r : Reg8) : Byte := base + r.num.setWidth 8

/-- A pair number in bits 2 to 1 of an opcode byte (R124). -/
def plusPair (base : Byte) (p : RegPair) : Byte := base + 2#8 * p.num.setWidth 8

/-- A pair number in the high nibble of an opcode byte (R124). -/
def plusPairHi (base : Byte) (p : RegPair) : Byte := base + 16#8 * p.num.setWidth 8

/-- The byte `(bit << 4) | k`, with bit 7 set in the second column group (R125). -/
def bitByte (hi : Bool) (bit : BitVec 3) (k : BitVec 4) : Byte := BitVec.ofBool hi ++ bit ++ k

/-- Opcode bytes of `MOV mem, #byte` (R171). -/
def movImmOp : Mem → List Byte
  | .saddr _ => [0xCD#8]
  | .sfr _ => [0xCE#8]
  | .abs _ _ => [0xCF#8]
  | .deOff _ _ => [0xCA#8]
  | .hlOff _ _ => [0xCC#8]
  | .wordB _ _ => [0x19#8]
  | .wordC _ _ => [0x38#8]
  | .wordBC _ _ => [0x39#8]
  | .spOff _ => [0xC8#8]
  | .de _ | .hl _ | .hlB _ | .hlC _ => []

/-- Opcode bytes of `MOV A, mem` (R171). -/
def movLoadOp : Mem → List Byte
  | .saddr _ => [0x8D#8]
  | .sfr _ => [0x8E#8]
  | .abs _ _ => [0x8F#8]
  | .de _ => [0x89#8]
  | .deOff _ _ => [0x8A#8]
  | .hl _ => [0x8B#8]
  | .hlOff _ _ => [0x8C#8]
  | .hlB _ => [0x61#8, 0xC9#8]
  | .hlC _ => [0x61#8, 0xE9#8]
  | .wordB _ _ => [0x09#8]
  | .wordC _ _ => [0x29#8]
  | .wordBC _ _ => [0x49#8]
  | .spOff _ => [0x88#8]

/-- Opcode bytes of `MOV mem, A` (R171). -/
def movStoreOp : Mem → List Byte
  | .saddr _ => [0x9D#8]
  | .sfr _ => [0x9E#8]
  | .abs _ _ => [0x9F#8]
  | .de _ => [0x99#8]
  | .deOff _ _ => [0x9A#8]
  | .hl _ => [0x9B#8]
  | .hlOff _ _ => [0x9C#8]
  | .hlB _ => [0x61#8, 0xD9#8]
  | .hlC _ => [0x61#8, 0xF9#8]
  | .wordB _ _ => [0x18#8]
  | .wordC _ _ => [0x28#8]
  | .wordBC _ _ => [0x48#8]
  | .spOff _ => [0x98#8]

/-- The opcode of an instruction that has only the forms `saddr` and `!addr16`. -/
def directOp (sa ab : Byte) : Mem → List Byte
  | .saddr _ => [sa]
  | .abs _ _ => [ab]
  | .sfr _ | .de _ | .deOff _ _ | .hl _ | .hlOff _ _ | .hlB _ | .hlC _
  | .wordB _ _ | .wordC _ _ | .wordBC _ _ | .spOff _ => []

/-- MOV (R171, R176, R177). -/
def encMov : Opd8 → Opd8 → List Byte
  | .reg r, .imm v => [plusReg 0x50#8 r, v]
  | .mem m, .imm v => movImmOp m ++ m.operandBytes ++ [v]
  | .psw, .imm v => [0xCE#8, 0xFA#8, v]
  | .es, .imm v => [0x41#8, v]
  | .cs, .imm v => [0xCE#8, 0xFC#8, v]
  | .reg .a, .reg q => [plusReg 0x60#8 q]
  | .reg r, .reg _ => [plusReg 0x70#8 r]
  | .reg .a, .mem m => movLoadOp m ++ m.operandBytes
  | .reg .x, .mem m => directOp 0xD8#8 0xD9#8 m ++ m.operandBytes
  | .reg .b, .mem m => directOp 0xE8#8 0xE9#8 m ++ m.operandBytes
  | .reg .c, .mem m => directOp 0xF8#8 0xF9#8 m ++ m.operandBytes
  | .mem m, .reg _ => movStoreOp m ++ m.operandBytes
  | .reg _, .psw => [0x8E#8, 0xFA#8]
  | .reg _, .es => [0x8E#8, 0xFD#8]
  | .reg _, .cs => [0x8E#8, 0xFC#8]
  | .psw, .reg _ => [0x9E#8, 0xFA#8]
  | .es, .reg _ => [0x9E#8, 0xFD#8]
  | .cs, .reg _ => [0x9E#8, 0xFC#8]
  | .es, .mem m => [0x61#8, 0xB8#8] ++ m.operandBytes
  | _, _ => []

/-- Opcode bytes of `XCH A, mem` (R172). -/
def xchOp : Mem → List Byte
  | .saddr _ => [0x61#8, 0xA8#8]
  | .sfr _ => [0x61#8, 0xAB#8]
  | .abs _ _ => [0x61#8, 0xAA#8]
  | .de _ => [0x61#8, 0xAE#8]
  | .deOff _ _ => [0x61#8, 0xAF#8]
  | .hl _ => [0x61#8, 0xAC#8]
  | .hlOff _ _ => [0x61#8, 0xAD#8]
  | .hlB _ => [0x61#8, 0xB9#8]
  | .hlC _ => [0x61#8, 0xA9#8]
  | .wordB _ _ | .wordC _ _ | .wordBC _ _ | .spOff _ => []

/-- XCH (R172). -/
def encXch : Opd8 → List Byte
  | .reg .x => [0x08#8]
  | .reg r => [0x61#8, plusReg 0x88#8 r]
  | .mem m => xchOp m ++ m.operandBytes
  | .imm _ | .psw | .cs | .es => []

/-- ONEB, CLRB, CMP0 (R173, R174, R209) with their row of the 1st MAP. -/
def encLow (row : Byte) : Opd8 → List Byte
  | .reg r => [plusReg row r]
  | .mem m => directOp (row + 4#8) (row + 5#8) m ++ m.operandBytes
  | .imm _ | .psw | .cs | .es => []

/-- Opcode bytes of `MOVW AX, mem` (R191). -/
def movwLoadOp : Mem → List Byte
  | .saddr _ => [0xAD#8]
  | .sfr _ => [0xAE#8]
  | .abs _ _ => [0xAF#8]
  | .de _ => [0xA9#8]
  | .deOff _ _ => [0xAA#8]
  | .hl _ => [0xAB#8]
  | .hlOff _ _ => [0xAC#8]
  | .wordB _ _ => [0x59#8]
  | .wordC _ _ => [0x69#8]
  | .wordBC _ _ => [0x79#8]
  | .spOff _ => [0xA8#8]
  | .hlB _ | .hlC _ => []

/-- Opcode bytes of `MOVW mem, AX` (R191). -/
def movwStoreOp : Mem → List Byte
  | .saddr _ => [0xBD#8]
  | .sfr _ => [0xBE#8]
  | .abs _ _ => [0xBF#8]
  | .de _ => [0xB9#8]
  | .deOff _ _ => [0xBA#8]
  | .hl _ => [0xBB#8]
  | .hlOff _ _ => [0xBC#8]
  | .wordB _ _ => [0x58#8]
  | .wordC _ _ => [0x68#8]
  | .wordBC _ _ => [0x78#8]
  | .spOff _ => [0xB8#8]
  | .hlB _ | .hlC _ => []

/-- MOVW (R191, R302). -/
def encMovw : Opd16 → Opd16 → List Byte
  | .rp p, .imm w => [plusPair 0x30#8 p, loByte w, hiByte w]
  | .mem (.saddr s), .imm w => [0xC9#8, s, loByte w, hiByte w]
  | .mem (.sfr s), .imm w => [0xCB#8, s, loByte w, hiByte w]
  | .sp, .imm w => [0xCB#8, 0xF8#8, loByte w, hiByte w]
  | .rp .ax, .rp q => [plusPair 0x11#8 q]
  | .rp p, .rp _ => [plusPair 0x10#8 p]
  | .rp .ax, .mem m => movwLoadOp m ++ m.operandBytes
  | .rp p, .mem m => directOp (plusPairHi 0xCA#8 p) (plusPairHi 0xCB#8 p) m ++ m.operandBytes
  | .mem m, .rp _ => movwStoreOp m ++ m.operandBytes
  | .rp .ax, .sp => [0xAE#8, 0xF8#8]
  | .rp p, .sp => [plusPairHi 0xCB#8 p, 0xF8#8, 0xFF#8]
  | .sp, .rp _ => [0xBE#8, 0xF8#8]
  | _, _ => []

/-- Opcode bytes of `op A, mem`; `n` is the operation's high nibble in both maps (R200). -/
def aluLoadOp (n : Byte) : Mem → List Byte
  | .saddr _ => [n + 0x0B#8]
  | .abs _ _ => [n + 0x0F#8]
  | .hl _ => [n + 0x0D#8]
  | .hlOff _ _ => [n + 0x0E#8]
  | .hlB _ => [0x61#8, n + 0x80#8]
  | .hlC _ => [0x61#8, n + 0x82#8]
  | .sfr _ | .de _ | .deOff _ _ | .wordB _ _ | .wordC _ _ | .wordBC _ _ | .spOff _ => []

/-- The eight two-operand byte operations (R200 to R208); `n` is 10H times the operation number. -/
def encAlu8 (n : Byte) : Opd8 → Opd8 → List Byte
  | .reg _, .imm v => [n + 0x0C#8, v]
  | .mem m, .imm v => directOp (n + 0x0A#8) 0x40#8 m ++ m.operandBytes ++ [v]
  | .reg r, .reg .a => [0x61#8, plusReg n r]
  | .reg _, .reg q => [0x61#8, plusReg (n + 8#8) q]
  | .reg _, .mem m => aluLoadOp n m ++ m.operandBytes
  | _, _ => []

/-- ADDW AX, SUBW AX, CMPW AX (R220 to R222); `n` is 00H, 20H, 40H. -/
def encAlu16 (n : Byte) : Opd16 → List Byte
  | .rp p => [plusPair (n + 0x01#8) p]
  | .imm w => [n + 0x04#8, loByte w, hiByte w]
  | .mem (.saddr s) => [n + 0x06#8, s]
  | .mem (.abs _ w) => [n + 0x02#8, loByte w, hiByte w]
  | .mem (.hlOff _ o) => [0x61#8, n + 0x09#8, o]
  | _ => []

/-- INC and DEC (R241, R242): register row, opcodes for saddr, !addr16, and the second byte of [HL+byte]. -/
def encInc (row sa ab ho : Byte) : Opd8 → List Byte
  | .reg r => [plusReg row r]
  | .mem (.saddr s) => [sa, s]
  | .mem (.abs _ w) => [ab, loByte w, hiByte w]
  | .mem (.hlOff _ o) => [0x61#8, ho, o]
  | _ => []

/-- INCW and DECW (R243, R244): `n` is A0H, B0H; `ho` the second byte of [HL+byte]. -/
def encIncw (n ho : Byte) : Opd16 → List Byte
  | .rp p => [plusPair (n + 1#8) p]
  | .mem (.saddr s) => [n + 6#8, s]
  | .mem (.abs _ w) => [n + 2#8, loByte w, hiByte w]
  | .mem (.hlOff _ o) => [0x61#8, ho, o]
  | _ => []

/-- Bit instructions of the 3rd MAP by the low nibble of the saddr (and [HL]) form and of the sfr (and A) form
(R271 to R276). -/
def encBit (k ks : BitVec 4) : BitOpd → List Byte
  | .mem (.saddr s) n => [0x71#8, bitByte false n k, s]
  | .mem (.sfr s) n => [0x71#8, bitByte false n ks, s]
  | .psw n => [0x71#8, bitByte false n ks, 0xFA#8]
  | .mem (.hl _) n => [0x71#8, bitByte true n k]
  | .a n => [0x71#8, bitByte true n ks]
  | _ => []

/-- SET1 and CLR1 have the direct form and the CY form besides (R275, R276); `kd` is the low nibble of both. -/
def encSetBit (k ks kd : BitVec 4) : BitOpd → List Byte
  | .mem (.abs _ w) n => [0x71#8, bitByte false n kd, loByte w, hiByte w]
  | .cy => [0x71#8, bitByte true 0#3 kd]
  | o => encBit k ks o

/-- BT, BF, BTCLR (R331 to R333); `k` is the low nibble of the saddr form, `k + 1` that of A and [HL]. -/
def encBitBranch (k : BitVec 4) (d : Byte) : BitOpd → List Byte
  | .mem (.saddr s) n => [0x31#8, bitByte false n k, s, d]
  | .a n => [0x31#8, bitByte false n (k + 1#4), d]
  | .mem (.sfr s) n => [0x31#8, bitByte true n k, s, d]
  | .psw n => [0x31#8, bitByte true n k, 0xFA#8, d]
  | .mem (.hl _) n => [0x31#8, bitByte true n (k + 1#4), d]
  | _ => []

/-- The three bytes of `!!addr20` (R122, R127). -/
def addr20Bytes (a : Addr) : List Byte :=
  [a.extractLsb' 0 8, a.extractLsb' 8 8, (a.extractLsb' 16 4).setWidth 8]

/-- The count byte of an 8-bit shift (R125). -/
def cntByte (n : BitVec 3) (k : BitVec 4) : Byte := bitByte false n k

/-- The bytes of an instruction without PREFIX, from the operand tables of its rule. -/
def encodePlain : Instr → List Byte
  | .mov d s => encMov d s
  | .xch s => encXch s
  | .oneb d => encLow 0xE0#8 d
  | .clrb d => encLow 0xF0#8 d
  | .movs _ o => [0x61#8, 0xCE#8, o]
  | .movw d s => encMovw d s
  | .xchw p => [plusPair 0x31#8 p]
  | .onew p => [0xE6#8 + p.num.setWidth 8]
  | .clrw p => [0xF6#8 + p.num.setWidth 8]
  | .add d s => encAlu8 0x00#8 d s
  | .addc d s => encAlu8 0x10#8 d s
  | .sub d s => encAlu8 0x20#8 d s
  | .subc d s => encAlu8 0x30#8 d s
  | .cmp d s => encAlu8 0x40#8 d s
  | .and d s => encAlu8 0x50#8 d s
  | .or d s => encAlu8 0x60#8 d s
  | .xor d s => encAlu8 0x70#8 d s
  | .cmp0 d => encLow 0xD0#8 d
  | .cmps _ o => [0x61#8, 0xDE#8, o]
  | .addw s => encAlu16 0x00#8 s
  | .addwSp v => [0x10#8, v]
  | .subw s => encAlu16 0x20#8 s
  | .subwSp v => [0x20#8, v]
  | .cmpw s => encAlu16 0x40#8 s
  | .mulu => [0xD6#8]
  | .mulhu => [0xCE#8, 0xFB#8, 0x01#8]
  | .mulh => [0xCE#8, 0xFB#8, 0x02#8]
  | .divhu => [0xCE#8, 0xFB#8, 0x03#8]
  | .divwu => [0xCE#8, 0xFB#8, 0x0B#8]
  | .machu => [0xCE#8, 0xFB#8, 0x05#8]
  | .mach => [0xCE#8, 0xFB#8, 0x06#8]
  | .inc d => encInc 0x80#8 0xA4#8 0xA0#8 0x59#8 d
  | .dec d => encInc 0x90#8 0xB4#8 0xB0#8 0x69#8 d
  | .incw d => encIncw 0xA0#8 0x79#8 d
  | .decw d => encIncw 0xB0#8 0x89#8 d
  | .shr n => [0x31#8, cntByte n 0xA#4]
  | .shrw n => [0x31#8, n ++ 0xE#4]
  | .shl .c n => [0x31#8, cntByte n 0x7#4]
  | .shl .b n => [0x31#8, cntByte n 0x8#4]
  | .shl _ n => [0x31#8, cntByte n 0x9#4]
  | .shlw .bc n => [0x31#8, n ++ 0xC#4]
  | .shlw _ n => [0x31#8, n ++ 0xD#4]
  | .sar n => [0x31#8, cntByte n 0xB#4]
  | .sarw n => [0x31#8, n ++ 0xF#4]
  | .ror => [0x61#8, 0xDB#8]
  | .rol => [0x61#8, 0xEB#8]
  | .rorc => [0x61#8, 0xFB#8]
  | .rolc => [0x61#8, 0xDC#8]
  | .rolwc p => [0x61#8, plusPairHi 0xEE#8 p]
  | .mov1 .cy s => encBit 0x4#4 0xC#4 s
  | .mov1 d _ => encBit 0x1#4 0x9#4 d
  | .and1 s => encBit 0x5#4 0xD#4 s
  | .or1 s => encBit 0x6#4 0xE#4 s
  | .xor1 s => encBit 0x7#4 0xF#4 s
  | .set1 d => encSetBit 0x2#4 0xA#4 0x0#4 d
  | .clr1 d => encSetBit 0x3#4 0xB#4 0x8#4 d
  | .not1 => [0x71#8, 0xC0#8]
  | .call (.rp p) => [0x61#8, plusPairHi 0xCA#8 p]
  | .call (.rel16 d) => [0xFE#8, loByte d, hiByte d]
  | .call (.abs16 w) => [0xFD#8, loByte w, hiByte w]
  | .call (.abs20 a) => 0xFC#8 :: addr20Bytes a
  | .callt n => [0x61#8, (1#1 ++ n.extractLsb' 0 3 ++ 1#2 ++ n.extractLsb' 3 2 : BitVec 8)]
  | .brk => [0x61#8, 0xCC#8]
  | .ret => [0xD7#8]
  | .reti => [0x61#8, 0xFC#8]
  | .retb => [0x61#8, 0xEC#8]
  | .push (.rp p) => [plusPair 0xC1#8 p]
  | .push .psw => [0x61#8, 0xDD#8]
  | .pop (.rp p) => [plusPair 0xC0#8 p]
  | .pop .psw => [0x61#8, 0xCD#8]
  | .br .ax => [0x61#8, 0xCB#8]
  | .br (.rel8 d) => [0xEF#8, d]
  | .br (.rel16 d) => [0xEE#8, loByte d, hiByte d]
  | .br (.abs16 w) => [0xED#8, loByte w, hiByte w]
  | .br (.abs20 a) => 0xEC#8 :: addr20Bytes a
  | .bc d => [0xDC#8, d]
  | .bnc d => [0xDE#8, d]
  | .bz d => [0xDD#8, d]
  | .bnz d => [0xDF#8, d]
  | .bh d => [0x61#8, 0xC3#8, d]
  | .bnh d => [0x61#8, 0xD3#8, d]
  | .bt o d => encBitBranch 0x2#4 d o
  | .bf o d => encBitBranch 0x4#4 d o
  | .btclr o d => encBitBranch 0x0#4 d o
  | .skc => [0x61#8, 0xC8#8]
  | .sknc => [0x61#8, 0xD8#8]
  | .skz => [0x61#8, 0xE8#8]
  | .sknz => [0x61#8, 0xF8#8]
  | .skh => [0x61#8, 0xE3#8]
  | .sknh => [0x61#8, 0xF3#8]
  | .sel n => [0x61#8, 0xCF#8 + 16#8 * n.setWidth 8]
  | .nop => [0x00#8]
  | .ei => [0x71#8, 0x7A#8, 0xFA#8]
  | .di => [0x71#8, 0x7B#8, 0xFA#8]
  | .halt => [0x61#8, 0xED#8]
  | .stop => [0x61#8, 0xFD#8]
  | .prefixByte => [0x11#8]

/-- The bytes of a well-formed instruction: 11H in front of an ES: form (R141). -/
def encode (i : Instr) : List Byte := if i.hasEs then 0x11#8 :: encodePlain i else encodePlain i

/-- `len` of R13: the length in bytes, a PREFIX byte included. -/
def Instr.len (i : Instr) : Nat := (encode i).length

/-- The cores that have the instruction (R19): SEL not on S1, the six expanded instructions on S3 only. The bare
PREFIX byte is an instruction of no core (R142). -/
def Instr.onS1 : Instr → Bool
  | .sel _ | .mulhu | .mulh | .divhu | .divwu | .machu | .mach | .prefixByte => false
  | _ => true

def Instr.onS2 : Instr → Bool
  | .mulhu | .mulh | .divhu | .divwu | .machu | .mach | .prefixByte => false
  | _ => true

def Instr.onS3 : Instr → Bool
  | .prefixByte => false
  | _ => true

/-! ### The host's table words -/

/-- Byte `k` of a number whose bit 0 is the least significant bit of the first byte; bits from `nbits` on are 0. -/
def tableByte (nbits w k : Nat) : Byte := BitVec.ofNat 8 ((w % 2 ^ nbits) / 2 ^ (8 * k))

/-- The bytes of a table word, up to the longest instruction, in the order they are fetched (R89, R120). -/
def tableBytes (nbits w : Nat) : List Byte :=
  [tableByte nbits w 0, tableByte nbits w 1, tableByte nbits w 2, tableByte nbits w 3, tableByte nbits w 4]

/-- The instruction the decoder reads from a table word. -/
def decodeTableWord (nbits w : Nat) : Option Instr :=
  match decode (tableBytes nbits w) with
  | .done i => some i
  | .more => none
  | .undefined => none

end Sys2Proof
end

