-- ==== Sys2Proof/Config.lean ====
section
/-! DEFINITION. What a product fixes (R10) and the free values of the model. A `Product` is data: it stands in
State, so that a statement about every state is a statement about every product. -/

namespace Sys2Proof

/-- The core variant, parameter `CORE` (R3, R10). -/
inductive CoreVariant where
  | s1
  | s2
  | s3
  deriving DecidableEq, Repr

/-- Parameter `ODD_WORD_POLICY` (R10, R93): what a word data access at an odd address does. -/
inductive OddWordPolicy where
  | refuse
  | clearBit0
  deriving DecidableEq, Repr

/-- How a product SFR behaves (R10 `SFR_MAP`). A `storage` register reads back what was written and holds `reset`
after reset. A `device` register is driven by a peripheral the spec does not describe: it reads as a free value and
a write has no effect the CPU can see (log 18). -/
inductive SfrBehaviour where
  | storage (reset : Byte)
  | device
  deriving DecidableEq, Repr

/-- One entry of `SFR_MAP` (R10, R86): an address at which the product has a register, the manipulable units
(1, 8, 16 bits), whether it may be read and written, and how it behaves. -/
structure SfrEntry where
  addr : Addr
  bitAccess : Bool
  byteAccess : Bool
  wordAccess : Bool
  readable : Bool
  writable : Bool
  behaviour : SfrBehaviour
  deriving DecidableEq, Repr

/-- The parameters of R10 that are constant during a run. `NBANKS` and `HAS_MULDIV` follow from `core`; `IRQ` is
the input list of State; `IMAGE` is the flash part of the memory. `imageFill` is the model's own: what a flash byte
reads as when nothing was loaded there (log 2). -/
structure Product where
  core : CoreVariant
  /-- `HAS_ISP1`: PSW bit 2 is the flag ISP1. -/
  hasIsp1 : Bool
  /-- `CODE_FLASH_END`: last address of the code flash, which starts at 00000H. -/
  codeFlashEnd : Addr
  /-- `RAM_START`: lowest address of internal RAM. -/
  ramStart : Addr
  /-- `DATA_FLASH`: first and last address of the data flash, or none. -/
  dataFlash : Option (Addr × Addr)
  /-- `SFR_MAP`: the product's registers; at most one entry for an address, the first found counts. -/
  sfrMap : List SfrEntry
  oddWordPolicy : OddWordPolicy
  /-- `ISP_ON_ACK` at levels 0, 1, 2, 3. -/
  ispOnAck0 : BitVec 2
  ispOnAck1 : BitVec 2
  ispOnAck2 : BitVec 2
  ispOnAck3 : BitVec 2
  /-- `FETCH_WINDOW` in bytes. -/
  fetchWindow : Nat
  imageFill : Byte
  deriving DecidableEq, Repr

/-- The product of State.reset: the machine of 95_test_vectors.md section 1, with the defaults R10 names for
`ODD_WORD_POLICY`, `ISP_ON_ACK` and `FETCH_WINDOW`. DESIGN CHOICE (log 1, 2). -/
def Product.standard : Product where
  core := .s3
  hasIsp1 := true
  codeFlashEnd := 0x0FFFF#20
  ramStart := 0xFEF00#20
  dataFlash := none
  sfrMap := []
  oddWordPolicy := .refuse
  ispOnAck0 := 0#2
  ispOnAck1 := 0#2
  ispOnAck2 := 1#2
  ispOnAck3 := 2#2
  fetchWindow := 4
  imageFill := 0x00#8

/-- FREE VALUE: the flag AC after ADDW AX, SUBW AX and CMPW, which R223 calls undefined. The argument counts the
instructions run so far, so that every execution draws a fresh bit (log 13). -/
opaque Config.freeAC : Nat → Bool

/-- FREE VALUE: the byte a device SFR reads as, by its address and the count of instructions run so far (log 18). -/
opaque Config.sfrInput : Addr → Nat → Byte

end Sys2Proof
end

