-- ==== Sys2Proof/Machine/State.lean ====
section
/-! DEFINITION. The state of the RL78 (R20), its reset value (R65, R421), and the reasons a step can stop (R372). -/

namespace Sys2Proof.Machine

/-- The hidden run mode (R61). -/
inductive RunMode where
  | run
  | halt
  | stop
  deriving DecidableEq, Repr

/-- The program status word (R34): the eight flags by name. `Psw.toByte` and `Psw.ofByte` give bit 7 to bit 0. -/
structure Psw where
  /-- bit 7, interrupt enable (R35) -/
  ie : Bool
  /-- bit 6, zero (R36) -/
  z : Bool
  /-- bit 5, bank select high (R37); 0 on S1 (R42) -/
  rbs1 : Bool
  /-- bit 4, auxiliary carry (R38) -/
  ac : Bool
  /-- bit 3, bank select low (R37); 0 on S1 (R42) -/
  rbs0 : Bool
  /-- bit 2, in-service priority high (R39); a plain storage bit without `HAS_ISP1` -/
  isp1 : Bool
  /-- bit 1, in-service priority low (R39) -/
  isp0 : Bool
  /-- bit 0, carry (R40) -/
  cy : Bool
  deriving DecidableEq, Repr

/-- An interrupt request offered at an instruction boundary (R380). The vector address is `2 * entry`; the level is
not used when the request is not maskable. -/
structure IrqRequest where
  entry : BitVec 6
  level : BitVec 2
  maskable : Bool
  deriving DecidableEq, Repr

/-- What the environment does before one step (R373, R380, R420, R108): asserts reset, reports a standby release,
offers at most one request, and stores bytes as another bus master. -/
structure EnvInput where
  reset : Bool
  release : Bool
  request : Option IrqRequest
  dma : List Host.Cell
  deriving DecidableEq, Repr

/-- What the core tells the interrupt controller (R380): `IRQ.ack(r)` and `IRQ.returned()`. -/
inductive IrqNotice where
  | ack (r : IrqRequest)
  | returned
  deriving DecidableEq, Repr

/-- The machine. Spec's own state first (R20), then the model's own fields (INVENTORY.md, log 28, 44). -/
structure State where
  /-- parameters of the product (R10), constant during a run -/
  product : Product
  /-- the general registers (R21, R22): register number i of bank b at index 8*b + i -/
  regs : Vector (BitVec 8) 32
  /-- program counter (R30) -/
  pc : BitVec 20
  /-- program status word (R34) -/
  psw : Psw
  /-- stack pointer (R44) -/
  sp : BitVec 16
  /-- ES (R50) -/
  es : BitVec 8
  /-- CS (R51) -/
  cs : BitVec 8
  /-- PMC (R54) -/
  pmc : BitVec 8
  /-- MACR, S3 only (R58) -/
  macr : BitVec 32
  /-- RAM, code flash, data flash and storage SFRs (R70): strictly rising addresses, only bytes that differ from
  what an unlisted address reads as -/
  mem : List Host.Cell
  /-- interrupt-hold flag (R60) -/
  intHold : Bool
  /-- run mode (R61) -/
  mode : RunMode
  /-- mirror-wait flag (R63) -/
  pmcWait : Bool
  /-- the address of the DIVHU or DIVWU that was the last instruction, if it was one (R234) -/
  afterDiv : Option (BitVec 20)
  /-- MODEL'S OWN: how many instructions have run, the index of the free values -/
  ticks : Nat
  /-- MODEL'S OWN: the environment's inputs of the coming steps; an empty list is a quiet environment -/
  inputs : List EnvInput
  /-- MODEL'S OWN: the notices given to the interrupt controller, newest first -/
  notices : List IrqNotice
  deriving DecidableEq, Repr

/-- Why a data access is `ProhibitedAccess` (R372). -/
inductive ProhibitedReason where
  /-- an access by address to the current register bank (R24) -/
  | registerAlias
  /-- FFEE0H to FFEF7H on S1 (R24) -/
  | reservedRegisterArea
  /-- a byte access to SPL or SPH (R46) -/
  | spByte
  /-- a word access to PSW, CS, ES or PMC (R86) -/
  | byteSfrWord
  /-- any access to FFFFBH or to MEM at FFFFFH (R53) -/
  | reservedSfr
  /-- a byte access to MACR (R58) -/
  | macrByte
  /-- a write or a word read of the data flash (R85) -/
  | dataFlash
  /-- a product SFR access in a unit or direction its `SFR_MAP` entry does not have (R86) -/
  | sfrUnit
  /-- a mirror read by the instruction after a PMC write (R437) -/
  | mirrorAfterPmc
  /-- a store by code in RAM into the bytes that follow it (R440) -/
  | storeIntoFetchWindow
  deriving DecidableEq, Repr

/-- Faults: the program uses a value nothing has defined, or the stack outside RAM. -/
inductive Fault where
  /-- A RAM byte is read or fetched before anything wrote it (R83, R90, R92). Raised by every data read and by the
  fetch. Safe: the hardware goes on with some value. -/
  | unwrittenRead (a : Addr)
  /-- A stack or [SP+byte] access touches a byte outside RAM_START to FFEDFH (R49, R99, R101). Raised by PUSH, POP,
  CALL, CALLT, RET, BRK, RETI, RETB, interrupt entry and [SP+byte]. Safe: the hardware ignores such writes and reads
  undefined values. -/
  | stackOutsideRam (a : Addr)
  deriving DecidableEq, Repr

/-- Refusals: the spec gives no meaning and names the outcome (R372). All are safe: no next state is claimed. -/
inductive Refusal where
  /-- An instruction that has no meaning in this model yet. No meaning answers with it. -/
  | notModelled (mnemonic : String)
  /-- The bytes at pc are no instruction of this core (R19, R127, R142, R145). Raised by the fetch, by the skips and
  by the meanings of instructions the core lacks. -/
  | undefinedInstruction
  /-- An instruction byte outside code flash and RAM (R92). Raised by the fetch and the skips. -/
  | prohibitedFetch (a : Addr)
  /-- A data access to a reserved address or to an SFR the product does not have (R86, R88). -/
  | unmappedAccess (a : Addr)
  /-- A data write to code flash or mirror (R72, R84, R91). -/
  | writeToReadOnly (a : Addr)
  /-- A data access the spec prohibits, with its reason (R372). -/
  | prohibitedAccess (why : ProhibitedReason) (a : Addr)
  /-- A word access at an odd address under the policy `refuse` (R93). -/
  | misalignedWord (a : Addr)
  /-- A based or based-indexed sum above FFFFH (R100, R101, R102). -/
  | prohibitedAddress
  /-- A value written to PMC that R55 prohibits. -/
  | prohibitedSetting (v : Byte)
  /-- A taken relative branch from RAM into code flash (R321). -/
  | prohibitedBranch (target : Addr)
  /-- An interrupt would be acknowledged right after an unprotected DIVHU or DIVWU (R234). Raised by the step. -/
  | divideInterruptHazard
  deriving DecidableEq, Repr

/-- Why a step ends without a next state. -/
inductive Stop where
  | fault (f : Fault)
  | refuse (r : Refusal)
  deriving DecidableEq, Repr

/-- The PSW after reset, 06H (R43). -/
def Psw.afterReset : Psw where
  ie := false
  z := false
  rbs1 := false
  ac := false
  rbs0 := false
  isp1 := true
  isp0 := true
  cy := false

/-- The machine right after reset (R65, R421) with the standard product and nothing loaded: pc is the word at 00000H
of the empty code flash, whose bytes read as the fill 00H. General registers, SP and MACR have no reset value in the
spec; they hold 0 (DESIGN CHOICE, log 4, 5, 6). -/
def State.reset : State where
  product := Product.standard
  regs := Vector.replicate 32 0x00#8
  pc := 0x00000#20
  psw := Psw.afterReset
  sp := 0x0000#16
  es := 0x0F#8
  cs := 0x00#8
  pmc := 0x00#8
  macr := 0x00000000#32
  mem := []
  intHold := false
  mode := .run
  pmcWait := false
  afterDiv := none
  ticks := 0
  inputs := []
  notices := []

end Sys2Proof.Machine
end

