-- ==== Sys2Proof/Machine/Bits.lean ====
section
/-! DEFINITION. Bit-level views: the PSW as a byte (R34), the register file's numbering (R22), the reading of one bit
and the setting of one bit of a byte (R103). -/

namespace Sys2Proof.Machine

/-- The PSW as a byte (R34). -/
def Psw.toByte (p : Psw) : Byte :=
  BitVec.ofBool p.ie ++ BitVec.ofBool p.z ++ BitVec.ofBool p.rbs1 ++ BitVec.ofBool p.ac ++ BitVec.ofBool p.rbs0 ++
    BitVec.ofBool p.isp1 ++ BitVec.ofBool p.isp0 ++ BitVec.ofBool p.cy

/-- A byte as a PSW (R34). -/
def Psw.ofByte (v : Byte) : Psw where
  ie := v.getLsbD 7
  z := v.getLsbD 6
  rbs1 := v.getLsbD 5
  ac := v.getLsbD 4
  rbs0 := v.getLsbD 3
  isp1 := v.getLsbD 2
  isp0 := v.getLsbD 1
  cy := v.getLsbD 0

/-- Bit `n` of the PSW (R278). -/
def Psw.getBit (p : Psw) (n : BitVec 3) : Bool :=
  match n.toNat with
  | 7 => p.ie
  | 6 => p.z
  | 5 => p.rbs1
  | 4 => p.ac
  | 3 => p.rbs0
  | 2 => p.isp1
  | 1 => p.isp0
  | _ => p.cy

/-- The PSW with bit `n` changed and no other (R278). -/
def Psw.setBit (p : Psw) (n : BitVec 3) (v : Bool) : Psw :=
  match n.toNat with
  | 7 => { p with ie := v }
  | 6 => { p with z := v }
  | 5 => { p with rbs1 := v }
  | 4 => { p with ac := v }
  | 3 => { p with rbs0 := v }
  | 2 => { p with isp1 := v }
  | 1 => { p with isp0 := v }
  | _ => { p with cy := v }

/-- What a write leaves of a PSW value on a core: on S1 bits 5 and 3 stay 0 (R42). -/
def Psw.masked (p : Psw) (core : CoreVariant) : Psw :=
  match core with
  | .s1 => { p with rbs1 := false, rbs0 := false }
  | .s2 => p
  | .s3 => p

/-- The two ISP flags as a level (R39, R382): `ISP1 :: ISP0`, or ISP0 alone without `HAS_ISP1`. -/
def Psw.isp (p : Psw) (hasIsp1 : Bool) : BitVec 2 :=
  if hasIsp1 then BitVec.ofBool p.isp1 ++ BitVec.ofBool p.isp0 else (BitVec.ofBool p.isp0).setWidth 2

/-- The PSW with ISP loaded (R39, R383): without `HAS_ISP1` bit 1 only. -/
def Psw.withIsp (p : Psw) (hasIsp1 : Bool) (v : BitVec 2) : Psw :=
  if hasIsp1 then { p with isp1 := v.getLsbD 1, isp0 := v.getLsbD 0 } else { p with isp0 := v.getLsbD 0 }

/-- Bit `n` of a byte (R103). -/
def bitOf (v : Byte) (n : BitVec 3) : Bool := v.getLsbD n.toNat

/-- A byte with bit `n` changed and no other (R103). -/
def withBit (v : Byte) (n : BitVec 3) (b : Bool) : Byte :=
  if b then v ||| (1#8 <<< n.toNat) else v &&& ~~~(1#8 <<< n.toNat)

/-- The index in the register file of register r of bank b: 8*b + i (R22). -/
def gprIndex (bank : BitVec 2) (r : Reg8) : BitVec 5 := bank ++ r.num

/-- The index in the register file of the register that lives at an address of FFEE0H to FFEFFH: register i of bank
b is at FFEF8H - 8*b + i (R22). -/
def gprIndexAt (a : Addr) : BitVec 5 := ~~~(a.extractLsb' 3 2) ++ a.extractLsb' 0 3

/-- The high register of a pair (R21). -/
def pairHi : RegPair → Reg8
  | .ax => .a
  | .bc => .b
  | .de => .d
  | .hl => .h

/-- The low register of a pair (R21). -/
def pairLo : RegPair → Reg8
  | .ax => .x
  | .bc => .c
  | .de => .e
  | .hl => .l

/-- A 20-bit address from its upper 4 bits and a 16-bit part (R94). -/
def addrOf (hi : BitVec 4) (lo : Word) : Addr := hi ++ lo

/-- A 16-bit displacement, sign-extended (R320). -/
def sext16 (d : Word) : Addr := d.signExtend 20

/-- An 8-bit displacement, sign-extended (R320). -/
def sext8 (d : Byte) : Addr := d.signExtend 20

end Sys2Proof.Machine
end

