-- ==== Sys2Proof/Machine/Memory.lean ====
section
/-! DEFINITION. The memory map (R70, R71, R84 to R88) and the list that holds the stored bytes. -/

namespace Sys2Proof.Machine

/-! ### The list of cells -/

/-- The byte listed at an address. -/
def lookup : List Host.Cell → Nat → Option Byte
  | [], _ => none
  | (b, v) :: t, a => if a = b then some v else lookup t a

/-- The list with a cell put in at its place in the rising order. -/
def insertCell : List Host.Cell → Nat → Byte → List Host.Cell
  | [], a, v => [(a, v)]
  | (b, w) :: t, a, v =>
    if a < b then (a, v) :: (b, w) :: t else if a = b then (a, v) :: t else (b, w) :: insertCell t a v

/-- The list without the cell of an address. -/
def eraseCell : List Host.Cell → Nat → List Host.Cell
  | [], _ => []
  | (b, w) :: t, a => if a = b then t else (b, w) :: eraseCell t a

/-- The addresses rise strictly. -/
def strictlyRising : List Host.Cell → Bool
  | [] => true
  | [_] => true
  | (a, _) :: (b, w) :: t => decide (a < b) && strictlyRising ((b, w) :: t)

/-! ### The map -/

/-- `a` lies in first to last. -/
def within (first last a : Addr) : Bool := decide (first.toNat ≤ a.toNat) && decide (a.toNat ≤ last.toNat)

/-- The regions of R71. -/
inductive Region where
  | sfr
  | gpr
  | ram
  | sfr2
  | dflash
  | cflash
  | mirror
  | reserved
  deriving DecidableEq, Repr

/-- `a` is in `DATA_FLASH` (R10, R85). -/
def inDataFlash (p : Product) (a : Addr) : Bool :=
  match p.dataFlash with
  | none => false
  | some (first, last) => within first last a

/-- The code flash address that shows at `a` in the mirror (R84); `maa` is PMC bit 0. -/
def mirrorSource (p : Product) (maa : Bool) (a : Addr) : Option Addr :=
  let source : Option Addr :=
    match p.core with
    | .s1 => if within 0xF8000#20 0xFDEFF#20 a && !maa then some (a - 0xF8000#20) else none
    | .s2 | .s3 =>
      if within 0xF0000#20 0xFFFFF#20 a then some (a - 0xF0000#20 + if maa then 0x10000#20 else 0x00000#20) else none
  match source with
  | some f => if f.toNat ≤ p.codeFlashEnd.toNat then some f else none
  | none => none

/-- `Region(a)` of R71, first match first. -/
def regionOf (p : Product) (maa : Bool) (a : Addr) : Region :=
  if within 0xFFF00#20 0xFFFFF#20 a then .sfr
  else if within 0xFFEE0#20 0xFFEFF#20 a then .gpr
  else if within p.ramStart 0xFFEDF#20 a then .ram
  else if within 0xF0000#20 0xF07FF#20 a then .sfr2
  else if inDataFlash p a then .dflash
  else if decide (a.toNat ≤ p.codeFlashEnd.toNat) then .cflash
  else if (mirrorSource p maa a).isSome then .mirror
  else .reserved

/-- PMC bit 0, MAA (R54). -/
def State.maa (s : State) : Bool := s.pmc.getLsbD 0

/-- `Region(a)` (R71) in a state. -/
def State.region (s : State) (a : Addr) : Region := regionOf s.product s.maa a

/-! ### The core's own SFRs and the product's -/

/-- What R86 puts at an address of FFF00H to FFFFFH. -/
inductive SfrKind where
  | spByte
  | psw
  | reserved
  | cs
  | es
  | pmc
  | macr
  | product
  deriving DecidableEq, Repr

/-- The table of R86 (with R53 and R58). -/
def sfrKind (core : CoreVariant) (a : Addr) : SfrKind :=
  if a = 0xFFFF8#20 ∨ a = 0xFFFF9#20 then .spByte
  else if a = 0xFFFFA#20 then .psw
  else if a = 0xFFFFB#20 ∨ a = 0xFFFFF#20 then .reserved
  else if a = 0xFFFFC#20 then .cs
  else if a = 0xFFFFD#20 then .es
  else if a = 0xFFFFE#20 then .pmc
  else if core = .s3 ∧ within 0xFFFF0#20 0xFFFF3#20 a = true then .macr
  else .product

/-- The unit of a data access to a product SFR (R86). -/
inductive AccessUnit where
  | bit
  | byte
  | word
  deriving DecidableEq, Repr

/-- The entry of `SFR_MAP` for an address (R10). -/
def sfrEntry (p : Product) (a : Addr) : Option SfrEntry := p.sfrMap.find? fun e => decide (e.addr = a)

/-- The entry may be accessed in a unit (R86). -/
def unitAllowed (e : SfrEntry) : AccessUnit → Bool
  | .bit => e.bitAccess
  | .byte => e.byteAccess
  | .word => e.wordAccess

/-- The reset value of a product SFR that stores what is written; none for a device register or no register. -/
def sfrStorage (p : Product) (a : Addr) : Option Byte :=
  match sfrEntry p a with
  | some e =>
    match e.behaviour with
    | .storage r => some r
    | .device => none
  | none => none

/-! ### Which addresses the cell list holds, and what an unlisted one reads as -/

/-- The kinds of address the list of cells can hold a byte for. -/
inductive Storage where
  | ram
  | flash
  | sfr (reset : Byte)
  deriving DecidableEq, Repr

/-- The kind of stored byte an address has, if it has one: RAM, code or data flash, a storage SFR. -/
def storageOf (p : Product) (a : Addr) : Option Storage :=
  if within 0xFFF00#20 0xFFFFF#20 a then
    if sfrKind p.core a = .product then (sfrStorage p a).map .sfr else none
  else if within 0xFFEE0#20 0xFFEFF#20 a then none
  else if within p.ramStart 0xFFEDF#20 a then some .ram
  else if within 0xF0000#20 0xF07FF#20 a then (sfrStorage p a).map .sfr
  else if inDataFlash p a then some .flash
  else if decide (a.toNat ≤ p.codeFlashEnd.toNat) then some .flash
  else none

/-- WHAT AN UNLISTED ADDRESS READS AS: flash bytes the image fill (DESIGN CHOICE, log 2), storage SFRs their reset
value, RAM no value at all (R83: unwritten, log 7). -/
def blank (p : Product) (a : Addr) : Option Byte :=
  match storageOf p a with
  | some .flash => some p.imageFill
  | some (.sfr r) => some r
  | some .ram => none
  | none => none

/-- The byte stored at an address: what is listed, else what a blank address reads as. -/
def readCell (p : Product) (m : List Host.Cell) (a : Addr) : Option Byte :=
  match lookup m a.toNat with
  | some v => some v
  | none => blank p a

/-- The list after a byte is stored, in canonical form: a byte equal to the blank one is not listed. -/
def writeCell (p : Product) (m : List Host.Cell) (a : Addr) (v : Byte) : List Host.Cell :=
  if blank p a = some v then eraseCell m a.toNat else insertCell m a.toNat v

/-- A listed cell is one the list may hold: its address is a storing one, and its byte is not the blank one. -/
def cellOk (p : Product) (c : Host.Cell) : Bool :=
  decide (c.1 < 2 ^ 20) && (storageOf p (BitVec.ofNat 20 c.1)).isSome &&
    decide (blank p (BitVec.ofNat 20 c.1) ≠ some c.2)

/-- The canonical form of the memory. -/
def Memory.wf (p : Product) (m : List Host.Cell) : Bool := strictlyRising m && m.all (cellOk p)

/-- `IMAGE(a)` of R90: a byte of the code flash. -/
def State.image (s : State) (a : Addr) : Byte := (readCell s.product s.mem a).getD s.product.imageFill

/-- `TableWord(a)` of R290: a vector or CALLT table entry, read from the code flash image directly (R112). -/
def State.tableWord (s : State) (a : Addr) : Word := wordOf (s.image a) (s.image (a + 1#20))

end Sys2Proof.Machine
end

