-- ==== Sys2Proof/Machine/Ops.lean ====
section
/-! DEFINITION. The named operations of the machine: registers, data reads and writes (R90, R91), the stack (R99,
R290), the start and end of an instruction, and taking an exception and returning from one (R293, R383, R385). -/

namespace Sys2Proof.Machine

/-- A value, or the reason the step ends without a next state. An instruction has no partial effect (R170). -/
abbrev Result (α : Type) := Except Stop α

/-- End with a fault. -/
def faulting {α : Type} (f : Fault) : Result α := .error (.fault f)

/-- End with a refusal. -/
def refusing {α : Type} (r : Refusal) : Result α := .error (.refuse r)

/-- The outcome of a step (R14). -/
def outcome : Result State → Host.Outcome State Fault Refusal
  | .ok s => .next s
  | .error (.fault f) => .fault f
  | .error (.refuse r) => .refused r

/-! ### Registers -/

/-- The current register bank (R22); on S1 there is bank 0 only (R23). -/
def State.bank (s : State) : BitVec 2 :=
  match s.product.core with
  | .s1 => 0#2
  | .s2 | .s3 => BitVec.ofBool s.psw.rbs1 ++ BitVec.ofBool s.psw.rbs0

/-- The register at an index of the register file. -/
def State.gpr (s : State) (k : BitVec 5) : Byte := s.regs[k.toNat]'k.isLt

/-- The state with the register at an index of the register file written. -/
def State.setGpr (s : State) (k : BitVec 5) (v : Byte) : State := { s with regs := s.regs.set k.toNat v k.isLt }

/-- `r[i]` (R13): a register of the current bank. -/
def State.r8 (s : State) (r : Reg8) : Byte := s.gpr (gprIndex s.bank r)

/-- `r[i] <- v` (R13). -/
def State.setR8 (s : State) (r : Reg8) (v : Byte) : State := s.setGpr (gprIndex s.bank r) v

/-- `rp[i]` (R13). -/
def State.rp (s : State) (p : RegPair) : Word := wordOf (s.r8 (pairLo p)) (s.r8 (pairHi p))

/-- `rp[i] <- v` (R13). -/
def State.setRp (s : State) (p : RegPair) (v : Word) : State :=
  (s.setR8 (pairLo p) (loByte v)).setR8 (pairHi p) (hiByte v)

/-- A write of the whole PSW (R41), bits 5 and 3 staying 0 on S1 (R42). -/
def State.setPsw (s : State) (p : Psw) : State := { s with psw := p.masked s.product.core }

/-- A write of SP: bit 0 is cleared (R45). -/
def State.setSp (s : State) (v : Word) : State := { s with sp := v &&& 0xFFFE#16 }

/-- A write of ES: bits 3 to 0 are stored (R52). -/
def State.setEs (s : State) (v : Byte) : State := { s with es := v &&& 0x0F#8 }

/-- A write of CS: bits 3 to 0 are stored (R52). -/
def State.setCs (s : State) (v : Byte) : State := { s with cs := v &&& 0x0F#8 }

/-- A write of PMC (R55), which sets the mirror wait (R63). -/
def State.writePmc (s : State) (v : Byte) : Result State :=
  match s.product.core with
  | .s1 => if v = 0x00#8 then .ok { s with pmc := v, pmcWait := true } else refusing (.prohibitedSetting v)
  | .s2 | .s3 =>
    if v &&& 0xFE#8 = 0x00#8 then .ok { s with pmc := v, pmcWait := true } else refusing (.prohibitedSetting v)

/-- Sets the interrupt hold (R60), as the listed instructions do at the end of their step. -/
def State.hold (s : State) : State := { s with intHold := true }

/-! ### Start and end of an instruction -/

/-- What every instruction does to the hidden state before its own effect: it clears the interrupt hold (R60) and
the mirror wait (R63), is no division until it says so (R234), and counts as one instruction for the free values. -/
def State.begin (s : State) : State :=
  { s with intHold := false, pmcWait := false, afterDiv := none, ticks := s.ticks + 1 }

/-- `pc <- a` (R13); an `Addr` is 20 bits, so the value is reduced mod 2^20 (R31). -/
def State.goto (s : State) (a : Addr) : State := { s with pc := a }

/-- `next` of R13 for an instruction of a length. -/
def State.nextOf (s : State) (len : Nat) : Addr := s.pc + BitVec.ofNat 20 len

/-- `next` of R13: the address of the instruction that follows. -/
def State.next (s : State) (i : Instr) : Addr := s.nextOf i.len

/-- The core has the instruction (R19). -/
def Instr.onCore (i : Instr) : CoreVariant → Bool
  | .s1 => i.onS1
  | .s2 => i.onS2
  | .s3 => i.onS3

/-- Core gating (R19): an instruction the core lacks is `UndefinedInstruction`. -/
def State.checkCore (s : State) (i : Instr) : Result Unit :=
  if Instr.onCore i s.product.core then .ok () else refusing .undefinedInstruction

/-! ### Data reads (R90) -/

/-- A read of a product SFR (R86). -/
def productRead (u : AccessUnit) (s : State) (a : Addr) : Result Byte :=
  match sfrEntry s.product a with
  | none => refusing (.unmappedAccess a)
  | some e =>
    if e.readable && unitAllowed e u then
      match e.behaviour with
      | .storage r => .ok ((readCell s.product s.mem a).getD r)
      | .device => .ok (Config.sfrInput a s.ticks)
    else refusing (.prohibitedAccess .sfrUnit a)

/-- A byte read in the SFR area (R86). -/
def sfrRead (u : AccessUnit) (s : State) (a : Addr) : Result Byte :=
  match sfrKind s.product.core a with
  | .spByte => refusing (.prohibitedAccess .spByte a)
  | .psw => .ok s.psw.toByte
  | .reserved => refusing (.prohibitedAccess .reservedSfr a)
  | .cs => .ok s.cs
  | .es => .ok s.es
  | .pmc => .ok s.pmc
  | .macr => refusing (.prohibitedAccess .macrByte a)
  | .product => productRead u s a

/-- Whether a data access to the general-purpose register area is allowed (R24): not to the current bank, and on S1
not to the reserved part FFEE0H to FFEF7H. -/
def gprCheck (s : State) (a : Addr) : Result Unit :=
  if s.product.core = .s1 ∧ a.toNat < 0xFFEF8 then refusing (.prohibitedAccess .reservedRegisterArea a)
  else if (gprIndexAt a).extractLsb' 3 2 = s.bank then refusing (.prohibitedAccess .registerAlias a)
  else .ok ()

/-- `MemRead(a, 1)` (R90); `u` is the unit in which a product SFR is accessed. -/
def byteRead (u : AccessUnit) (s : State) (a : Addr) : Result Byte :=
  match s.region a with
  | .ram =>
    match readCell s.product s.mem a with
    | some v => .ok v
    | none => faulting (.unwrittenRead a)
  | .gpr => do
    gprCheck s a
    pure (s.gpr (gprIndexAt a))
  | .sfr => sfrRead u s a
  | .sfr2 => productRead u s a
  | .cflash => .ok (s.image a)
  | .mirror =>
    if s.pmcWait then refusing (.prohibitedAccess .mirrorAfterPmc a)
    else
      match mirrorSource s.product s.maa a with
      | some f => .ok (s.image f)
      | none => refusing (.unmappedAccess a)
  | .dflash => .ok ((readCell s.product s.mem a).getD s.product.imageFill)
  | .reserved => refusing (.unmappedAccess a)

/-- `MemRead(a, 1)` of a byte instruction (R90). -/
def memRead8 (s : State) (a : Addr) : Result Byte := byteRead .byte s a

/-- `MemRead(a, 1)` of a bit instruction (R103). -/
def memReadBit (s : State) (a : Addr) : Result Byte := byteRead .bit s a

/-- The lower address a word access at `a` is made at (R93): under the policy `clear_bit0` the even one below. -/
def wordBase (s : State) (a : Addr) : Addr :=
  match s.product.oddWordPolicy with
  | .refuse => a
  | .clearBit0 => a &&& 0xFFFFE#20

/-- The alignment check of R93: an odd address is refused under the policy `refuse`. -/
def wordAddr (s : State) (a : Addr) : Result Addr :=
  if (wordBase s a).getLsbD 0 then refusing (.misalignedWord a) else .ok (wordBase s a)

/-- Two byte reads as a word, `MemRead(a+1, 1) :: MemRead(a, 1)` (R90). -/
def bytePair (s : State) (a : Addr) : Result Word := do
  let lo ← byteRead .word s a
  let hi ← byteRead .word s (a + 1#20)
  pure (wordOf lo hi)

/-- A word read at an even address: the 16-bit column of R86, no word read of data flash (R85), else two bytes. -/
def evenRead16 (s : State) (a : Addr) : Result Word :=
  match s.region a with
  | .sfr =>
    match sfrKind s.product.core a with
    | .spByte => .ok s.sp
    | .macr => .ok (if a = 0xFFFF0#20 then s.macr.extractLsb' 0 16 else s.macr.extractLsb' 16 16)
    | .psw | .cs | .es | .pmc | .reserved => refusing (.prohibitedAccess .byteSfrWord a)
    | .product => bytePair s a
  | .dflash => refusing (.prohibitedAccess .dataFlash a)
  | .ram | .gpr | .sfr2 | .cflash | .mirror | .reserved => bytePair s a

/-- `MemRead(a, 2)` (R90). -/
def memRead16 (s : State) (a : Addr) : Result Word := do
  let e ← wordAddr s a
  evenRead16 s e

/-! ### Data writes (R91) -/

/-- A store into the bytes an instruction in RAM has ahead of it is refused (R440). `win` is `next` of the storing
instruction; it is none for the stack writes of an interrupt entry, which is no instruction. -/
def windowCheck (win : Option Addr) (s : State) (a : Addr) : Result Unit :=
  match win with
  | none => .ok ()
  | some next =>
    if s.region s.pc = .ram ∧ (a - next).toNat < s.product.fetchWindow then
      refusing (.prohibitedAccess .storeIntoFetchWindow a)
    else .ok ()

/-- A write of a product SFR (R86). A device register takes the write with no effect the CPU can see (log 18). -/
def productWrite (u : AccessUnit) (s : State) (a : Addr) (v : Byte) : Result State :=
  match sfrEntry s.product a with
  | none => refusing (.unmappedAccess a)
  | some e =>
    if e.writable && unitAllowed e u then
      match e.behaviour with
      | .storage _ => .ok { s with mem := writeCell s.product s.mem a v }
      | .device => .ok s
    else refusing (.prohibitedAccess .sfrUnit a)

/-- A byte write in the SFR area (R86). -/
def sfrWrite (u : AccessUnit) (s : State) (a : Addr) (v : Byte) : Result State :=
  match sfrKind s.product.core a with
  | .spByte => refusing (.prohibitedAccess .spByte a)
  | .psw => .ok (s.setPsw (Psw.ofByte v))
  | .reserved => refusing (.prohibitedAccess .reservedSfr a)
  | .cs => .ok (s.setCs v)
  | .es => .ok (s.setEs v)
  | .pmc => s.writePmc v
  | .macr => refusing (.prohibitedAccess .macrByte a)
  | .product => productWrite u s a v

/-- The byte case of R91 by region, after the window check. -/
def putByte (u : AccessUnit) (s : State) (a : Addr) (v : Byte) : Result State :=
  match s.region a with
  | .ram => .ok { s with mem := writeCell s.product s.mem a v }
  | .gpr => do
    gprCheck s a
    pure (s.setGpr (gprIndexAt a) v)
  | .sfr => sfrWrite u s a v
  | .sfr2 => productWrite u s a v
  | .cflash => refusing (.writeToReadOnly a)
  | .mirror => refusing (.writeToReadOnly a)
  | .dflash => refusing (.prohibitedAccess .dataFlash a)
  | .reserved => refusing (.unmappedAccess a)

/-- `MemWrite(a, 1, v)` of a byte instruction (R91). -/
def memWrite8 (win : Option Addr) (s : State) (a : Addr) (v : Byte) : Result State := do
  windowCheck win s a
  putByte .byte s a v

/-- The byte write of a bit instruction (R103). -/
def memWriteBit (win : Option Addr) (s : State) (a : Addr) (v : Byte) : Result State := do
  windowCheck win s a
  putByte .bit s a v

/-- Two byte writes as a word, low byte at the lower address (R89, R91). -/
def putPair (s : State) (a : Addr) (v : Word) : Result State := do
  let t ← putByte .word s a (loByte v)
  putByte .word t (a + 1#20) (hiByte v)

/-- A word write at an even address: the 16-bit column of R86, else two bytes. -/
def evenWrite16 (s : State) (a : Addr) (v : Word) : Result State :=
  match s.region a with
  | .sfr =>
    match sfrKind s.product.core a with
    | .spByte => .ok (s.setSp v)
    | .macr =>
      .ok { s with macr := if a = 0xFFFF0#20 then s.macr.extractLsb' 16 16 ++ v else v ++ s.macr.extractLsb' 0 16 }
    | .psw | .cs | .es | .pmc | .reserved => refusing (.prohibitedAccess .byteSfrWord a)
    | .product => putPair s a v
  | .ram | .gpr | .sfr2 | .cflash | .mirror | .dflash | .reserved => putPair s a v

/-- `MemWrite(a, 2, v)` (R91). -/
def memWrite16 (win : Option Addr) (s : State) (a : Addr) (v : Word) : Result State := do
  windowCheck win s (wordBase s a)
  windowCheck win s (wordBase s a + 1#20)
  let e ← wordAddr s a
  evenWrite16 s e v

/-! ### The stack (R99, R290) -/

/-- A stack byte must lie in RAM_START to FFEDFH (R49, R99). -/
def stackCheck (s : State) (a : Addr) : Result Unit :=
  if within s.product.ramStart 0xFFEDF#20 a then .ok () else faulting (.stackOutsideRam a)

/-- `StackWrite(s, v)` (R99) at a 16-bit stack address. -/
def stackWrite (win : Option Addr) (s : State) (p : Word) (v : Byte) : Result State := do
  stackCheck s (addrOf 0xF#4 p)
  memWrite8 win s (addrOf 0xF#4 p) v

/-- `StackRead(s)` (R99). -/
def stackRead (s : State) (p : Word) : Result Byte := do
  stackCheck s (addrOf 0xF#4 p)
  memRead8 s (addrOf 0xF#4 p)

/-- `Push4(top, ret)` (R290): the frame of CALL, BRK and interrupts (R47). -/
def push4 (win : Option Addr) (s : State) (top : Byte) (ret : Addr) : Result State := do
  let p := s.sp
  let t ← stackWrite win s (p - 1#16) top
  let t ← stackWrite win t (p - 2#16) ((ret.extractLsb' 16 4).setWidth 8)
  let t ← stackWrite win t (p - 3#16) (ret.extractLsb' 8 8)
  let t ← stackWrite win t (p - 4#16) (ret.extractLsb' 0 8)
  pure (t.setSp (p - 4#16))

/-- `Pop3()` (R290): the return address. -/
def pop3 (s : State) : Result Addr := do
  let l ← stackRead s s.sp
  let h ← stackRead s (s.sp + 1#16)
  let x ← stackRead s (s.sp + 2#16)
  pure (addrOf (x.extractLsb' 0 4) (wordOf l h))

/-! ### Taking an exception and returning from one -/

/-- The PSW of an entry (R293, R383): IE cleared, and ISP loaded where the entry gives it a value. -/
def entryPsw (s : State) (isp : Option (BitVec 2)) : Psw :=
  let p : Psw := { s.psw with ie := false }
  match isp with
  | some v => p.withIsp s.product.hasIsp1 v
  | none => p

/-- ENTRY (R293 BRK, R383 interrupt): the PSW as it is and the return address go to the stack, the PSW becomes that of
an entry, and pc takes the table word of the vector. -/
def enterVector (win : Option Addr) (s : State) (ret : Addr) (vector : Addr) (isp : Option (BitVec 2)) :
    Result State := do
  let t ← push4 win s s.psw.toByte ret
  pure ({ t with psw := entryPsw s isp }.goto (addrOf 0x0#4 (s.tableWord vector)))

/-- RETURN (R295 RETI, R296 RETB): pc and the whole PSW come back from the frame at `sp` of `s`, SP moves over it,
and interrupts are held for one instruction (R60). `b` is the state to write. -/
def leaveVector (s b : State) : Result State := do
  let t ← pop3 s
  let p ← stackRead s (s.sp + 3#16)
  pure (((b.setPsw (Psw.ofByte p)).setSp (s.sp + 4#16)).goto t).hold

end Sys2Proof.Machine
end

