-- ==== Sys2Proof/Machine/Flags.lean ====
section
/-! DEFINITION. Every flag computation of the spec (R211, R223, R232, R233, R241, R242): exact arithmetic on
integers, then the narrow result and the flags. -/

namespace Sys2Proof.Machine

/-- A byte result with the flags of R211. -/
structure Alu8 where
  result : Byte
  z : Bool
  ac : Bool
  cy : Bool
  deriving DecidableEq, Repr

/-- A word result with the flags of R223. -/
structure Alu16 where
  result : Word
  z : Bool
  cy : Bool
  deriving DecidableEq, Repr

/-- A 32-bit result with the flags of R232 and R233. -/
structure Mac32 where
  result : DWord
  ac : Bool
  cy : Bool
  deriving DecidableEq, Repr

/-- `Add8(a, b, c)` (R211). -/
def add8 (a b : Byte) (c : Bool) : Alu8 :=
  let s := a.toNat + b.toNat + c.toNat
  { result := BitVec.ofNat 8 s
    z := BitVec.ofNat 8 s == 0#8
    ac := decide (a.toNat % 16 + b.toNat % 16 + c.toNat > 15)
    cy := decide (s > 255) }

/-- `Sub8(a, b, c)` (R211). -/
def sub8 (a b : Byte) (c : Bool) : Alu8 :=
  let r := BitVec.ofInt 8 ((a.toNat : Int) - b.toNat - c.toNat)
  { result := r
    z := r == 0#8
    ac := decide (a.toNat % 16 < b.toNat % 16 + c.toNat)
    cy := decide (a.toNat < b.toNat + c.toNat) }

/-- `Add16(a, b)` (R223). -/
def add16 (a b : Word) : Alu16 :=
  let s := a.toNat + b.toNat
  { result := BitVec.ofNat 16 s, z := BitVec.ofNat 16 s == 0#16, cy := decide (s > 65535) }

/-- `Sub16(a, b)` (R223). -/
def sub16 (a b : Word) : Alu16 :=
  let r := BitVec.ofInt 16 ((a.toNat : Int) - b.toNat)
  { result := r, z := r == 0#16, cy := decide (a.toNat < b.toNat) }

/-- INC (R241): result, Z and AC. -/
def inc8 (a : Byte) : Alu8 :=
  let r := BitVec.ofNat 8 (a.toNat + 1)
  { result := r, z := r == 0#8, ac := decide (a.toNat % 16 = 15), cy := false }

/-- DEC (R242): result, Z and AC. -/
def dec8 (a : Byte) : Alu8 :=
  let r := BitVec.ofInt 8 ((a.toNat : Int) - 1)
  { result := r, z := r == 0#8, ac := decide (a.toNat % 16 = 0), cy := false }

/-- MACHU (R232): unsigned accumulation. The kept value is the sum modulo 2^32 (log 32). -/
def machu32 (m : DWord) (a b : Word) : Mac32 :=
  let s := m.toNat + a.toNat * b.toNat
  { result := BitVec.ofNat 32 s, ac := false, cy := decide (s ≥ 2 ^ 32) }

/-- MACH (R233): signed accumulation. The kept value is the low 32 bits of the exact sum (log 32). -/
def mach32 (m : DWord) (a b : Word) : Mac32 :=
  let s := m.toInt + a.toInt * b.toInt
  { result := BitVec.ofInt 32 s
    ac := (BitVec.ofInt 32 s).getLsbD 31
    cy := decide (s > 0x7FFFFFFF) || decide (s < -0x80000000) }

/-- Z, AC and CY set from a byte operation (R201 to R204, R208); every other PSW bit stays. -/
def State.setZAcCy (s : State) (z ac cy : Bool) : State := { s with psw := { s.psw with z := z, ac := ac, cy := cy } }

/-- Z alone (R205 to R207). -/
def State.setZ (s : State) (z : Bool) : State := { s with psw := { s.psw with z := z } }

/-- CY alone (R251 to R277). -/
def State.setCy (s : State) (cy : Bool) : State := { s with psw := { s.psw with cy := cy } }

/-- Z and AC (R241, R242). -/
def State.setZAc (s : State) (z ac : Bool) : State := { s with psw := { s.psw with z := z, ac := ac } }

/-- Z and CY (R175). -/
def State.setZCy (s : State) (z cy : Bool) : State := { s with psw := { s.psw with z := z, cy := cy } }

/-- AC and CY (R232, R233). -/
def State.setAcCy (s : State) (ac cy : Bool) : State := { s with psw := { s.psw with ac := ac, cy := cy } }

/-- The fresh unknown AC of one execution of ADDW AX, SUBW AX or CMPW (R223): a FREE VALUE (log 13). -/
def State.freeAc (s : State) : Bool := Config.freeAC s.ticks

/-- A logical shift right by `n`, and the bit shifted out last (R251). -/
def shr8 (v : Byte) (n : Nat) : Byte × Bool := (v >>> n, v.getLsbD (n - 1))

/-- A logical shift right of a word (R252). -/
def shr16 (v : Word) (n : Nat) : Word × Bool := (v >>> n, v.getLsbD (n - 1))

/-- A shift left, and the bit shifted out last (R253). -/
def shl8 (v : Byte) (n : Nat) : Byte × Bool := (v <<< n, v.getLsbD (8 - n))

/-- A shift left of a word (R254). -/
def shl16 (v : Word) (n : Nat) : Word × Bool := (v <<< n, v.getLsbD (16 - n))

/-- An arithmetic shift right, and the bit shifted out last (R255). -/
def sar8 (v : Byte) (n : Nat) : Byte × Bool := (v.sshiftRight n, v.getLsbD (n - 1))

/-- An arithmetic shift right of a word (R256). -/
def sar16 (v : Word) (n : Nat) : Word × Bool := (v.sshiftRight n, v.getLsbD (n - 1))

/-- ROR (R260): bit 0 goes to bit 7 and to CY. -/
def ror8 (v : Byte) : Byte × Bool := (BitVec.ofBool (v.getLsbD 0) ++ v.extractLsb' 1 7, v.getLsbD 0)

/-- ROL (R261): bit 7 goes to bit 0 and to CY. -/
def rol8 (v : Byte) : Byte × Bool := (v.extractLsb' 0 7 ++ BitVec.ofBool (v.getLsbD 7), v.getLsbD 7)

/-- RORC (R262): the old CY enters bit 7. -/
def rorc8 (v : Byte) (cy : Bool) : Byte × Bool := (BitVec.ofBool cy ++ v.extractLsb' 1 7, v.getLsbD 0)

/-- ROLC (R263): the old CY enters bit 0. -/
def rolc8 (v : Byte) (cy : Bool) : Byte × Bool := (v.extractLsb' 0 7 ++ BitVec.ofBool cy, v.getLsbD 7)

/-- ROLWC (R264): the old CY enters bit 0. -/
def rolc16 (v : Word) (cy : Bool) : Word × Bool := (v.extractLsb' 0 15 ++ BitVec.ofBool cy, v.getLsbD 15)

/-- The conditions of the branches and skips (R325 to R330, R341 to R346). -/
inductive Cond where
  | c
  | nc
  | z
  | nz
  | h
  | nh
  deriving DecidableEq, Repr

/-- Whether a condition holds: H is (Z or CY) = 0, NH is (Z or CY) = 1 (R329, R330). -/
def condHolds (p : Psw) : Cond → Bool
  | .c => p.cy
  | .nc => !p.cy
  | .z => p.z
  | .nz => !p.z
  | .h => !(p.z || p.cy)
  | .nh => p.z || p.cy

end Sys2Proof.Machine
end

