-- ==== Sys2Proof/Machine/Operands.lean ====
section
/-! DEFINITION. The operand access functions of R170 and R270: effective addresses, Load8, Store8, Load16, Store16,
ReadBit, WriteBit. Operands are evaluated in the state `s` before the instruction; writes go to a state `b`. -/

namespace Sys2Proof.Machine

/-- `Sum16(x)` (R170): a sum above FFFFH is `ProhibitedAddress` (R100, R102). -/
def sum16 (x : Nat) : Result Word := if x > 0xFFFF then refusing .prohibitedAddress else .ok (BitVec.ofNat 16 x)

/-- The upper four address bits (R94): ES bits 3 to 0 in the ES: forms, else FH. -/
def hiNib (s : State) (es : Bool) : BitVec 4 := if es then s.es.extractLsb' 0 4 else 0xF#4

/-- The address of `saddr` (R96). -/
def saddrAddr (v : Byte) : Addr :=
  if v.toNat < 0x20 then 0xFFF00#20 + v.setWidth 20 else 0xFFE00#20 + v.setWidth 20

/-- The address of `sfr` (R97). -/
def sfrAddr (v : Byte) : Addr := 0xFFF00#20 + v.setWidth 20

/-- `hi :: Sum16(x)` (R170). -/
def basedAddr (s : State) (es : Bool) (x : Nat) : Result Addr := do
  let w ← sum16 x
  pure (addrOf (hiNib s es) w)

/-- `[SP+byte]` (R101): SP within RAM and every byte accessed at or below FFEDFH; a word is accessed at an even
address, so its last byte is the odd one. -/
def spAddr (s : State) (off : Byte) (word : Bool) : Result Addr := do
  let w ← sum16 (s.sp.toNat + off.toNat)
  let a := addrOf 0xF#4 w
  let last := if word then a ||| 1#20 else a
  if s.product.ramStart.toNat ≤ (addrOf 0xF#4 s.sp).toNat ∧ last.toNat ≤ 0xFFEDF then pure a
  else faulting (.stackOutsideRam a)

/-- `EA(o)` (R170): the effective address of a memory operand accessed as a byte or as a word. -/
def ea (s : State) (word : Bool) : Mem → Result Addr
  | .saddr v => .ok (saddrAddr v)
  | .sfr v => .ok (sfrAddr v)
  | .abs es w => .ok (addrOf (hiNib s es) w)
  | .de es => .ok (addrOf (hiNib s es) (s.rp .de))
  | .deOff es o => basedAddr s es ((s.rp .de).toNat + o.toNat)
  | .hl es => .ok (addrOf (hiNib s es) (s.rp .hl))
  | .hlOff es o => basedAddr s es ((s.rp .hl).toNat + o.toNat)
  | .hlB es => basedAddr s es ((s.rp .hl).toNat + (s.r8 .b).toNat)
  | .hlC es => basedAddr s es ((s.rp .hl).toNat + (s.r8 .c).toNat)
  | .wordB es w => basedAddr s es (w.toNat + (s.r8 .b).toNat)
  | .wordC es w => basedAddr s es (w.toNat + (s.r8 .c).toNat)
  | .wordBC es w => basedAddr s es (w.toNat + (s.rp .bc).toNat)
  | .spOff o => spAddr s o word

/-- The address of PSW (R41). -/
def pswAddr : Addr := 0xFFFFA#20

/-- The address of CS (R51). -/
def csAddr : Addr := 0xFFFFC#20

/-- The address of ES (R50). -/
def esAddr : Addr := 0xFFFFD#20

/-- The address of SP (R44). -/
def spRegAddr : Addr := 0xFFFF8#20

/-- `Load8(o)` (R170). The PSW, CS and ES operands are the SFRs at their addresses. -/
def load8 (s : State) : Opd8 → Result Byte
  | .reg r => .ok (s.r8 r)
  | .imm v => .ok v
  | .mem m => do
    let a ← ea s false m
    memRead8 s a
  | .psw => memRead8 s pswAddr
  | .cs => memRead8 s csAddr
  | .es => memRead8 s esAddr

/-- `Store8(o, v)` (R170) into `b`, the operand's address taken in `s`. An immediate is no destination: no
instruction has one, and the store does nothing. -/
def store8 (s : State) (next : Addr) (b : State) (o : Opd8) (v : Byte) : Result State :=
  match o with
  | .reg r => .ok (b.setR8 r v)
  | .imm _ => .ok b
  | .mem m => do
    let a ← ea s false m
    memWrite8 (some next) b a v
  | .psw => memWrite8 (some next) b pswAddr v
  | .cs => memWrite8 (some next) b csAddr v
  | .es => memWrite8 (some next) b esAddr v

/-- `Load16(o)` (R170). SP is the 16-bit SFR at FFFF8H (R86, R302). -/
def load16 (s : State) : Opd16 → Result Word
  | .rp p => .ok (s.rp p)
  | .imm v => .ok v
  | .mem m => do
    let a ← ea s true m
    memRead16 s a
  | .sp => memRead16 s spRegAddr

/-- `Store16(o, v)` (R170) into `b`. -/
def store16 (s : State) (next : Addr) (b : State) (o : Opd16) (v : Word) : Result State :=
  match o with
  | .rp p => .ok (b.setRp p v)
  | .imm _ => .ok b
  | .mem m => do
    let a ← ea s true m
    memWrite16 (some next) b a v
  | .sp => memWrite16 (some next) b spRegAddr v

/-- `ReadBit(o, b)` (R270). -/
def readBit (s : State) : BitOpd → Result Bool
  | .mem m n => do
    let a ← ea s false m
    let v ← memReadBit s a
    pure (bitOf v n)
  | .a n => .ok (bitOf (s.r8 .a) n)
  | .psw n => .ok (s.psw.getBit n)
  | .cy => .ok s.psw.cy

/-- `WriteBit(o, b, v)` (R270) into `b`: a memory bit by reading, changing and writing its byte; a PSW bit holds
interrupts (R278). -/
def writeBit (s : State) (next : Addr) (b : State) (o : BitOpd) (v : Bool) : Result State :=
  match o with
  | .mem m n => do
    let a ← ea s false m
    let t ← memReadBit s a
    memWriteBit (some next) b a (withBit t n v)
  | .a n => .ok (b.setR8 .a (withBit (s.r8 .a) n v))
  | .psw n => .ok (b.setPsw (b.psw.setBit n v)).hold
  | .cy => .ok (b.setCy v)

end Sys2Proof.Machine
end

