-- ==== Sys2Proof/Machine/Alu16.lean ====
section
/-! DEFINITION. The 16-bit operation instructions (R220 to R223, R303, R304): ADDW, SUBW, CMPW and the SP forms. -/

namespace Sys2Proof.Machine

/-- ADDW AX, src (R220). AC is a free value (R223, log 13). -/
def execAddw (src : Opd16) (s : State) : Host.Outcome State Fault Refusal :=
  outcome do
    let b ← load16 s src
    let r := add16 (s.rp .ax) b
    pure (((s.begin.setRp .ax r.result).setZAcCy r.z s.freeAc r.cy).goto (s.next (.addw src)))

/-- SUBW AX, src (R221). AC is a free value (R223, log 13). -/
def execSubw (src : Opd16) (s : State) : Host.Outcome State Fault Refusal :=
  outcome do
    let b ← load16 s src
    let r := sub16 (s.rp .ax) b
    pure (((s.begin.setRp .ax r.result).setZAcCy r.z s.freeAc r.cy).goto (s.next (.subw src)))

/-- CMPW AX, src (R222): nothing stored. AC is a free value (R223, log 13). -/
def execCmpw (src : Opd16) (s : State) : Host.Outcome State Fault Refusal :=
  outcome do
    let b ← load16 s src
    let r := sub16 (s.rp .ax) b
    pure ((s.begin.setZAcCy r.z s.freeAc r.cy).goto (s.next (.cmpw src)))

/-- ADDW SP, #byte (R303). -/
def execAddwSp (v : Byte) (s : State) : Host.Outcome State Fault Refusal :=
  outcome (.ok ((s.begin.setSp (s.sp + v.setWidth 16)).goto (s.next (.addwSp v))))

/-- SUBW SP, #byte (R304). -/
def execSubwSp (v : Byte) (s : State) : Host.Outcome State Fault Refusal :=
  outcome (.ok ((s.begin.setSp (s.sp - v.setWidth 16)).goto (s.next (.subwSp v))))

end Sys2Proof.Machine
end

