-- ==== Sys2Proof/Machine/Alu8.lean ====
section
/-! DEFINITION. The 8-bit operation instructions (R200 to R210): ADD, ADDC, SUB, SUBC, AND, OR, XOR, CMP, CMP0, CMPS. -/

namespace Sys2Proof.Machine

/-- The shape of ADD, ADDC, SUB, SUBC (R201 to R204): load both, operate, store, set Z, AC, CY. The flags are set
after the store, as the rules write it (log 38). -/
def arith8 (i : Instr) (f : Byte → Byte → Alu8) (dst src : Opd8) (s : State) : Result State := do
  let next := s.next i
  let a ← load8 s dst
  let b ← load8 s src
  let r := f a b
  let t ← store8 s next s.begin dst r.result
  pure ((t.setZAcCy r.z r.ac r.cy).goto next)

/-- The shape of AND, OR, XOR (R205 to R207): Z alone is set. -/
def logic8 (i : Instr) (f : Byte → Byte → Byte) (dst src : Opd8) (s : State) : Result State := do
  let next := s.next i
  let a ← load8 s dst
  let b ← load8 s src
  let t ← store8 s next s.begin dst (f a b)
  pure ((t.setZ (f a b == 0#8)).goto next)

/-- ADD (R201). -/
def execAdd (dst src : Opd8) (s : State) : Host.Outcome State Fault Refusal :=
  outcome (arith8 (.add dst src) (add8 · · false) dst src s)

/-- ADDC (R202). -/
def execAddc (dst src : Opd8) (s : State) : Host.Outcome State Fault Refusal :=
  outcome (arith8 (.addc dst src) (add8 · · s.psw.cy) dst src s)

/-- SUB (R203). -/
def execSub (dst src : Opd8) (s : State) : Host.Outcome State Fault Refusal :=
  outcome (arith8 (.sub dst src) (sub8 · · false) dst src s)

/-- SUBC (R204). -/
def execSubc (dst src : Opd8) (s : State) : Host.Outcome State Fault Refusal :=
  outcome (arith8 (.subc dst src) (sub8 · · s.psw.cy) dst src s)

/-- AND (R205). -/
def execAnd (dst src : Opd8) (s : State) : Host.Outcome State Fault Refusal :=
  outcome (logic8 (.and dst src) (· &&& ·) dst src s)

/-- OR (R206). -/
def execOr (dst src : Opd8) (s : State) : Host.Outcome State Fault Refusal :=
  outcome (logic8 (.or dst src) (· ||| ·) dst src s)

/-- XOR (R207). -/
def execXor (dst src : Opd8) (s : State) : Host.Outcome State Fault Refusal :=
  outcome (logic8 (.xor dst src) (· ^^^ ·) dst src s)

/-- CMP (R208): the flags of SUB, nothing stored. -/
def execCmp (dst src : Opd8) (s : State) : Host.Outcome State Fault Refusal :=
  outcome do
    let a ← load8 s dst
    let b ← load8 s src
    let r := sub8 a b false
    pure ((s.begin.setZAcCy r.z r.ac r.cy).goto (s.next (.cmp dst src)))

/-- CMP0 (R209). -/
def execCmp0 (dst : Opd8) (s : State) : Host.Outcome State Fault Refusal :=
  outcome do
    let a ← load8 s dst
    pure ((s.begin.setZAcCy (a == 0#8) false false).goto (s.next (.cmp0 dst)))

/-- CMPS X, [HL+byte] (R210). CY is not the borrow. -/
def execCmps (es : Bool) (off : Byte) (s : State) : Host.Outcome State Fault Refusal :=
  outcome do
    let m ← load8 s (.mem (.hlOff es off))
    let r := sub8 (s.r8 .x) m false
    pure ((s.begin.setZAcCy r.z r.ac (r.result != 0#8 || s.r8 .a == 0#8 || s.r8 .x == 0#8)).goto
      (s.next (.cmps es off)))

end Sys2Proof.Machine
end

