-- ==== Sys2Proof/Machine/BitOps.lean ====
section
/-! DEFINITION. Bit manipulation (R270 to R278): MOV1, AND1, OR1, XOR1, SET1, CLR1, NOT1. -/

namespace Sys2Proof.Machine

/-- A result to CY. -/
def toCy (s : State) (i : Instr) (v : Bool) : Result State := .ok ((s.begin.setCy v).goto (s.next i))

/-- MOV1 (R271): a bit to CY, or CY to a bit. -/
def execMov1 (dst src : BitOpd) (s : State) : Host.Outcome State Fault Refusal :=
  outcome do
    let next := s.next (.mov1 dst src)
    let v ← readBit s src
    let t ← writeBit s next s.begin dst v
    pure (t.goto next)

/-- AND1 CY, src (R272). -/
def execAnd1 (src : BitOpd) (s : State) : Host.Outcome State Fault Refusal :=
  outcome do
    let v ← readBit s src
    toCy s (.and1 src) (s.psw.cy && v)

/-- OR1 CY, src (R273). -/
def execOr1 (src : BitOpd) (s : State) : Host.Outcome State Fault Refusal :=
  outcome do
    let v ← readBit s src
    toCy s (.or1 src) (s.psw.cy || v)

/-- XOR1 CY, src (R274). -/
def execXor1 (src : BitOpd) (s : State) : Host.Outcome State Fault Refusal :=
  outcome do
    let v ← readBit s src
    toCy s (.xor1 src) (s.psw.cy ^^ v)

/-- SET1 (R275). -/
def execSet1 (dst : BitOpd) (s : State) : Host.Outcome State Fault Refusal :=
  outcome do
    let next := s.next (.set1 dst)
    let t ← writeBit s next s.begin dst true
    pure (t.goto next)

/-- CLR1 (R276). -/
def execClr1 (dst : BitOpd) (s : State) : Host.Outcome State Fault Refusal :=
  outcome do
    let next := s.next (.clr1 dst)
    let t ← writeBit s next s.begin dst false
    pure (t.goto next)

/-- NOT1 CY (R277). -/
def execNot1 (s : State) : Host.Outcome State Fault Refusal :=
  outcome (toCy s .not1 (!s.psw.cy))

end Sys2Proof.Machine
end

