-- ==== Sys2Proof/Machine/Fetch.lean ====
section
/-! DEFINITION. Instruction fetch (R92) and the fetch-and-decode loop (R123). -/

namespace Sys2Proof.Machine

/-- `Fetch(a)` (R92): code flash and RAM only. -/
def fetchByte (s : State) (a : Addr) : Result Byte :=
  match s.region a with
  | .cflash => .ok (s.image a)
  | .ram =>
    match readCell s.product s.mem a with
    | some v => .ok v
    | none => faulting (.unwrittenRead a)
  | .gpr | .mirror | .sfr | .sfr2 | .dflash | .reserved => refusing (.prohibitedFetch a)

/-- Fetches one byte after another from `a` on until they decode, at most `fuel` more of them. So a fetch outcome is
reported in byte order and before `UndefinedInstruction` (R372). -/
def fetchLoop (s : State) (a : Addr) : Nat → List Byte → Result Instr
  | 0, _ => refusing .undefinedInstruction
  | fuel + 1, bytes => do
    let b ← fetchByte s (a + BitVec.ofNat 20 bytes.length)
    match decode (bytes ++ [b]) with
    | .done i => pure i
    | .undefined => refusing .undefinedInstruction
    | .more => fetchLoop s a fuel (bytes ++ [b])

/-- The instruction at an address (R123): one to five bytes (R120). -/
def fetchInstr (s : State) (a : Addr) : Result Instr := fetchLoop s a 5 []

/-- `Length(next)` of R340: the length of the instruction at an address, which must be one of this core. -/
def fetchLength (s : State) (a : Addr) : Result Nat := do
  let i ← fetchInstr s a
  s.checkCore i
  pure i.len

/-- The bytes from an address on are those of a list, as the fetch reads them. -/
def bytesAt (s : State) (a : Addr) : List Byte → Bool
  | [] => true
  | b :: t =>
    match fetchByte s a with
    | .ok v => decide (v = b) && bytesAt s (a + 1#20) t
    | .error _ => false

end Sys2Proof.Machine
end

