-- ==== Sys2Proof/Machine/Branch.lean ====
section
/-! DEFINITION. Branches and skips (R320 to R346). -/

namespace Sys2Proof.Machine

/-- `Rel8(adr)` (R320). -/
def rel8 (next : Addr) (d : Byte) : Addr := next + sext8 d

/-- `Rel16(adrh, adrl)` (R320). -/
def rel16 (next : Addr) (d : Word) : Addr := next + sext16 d

/-- A taken relative branch from RAM into code flash is `ProhibitedBranch` (R321). -/
def branchCheck (s : State) (target : Addr) : Result Unit :=
  if s.region s.pc = .ram ∧ s.region target = .cflash then refusing (.prohibitedBranch target) else .ok ()

/-- BR (R322). -/
def execBr (t : BrTarget) (s : State) : Host.Outcome State Fault Refusal :=
  outcome do
    let next := s.next (.br t)
    match t with
    | .ax => pure (s.begin.goto (addrOf (s.cs.extractLsb' 0 4) (s.rp .ax)))
    | .rel8 d => do
      branchCheck s (rel8 next d)
      pure (s.begin.goto (rel8 next d))
    | .rel16 d => do
      branchCheck s (rel16 next d)
      pure (s.begin.goto (rel16 next d))
    | .abs16 a => pure (s.begin.goto (addrOf 0x0#4 a))
    | .abs20 a => pure (s.begin.goto a)

/-- The shape of the flag-condition branches (R323). -/
def condBranch (s : State) (i : Instr) (cond : Cond) (d : Byte) : Result State := do
  let next := s.next i
  if condHolds s.psw cond then
    branchCheck s (rel8 next d)
    pure (s.begin.goto (rel8 next d))
  else pure (s.begin.goto next)

/-- BC (R325). -/
def execBc (d : Byte) (s : State) : Host.Outcome State Fault Refusal := outcome (condBranch s (.bc d) .c d)

/-- BNC (R326). -/
def execBnc (d : Byte) (s : State) : Host.Outcome State Fault Refusal := outcome (condBranch s (.bnc d) .nc d)

/-- BZ (R327). -/
def execBz (d : Byte) (s : State) : Host.Outcome State Fault Refusal := outcome (condBranch s (.bz d) .z d)

/-- BNZ (R328). -/
def execBnz (d : Byte) (s : State) : Host.Outcome State Fault Refusal := outcome (condBranch s (.bnz d) .nz d)

/-- BH (R329). -/
def execBh (d : Byte) (s : State) : Host.Outcome State Fault Refusal := outcome (condBranch s (.bh d) .h d)

/-- BNH (R330). -/
def execBnh (d : Byte) (s : State) : Host.Outcome State Fault Refusal := outcome (condBranch s (.bnh d) .nh d)

/-- The shape of BT and BF (R331, R332): the branch is taken when the bit is `want`. -/
def bitBranch (s : State) (i : Instr) (o : BitOpd) (want : Bool) (d : Byte) : Result State := do
  let next := s.next i
  let v ← readBit s o
  if v = want then
    branchCheck s (rel8 next d)
    pure (s.begin.goto (rel8 next d))
  else pure (s.begin.goto next)

/-- BT (R331). -/
def execBt (o : BitOpd) (d : Byte) (s : State) : Host.Outcome State Fault Refusal :=
  outcome (bitBranch s (.bt o d) o true d)

/-- BF (R332). -/
def execBf (o : BitOpd) (d : Byte) (s : State) : Host.Outcome State Fault Refusal :=
  outcome (bitBranch s (.bf o d) o false d)

/-- The bit operand is a bit of the PSW. -/
def isPswBit : BitOpd → Bool
  | .psw _ => true
  | .mem _ _ | .a _ | .cy => false

/-- BTCLR (R333). The PSW form holds interrupts, taken or not (R60, R333). -/
def execBtclr (o : BitOpd) (d : Byte) (s : State) : Host.Outcome State Fault Refusal :=
  outcome do
    let next := s.next (.btclr o d)
    let v ← readBit s o
    let t ←
      if v then do
        branchCheck s (rel8 next d)
        let t ← writeBit s next s.begin o false
        pure (t.goto (rel8 next d))
      else pure (s.begin.goto next)
    pure (if isPswBit o then t.hold else t)

/-- The shape of the skips (R340): a true skip passes over the instruction at `next` in the same step; a false one
holds interrupts for the next instruction. -/
def skipIf (s : State) (i : Instr) (cond : Cond) : Result State := do
  let next := s.next i
  if condHolds s.psw cond then
    let n ← fetchLength s next
    pure (s.begin.goto (next + BitVec.ofNat 20 n))
  else pure (s.begin.goto next).hold

/-- SKC (R341). -/
def execSkc (s : State) : Host.Outcome State Fault Refusal := outcome (skipIf s .skc .c)

/-- SKNC (R342). -/
def execSknc (s : State) : Host.Outcome State Fault Refusal := outcome (skipIf s .sknc .nc)

/-- SKZ (R343). -/
def execSkz (s : State) : Host.Outcome State Fault Refusal := outcome (skipIf s .skz .z)

/-- SKNZ (R344). -/
def execSknz (s : State) : Host.Outcome State Fault Refusal := outcome (skipIf s .sknz .nz)

/-- SKH (R345). -/
def execSkh (s : State) : Host.Outcome State Fault Refusal := outcome (skipIf s .skh .h)

/-- SKNH (R346). -/
def execSknh (s : State) : Host.Outcome State Fault Refusal := outcome (skipIf s .sknh .nh)

end Sys2Proof.Machine
end

