-- ==== Sys2Proof/Machine/CallStack.lean ====
section
/-! DEFINITION. Calls, returns and the stack (R290 to R301): CALL, CALLT, BRK, RET, RETI, RETB, PUSH, POP. -/

namespace Sys2Proof.Machine

/-- The target of CALL (R291), with the check of the relative form (R321). -/
def callTarget (s : State) (next : Addr) : CallTarget → Result Addr
  | .rp p => .ok (addrOf (s.cs.extractLsb' 0 4) (s.rp p))
  | .abs16 a => .ok (addrOf 0x0#4 a)
  | .abs20 a => .ok a
  | .rel16 d => do
    branchCheck s (rel16 next d)
    pure (rel16 next d)

/-- CALL (R291). -/
def execCall (t : CallTarget) (s : State) : Host.Outcome State Fault Refusal :=
  outcome do
    let next := s.next (.call t)
    let target ← callTarget s next t
    let b ← push4 (some next) s.begin 0x00#8 next
    pure (b.goto target)

/-- The CALLT table address `addr5 = 0080H + 2 * n` (R79, R128). -/
def calltAddr (n : BitVec 5) : Addr := 0x00080#20 + 2#20 * n.setWidth 20

/-- CALLT [addr5] (R292). -/
def execCallt (n : BitVec 5) (s : State) : Host.Outcome State Fault Refusal :=
  outcome do
    let next := s.next (.callt n)
    let b ← push4 (some next) s.begin 0x00#8 next
    pure (b.goto (addrOf 0x0#4 (s.tableWord (calltAddr n))))

/-- The BRK vector (R78, R293). -/
def brkVector : Addr := 0x0007E#20

/-- BRK (R293): the shared entry with the PSW as it is, IE cleared, ISP unchanged. -/
def execBrk (s : State) : Host.Outcome State Fault Refusal :=
  outcome (enterVector (some (s.next .brk)) s.begin (s.next .brk) brkVector none)

/-- RET (R294): the byte at SP+3 is not read. -/
def execRet (s : State) : Host.Outcome State Fault Refusal :=
  outcome do
    let t ← pop3 s
    pure ((s.begin.setSp (s.sp + 4#16)).goto t)

/-- RETI (R295): the shared return, and the notice to the interrupt controller (R385). -/
def execReti (s : State) : Host.Outcome State Fault Refusal :=
  outcome do
    let t ← leaveVector s s.begin
    pure { t with notices := .returned :: t.notices }

/-- RETB (R296): the shared return. -/
def execRetb (s : State) : Host.Outcome State Fault Refusal :=
  outcome (leaveVector s s.begin)

/-- The bytes PUSH stores, high then low (R300): the pair, or the PSW above 00H. -/
def pushBytes (s : State) : StackOpd → Byte × Byte
  | .rp p => (s.r8 (pairHi p), s.r8 (pairLo p))
  | .psw => (s.psw.toByte, 0x00#8)

/-- PUSH (R300). -/
def execPush (src : StackOpd) (s : State) : Host.Outcome State Fault Refusal :=
  outcome do
    let next := s.next (.push src)
    let v := pushBytes s src
    let t ← stackWrite (some next) s.begin (s.sp - 1#16) v.1
    let t ← stackWrite (some next) t (s.sp - 2#16) v.2
    pure ((t.setSp (s.sp - 2#16)).goto next)

/-- POP (R301). POP PSW does not read the byte at SP and holds interrupts. -/
def execPop (dst : StackOpd) (s : State) : Host.Outcome State Fault Refusal :=
  outcome do
    let next := s.next (.pop dst)
    match dst with
    | .rp p => do
      let l ← stackRead s s.sp
      let h ← stackRead s (s.sp + 1#16)
      pure (((s.begin.setRp p (wordOf l h)).setSp (s.sp + 2#16)).goto next)
    | .psw => do
      let v ← stackRead s (s.sp + 1#16)
      pure (((s.begin.setPsw (Psw.ofByte v)).hold.setSp (s.sp + 2#16)).goto next)

end Sys2Proof.Machine
end

