-- ==== Sys2Proof/Machine/Control.lean ====
section
/-! DEFINITION. CPU control (R350 to R359) and the PREFIX byte. -/

namespace Sys2Proof.Machine

/-- SEL RBn (R351): not on S1. The new bank counts from the next instruction on. -/
def execSel (n : BitVec 2) (s : State) : Host.Outcome State Fault Refusal :=
  outcome do
    s.checkCore (.sel n)
    pure ({ s.begin with psw := { s.psw with rbs1 := n.getLsbD 1, rbs0 := n.getLsbD 0 } }.goto (s.next (.sel n)))

/-- NOP (R352). -/
def execNop (s : State) : Host.Outcome State Fault Refusal :=
  outcome (.ok (s.begin.goto (s.next .nop)))

/-- EI (R353): IE is set, interrupts are held for one instruction. -/
def execEi (s : State) : Host.Outcome State Fault Refusal :=
  outcome (.ok ({ s.begin with psw := { s.psw with ie := true } }.goto (s.next .ei)).hold)

/-- DI (R354): IE is cleared, interrupts are held for one instruction. -/
def execDi (s : State) : Host.Outcome State Fault Refusal :=
  outcome (.ok ({ s.begin with psw := { s.psw with ie := false } }.goto (s.next .di)).hold)

/-- HALT (R356). -/
def execHalt (s : State) : Host.Outcome State Fault Refusal :=
  outcome (.ok ({ s.begin with mode := .halt }.goto (s.next .halt)))

/-- STOP (R357). -/
def execStop (s : State) : Host.Outcome State Fault Refusal :=
  outcome (.ok ({ s.begin with mode := .stop }.goto (s.next .stop)))

/-- The byte 11H where no ES: form follows (R142, R358): `UndefinedInstruction`, on every core. -/
def execPrefixByte (_ : State) : Host.Outcome State Fault Refusal :=
  outcome (refusing .undefinedInstruction)

end Sys2Proof.Machine
end

