-- ==== Sys2Proof/Machine/IncDec.lean ====
section
/-! DEFINITION. Increment and decrement (R240 to R244): INC, DEC, INCW, DECW. -/

namespace Sys2Proof.Machine

/-- INC (R241): CY is not changed. -/
def execInc (dst : Opd8) (s : State) : Host.Outcome State Fault Refusal :=
  outcome do
    let next := s.next (.inc dst)
    let a ← load8 s dst
    let r := inc8 a
    let t ← store8 s next s.begin dst r.result
    pure ((t.setZAc r.z r.ac).goto next)

/-- DEC (R242): CY is not changed. -/
def execDec (dst : Opd8) (s : State) : Host.Outcome State Fault Refusal :=
  outcome do
    let next := s.next (.dec dst)
    let a ← load8 s dst
    let r := dec8 a
    let t ← store8 s next s.begin dst r.result
    pure ((t.setZAc r.z r.ac).goto next)

/-- INCW (R243): no flag is changed. -/
def execIncw (dst : Opd16) (s : State) : Host.Outcome State Fault Refusal :=
  outcome do
    let next := s.next (.incw dst)
    let a ← load16 s dst
    let t ← store16 s next s.begin dst (a + 1#16)
    pure (t.goto next)

/-- DECW (R244): no flag is changed. -/
def execDecw (dst : Opd16) (s : State) : Host.Outcome State Fault Refusal :=
  outcome do
    let next := s.next (.decw dst)
    let a ← load16 s dst
    let t ← store16 s next s.begin dst (a - 1#16)
    pure (t.goto next)

end Sys2Proof.Machine
end

