-- ==== Sys2Proof/Machine/MulDiv.lean ====
section
/-! DEFINITION. Multiply, divide, multiply and accumulate (R225 to R234). All but MULU are on S3 only (R230). -/

namespace Sys2Proof.Machine

/-- `BC::AX` (R230). -/
def State.bcax (s : State) : DWord := s.rp .bc ++ s.rp .ax

/-- `HL::DE` (R230). -/
def State.hlde (s : State) : DWord := s.rp .hl ++ s.rp .de

/-- `BC::AX <- v`. -/
def State.setBcax (s : State) (v : DWord) : State := (s.setRp .bc (v.extractLsb' 16 16)).setRp .ax (v.extractLsb' 0 16)

/-- `HL::DE <- v`. -/
def State.setHlde (s : State) (v : DWord) : State := (s.setRp .hl (v.extractLsb' 16 16)).setRp .de (v.extractLsb' 0 16)

/-- Marks that the instruction of `s` is a division, for the boundary after it (R234). -/
def State.markDivision (s : State) (at_ : Addr) : State := { s with afterDiv := some at_ }

/-- MULU X (R225): unsigned 8 by 8. -/
def execMulu (s : State) : Host.Outcome State Fault Refusal :=
  outcome (.ok ((s.begin.setRp .ax (BitVec.ofNat 16 ((s.r8 .a).toNat * (s.r8 .x).toNat))).goto (s.next .mulu)))

/-- MULHU (R226): unsigned 16 by 16. -/
def execMulhu (s : State) : Host.Outcome State Fault Refusal :=
  outcome do
    s.checkCore .mulhu
    pure ((s.begin.setBcax (BitVec.ofNat 32 ((s.rp .ax).toNat * (s.rp .bc).toNat))).goto (s.next .mulhu))

/-- MULH (R227): signed 16 by 16. -/
def execMulh (s : State) : Host.Outcome State Fault Refusal :=
  outcome do
    s.checkCore .mulh
    pure ((s.begin.setBcax (BitVec.ofInt 32 ((s.rp .ax).toInt * (s.rp .bc).toInt))).goto (s.next .mulh))

/-- The quotient and remainder of DIVHU, a zero divisor among them (R228). -/
def divhu16 (n d : Word) : Word × Word :=
  if d = 0#16 then (0xFFFF#16, n) else (BitVec.ofNat 16 (n.toNat / d.toNat), BitVec.ofNat 16 (n.toNat % d.toNat))

/-- DIVHU (R228): quotient to AX, remainder to DE. -/
def execDivhu (s : State) : Host.Outcome State Fault Refusal :=
  outcome do
    s.checkCore .divhu
    let r := divhu16 (s.rp .ax) (s.rp .de)
    pure ((((s.begin.setRp .ax r.1).setRp .de r.2).markDivision s.pc).goto (s.next .divhu))

/-- The quotient and remainder of DIVWU, a zero divisor among them (R229, log 42). -/
def divwu32 (n d : DWord) : DWord × DWord :=
  if d = 0#32 then (0xFFFFFFFF#32, n)
  else (BitVec.ofNat 32 (n.toNat / d.toNat), BitVec.ofNat 32 (n.toNat % d.toNat))

/-- DIVWU (R229): quotient to BCAX, remainder to HLDE. -/
def execDivwu (s : State) : Host.Outcome State Fault Refusal :=
  outcome do
    s.checkCore .divwu
    let r := divwu32 s.bcax s.hlde
    pure ((((s.begin.setBcax r.1).setHlde r.2).markDivision s.pc).goto (s.next .divwu))

/-- MACHU (R232). -/
def execMachu (s : State) : Host.Outcome State Fault Refusal :=
  outcome do
    s.checkCore .machu
    let r := machu32 s.macr (s.rp .ax) (s.rp .bc)
    pure (({ s.begin with macr := r.result }.setAcCy r.ac r.cy).goto (s.next .machu))

/-- MACH (R233). -/
def execMach (s : State) : Host.Outcome State Fault Refusal :=
  outcome do
    s.checkCore .mach
    let r := mach32 s.macr (s.rp .ax) (s.rp .bc)
    pure (({ s.begin with macr := r.result }.setAcCy r.ac r.cy).goto (s.next .mach))

end Sys2Proof.Machine
end

