-- ==== Sys2Proof/Machine/Shift.lean ====
section
/-! DEFINITION. Shifts and rotates (R250 to R264). Only CY changes among the flags. -/

namespace Sys2Proof.Machine

/-- A byte result to a register and the bit moved out to CY. -/
def toR8 (s : State) (i : Instr) (r : Reg8) (v : Byte × Bool) : Result State :=
  .ok (((s.begin.setR8 r v.1).setCy v.2).goto (s.next i))

/-- A word result to a register pair and the bit moved out to CY. -/
def toRp (s : State) (i : Instr) (p : RegPair) (v : Word × Bool) : Result State :=
  .ok (((s.begin.setRp p v.1).setCy v.2).goto (s.next i))

/-- SHR A, cnt (R251). -/
def execShr (cnt : BitVec 3) (s : State) : Host.Outcome State Fault Refusal :=
  outcome (toR8 s (.shr cnt) .a (shr8 (s.r8 .a) cnt.toNat))

/-- SHRW AX, cnt (R252). -/
def execShrw (cnt : BitVec 4) (s : State) : Host.Outcome State Fault Refusal :=
  outcome (toRp s (.shrw cnt) .ax (shr16 (s.rp .ax) cnt.toNat))

/-- SHL A/B/C, cnt (R253). -/
def execShl (r : Reg8) (cnt : BitVec 3) (s : State) : Host.Outcome State Fault Refusal :=
  outcome (toR8 s (.shl r cnt) r (shl8 (s.r8 r) cnt.toNat))

/-- SHLW AX/BC, cnt (R254). -/
def execShlw (p : RegPair) (cnt : BitVec 4) (s : State) : Host.Outcome State Fault Refusal :=
  outcome (toRp s (.shlw p cnt) p (shl16 (s.rp p) cnt.toNat))

/-- SAR A, cnt (R255). -/
def execSar (cnt : BitVec 3) (s : State) : Host.Outcome State Fault Refusal :=
  outcome (toR8 s (.sar cnt) .a (sar8 (s.r8 .a) cnt.toNat))

/-- SARW AX, cnt (R256). -/
def execSarw (cnt : BitVec 4) (s : State) : Host.Outcome State Fault Refusal :=
  outcome (toRp s (.sarw cnt) .ax (sar16 (s.rp .ax) cnt.toNat))

/-- ROR A, 1 (R260). -/
def execRor (s : State) : Host.Outcome State Fault Refusal :=
  outcome (toR8 s .ror .a (ror8 (s.r8 .a)))

/-- ROL A, 1 (R261). -/
def execRol (s : State) : Host.Outcome State Fault Refusal :=
  outcome (toR8 s .rol .a (rol8 (s.r8 .a)))

/-- RORC A, 1 (R262). -/
def execRorc (s : State) : Host.Outcome State Fault Refusal :=
  outcome (toR8 s .rorc .a (rorc8 (s.r8 .a) s.psw.cy))

/-- ROLC A, 1 (R263). -/
def execRolc (s : State) : Host.Outcome State Fault Refusal :=
  outcome (toR8 s .rolc .a (rolc8 (s.r8 .a) s.psw.cy))

/-- ROLWC AX/BC, 1 (R264). -/
def execRolwc (p : RegPair) (s : State) : Host.Outcome State Fault Refusal :=
  outcome (toRp s (.rolwc p) p (rolc16 (s.rp p) s.psw.cy))

end Sys2Proof.Machine
end

