-- ==== Sys2Proof/Machine/Transfer16.lean ====
section
/-! DEFINITION. The 16-bit data transfer instructions (R191 to R194, R302): MOVW, XCHW, ONEW, CLRW. -/

namespace Sys2Proof.Machine

/-- MOVW (R191), the SP forms among it (R302). -/
def execMovw (dst src : Opd16) (s : State) : Host.Outcome State Fault Refusal :=
  outcome do
    let next := s.next (.movw dst src)
    let v ← load16 s src
    let t ← store16 s next s.begin dst v
    pure (t.goto next)

/-- XCHW AX, rp (R192). -/
def execXchw (p : RegPair) (s : State) : Host.Outcome State Fault Refusal :=
  outcome (.ok (((s.begin.setRp p (s.rp .ax)).setRp .ax (s.rp p)).goto (s.next (.xchw p))))

/-- ONEW (R193). -/
def execOnew (p : RegPair) (s : State) : Host.Outcome State Fault Refusal :=
  outcome (.ok ((s.begin.setRp p 0x0001#16).goto (s.next (.onew p))))

/-- CLRW (R194). -/
def execClrw (p : RegPair) (s : State) : Host.Outcome State Fault Refusal :=
  outcome (.ok ((s.begin.setRp p 0x0000#16).goto (s.next (.clrw p))))

end Sys2Proof.Machine
end

