-- ==== Sys2Proof/Machine/Transfer8.lean ====
section
/-! DEFINITION. The 8-bit data transfer instructions (R171 to R177): MOV, XCH, ONEB, CLRB, MOVS. -/

namespace Sys2Proof.Machine

/-- MOV (R171). A write of the PSW by its own forms holds interrupts (R176). -/
def execMov (dst src : Opd8) (s : State) : Host.Outcome State Fault Refusal :=
  outcome do
    let next := s.next (.mov dst src)
    let v ← load8 s src
    let t ← store8 s next s.begin dst v
    pure ((if dst = .psw then t.hold else t).goto next)

/-- XCH A, src (R172). The new A is put in first: it is no part of the operand's address, and it goes to the bank of
the start of the instruction even where the exchange is with the PSW (log 35). -/
def execXch (src : Opd8) (s : State) : Host.Outcome State Fault Refusal :=
  outcome do
    let next := s.next (.xch src)
    let v ← load8 s src
    let t ← store8 s next (s.begin.setR8 .a v) src (s.r8 .a)
    pure (t.goto next)

/-- ONEB (R173). -/
def execOneb (dst : Opd8) (s : State) : Host.Outcome State Fault Refusal :=
  outcome do
    let next := s.next (.oneb dst)
    let t ← store8 s next s.begin dst 0x01#8
    pure (t.goto next)

/-- CLRB (R174). -/
def execClrb (dst : Opd8) (s : State) : Host.Outcome State Fault Refusal :=
  outcome do
    let next := s.next (.clrb dst)
    let t ← store8 s next s.begin dst 0x00#8
    pure (t.goto next)

/-- MOVS [HL+byte], X (R175). -/
def execMovs (es : Bool) (off : Byte) (s : State) : Host.Outcome State Fault Refusal :=
  outcome do
    let next := s.next (.movs es off)
    let v := s.r8 .x
    let t ← store8 s next s.begin (.mem (.hlOff es off)) v
    pure ((t.setZCy (v == 0#8) (s.r8 .a == 0#8 || v == 0#8)).goto next)

end Sys2Proof.Machine
end

