-- ==== Sys2Proof/Machine/Dispatch.lean ====
section
/-! DEFINITION. One instruction: the meaning of each constructor. -/

namespace Sys2Proof.Machine

/-- The effect of one instruction at the program counter of a state. -/
def exec (i : Instr) (s : State) : Host.Outcome State Fault Refusal :=
  match i with
  | .mov dst src => Sys2Proof.Machine.execMov dst src s
  | .xch src => Sys2Proof.Machine.execXch src s
  | .oneb dst => Sys2Proof.Machine.execOneb dst s
  | .clrb dst => Sys2Proof.Machine.execClrb dst s
  | .movs es off => Sys2Proof.Machine.execMovs es off s
  | .movw dst src => Sys2Proof.Machine.execMovw dst src s
  | .xchw p => Sys2Proof.Machine.execXchw p s
  | .onew p => Sys2Proof.Machine.execOnew p s
  | .clrw p => Sys2Proof.Machine.execClrw p s
  | .add dst src => Sys2Proof.Machine.execAdd dst src s
  | .addc dst src => Sys2Proof.Machine.execAddc dst src s
  | .sub dst src => Sys2Proof.Machine.execSub dst src s
  | .subc dst src => Sys2Proof.Machine.execSubc dst src s
  | .and dst src => Sys2Proof.Machine.execAnd dst src s
  | .or dst src => Sys2Proof.Machine.execOr dst src s
  | .xor dst src => Sys2Proof.Machine.execXor dst src s
  | .cmp dst src => Sys2Proof.Machine.execCmp dst src s
  | .cmp0 dst => Sys2Proof.Machine.execCmp0 dst s
  | .cmps es off => Sys2Proof.Machine.execCmps es off s
  | .addw src => Sys2Proof.Machine.execAddw src s
  | .addwSp v => Sys2Proof.Machine.execAddwSp v s
  | .subw src => Sys2Proof.Machine.execSubw src s
  | .subwSp v => Sys2Proof.Machine.execSubwSp v s
  | .cmpw src => Sys2Proof.Machine.execCmpw src s
  | .mulu => Sys2Proof.Machine.execMulu s
  | .mulhu => Sys2Proof.Machine.execMulhu s
  | .mulh => Sys2Proof.Machine.execMulh s
  | .divhu => Sys2Proof.Machine.execDivhu s
  | .divwu => Sys2Proof.Machine.execDivwu s
  | .machu => Sys2Proof.Machine.execMachu s
  | .mach => Sys2Proof.Machine.execMach s
  | .inc dst => Sys2Proof.Machine.execInc dst s
  | .dec dst => Sys2Proof.Machine.execDec dst s
  | .incw dst => Sys2Proof.Machine.execIncw dst s
  | .decw dst => Sys2Proof.Machine.execDecw dst s
  | .shr cnt => Sys2Proof.Machine.execShr cnt s
  | .shrw cnt => Sys2Proof.Machine.execShrw cnt s
  | .shl r cnt => Sys2Proof.Machine.execShl r cnt s
  | .shlw p cnt => Sys2Proof.Machine.execShlw p cnt s
  | .sar cnt => Sys2Proof.Machine.execSar cnt s
  | .sarw cnt => Sys2Proof.Machine.execSarw cnt s
  | .ror => Sys2Proof.Machine.execRor s
  | .rol => Sys2Proof.Machine.execRol s
  | .rorc => Sys2Proof.Machine.execRorc s
  | .rolc => Sys2Proof.Machine.execRolc s
  | .rolwc p => Sys2Proof.Machine.execRolwc p s
  | .mov1 dst src => Sys2Proof.Machine.execMov1 dst src s
  | .and1 src => Sys2Proof.Machine.execAnd1 src s
  | .or1 src => Sys2Proof.Machine.execOr1 src s
  | .xor1 src => Sys2Proof.Machine.execXor1 src s
  | .set1 dst => Sys2Proof.Machine.execSet1 dst s
  | .clr1 dst => Sys2Proof.Machine.execClr1 dst s
  | .not1 => Sys2Proof.Machine.execNot1 s
  | .call t => Sys2Proof.Machine.execCall t s
  | .callt n => Sys2Proof.Machine.execCallt n s
  | .brk => Sys2Proof.Machine.execBrk s
  | .ret => Sys2Proof.Machine.execRet s
  | .reti => Sys2Proof.Machine.execReti s
  | .retb => Sys2Proof.Machine.execRetb s
  | .push src => Sys2Proof.Machine.execPush src s
  | .pop dst => Sys2Proof.Machine.execPop dst s
  | .br t => Sys2Proof.Machine.execBr t s
  | .bc d => Sys2Proof.Machine.execBc d s
  | .bnc d => Sys2Proof.Machine.execBnc d s
  | .bz d => Sys2Proof.Machine.execBz d s
  | .bnz d => Sys2Proof.Machine.execBnz d s
  | .bh d => Sys2Proof.Machine.execBh d s
  | .bnh d => Sys2Proof.Machine.execBnh d s
  | .bt o d => Sys2Proof.Machine.execBt o d s
  | .bf o d => Sys2Proof.Machine.execBf o d s
  | .btclr o d => Sys2Proof.Machine.execBtclr o d s
  | .skc => Sys2Proof.Machine.execSkc s
  | .sknc => Sys2Proof.Machine.execSknc s
  | .skz => Sys2Proof.Machine.execSkz s
  | .sknz => Sys2Proof.Machine.execSknz s
  | .skh => Sys2Proof.Machine.execSkh s
  | .sknh => Sys2Proof.Machine.execSknh s
  | .sel n => Sys2Proof.Machine.execSel n s
  | .nop => Sys2Proof.Machine.execNop s
  | .ei => Sys2Proof.Machine.execEi s
  | .di => Sys2Proof.Machine.execDi s
  | .halt => Sys2Proof.Machine.execHalt s
  | .stop => Sys2Proof.Machine.execStop s
  | .prefixByte => Sys2Proof.Machine.execPrefixByte s

end Sys2Proof.Machine
end

