-- ==== Sys2Proof/Machine/Interrupt.lean ====
section
/-! DEFINITION. Events at an instruction boundary (R373): reset (R420, R421), standby release (R359), interrupt
acknowledgement (R382) and entry (R383), bytes stored by another bus master (R108). -/

namespace Sys2Proof.Machine

/-- The storage a reset leaves alone: code and data flash (R421). -/
def keptByReset (p : Product) (c : Host.Cell) : Bool :=
  match storageOf p (BitVec.ofNat 20 c.1) with
  | some .flash => true
  | some .ram => false
  | some (.sfr _) => false
  | none => false

/-- The reset event (R421). RAM becomes unwritten, storage SFRs take their reset values, flash stays. General
registers, SP and MACR take the values the model names for reset (log 4, 5, 6, 41). -/
def resetEvent (s : State) : State :=
  let m := s.mem.filter (keptByReset s.product)
  let t : State :=
    { s with
      regs := Vector.replicate 32 0x00#8
      psw := Psw.afterReset
      sp := 0x0000#16
      es := 0x0F#8
      cs := 0x00#8
      pmc := 0x00#8
      macr := 0x00000000#32
      mem := m
      intHold := false
      mode := .run
      pmcWait := false
      afterDiv := none }
  t.goto (addrOf 0x0#4 (t.tableWord 0x00000#20))

/-- The acknowledgement condition (R382). -/
def acknowledgeable (s : State) (r : IrqRequest) : Bool :=
  decide (s.mode = .run) && !s.intHold &&
    (!r.maskable || (s.psw.ie && decide (r.level.toNat ≤ (s.psw.isp s.product.hasIsp1).toNat)))

/-- The vector address of a request (R78, R380). -/
def vectorOf (r : IrqRequest) : Addr := 2#20 * r.entry.setWidth 20

/-- `ISP_ON_ACK(level)` (R10, R383). -/
def ispOnAck (p : Product) (level : BitVec 2) : BitVec 2 :=
  match level.toNat with
  | 0 => p.ispOnAck0
  | 1 => p.ispOnAck1
  | 2 => p.ispOnAck2
  | _ => p.ispOnAck3

/-- Interrupt entry (R383): the shared entry at the address of the instruction that would have run, with ISP loaded
for a maskable request, and the notice to the controller. The mirror wait stays as it is (R63). -/
def takeInterrupt (s : State) (r : IrqRequest) : Result State := do
  let t ← enterVector none s s.pc (vectorOf r) (if r.maskable then some (ispOnAck s.product r.level) else none)
  pure { t with intHold := false, afterDiv := none, notices := .ack r :: t.notices }

/-- The division just executed is unprotected (R234, R438): it ran from RAM, or the byte after it is not NOP. -/
def divisionExposed (s : State) : Bool :=
  match s.afterDiv with
  | none => false
  | some d =>
    decide (s.region d = .ram) ||
      match fetchByte s s.pc with
      | .ok v => decide (v ≠ 0x00#8)
      | .error _ => true

/-- Acknowledging a request at the boundary, with the check of R234. -/
def acknowledge (s : State) (r : IrqRequest) : Result State :=
  if divisionExposed s then refusing .divideInterruptHazard else takeInterrupt s r

/-- A standby release (R359): the CPU is at an ordinary boundary again. -/
def released (s : State) (release : Bool) : State := if release then { s with mode := .run } else s

/-- MACR with the byte at an address of FFFF0H to FFFF3H replaced (R58). -/
def macrWithByte (m : DWord) (a : Addr) (v : Byte) : DWord :=
  match (a.extractLsb' 0 2).toNat with
  | 0 => m.extractLsb' 8 24 ++ v
  | 1 => m.extractLsb' 16 16 ++ v ++ m.extractLsb' 0 8
  | 2 => m.extractLsb' 24 8 ++ v ++ m.extractLsb' 0 16
  | _ => v ++ m.extractLsb' 0 24

/-- A byte another bus master stores to PMC: MAA alone can change, and on S1 nothing can (R55); the next instruction
may not read the mirror (R63). DESIGN CHOICE (log 31). -/
def dmaPmc (s : State) (v : Byte) : State :=
  { s with
    pmc := match s.product.core with
      | .s1 => 0x00#8
      | .s2 | .s3 => v &&& 0x01#8
    pmcWait := true }

/-- A byte another bus master stores to an SFR of the core (R86, R108): the register takes it, and bits that are fixed
(R42, R45, R52, R55) stay as they are. FFFFBH and MEM hold nothing (R53). -/
def dmaSfr (s : State) (a : Addr) (v : Byte) : State :=
  match sfrKind s.product.core a with
  | .spByte => s.setSp (if a = 0xFFFF8#20 then wordOf v (hiByte s.sp) else wordOf (loByte s.sp) v)
  | .psw => s.setPsw (Psw.ofByte v)
  | .cs => s.setCs v
  | .es => s.setEs v
  | .pmc => dmaPmc s v
  | .macr => { s with macr := macrWithByte s.macr a v }
  | .reserved | .product => s

/-- A byte another bus master stores to the register area (R22, R108): every bank the core has takes it. -/
def dmaGpr (s : State) (a : Addr) (v : Byte) : State :=
  if s.product.core = .s1 ∧ a.toNat < 0xFFEF8 then s else s.setGpr (gprIndexAt a) v

/-- A byte another bus master stores (R108): RAM with its register area, the SFRs of the core and the storage SFRs of
the product take it; at any other address there is nothing it can change (log 31). -/
def dmaStore (s : State) (c : Host.Cell) : State :=
  let a : Addr := BitVec.ofNat 20 c.1
  match storageOf s.product a with
  | some .ram => { s with mem := writeCell s.product s.mem a c.2 }
  | some (.sfr _) => { s with mem := writeCell s.product s.mem a c.2 }
  | some .flash => s
  | none =>
    match s.region a with
    | .gpr => dmaGpr s a c.2
    | .sfr => dmaSfr s a c.2
    | .ram | .sfr2 | .cflash | .dflash | .mirror | .reserved => s

/-- The bytes another bus master stores before the step (R108). -/
def dmaStores (s : State) (cells : List Host.Cell) : State := cells.foldl dmaStore s

/-- The environment of a step for which the input list says nothing. -/
def quietInput : EnvInput where
  reset := false
  release := false
  request := none
  dma := []

end Sys2Proof.Machine
end

