-- ==== Sys2Proof/Machine/Step.lean ====
section
/-! DEFINITION. One step of the machine (R14, R373), and placing a program word where the step fetches. -/

namespace Sys2Proof.Machine

/-- Fetches, decodes and executes the instruction at pc. -/
def runInstr (s : State) : Host.Outcome State Fault Refusal :=
  match fetchInstr s s.pc with
  | .ok i => exec i s
  | .error e => outcome (.error e)

/-- The instruction boundary after the environment has acted (R373): an acknowledgeable request is taken, else one
instruction runs. In standby nothing happens (R359). -/
def boundary (s : State) (request : Option IrqRequest) : Host.Outcome State Fault Refusal :=
  if s.mode = .run then
    match request with
    | none => runInstr s
    | some r => if acknowledgeable s r then outcome (acknowledge s r) else runInstr s
  else .next s

/-- A step under an input: stores of another bus master, then reset before everything, then a standby release,
then the boundary (R108, R373). -/
def stepWith (s : State) (e : EnvInput) : Host.Outcome State Fault Refusal :=
  let t := dmaStores s e.dma
  if e.reset then .next (resetEvent t) else boundary (released t e.release) e.request

/-- One step: the next input of the environment is consumed; with none left the environment is quiet. -/
def step (s : State) : Host.Outcome State Fault Refusal :=
  match s.inputs with
  | [] => stepWith s quietInput
  | e :: rest => stepWith { s with inputs := rest } e

/-- The state with a byte put where the fetch of an address reads it; only flash and RAM can hold one. -/
def pokeByte (s : State) (a : Addr) (v : Byte) : State :=
  match storageOf s.product a with
  | some .flash => { s with mem := writeCell s.product s.mem a v }
  | some .ram => { s with mem := writeCell s.product s.mem a v }
  | some (.sfr _) => s
  | none => s

/-- Bytes put at successive addresses. -/
def pokeBytes (s : State) (a : Addr) : List Byte → State
  | [] => s
  | v :: t => pokeBytes (pokeByte s a v) (a + 1#20) t

/-- The state with an instruction word stored where `step` fetches next, in a running machine with a quiet
environment (log 3). -/
def State.withFetchWord (s : State) (nbits w : Nat) : State :=
  pokeBytes { s with mode := .run, inputs := [] } s.pc (tableBytes nbits w)

end Sys2Proof.Machine
end

