-- ==== Sys2Proof/Safety.lean ====
section
/-! DEFINITION. The terms the statements are written in: the stored byte at an address, the state after an instruction
that only moves on, the invariant of the machine, what each instruction may write, and what a legal product and a
legal interrupt request are. -/

namespace Sys2Proof.Machine

/-- The byte stored at an address (RAM, code flash, data flash, storage SFR): none for unwritten RAM and for an
address that stores no byte of its own. -/
def State.byteAt (s : State) (a : Addr) : Option Byte := readCell s.product s.mem a

/-- The state after an instruction of `n` bytes that changes nothing the program can read but pc. -/
def State.advance (s : State) (n : Nat) : State :=
  { s with
    pc := s.pc + BitVec.ofNat 20 n
    intHold := false
    pmcWait := false
    afterDiv := none
    ticks := s.ticks + 1 }

/-- The step completes. -/
def Completes (s : State) : Prop := ∃ t, step s = .next t

/-- A run of `n` steps without a fault or a refusal. -/
def safeFor : Nat → State → Bool
  | 0, _ => true
  | n + 1, s =>
    match step s with
    | .next t => safeFor n t
    | .fault _ => false
    | .refused _ => false

/-! ### What the product and the environment may be -/

/-- A legal product (R10, R70): RAM begins at an even address above the extended SFRs and below its fixed top; the
code flash ends at an odd address of the program memory space and holds the vector and CALLT tables; the data flash
lies between the code flash and RAM, at even bounds. -/
def Product.legal (p : Product) : Bool :=
  decide (0xF0800 ≤ p.ramStart.toNat) && decide (p.ramStart.toNat ≤ 0xFFEE0) && !p.ramStart.getLsbD 0 &&
    decide (0xBF ≤ p.codeFlashEnd.toNat) && decide (p.codeFlashEnd.toNat ≤ 0xEFFFF) && p.codeFlashEnd.getLsbD 0 &&
    match p.dataFlash with
    | none => true
    | some (first, last) =>
      decide (0xF0800 ≤ first.toNat) && decide (first.toNat ≤ last.toNat) && decide (last.toNat < p.ramStart.toNat) &&
        !first.getLsbD 0 && last.getLsbD 0

/-- A legal request (R380): a vector of 00002H to 0007CH, and a level of 0 to 1 without `HAS_ISP1`. -/
def IrqRequest.legal (r : IrqRequest) (hasIsp1 : Bool) : Bool :=
  r.entry != 0#6 && r.entry != 63#6 && (hasIsp1 || !r.maskable || decide (r.level.toNat ≤ 1))

/-! ### The invariant -/

/-- What holds after reset and after every step: the memory list is in canonical form; bit 0 of SP is 0 (R45); bits 7
to 4 of ES and CS are 0 (R52); bits 7 to 1 of PMC are 0 and on S1 all of PMC is (R54, R55); on S1 RBS1 and RBS0 are 0
(R42). -/
structure Inv (s : State) : Prop where
  memory : Memory.wf s.product s.mem = true
  spEven : s.sp.getLsbD 0 = false
  esHigh : s.es.extractLsb' 4 4 = 0#4
  csHigh : s.cs.extractLsb' 4 4 = 0#4
  pmcHigh : s.pmc.extractLsb' 1 7 = 0#7
  pmcS1 : s.product.core = .s1 → s.pmc = 0x00#8
  banksS1 : s.product.core = .s1 → s.psw.rbs1 = false ∧ s.psw.rbs0 = false

/-! ### What an instruction may write -/

/-- What an instruction writes: registers by their index in the register file, PSW bits by number, SP as the stack
pointer, MACR as the accumulator, and the addresses of the data bytes it stores. -/
structure Footprint where
  regs : List (BitVec 5)
  flags : List (BitVec 3)
  sp : Bool
  macr : Bool
  bytes : List Addr
  deriving DecidableEq, Repr

/-- Nothing. -/
def Footprint.none : Footprint := { regs := [], flags := [], sp := false, macr := false, bytes := [] }

/-- Both. -/
def Footprint.and (f g : Footprint) : Footprint where
  regs := f.regs ++ g.regs
  flags := f.flags ++ g.flags
  sp := f.sp || g.sp
  macr := f.macr || g.macr
  bytes := f.bytes ++ g.bytes

/-- PSW bits. -/
def Footprint.ofFlags (ns : List (BitVec 3)) : Footprint := { Footprint.none with flags := ns }

/-- Stored bytes. -/
def Footprint.ofBytes (as : List Addr) : Footprint := { Footprint.none with bytes := as }

/-- A register of the current bank. -/
def Footprint.ofReg (s : State) (r : Reg8) : Footprint := { Footprint.none with regs := [gprIndex s.bank r] }

/-- A pair of the current bank. -/
def Footprint.ofPair (s : State) (p : RegPair) : Footprint :=
  { Footprint.none with regs := [gprIndex s.bank (pairLo p), gprIndex s.bank (pairHi p)] }

/-- SP. -/
def Footprint.stackPointer : Footprint := { Footprint.none with sp := true }

/-- MACR. -/
def Footprint.accumulator : Footprint := { Footprint.none with macr := true }

/-- The byte of a memory operand, at the address the meanings compute for it. -/
def byteOf (s : State) (m : Mem) : List Addr :=
  match ea s false m with
  | .ok a => [a]
  | .error _ => []

/-- The two bytes of a word at an address (R93). -/
def wordBytes (s : State) (a : Addr) : List Addr := [wordBase s a, wordBase s a + 1#20]

/-- The two bytes of a word memory operand. -/
def wordOfMem (s : State) (m : Mem) : List Addr :=
  match ea s true m with
  | .ok a => wordBytes s a
  | .error _ => []

/-- The `n` bytes below SP (R47). -/
def belowSp (s : State) : Nat → List Addr
  | 0 => []
  | n + 1 => addrOf 0xF#4 (s.sp - BitVec.ofNat 16 (n + 1)) :: belowSp s n

/-- A byte destination. -/
def destByte (s : State) : Opd8 → Footprint
  | .reg r => .ofReg s r
  | .imm _ => .none
  | .mem m => .ofBytes (byteOf s m)
  | .psw => .ofBytes [pswAddr]
  | .cs => .ofBytes [csAddr]
  | .es => .ofBytes [esAddr]

/-- A word destination. -/
def destWord (s : State) : Opd16 → Footprint
  | .rp p => .ofPair s p
  | .imm _ => .none
  | .mem m => .ofBytes (wordOfMem s m)
  | .sp => .ofBytes (wordBytes s spRegAddr)

/-- A bit destination. -/
def destBit (s : State) : BitOpd → Footprint
  | .mem m _ => .ofBytes (byteOf s m)
  | .a _ => .ofReg s .a
  | .psw n => .ofFlags [n]
  | .cy => .ofFlags [0#3]

/-- Z, AC, CY. -/
def zAcCy : Footprint := .ofFlags [6#3, 4#3, 0#3]

/-- Every bit of the PSW. -/
def wholePsw : Footprint := .ofFlags [7#3, 6#3, 5#3, 4#3, 3#3, 2#3, 1#3, 0#3]

/-- WHAT EACH INSTRUCTION WRITES, from the operation and flag lines of its rule. -/
def footprint (s : State) : Instr → Footprint
  | .mov d _ => destByte s d
  | .xch o => (destByte s o).and (.ofReg s .a)
  | .oneb d | .clrb d => destByte s d
  | .movs es o => (Footprint.ofBytes (byteOf s (.hlOff es o))).and (.ofFlags [6#3, 0#3])
  | .movw d _ => destWord s d
  | .xchw p => (Footprint.ofPair s p).and (.ofPair s .ax)
  | .onew p | .clrw p => .ofPair s p
  | .add d _ | .addc d _ | .sub d _ | .subc d _ => (destByte s d).and zAcCy
  | .and d _ | .or d _ | .xor d _ => (destByte s d).and (.ofFlags [6#3])
  | .cmp _ _ | .cmp0 _ | .cmps _ _ | .cmpw _ => zAcCy
  | .addw _ | .subw _ => (Footprint.ofPair s .ax).and zAcCy
  | .addwSp _ | .subwSp _ => .stackPointer
  | .mulu => .ofPair s .ax
  | .mulhu | .mulh => (Footprint.ofPair s .bc).and (.ofPair s .ax)
  | .divhu => (Footprint.ofPair s .ax).and (.ofPair s .de)
  | .divwu =>
    ((Footprint.ofPair s .bc).and (.ofPair s .ax)).and ((Footprint.ofPair s .hl).and (.ofPair s .de))
  | .machu | .mach => Footprint.accumulator.and (.ofFlags [4#3, 0#3])
  | .inc d | .dec d => (destByte s d).and (.ofFlags [6#3, 4#3])
  | .incw d | .decw d => destWord s d
  | .shr _ | .sar _ | .ror | .rol | .rorc | .rolc => (Footprint.ofReg s .a).and (.ofFlags [0#3])
  | .shl r _ => (Footprint.ofReg s r).and (.ofFlags [0#3])
  | .shrw _ | .sarw _ => (Footprint.ofPair s .ax).and (.ofFlags [0#3])
  | .shlw p _ | .rolwc p => (Footprint.ofPair s p).and (.ofFlags [0#3])
  | .mov1 d _ => destBit s d
  | .and1 _ | .or1 _ | .xor1 _ | .not1 => .ofFlags [0#3]
  | .set1 d | .clr1 d => destBit s d
  | .call _ | .callt _ => (Footprint.ofBytes (belowSp s 4)).and .stackPointer
  | .brk => ((Footprint.ofBytes (belowSp s 4)).and .stackPointer).and (.ofFlags [7#3])
  | .ret => .stackPointer
  | .reti | .retb => Footprint.stackPointer.and wholePsw
  | .push _ => (Footprint.ofBytes (belowSp s 2)).and .stackPointer
  | .pop (.rp p) => (Footprint.ofPair s p).and .stackPointer
  | .pop .psw => Footprint.stackPointer.and wholePsw
  | .btclr o _ => destBit s o
  | .br _ | .bc _ | .bnc _ | .bz _ | .bnz _ | .bh _ | .bnh _ | .bt _ _ | .bf _ _ => .none
  | .skc | .sknc | .skz | .sknz | .skh | .sknh => .none
  | .sel _ => .ofFlags [5#3, 3#3]
  | .ei | .di => .ofFlags [7#3]
  | .nop | .halt | .stop | .prefixByte => .none

/-- The address of the register at an index of the register file (R22). -/
def fileAddr (k : BitVec 5) : Addr := 0xFFEF8#20 - 8#20 * (k.extractLsb' 3 2).setWidth 20 + (k.extractLsb' 0 3).setWidth 20

/-- The address of PMC (R54). -/
def pmcAddr : Addr := 0xFFFFE#20

/-- Outside a footprint `t` is as `s`: a register, a PSW bit, a special register keeps its value unless the footprint
names it or stores to its address; every byte of memory keeps its value unless it is a stored one. -/
structure Unchanged (f : Footprint) (s t : State) : Prop where
  product : t.product = s.product
  regs : ∀ k, k ∉ f.regs → fileAddr k ∉ f.bytes → t.gpr k = s.gpr k
  flags : ∀ n, n ∉ f.flags → pswAddr ∉ f.bytes → t.psw.getBit n = s.psw.getBit n
  sp : f.sp = false → spRegAddr ∉ f.bytes → t.sp = s.sp
  es : esAddr ∉ f.bytes → t.es = s.es
  cs : csAddr ∉ f.bytes → t.cs = s.cs
  pmc : pmcAddr ∉ f.bytes → t.pmc = s.pmc
  macr : f.macr = false → 0xFFFF0#20 ∉ f.bytes → 0xFFFF2#20 ∉ f.bytes → t.macr = s.macr
  memory : ∀ a, a ∉ f.bytes → t.byteAt a = s.byteAt a

/-! ### Hidden state -/

/-- The instruction sets the interrupt hold at the end of its step (R60); a skip does when it is not taken (R340). -/
def setsHold (s : State) : Instr → Bool
  | .mov .psw _ => true
  | .mov1 (.psw _) _ => true
  | .set1 (.psw _) | .clr1 (.psw _) => true
  | .btclr (.psw _) _ => true
  | .ei | .di => true
  | .pop .psw => true
  | .reti | .retb => true
  | .skc => !s.psw.cy
  | .sknc => s.psw.cy
  | .skz => !s.psw.z
  | .sknz => s.psw.z
  | .skh => s.psw.z || s.psw.cy
  | .sknh => !(s.psw.z || s.psw.cy)
  | _ => false

/-- The run mode after the instruction (R356, R357). -/
def modeAfter (s : State) : Instr → RunMode
  | .halt => .halt
  | .stop => .stop
  | _ => s.mode

/-- The division the boundary after the instruction must look at (R234). -/
def divisionAt (s : State) : Instr → Option Addr
  | .divhu | .divwu => some s.pc
  | _ => none

/-- The notices after the instruction (R385). -/
def noticesAfter (s : State) : Instr → List IrqNotice
  | .reti => .returned :: s.notices
  | _ => s.notices

/-! ### Premises and goals of the statements -/

/-- A store to `a` by the instruction of `s`, which `next` follows, would change bytes fetched ahead (R440). -/
def aheadOfFetch (s : State) (next a : Addr) : Bool :=
  decide (s.region s.pc = .ram) && decide ((a - next).toNat < s.product.fetchWindow)

/-- A RAM byte the instruction may store to. -/
def ramFree (s : State) (next a : Addr) : Bool := decide (s.region a = .ram) && !aheadOfFetch s next a

/-- The `n` bytes below SP are stack bytes (R49, R99). -/
def stackRoom (s : State) (n : Nat) : Bool := (belowSp s n).all (within s.product.ramStart 0xFFEDF#20)

/-- The instruction may store to the `n` bytes below SP. -/
def stackFree (s : State) (next : Addr) (n : Nat) : Bool :=
  stackRoom s n && (belowSp s n).all fun a => !aheadOfFetch s next a

/-- The address of the stack byte at SP + k (R99). -/
def stackAddr (s : State) (k : Nat) : Addr := addrOf 0xF#4 (s.sp + BitVec.ofNat 16 k)

/-- The written stack byte at SP + k, if there is one. -/
def stackByte (s : State) (k : Nat) : Option Byte :=
  if within s.product.ramStart 0xFFEDF#20 (stackAddr s k) then s.byteAt (stackAddr s k) else none

/-- A taken relative branch to `target` is prohibited (R321). -/
def fromRamToFlash (s : State) (target : Addr) : Bool :=
  decide (s.region s.pc = .ram) && decide (s.region target = .cflash)

/-- The target of CALL (R291). -/
def callGoal (s : State) : CallTarget → Addr
  | .rp p => s.cs.extractLsb' 0 4 ++ s.rp p
  | .abs16 a => a.setWidth 20
  | .abs20 a => a
  | .rel16 d => s.pc + 3#20 + d.signExtend 20

/-- The target of BR (R322). -/
def brGoal (s : State) : BrTarget → Addr
  | .ax => s.cs.extractLsb' 0 4 ++ s.rp .ax
  | .rel8 d => s.pc + 2#20 + d.signExtend 20
  | .rel16 d => s.pc + 3#20 + d.signExtend 20
  | .abs16 a => a.setWidth 20
  | .abs20 a => a

/-- The operand of CALL is relative. -/
def callRelative : CallTarget → Bool
  | .rel16 _ => true
  | .rp _ | .abs16 _ | .abs20 _ => false

/-- The operand of BR is relative. -/
def brRelative : BrTarget → Bool
  | .rel8 _ | .rel16 _ => true
  | .ax | .abs16 _ | .abs20 _ => false

/-- An input that offers a request and does nothing else. -/
def requestInput (r : IrqRequest) : EnvInput := { quietInput with request := some r }

/-- The state with one more input to come first. -/
def State.offered (s : State) (e : EnvInput) : State := { s with inputs := e :: s.inputs }

/-- `n` repetitions of a one-bit shift of a value, with the bit moved out last (R250). -/
def repeated {w : Nat} (one : BitVec w → BitVec w × Bool) : Nat → BitVec w × Bool → BitVec w × Bool
  | 0, x => x
  | n + 1, x => repeated one n (one x.1)

end Sys2Proof.Machine
end

