-- ==== Sys2Proof/Certificates/Slice0/Obligations.lean ====
section
/-! DEFINITION. The statements for the provers, in the order of OBLIGATIONS.json: encoding, the whole machine, memory,
the instructions family by family, exceptions and reset. Where a statement says `store8 s next s.begin o v = .ok u` it
means that the operand `o` can be written and `u` is the state with `v` there. -/

open Sys2Proof Sys2Proof.Machine

/-! ### Encoding -/

/-- Every well-formed instruction decodes from its own encoding, whatever bytes follow (R123, R131 to R141). -/
def Obligations.DecodeEncode : Prop :=
  ∀ (i : Instr) (rest : List Byte), i.wf = true → decode (encode i ++ rest) = .done i

/-- Every decoding is the encoding of its instruction, and that instruction is a form of Table 5-8 or the bare PREFIX
byte (R123, R131 to R142). -/
def Obligations.EncodeDecode : Prop :=
  ∀ (bytes : List Byte) (i : Instr), decode bytes = .done i →
    (i.wf = true ∨ i = .prefixByte) ∧ ∃ rest, bytes = encode i ++ rest

/-- An instruction is 1 to 5 bytes, and no shorter start of it decodes: the opcode bytes alone fix its length (R120).
The next instruction stands at pc plus the length (R31). -/
def Obligations.InstructionLength : Prop :=
  ∀ i : Instr, i.wf = true →
    1 ≤ i.len ∧ i.len ≤ 5 ∧ (∀ k, k < i.len → decode ((encode i).take k) = .more) ∧
      ∀ s : State, s.next i = s.pc + BitVec.ofNat 20 (encode i).length

/-- Words of Table 5-8 written out from the spec decode to the instructions they stand for. -/
def Obligations.TableWordsDecode : Prop :=
  decode [0x51#8, 0x4D#8] = .done (.mov (.reg .a) (.imm 0x4D#8)) ∧
    decode [0x61#8, 0xA8#8, 0xBC#8] = .done (.xch (.mem (.saddr 0xBC#8))) ∧
    decode [0x11#8, 0x8B#8] = .done (.mov (.reg .a) (.mem (.hl true))) ∧
    decode [0x04#8, 0xCD#8, 0xAB#8] = .done (.addw (.imm 0xABCD#16)) ∧
    decode [0xCE#8, 0xFB#8, 0x0B#8] = .done .divwu ∧
    decode [0x31#8, 0x3A#8] = .done (.shr 3#3) ∧
    decode [0x71#8, 0x35#8, 0x7F#8] = .done (.and1 (.mem (.saddr 0x7F#8) 3#3)) ∧
    decode [0x61#8, 0xF7#8] = .done (.callt 31#5) ∧
    decode [0xEC#8, 0x45#8, 0x23#8, 0x01#8] = .done (.br (.abs20 0x12345#20)) ∧
    decode [0x31#8, 0x80#8, 0xFA#8, 0x10#8] = .done (.btclr (.psw 0#3) 0x10#8) ∧
    decode [0x61#8, 0xEF#8] = .done (.sel 2#2)

/-- What decodes to nothing (the spec's choice, R127, R145): the blank cells of the four maps and a 20-bit target with
a nonzero upper nibble, whatever bytes follow, with PREFIX or without. -/
def Obligations.UndefinedEncodings : Prop :=
  ∀ rest : List Byte, ∀ bytes,
    (bytes ∈ [[0x21#8], [0xFF#8], [0x61#8, 0x19#8], [0x61#8, 0x39#8], [0x61#8, 0x81#8], [0x61#8, 0x83#8], [0x61#8, 0x88#8],
        [0x61#8, 0x91#8], [0x61#8, 0x93#8], [0x61#8, 0xA1#8], [0x61#8, 0xA3#8], [0x61#8, 0xB1#8], [0x61#8, 0xB3#8],
        [0x61#8, 0xC1#8], [0x61#8, 0xD1#8], [0x61#8, 0xE1#8], [0x61#8, 0xF1#8]] ∨
      (∃ b : Byte, bytes = [0x61#8, b] ∧ (0x98 ≤ b.toNat ∧ b.toNat ≤ 0x9F ∨ 0xBA ≤ b.toNat ∧ b.toNat ≤ 0xBF)) ∨
      (∃ n : BitVec 3, bytes = [0x71#8, 0x80#8 ||| n.setWidth 8 <<< 4] ∧ n ≠ 0#3 ∧ n ≠ 4#3) ∨
      (∃ n : BitVec 3, bytes = [0x71#8, 0x88#8 ||| n.setWidth 8 <<< 4] ∧ n ≠ 0#3) ∨
      (∃ n : BitVec 4, bytes = [0x31#8, (n ++ 6#4 : Byte)]) ∨
      (∃ k : BitVec 4, bytes = [0x31#8, (0#4 ++ k : Byte)] ∧ 7 ≤ k.toNat) ∨
      (∃ n k : BitVec 4, bytes = [0x31#8, (n ++ k : Byte)] ∧ 8 ≤ n.toNat ∧ 7 ≤ k.toNat ∧ k.toNat ≤ 11) ∨
      (∃ l h s : Byte, (bytes = [0xEC#8, l, h, s] ∨ bytes = [0xFC#8, l, h, s]) ∧ 16 ≤ s.toNat)) →
    decode (bytes ++ rest) = .undefined ∧ decode (0x11#8 :: (bytes ++ rest)) = .undefined

/-- The byte 11H before an instruction that has no ES: form is the bare PREFIX byte, which no state runs (the spec's
choice, R142, R358); before one that has, it is that form. -/
def Obligations.PrefixByteRefused : Prop :=
  (∀ (i : Instr) (rest : List Byte), i.wf = true → i.hasEs = false →
      decode (0x11#8 :: (encode i ++ rest)) = .done (i.withEs.getD .prefixByte) ∧
        ∀ j, i.withEs = some j → j.hasEs = true ∧ encode j = 0x11#8 :: encode i) ∧
    ∀ s, exec .prefixByte s = .refused .undefinedInstruction

/-- The instructions a core lacks are refused (R19, the spec's choice). -/
def Obligations.CoreGating : Prop :=
  ∀ (s : State) (i : Instr),
    (i ∈ [.mulhu, .mulh, .divhu, .divwu, .machu, .mach] ∧ s.product.core ≠ .s3 ∨
      (∃ n, i = .sel n) ∧ s.product.core = .s1) →
    exec i s = .refused .undefinedInstruction

/-- A STEP RUNS THE DECODED INSTRUCTION: with a quiet environment and the CPU running, when the bytes at pc, as the
fetch reads them, decode to `i`, the step is `exec i`, and nothing around it. When they decode to nothing the step is
refused. When they are the start of an instruction and the next byte is outside code flash and RAM the step is refused,
and when it is a RAM byte that nothing has written the step faults (R92, R145; the three stops are the spec's choices,
log 7, 21, 45). -/
def Obligations.StepRunsDecoded : Prop :=
  ∀ (s : State) (bytes : List Byte), s.inputs = [] → s.mode = .run → bytes.length ≤ 5 → bytesAt s s.pc bytes = true →
    (∀ i, decode bytes = .done i → step s = exec i s) ∧
      (decode bytes = .undefined → step s = .refused .undefinedInstruction) ∧
      ∀ a, decode bytes = .more → bytes.length < 5 → a = s.pc + BitVec.ofNat 20 bytes.length →
        (s.region a ≠ .cflash → s.region a ≠ .ram → step s = .refused (.prohibitedFetch a)) ∧
          (s.region a = .ram → s.byteAt a = none → step s = .fault (.unwrittenRead a))

/-! ### The whole machine -/

/-- FRAME of every instruction: outside its footprint nothing changes: no register, no PSW bit, no special register,
no byte of memory. `Inv s` is used on S1 alone, where a write of one PSW bit also keeps bits 5 and 3 at 0. -/
def Obligations.FrameOfEveryInstruction : Prop :=
  ∀ (i : Instr) (s t : State), Inv s → exec i s = .next t → Unchanged (footprint s i) s t

/-- The hidden state after every instruction. The interrupt hold is set by the instructions listed in R60 and cleared by
all others; the run mode changes by HALT and STOP alone (R61); a division is noted for the boundary (R234); RETI tells
the controller (R385); the mirror wait is set by an instruction that stores to PMC and cleared by every other (R63);
BTCLR stores only when its bit is 1. Which instructions hold interrupts the source states; the form of all this state is
the model's choice: the hold as one flag that every other instruction clears (R60, log 26), no hold after a true skip
(R340, log 27), the mirror wait as a bit (R63, log 22), the noted division (R234, log 25), the inputs and notices of the
controller (R380, log 28), the run mode (R61, log 29), the count of instructions run (log 44). -/
def Obligations.HiddenState : Prop :=
  (∀ (i : Instr) (s t : State), exec i s = .next t →
      t.intHold = setsHold s i ∧ t.mode = modeAfter s i ∧ t.afterDiv = divisionAt s i ∧
        t.notices = noticesAfter s i ∧ t.inputs = s.inputs ∧ t.ticks = s.ticks + 1 ∧ t.product = s.product) ∧
  ∀ (i : Instr) (s t : State), exec i s = .next t →
    (pmcAddr ∉ (footprint s i).bytes → t.pmcWait = false) ∧
      ((∀ o d, i ≠ .btclr o d) → pmcAddr ∈ (footprint s i).bytes → t.pmcWait = true) ∧
      ∀ m n d, i = .btclr (.mem m n) d → pmcAddr ∈ (footprint s i).bytes →
        (t.pmcWait = true ↔ readBit s (.mem m n) = .ok true)

/-- The invariant is kept by every step, whatever the environment does. That bit 0 of SP is 0 the spec states (R45), and
the canonical form of the memory is the model's own (log 2, 7). The other clauses are choices: RBS1 and RBS0 are 0 on S1
(R42, log 10), bits 7 to 4 of ES and CS are 0 (R52, presumed, log 11), bits 7 to 1 of PMC, and on S1 all of PMC, are 0
(R55, log 22), and a store of another bus master keeps all of these (R108, log 31). -/
def Obligations.StepKeepsInv : Prop :=
  ∀ s t : State, Inv s → step s = .next t → Inv t

/-- The invariant holds after reset. The reset values of R65 and R421 are the spec's; those of the general registers, SP
and MACR are the model's (log 4, 5, 6), and so are the clauses of the invariant that StepKeepsInv names as choices. -/
def Obligations.ResetInv : Prop := Inv State.reset

/-- No step changes a byte of code flash or data flash: not an instruction, an interrupt, a reset, or another bus
master (R72, R84, R85, R421). -/
def Obligations.FlashNeverChanges : Prop :=
  ∀ (s t : State) (a : Addr), step s = .next t → storageOf s.product a = some .flash → t.byteAt a = s.byteAt a

/-- Bit 0 of SP is always 0: every write of a value to SP, by the SFR at FFFF8H (MOVW SP), by ADDW SP and by SUBW SP,
drops bit 0, and no step sets it (R45). -/
def Obligations.StackPointerEven : Prop :=
  (∀ (win : Option Addr) (s t : State) (v : Word), memWrite16 win s spRegAddr v = .ok t → t.sp = v &&& 0xFFFE#16) ∧
    (∀ (s t : State) (src : Opd16) (v : Word), load16 s src = .ok v → exec (.movw .sp src) s = .next t →
      t.sp = v &&& 0xFFFE#16) ∧
    (∀ (s t : State) (v : Byte), exec (.addwSp v) s = .next t → t.sp = (s.sp + v.setWidth 16) &&& 0xFFFE#16) ∧
    (∀ (s t : State) (v : Byte), exec (.subwSp v) s = .next t → t.sp = (s.sp - v.setWidth 16) &&& 0xFFFE#16) ∧
    ∀ s t : State, s.sp.getLsbD 0 = false → step s = .next t → t.sp.getLsbD 0 = false

/-! ### Memory -/

/-- The memory map of a legal product (R70 to R72, R84 to R88). -/
def Obligations.MemoryMap : Prop :=
  ∀ (s : State) (a : Addr), Product.legal s.product = true →
    (a.toNat ≤ s.product.codeFlashEnd.toNat → s.region a = .cflash) ∧
      (s.product.codeFlashEnd.toNat < a.toNat → a.toNat < 0xF0000 → s.region a = .reserved) ∧
      (0xF0000 ≤ a.toNat → a.toNat ≤ 0xF07FF → s.region a = .sfr2) ∧
      (0xF0800 ≤ a.toNat → a.toNat < s.product.ramStart.toNat →
        s.region a = if inDataFlash s.product a then .dflash
          else if (mirrorSource s.product s.maa a).isSome then .mirror else .reserved) ∧
      (s.product.ramStart.toNat ≤ a.toNat → a.toNat ≤ 0xFFEDF → s.region a = .ram) ∧
      (0xFFEE0 ≤ a.toNat → a.toNat ≤ 0xFFEFF → s.region a = .gpr) ∧
      (0xFFF00 ≤ a.toNat → s.region a = .sfr)

/-- The mirror of S2 and S3 shows the 64 KB of code flash that MAA selects, as far as the code flash goes, and that of
S1 the first 5F00H bytes (R84); a read by the instruction right after a PMC write is refused (R437, the spec's choice,
log 22). -/
def Obligations.MirrorReads : Prop :=
  ∀ (s : State) (a : Addr), s.region a = .mirror →
    (s.pmcWait = true → memRead8 s a = .error (.refuse (.prohibitedAccess .mirrorAfterPmc a))) ∧
      (s.pmcWait = false → ∃ f : Addr, f.toNat ≤ s.product.codeFlashEnd.toNat ∧ memRead8 s a = .ok (s.image f) ∧
        (s.product.core = .s1 → f.toNat + 0xF8000 = a.toNat ∧ f.toNat ≤ 0x5EFF ∧ s.maa = false) ∧
        (s.product.core ≠ .s1 → s.maa = false → f.toNat + 0xF0000 = a.toNat) ∧
        (s.product.core ≠ .s1 → s.maa = true → f.toNat + 0xE0000 = a.toNat))

/-- Accesses by region (R83, R85, R86, R87, R88, R90, R91, R440): RAM gives its byte and faults where nothing was
written; flash gives the image and is not written; a reserved address is refused; a program in RAM cannot store into the
bytes it is about to fetch, and any other store is that of no instruction. A word at an even address of code flash, the
mirror, RAM or the register area is two byte accesses, the low byte first (R89, R90, R91); data flash cannot be read as
words (R85). A product SFR: refused where SFR_MAP has no entry, and in a unit or a direction the entry does not have; a
storage register reads back what was written; a device register can be read and takes a write; a word access is one
access of the word unit to each byte. The stops are the spec's choices (log 7, 19, 23), and what the two kinds of
product register do is the model's (log 18). -/
def Obligations.RegionAccess : Prop :=
  (∀ (s : State) (a : Addr),
      (∀ v, s.region a = .ram → s.byteAt a = some v → memRead8 s a = .ok v) ∧
        (s.region a = .ram → s.byteAt a = none → memRead8 s a = .error (.fault (.unwrittenRead a))) ∧
        (s.region a = .cflash → memRead8 s a = .ok (s.image a)) ∧
        (∀ v, s.region a = .dflash → s.byteAt a = some v → memRead8 s a = .ok v) ∧
        (s.region a = .reserved → memRead8 s a = .error (.refuse (.unmappedAccess a)))) ∧
  (∀ (s : State) (next a : Addr) (v : Byte),
    (aheadOfFetch s next a = true →
      memWrite8 (some next) s a v = .error (.refuse (.prohibitedAccess .storeIntoFetchWindow a))) ∧
      (aheadOfFetch s next a = false → memWrite8 (some next) s a v = memWrite8 none s a v ∧
        (s.region a = .cflash ∨ s.region a = .mirror →
          memWrite8 (some next) s a v = .error (.refuse (.writeToReadOnly a))) ∧
        (s.region a = .dflash →
          memWrite8 (some next) s a v = .error (.refuse (.prohibitedAccess .dataFlash a))) ∧
        (s.region a = .reserved → memWrite8 (some next) s a v = .error (.refuse (.unmappedAccess a))))) ∧
  (∀ (s : State) (a : Addr), a.getLsbD 0 = false →
    (s.region a = .dflash → memRead16 s a = .error (.refuse (.prohibitedAccess .dataFlash a))) ∧
      ∀ plain : List Region, plain = [.cflash, .mirror, .ram, .gpr] → s.region a ∈ plain →
        s.region (a + 1#20) ∈ plain →
        (∀ l h : Byte, memRead8 s a = .ok l → memRead8 s (a + 1#20) = .ok h → memRead16 s a = .ok (h ++ l)) ∧
          ∀ (win : Option Addr) (l h : Byte) (t u : State), memWrite8 win s a l = .ok t →
            memWrite8 win t (a + 1#20) h = .ok u → memWrite16 win s a (h ++ l) = .ok u) ∧
  ∀ (s : State) (a : Addr), (s.region a = .sfr2 ∨ s.region a = .sfr ∧ sfrKind s.product.core a = .product) →
    (∀ (u : AccessUnit) (v : Byte),
      (sfrEntry s.product a = none →
        byteRead u s a = .error (.refuse (.unmappedAccess a)) ∧ putByte u s a v = .error (.refuse (.unmappedAccess a))) ∧
      ∀ e, sfrEntry s.product a = some e →
        (e.readable = false ∨ unitAllowed e u = false →
          byteRead u s a = .error (.refuse (.prohibitedAccess .sfrUnit a))) ∧
        (e.writable = false ∨ unitAllowed e u = false →
          putByte u s a v = .error (.refuse (.prohibitedAccess .sfrUnit a))) ∧
        (e.readable = true → unitAllowed e u = true →
          ∃ w, byteRead u s a = .ok w ∧ ∀ r, e.behaviour = .storage r → s.byteAt a = some w) ∧
        (e.writable = true → unitAllowed e u = true →
          (e.behaviour = .device → putByte u s a v = .ok s) ∧
          ∀ r, Inv s → e.behaviour = .storage r → ∃ t, putByte u s a v = .ok t ∧ t = { s with mem := t.mem } ∧
            t.byteAt a = some v ∧ (e.readable = true → byteRead u t a = .ok v) ∧
            ∀ b, b ≠ a → t.byteAt b = s.byteAt b)) ∧
    (a.getLsbD 0 = false → ∀ l h : Byte,
      (byteRead .word s a = .ok l → byteRead .word s (a + 1#20) = .ok h → memRead16 s a = .ok (h ++ l)) ∧
        ∀ t u, putByte .word s a l = .ok t → putByte .word t (a + 1#20) h = .ok u →
          memWrite16 none s a (h ++ l) = .ok u)

/-- On a legal product a byte store to RAM is read back, and no other byte read changes (R83, R91, R110). -/
def Obligations.RamStoreThenLoad : Prop :=
  ∀ (s : State) (next a : Addr) (v : Byte), Product.legal s.product = true → Inv s → ramFree s next a = true →
    ∃ t, memWrite8 (some next) s a v = .ok t ∧ memRead8 t a = .ok v ∧
      ∀ b, b ≠ a → memRead8 t b = memRead8 s b

/-- On a legal product a word store to RAM puts the low byte at the even address and the high byte above it; the word
is read back, and no byte elsewhere changes (R89, R91). -/
def Obligations.RamWordLittleEndian : Prop :=
  ∀ (s : State) (next a : Addr) (v : Word), Product.legal s.product = true → Inv s → a.getLsbD 0 = false →
    ramFree s next a = true → ramFree s next (a + 1#20) = true →
    ∃ t, memWrite16 (some next) s a v = .ok t ∧ memRead16 t a = .ok v ∧
      t.byteAt a = some (v.extractLsb' 0 8) ∧ t.byteAt (a + 1#20) = some (v.extractLsb' 8 8) ∧
      ∀ b, b ≠ a → b ≠ a + 1#20 → memRead8 t b = memRead8 s b

/-- Word accesses at odd addresses: refused under the policy `refuse`, made at the even address below under
`clearBit0` (R93). -/
def Obligations.OddWords : Prop :=
  ∀ (s : State) (a : Addr) (v : Word), a.getLsbD 0 = true →
    (s.product.oddWordPolicy = .refuse →
      memRead16 s a = .error (.refuse (.misalignedWord a)) ∧
        memWrite16 none s a v = .error (.refuse (.misalignedWord a))) ∧
      (s.product.oddWordPolicy = .clearBit0 →
        memRead16 s a = memRead16 s (a - 1#20) ∧ memWrite16 none s a v = memWrite16 none s (a - 1#20) v)

/-- The registers: their numbers, the selected bank, one register read and written, the pairs (R21, R22, R23). The
general registers are bytes of the data memory: register i of bank b is at FFEF8H - 8*b + i (R22). On S2 and S3 a bank
that is not selected is read and written there. A read and a write of the selected bank are refused, and so on S1 are
those of the banks it has not (R24, R91; the refusals are the spec's choice, log 16). -/
def Obligations.RegistersByAddress : Prop :=
  [Reg8.x, .a, .c, .b, .e, .d, .l, .h].map Reg8.num = [0#3, 1#3, 2#3, 3#3, 4#3, 5#3, 6#3, 7#3] ∧
  (∀ s : State,
    s.bank = (if s.product.core = .s1 then 0#2 else BitVec.ofBool s.psw.rbs1 ++ BitVec.ofBool s.psw.rbs0) ∧
      (∀ r, s.r8 r = s.gpr (gprIndex s.bank r) ∧ ∀ v, s.setR8 r v = s.setGpr (gprIndex s.bank r) v) ∧
      (∀ (k : BitVec 5) (v : Byte), s.setGpr k v = { s with regs := (s.setGpr k v).regs } ∧ (s.setGpr k v).gpr k = v ∧
        ∀ j, j ≠ k → (s.setGpr k v).gpr j = s.gpr j) ∧
      ∀ (p : RegPair) (hi lo : Reg8), (p, hi, lo) ∈ [(RegPair.ax, Reg8.a, Reg8.x), (.bc, .b, .c), (.de, .d, .e),
          (.hl, .h, .l)] →
        s.rp p = s.r8 hi ++ s.r8 lo ∧ ∀ h l : Byte, s.setRp p (h ++ l) = (s.setR8 lo l).setR8 hi h) ∧
  ∀ (s : State) (b : BitVec 2) (r : Reg8) (v : Byte),
    (fileAddr (gprIndex b r)).toNat = 0xFFEF8 - 8 * b.toNat + r.num.toNat ∧
      (s.product.core ≠ .s1 → b ≠ s.bank →
        memRead8 s (fileAddr (gprIndex b r)) = .ok (s.gpr (gprIndex b r)) ∧
          memWrite8 none s (fileAddr (gprIndex b r)) v = .ok (s.setGpr (gprIndex b r) v)) ∧
      (b = s.bank →
        memRead8 s (fileAddr (gprIndex b r)) =
            .error (.refuse (.prohibitedAccess .registerAlias (fileAddr (gprIndex b r)))) ∧
          memWrite8 none s (fileAddr (gprIndex b r)) v =
            .error (.refuse (.prohibitedAccess .registerAlias (fileAddr (gprIndex b r))))) ∧
      (s.product.core = .s1 → b ≠ s.bank →
        memRead8 s (fileAddr (gprIndex b r)) =
            .error (.refuse (.prohibitedAccess .reservedRegisterArea (fileAddr (gprIndex b r)))) ∧
          memWrite8 none s (fileAddr (gprIndex b r)) v =
            .error (.refuse (.prohibitedAccess .reservedRegisterArea (fileAddr (gprIndex b r)))))

/-- The SFRs of the core (R86): PSW, CS, ES and PMC as bytes, SP and on S3 the halves of MACR as words. The bits of the
PSW byte are IE 7, Z 6, RBS1 5, AC 4, RBS0 3, ISP1 2, ISP0 1, CY 0, and bit k of the PSW is bit k of that byte: the
source fixes bits 7, 2 and 0, the other places are presumed (R34, log 8). Refused are: a byte of SP or of MACR, a word
that is the pair of PSW, of CS and ES or of PMC, FFFFBH and MEM, and a value PMC may not hold. The refusals (R46, R53,
R55, R58, R86: log 17, 22), the mirror wait bit that a write to PMC sets (R63: log 22), bits 5 and 3 of PSW on S1 (R42:
log 10) and the addresses of MACR (R58: log 34) are the spec's choices; bits 7 to 4 of ES and CS are presumed (R52: log
11). -/
def Obligations.CoreSfrs : Prop :=
  (∀ p : Psw, p.toByte.getLsbD 7 = p.ie ∧ p.toByte.getLsbD 6 = p.z ∧ p.toByte.getLsbD 5 = p.rbs1 ∧
      p.toByte.getLsbD 4 = p.ac ∧ p.toByte.getLsbD 3 = p.rbs0 ∧ p.toByte.getLsbD 2 = p.isp1 ∧
      p.toByte.getLsbD 1 = p.isp0 ∧ p.toByte.getLsbD 0 = p.cy ∧ Psw.ofByte p.toByte = p ∧
      (∀ k : BitVec 3, p.getBit k = p.toByte.getLsbD k.toNat) ∧
      ∀ (k j : BitVec 3) (v : Bool), (p.setBit k v).toByte.getLsbD j.toNat = if j = k then v else p.toByte.getLsbD j.toNat) ∧
  (∀ v : Byte, (Psw.ofByte v).toByte = v) ∧
  (∀ (s : State) (z ac cy : Bool),
    s.setZAcCy z ac cy = { s with psw := { s.psw with z := z, ac := ac, cy := cy } } ∧
      s.setZCy z cy = { s with psw := { s.psw with z := z, cy := cy } } ∧
      s.setAcCy ac cy = { s with psw := { s.psw with ac := ac, cy := cy } } ∧
      s.setCy cy = { s with psw := { s.psw with cy := cy } }) ∧
  ∀ (s : State) (v : Byte) (w : Word),
    (memRead8 s 0xFFFFA#20 = .ok s.psw.toByte ∧ memRead8 s 0xFFFFC#20 = .ok s.cs ∧ memRead8 s 0xFFFFD#20 = .ok s.es ∧
        memRead8 s 0xFFFFE#20 = .ok s.pmc ∧ memRead16 s 0xFFFF8#20 = .ok s.sp) ∧
      (∃ t, memWrite8 none s 0xFFFFA#20 v = .ok t ∧
        t.psw.toByte = if s.product.core = .s1 then v &&& 0xD7#8 else v) ∧
      memWrite8 none s 0xFFFFC#20 v = .ok { s with cs := v &&& 0x0F#8 } ∧
      memWrite8 none s 0xFFFFD#20 v = .ok { s with es := v &&& 0x0F#8 } ∧
      (s.product.core ≠ .s1 → v.toNat ≤ 1 →
        memWrite8 none s 0xFFFFE#20 v = .ok { s with pmc := v, pmcWait := true }) ∧
      (s.product.core = .s1 →
        memWrite8 none s 0xFFFFE#20 0x00#8 = .ok { s with pmc := 0x00#8, pmcWait := true }) ∧
      (s.product.core ≠ .s1 → 1 < v.toNat →
        memWrite8 none s 0xFFFFE#20 v = .error (.refuse (.prohibitedSetting v))) ∧
      (s.product.core = .s1 → v ≠ 0x00#8 →
        memWrite8 none s 0xFFFFE#20 v = .error (.refuse (.prohibitedSetting v))) ∧
      memWrite16 none s 0xFFFF8#20 w = .ok { s with sp := w &&& 0xFFFE#16 } ∧
      (s.product.core = .s3 →
        memRead16 s 0xFFFF0#20 = .ok (s.macr.extractLsb' 0 16) ∧ memRead16 s 0xFFFF2#20 = .ok (s.macr.extractLsb' 16 16) ∧
          memWrite16 none s 0xFFFF0#20 w = .ok { s with macr := s.macr.extractLsb' 16 16 ++ w } ∧
          memWrite16 none s 0xFFFF2#20 w = .ok { s with macr := w ++ s.macr.extractLsb' 0 16 } ∧
          ∀ a : Addr, 0xFFFF0 ≤ a.toNat → a.toNat ≤ 0xFFFF3 →
            memRead8 s a = .error (.refuse (.prohibitedAccess .macrByte a)) ∧
              memWrite8 none s a v = .error (.refuse (.prohibitedAccess .macrByte a))) ∧
      (∀ a : Addr, a = 0xFFFF8#20 ∨ a = 0xFFFF9#20 →
        memRead8 s a = .error (.refuse (.prohibitedAccess .spByte a)) ∧
          memWrite8 none s a v = .error (.refuse (.prohibitedAccess .spByte a))) ∧
      (∀ a : Addr, a = 0xFFFFA#20 ∨ a = 0xFFFFC#20 ∨ a = 0xFFFFE#20 →
        memRead16 s a = .error (.refuse (.prohibitedAccess .byteSfrWord a)) ∧
          memWrite16 none s a w = .error (.refuse (.prohibitedAccess .byteSfrWord a))) ∧
      ∀ a : Addr, a = 0xFFFFB#20 ∨ a = 0xFFFFF#20 →
        memRead8 s a = .error (.refuse (.prohibitedAccess .reservedSfr a)) ∧
          memWrite8 none s a v = .error (.refuse (.prohibitedAccess .reservedSfr a))

/-- The effective address of every memory operand that is no stack operand (R94 to R98, R100, R102): `hi` is ES bits 3
to 0 in the ES: forms and FH else; a sum above FFFFH is refused. `[SP+byte]` (R101): with SP in RAM and the last byte at
FFEDFH or below the address is FH :: SP + byte; with SP outside RAM, or the last byte above FFEDFH, the step faults; a
sum above FFFFH is refused. The operand access functions of R170: a register or a pair gives and takes the named
register, an immediate gives itself, a memory operand is read and written at its effective address, and a stop of the
address is that of the access; PSW, CS, ES and SP are read as the registers and written at their addresses. The place of
saddr is presumed (R96, log 12); the refusal above FFFFH (log 15) and the stack fault (log 20) are choices. -/
def Obligations.OperandAddresses : Prop :=
  (∀ (s : State) (word es : Bool) (hi : BitVec 4), hi = (if es then s.es.extractLsb' 0 4 else 0xF#4) →
      (∀ v : Byte, ea s word (.saddr v) =
        .ok (BitVec.ofNat 20 (if v.toNat < 0x20 then 0xFFF00 + v.toNat else 0xFFE00 + v.toNat))) ∧
        (∀ v : Byte, ea s word (.sfr v) = .ok (BitVec.ofNat 20 (0xFFF00 + v.toNat))) ∧
        (∀ w : Word, ea s word (.abs es w) = .ok (hi ++ w)) ∧
        ea s word (.de es) = .ok (hi ++ s.rp .de) ∧ ea s word (.hl es) = .ok (hi ++ s.rp .hl) ∧
        ∀ (m : Mem) (x : Nat),
          ((∃ o : Byte, m = .deOff es o ∧ x = (s.rp .de).toNat + o.toNat) ∨
            (∃ o : Byte, m = .hlOff es o ∧ x = (s.rp .hl).toNat + o.toNat) ∨
            m = .hlB es ∧ x = (s.rp .hl).toNat + (s.r8 .b).toNat ∨
            m = .hlC es ∧ x = (s.rp .hl).toNat + (s.r8 .c).toNat ∨
            (∃ w : Word, m = .wordB es w ∧ x = w.toNat + (s.r8 .b).toNat) ∨
            (∃ w : Word, m = .wordC es w ∧ x = w.toNat + (s.r8 .c).toNat) ∨
            ∃ w : Word, m = .wordBC es w ∧ x = w.toNat + (s.rp .bc).toNat) →
          (x ≤ 0xFFFF → ea s word m = .ok (hi ++ BitVec.ofNat 16 x)) ∧
            (0xFFFF < x → ea s word m = .error (.refuse .prohibitedAddress))) ∧
  (∀ (s : State) (word : Bool) (o : Byte) (a : Addr), a.toNat = 0xF0000 + s.sp.toNat + o.toNat →
    let last := if word then a ||| 1#20 else a
    let inside := s.product.ramStart.toNat ≤ 0xF0000 + s.sp.toNat ∧ last.toNat ≤ 0xFFEDF
    (inside → ea s word (.spOff o) = .ok a) ∧
      (¬ inside → ea s word (.spOff o) = .error (.fault (.stackOutsideRam a)))) ∧
  (∀ (s : State) (word : Bool) (o : Byte), 0xFFFF < s.sp.toNat + o.toNat →
    ea s word (.spOff o) = .error (.refuse .prohibitedAddress)) ∧
  (∀ (s b : State) (next : Addr) (v : Byte),
    (∀ r, load8 s (.reg r) = .ok (s.r8 r) ∧ store8 s next b (.reg r) v = .ok (b.setR8 r v)) ∧
      load8 s (.imm v) = .ok v ∧
      (∀ m, (∀ a, ea s false m = .ok a →
          load8 s (.mem m) = memRead8 s a ∧ store8 s next b (.mem m) v = memWrite8 (some next) b a v) ∧
        ∀ e, ea s false m = .error e → load8 s (.mem m) = .error e ∧ store8 s next b (.mem m) v = .error e) ∧
      load8 s .psw = .ok s.psw.toByte ∧ load8 s .cs = .ok s.cs ∧ load8 s .es = .ok s.es ∧
      store8 s next b .psw v = memWrite8 (some next) b 0xFFFFA#20 v ∧
      store8 s next b .cs v = memWrite8 (some next) b 0xFFFFC#20 v ∧
      store8 s next b .es v = memWrite8 (some next) b 0xFFFFD#20 v) ∧
  ∀ (s b : State) (next : Addr) (v : Word),
    (∀ p, load16 s (.rp p) = .ok (s.rp p) ∧ store16 s next b (.rp p) v = .ok (b.setRp p v)) ∧
      load16 s (.imm v) = .ok v ∧
      (∀ m, (∀ a, ea s true m = .ok a →
          load16 s (.mem m) = memRead16 s a ∧ store16 s next b (.mem m) v = memWrite16 (some next) b a v) ∧
        ∀ e, ea s true m = .error e → load16 s (.mem m) = .error e ∧ store16 s next b (.mem m) v = .error e) ∧
      load16 s .sp = .ok s.sp ∧ store16 s next b .sp v = memWrite16 (some next) b 0xFFFF8#20 v

/-! ### 8-bit transfers -/

/-- MOV to a register, and to memory (R171). XCH exchanges A with a register, or with an operand that can be read and
written (R172). With the PSW as the operand the new A goes to the bank the instruction began in (the model's choice,
log 35). -/
def Obligations.MovXchResults : Prop :=
  (∀ (s : State) (src : Opd8) (v : Byte), load8 s src = .ok v →
      (∀ r, exec (.mov (.reg r) src) s = .next ((s.advance (Instr.mov (.reg r) src).len).setR8 r v)) ∧
        ∀ m u, store8 s (s.next (.mov (.mem m) src)) s.begin (.mem m) v = .ok u →
          exec (.mov (.mem m) src) s = .next (u.goto (s.next (.mov (.mem m) src)))) ∧
  ∀ s : State,
    (∀ r, r ≠ .a → ∃ t, exec (.xch (.reg r)) s = .next t ∧ t.pc = s.next (.xch (.reg r)) ∧ t.r8 .a = s.r8 r ∧
      t.r8 r = s.r8 .a ∧ ∀ q, q ≠ .a → q ≠ r → t.r8 q = s.r8 q) ∧
    (∀ (m : Mem) (v : Byte) (u : State), ea s false m ≠ .ok pswAddr → load8 s (.mem m) = .ok v →
      store8 s (s.next (.xch (.mem m))) s.begin (.mem m) (s.r8 .a) = .ok u →
      exec (.xch (.mem m)) s = .next ((u.setR8 .a v).goto (s.next (.xch (.mem m))))) ∧
    ∀ m : Mem, ea s false m = .ok pswAddr → aheadOfFetch s (s.next (.xch (.mem m))) pswAddr = false →
      exec (.xch (.mem m)) s = .next
        (((s.advance (Instr.xch (.mem m)).len).setR8 .a s.psw.toByte).setPsw (Psw.ofByte (s.r8 .a)))

/-- The PSW forms of MOV: the encodings, the eight bits written, and no interrupt acknowledged before the next
instruction (R60, R176). That bits 5 and 3 stay 0 on S1 is the spec's choice (R42, log 10). -/
def Obligations.MovPsw : Prop :=
  (∀ v : Byte, decode [0xCE#8, 0xFA#8, v] = .done (.mov .psw (.imm v))) ∧
    decode [0x9E#8, 0xFA#8] = .done (.mov .psw (.reg .a)) ∧ decode [0x8E#8, 0xFA#8] = .done (.mov (.reg .a) .psw) ∧
    (∀ (s : State) (src : Opd8) (v : Byte), load8 s src = .ok v →
      aheadOfFetch s (s.next (.mov .psw src)) pswAddr = false →
      ∃ t, exec (.mov .psw src) s = .next t ∧ t.pc = s.next (.mov .psw src) ∧
        t.psw.toByte = (if s.product.core = .s1 then v &&& 0xD7#8 else v) ∧ t.intHold = true ∧
        ∀ r, acknowledgeable t r = false) ∧
    ∀ s : State, exec (.mov (.reg .a) .psw) s = .next ((s.advance 2).setR8 .a s.psw.toByte)

/-- The ES and CS forms of MOV: the encodings, bits 3 to 0 stored, the byte read (R177). That bits 7 to 4 are not
stored and read 0 is presumed (R52, log 11). -/
def Obligations.MovEsCs : Prop :=
  (∀ v : Byte, decode [0x41#8, v] = .done (.mov .es (.imm v)) ∧
      decode [0x61#8, 0xB8#8, v] = .done (.mov .es (.mem (.saddr v))) ∧
      decode [0xCE#8, 0xFC#8, v] = .done (.mov .cs (.imm v))) ∧
    decode [0x8E#8, 0xFD#8] = .done (.mov (.reg .a) .es) ∧ decode [0x9E#8, 0xFD#8] = .done (.mov .es (.reg .a)) ∧
    decode [0x8E#8, 0xFC#8] = .done (.mov (.reg .a) .cs) ∧ decode [0x9E#8, 0xFC#8] = .done (.mov .cs (.reg .a)) ∧
    (∀ (s : State) (src : Opd8) (v : Byte), load8 s src = .ok v →
      (aheadOfFetch s (s.next (.mov .es src)) esAddr = false →
        exec (.mov .es src) s = .next { s.advance (Instr.mov .es src).len with es := v &&& 0x0F#8 }) ∧
      (aheadOfFetch s (s.next (.mov .cs src)) csAddr = false →
        exec (.mov .cs src) s = .next { s.advance (Instr.mov .cs src).len with cs := v &&& 0x0F#8 })) ∧
    ∀ s : State, exec (.mov (.reg .a) .es) s = .next ((s.advance 2).setR8 .a s.es) ∧
      exec (.mov (.reg .a) .cs) s = .next ((s.advance 2).setR8 .a s.cs)

/-- ONEB, CLRB and their word companions ONEW, CLRW store a constant and change no flag (R173, R174, R193, R194). -/
def Obligations.ConstantResults : Prop :=
  ∀ s : State,
    (∀ r, exec (.oneb (.reg r)) s = .next ((s.advance (Instr.oneb (.reg r)).len).setR8 r 0x01#8) ∧
      exec (.clrb (.reg r)) s = .next ((s.advance (Instr.clrb (.reg r)).len).setR8 r 0x00#8)) ∧
    (∀ m u, store8 s (s.next (.oneb (.mem m))) s.begin (.mem m) 0x01#8 = .ok u →
      exec (.oneb (.mem m)) s = .next (u.goto (s.next (.oneb (.mem m))))) ∧
    (∀ m u, store8 s (s.next (.clrb (.mem m))) s.begin (.mem m) 0x00#8 = .ok u →
      exec (.clrb (.mem m)) s = .next (u.goto (s.next (.clrb (.mem m))))) ∧
    (∀ p, exec (.onew p) s = .next (((s.advance (Instr.onew p).len).setR8 (pairLo p) 0x01#8).setR8 (pairHi p) 0x00#8)) ∧
    ∀ p, exec (.clrw p) s = .next (((s.advance (Instr.clrw p).len).setR8 (pairLo p) 0x00#8).setR8 (pairHi p) 0x00#8)

/-! ### 16-bit transfers -/

/-- MOVW to a register pair and to memory, and XCHW (R191, R192). -/
def Obligations.MovwResult : Prop :=
  ∀ s : State,
    (∀ (p : RegPair) (src : Opd16) (v : Word), load16 s src = .ok v →
      exec (.movw (.rp p) src) s = .next ((s.advance (Instr.movw (.rp p) src).len).setRp p v)) ∧
    (∀ (m : Mem) (src : Opd16) (v : Word) (u : State), load16 s src = .ok v →
      store16 s (s.next (.movw (.mem m) src)) s.begin (.mem m) v = .ok u →
      exec (.movw (.mem m) src) s = .next (u.goto (s.next (.movw (.mem m) src)))) ∧
    ∀ p, p ≠ .ax → ∃ t, exec (.xchw p) s = .next t ∧ t.pc = s.pc + 1#20 ∧ t.rp .ax = s.rp p ∧ t.rp p = s.rp .ax ∧
      ∀ q, q ≠ .ax → q ≠ p → t.rp q = s.rp q

/-- The SP forms of MOVW: the encodings, SP written with bit 0 dropped, SP read into each pair (R302). ADDW SP and
SUBW SP: the encodings and the sum with bit 0 dropped; no flag changes (R303, R304). -/
def Obligations.StackPointerInstructions : Prop :=
  ((∀ l h : Byte, decode [0xCB#8, 0xF8#8, l, h] = .done (.movw .sp (.imm (h ++ l)))) ∧
      decode [0xBE#8, 0xF8#8] = .done (.movw .sp (.rp .ax)) ∧ decode [0xAE#8, 0xF8#8] = .done (.movw (.rp .ax) .sp) ∧
      decode [0xDB#8, 0xF8#8, 0xFF#8] = .done (.movw (.rp .bc) .sp) ∧
      decode [0xEB#8, 0xF8#8, 0xFF#8] = .done (.movw (.rp .de) .sp) ∧
      decode [0xFB#8, 0xF8#8, 0xFF#8] = .done (.movw (.rp .hl) .sp) ∧
      (∀ (s : State) (src : Opd16) (v : Word), load16 s src = .ok v →
        aheadOfFetch s (s.next (.movw .sp src)) 0xFFFF8#20 = false →
        aheadOfFetch s (s.next (.movw .sp src)) 0xFFFF9#20 = false →
        exec (.movw .sp src) s = .next { s.advance (Instr.movw .sp src).len with sp := v &&& 0xFFFE#16 }) ∧
      ∀ (s : State) (p : RegPair), exec (.movw (.rp p) .sp) s =
        .next ((s.advance (Instr.movw (.rp p) .sp).len).setRp p s.sp)) ∧
  ∀ v : Byte, decode [0x10#8, v] = .done (.addwSp v) ∧ decode [0x20#8, v] = .done (.subwSp v) ∧
    ∀ s : State,
      exec (.addwSp v) s = .next { s.advance 2 with sp := BitVec.ofNat 16 (s.sp.toNat + v.toNat) &&& 0xFFFE#16 } ∧
        exec (.subwSp v) s =
          .next { s.advance 2 with sp := BitVec.ofInt 16 ((s.sp.toNat : Int) - v.toNat) &&& 0xFFFE#16 }

/-! ### 8-bit operations -/

/-- ADD, ADDC, SUB, SUBC: the result goes to the destination, Z, AC and CY are those of R211, with the carry of the
PSW in ADDC and SUBC (R201 to R204). AND, OR, XOR: the result goes to the destination and Z alone changes (R205 to
R207). -/
def Obligations.ByteOperationResults : Prop :=
  (∀ (s u : State) (d src : Opd8) (a b v : Byte), load8 s d = .ok a → load8 s src = .ok b →
      (∀ c : Bool, v = a + b + BitVec.ofNat 8 c.toNat →
        (c = false → store8 s (s.next (.add d src)) s.begin d v = .ok u → exec (.add d src) s =
          .next ((u.setZAcCy (v == 0#8) (decide (15 < a.toNat % 16 + b.toNat % 16))
            (decide (255 < a.toNat + b.toNat))).goto (s.next (.add d src)))) ∧
        (c = s.psw.cy → store8 s (s.next (.addc d src)) s.begin d v = .ok u → exec (.addc d src) s =
          .next ((u.setZAcCy (v == 0#8) (decide (15 < a.toNat % 16 + b.toNat % 16 + c.toNat))
            (decide (255 < a.toNat + b.toNat + c.toNat))).goto (s.next (.addc d src))))) ∧
      ∀ c : Bool, v = a - b - BitVec.ofNat 8 c.toNat →
        (c = false → store8 s (s.next (.sub d src)) s.begin d v = .ok u → exec (.sub d src) s =
          .next ((u.setZAcCy (v == 0#8) (decide (a.toNat % 16 < b.toNat % 16))
            (decide (a.toNat < b.toNat))).goto (s.next (.sub d src)))) ∧
        (c = s.psw.cy → store8 s (s.next (.subc d src)) s.begin d v = .ok u → exec (.subc d src) s =
          .next ((u.setZAcCy (v == 0#8) (decide (a.toNat % 16 < b.toNat % 16 + c.toNat))
            (decide (a.toNat < b.toNat + c.toNat))).goto (s.next (.subc d src))))) ∧
  ∀ (s u : State) (d src : Opd8) (a b : Byte), load8 s d = .ok a → load8 s src = .ok b →
    (store8 s (s.next (.and d src)) s.begin d (a &&& b) = .ok u → exec (.and d src) s =
      .next ({ u with psw := { u.psw with z := a &&& b == 0#8 } }.goto (s.next (.and d src)))) ∧
    (store8 s (s.next (.or d src)) s.begin d (a ||| b) = .ok u → exec (.or d src) s =
      .next ({ u with psw := { u.psw with z := a ||| b == 0#8 } }.goto (s.next (.or d src)))) ∧
    (store8 s (s.next (.xor d src)) s.begin d (a ^^^ b) = .ok u → exec (.xor d src) s =
      .next ({ u with psw := { u.psw with z := a ^^^ b == 0#8 } }.goto (s.next (.xor d src))))

/-- CMP, CMP0 and CMPS store nothing: Z, AC and CY of each; CMPS clears CY only where X equals the byte and neither A
nor X is 0 (R208 to R210). MOVS stores X and then sets Z and CY from X and A; AC stays (R175): in RAM and wherever else
a byte can be written: a register of another bank, PSW, ES, CS, PMC, a product SFR; where it cannot be written MOVS
stops as the write does. That bits 7 to 4 of ES and CS are not stored is presumed (R52, log 11). Choices: PSW bits 5 and
3 stay 0 on S1 (R42, log 10); a write to PMC sets the mirror wait bit, and a value PMC may not hold is refused (R55,
R63, log 22); a storage SFR keeps what was written and a device takes the write with no effect the CPU sees (R86, log
18). -/
def Obligations.CompareStringResults : Prop :=
  (∀ (s : State),
      (∀ (d src : Opd8) (a b : Byte), load8 s d = .ok a → load8 s src = .ok b → exec (.cmp d src) s =
        .next ((s.advance (Instr.cmp d src).len).setZAcCy (decide (a = b)) (decide (a.toNat % 16 < b.toNat % 16))
          (decide (a.toNat < b.toNat)))) ∧
      (∀ (d : Opd8) (a : Byte), load8 s d = .ok a → exec (.cmp0 d) s =
        .next ((s.advance (Instr.cmp0 d).len).setZAcCy (decide (a = 0#8)) false false)) ∧
      ∀ (es : Bool) (o m : Byte), load8 s (.mem (.hlOff es o)) = .ok m → exec (.cmps es o) s =
        .next ((s.advance (Instr.cmps es o).len).setZAcCy (decide (s.r8 .x = m))
          (decide ((s.r8 .x).toNat % 16 < m.toNat % 16)) (decide (¬(s.r8 .x = m ∧ s.r8 .a ≠ 0#8 ∧ s.r8 .x ≠ 0#8))))) ∧
  ∀ (s : State) (i : Instr) (es z c : Bool) (o x : Byte) (a : Addr), i = .movs es o → ea s false (.hlOff es o) = .ok a →
    x = s.r8 .x → z = decide (x = 0#8) → c = decide (s.r8 .a = 0#8 ∨ x = 0#8) →
    (Inv s → ramFree s (s.next i) a = true → ∃ t, exec i s = .next t ∧ t.pc = s.next i ∧ t.byteAt a = some x ∧
      t.psw = { s.psw with z := z, cy := c }) ∧
    (∀ u, memWrite8 (some (s.next i)) s.begin a x = .ok u → exec i s = .next ((u.setZCy z c).goto (s.next i))) ∧
    (∀ r, memWrite8 (some (s.next i)) s.begin a x = .error (.refuse r) → exec i s = .refused r) ∧
    (aheadOfFetch s (s.next i) a = false →
      (∀ b r, a = fileAddr (gprIndex b r) → s.product.core ≠ .s1 → b ≠ s.bank →
        exec i s = .next (((s.advance i.len).setGpr (gprIndex b r) x).setZCy z c)) ∧
      (a = pswAddr → exec i s = .next (((s.advance i.len).setPsw (Psw.ofByte x)).setZCy z c)) ∧
      (a = esAddr → exec i s = .next ({ s.advance i.len with es := x &&& 0x0F#8 }.setZCy z c)) ∧
      (a = csAddr → exec i s = .next ({ s.advance i.len with cs := x &&& 0x0F#8 }.setZCy z c)) ∧
      (a = pmcAddr → (if s.product.core = .s1 then x = 0x00#8 else x.toNat ≤ 1) →
        exec i s = .next ({ s.advance i.len with pmc := x, pmcWait := true }.setZCy z c)) ∧
      (a = pmcAddr → ¬(if s.product.core = .s1 then x = 0x00#8 else x.toNat ≤ 1) →
        exec i s = .refused (.prohibitedSetting x)) ∧
      ∀ e, (s.region a = .sfr2 ∨ s.region a = .sfr ∧ sfrKind s.product.core a = .product) →
        sfrEntry s.product a = some e → e.writable = true → unitAllowed e .byte = true →
        (e.behaviour = .device → exec i s = .next ((s.advance i.len).setZCy z c)) ∧
          ∀ r, Inv s → e.behaviour = .storage r → ∃ t, exec i s = .next t ∧ t.pc = s.next i ∧ t.byteAt a = some x ∧
            t.psw = { s.psw with z := z, cy := c })

/-- After CMP the six conditions compare the operands as unsigned numbers: C is lower, Z equal, H higher, and their
opposites (R208, R325 to R330). -/
def Obligations.CompareThenCondition : Prop :=
  ∀ (s t : State) (d src : Opd8) (a b : Byte), load8 s d = .ok a → load8 s src = .ok b →
    exec (.cmp d src) s = .next t →
    (condHolds t.psw .c = true ↔ a.toNat < b.toNat) ∧ (condHolds t.psw .nc = true ↔ b.toNat ≤ a.toNat) ∧
      (condHolds t.psw .z = true ↔ a = b) ∧ (condHolds t.psw .nz = true ↔ a ≠ b) ∧
      (condHolds t.psw .h = true ↔ b.toNat < a.toNat) ∧ (condHolds t.psw .nh = true ↔ a.toNat ≤ b.toNat)

/-! ### 16-bit operations -/

/-- ADDW, SUBW, CMPW: the result in AX, Z and CY of the 16-bit operation, and some AC: the rule leaves it undefined
(R220 to R223). -/
def Obligations.WordArithmeticResults : Prop :=
  ∀ (s : State) (src : Opd16) (b : Word), load16 s src = .ok b →
    (∃ ac : Bool, exec (.addw src) s = .next (((s.advance (Instr.addw src).len).setRp .ax (s.rp .ax + b)).setZAcCy
      (decide (s.rp .ax + b = 0#16)) ac (decide (65535 < (s.rp .ax).toNat + b.toNat)))) ∧
    (∃ ac : Bool, exec (.subw src) s = .next (((s.advance (Instr.subw src).len).setRp .ax (s.rp .ax - b)).setZAcCy
      (decide (s.rp .ax = b)) ac (decide ((s.rp .ax).toNat < b.toNat)))) ∧
    ∃ ac : Bool, exec (.cmpw src) s = .next ((s.advance (Instr.cmpw src).len).setZAcCy
      (decide (s.rp .ax = b)) ac (decide ((s.rp .ax).toNat < b.toNat)))

/-- The multiplications: MULU on every core, MULHU and MULH on S3; the product is exact, unsigned or signed, and no flag
changes (R225 to R227). That MULHU and MULH are refused on S1 and S2 is the spec's choice (R19, log 21). -/
def Obligations.MultiplyResults : Prop :=
  (decode [0xD6#8] = .done .mulu ∧ decode [0xCE#8, 0xFB#8, 0x01#8] = .done .mulhu ∧
      decode [0xCE#8, 0xFB#8, 0x02#8] = .done .mulh) ∧
    (∀ s : State, ∃ v : Word, v.toNat = (s.r8 .a).toNat * (s.r8 .x).toNat ∧
      exec .mulu s = .next ((s.advance 1).setRp .ax v)) ∧
    (∀ s : State, s.product.core = .s3 → ∃ h l : Word, (h ++ l).toNat = (s.rp .ax).toNat * (s.rp .bc).toNat ∧
      exec .mulhu s = .next (((s.advance 3).setRp .bc h).setRp .ax l)) ∧
    (∀ s : State, s.product.core = .s3 → ∃ h l : Word, (h ++ l).toInt = (s.rp .ax).toInt * (s.rp .bc).toInt ∧
      exec .mulh s = .next (((s.advance 3).setRp .bc h).setRp .ax l)) ∧
    ∀ s : State, s.product.core ≠ .s3 →
      exec .mulhu s = .refused .undefinedInstruction ∧ exec .mulh s = .refused .undefinedInstruction

/-- DIVHU and DIVWU on S3: quotient and remainder of the unsigned division; a zero divisor gives all ones and leaves the
dividend as the remainder (R228, R229; that the 32-bit constant is FFFFFFFFH is the spec's reading, log 42). That the
address of the division is noted for the boundary after it is the spec's choice (R234, log 25). -/
def Obligations.DivideResults : Prop :=
  ∀ s : State, s.product.core = .s3 →
    (∃ q r : Word, exec .divhu s =
        .next { ((s.advance 3).setRp .ax q).setRp .de r with afterDiv := some s.pc } ∧
      (s.rp .de = 0#16 → q = 0xFFFF#16 ∧ r = s.rp .ax) ∧
      (s.rp .de ≠ 0#16 → (s.rp .ax).toNat = q.toNat * (s.rp .de).toNat + r.toNat ∧ r.toNat < (s.rp .de).toNat)) ∧
    ∃ qh ql rh rl : Word, exec .divwu s =
        .next { ((((s.advance 3).setRp .bc qh).setRp .ax ql).setRp .hl rh).setRp .de rl with afterDiv := some s.pc } ∧
      (s.hlde = 0#32 → qh ++ ql = 0xFFFFFFFF#32 ∧ rh ++ rl = s.bcax) ∧
      (s.hlde ≠ 0#32 → s.bcax.toNat = (qh ++ ql).toNat * s.hlde.toNat + (rh ++ rl).toNat ∧
        (rh ++ rl).toNat < s.hlde.toNat)

/-- MACHU and MACH on S3: the low 32 bits of the exact sum, CY when the sum does not fit (unsigned, or signed), AC 0
or the sign of the result, Z kept (R232, R233; what is kept on overflow is the spec's reading, log 32). -/
def Obligations.AccumulateResults : Prop :=
  ∀ s : State, s.product.core = .s3 →
    (∃ m : DWord, (m.toNat : Int) % 2 ^ 32 = ((s.macr.toNat + (s.rp .ax).toNat * (s.rp .bc).toNat : Nat) : Int) % 2 ^ 32 ∧
      exec .machu s = .next ({ s.advance 3 with macr := m }.setAcCy false
        (decide (m.toNat ≠ s.macr.toNat + (s.rp .ax).toNat * (s.rp .bc).toNat)))) ∧
    ∃ m : DWord, (2 ^ 32 : Int) ∣ s.macr.toInt + (s.rp .ax).toInt * (s.rp .bc).toInt - m.toInt ∧
      exec .mach s = .next ({ s.advance 3 with macr := m }.setAcCy (decide (m.toInt < 0))
        (decide (m.toInt ≠ s.macr.toInt + (s.rp .ax).toInt * (s.rp .bc).toInt)))

/-! ### Increment, decrement, shift, rotate -/

/-- INC and DEC change Z and AC, never CY; INCW and DECW no flag (R240 to R244). -/
def Obligations.IncDecResults : Prop :=
  ∀ s : State,
    (∀ (d : Opd8) (a : Byte) (u : State), load8 s d = .ok a →
      (store8 s (s.next (.inc d)) s.begin d (a + 1#8) = .ok u → exec (.inc d) s =
        .next ({ u with psw := { u.psw with z := decide (a = 0xFF#8), ac := decide (a.toNat % 16 = 15) } }.goto
          (s.next (.inc d)))) ∧
      (store8 s (s.next (.dec d)) s.begin d (a - 1#8) = .ok u → exec (.dec d) s =
        .next ({ u with psw := { u.psw with z := decide (a = 0x01#8), ac := decide (a.toNat % 16 = 0) } }.goto
          (s.next (.dec d))))) ∧
    ∀ (d : Opd16) (a : Word) (u : State), load16 s d = .ok a →
      (store16 s (s.next (.incw d)) s.begin d (a + 1#16) = .ok u →
        exec (.incw d) s = .next (u.goto (s.next (.incw d)))) ∧
      (store16 s (s.next (.decw d)) s.begin d (a - 1#16) = .ok u →
        exec (.decw d) s = .next (u.goto (s.next (.decw d))))

/-- A shift by cnt is cnt one-bit shifts: the encodings `31 (cnt << 4) | k`, 0 or the sign entering, the bit moved out
last in CY (R250 to R256). -/
def Obligations.ShiftResults : Prop :=
  (∀ (s : State) (cnt : BitVec 3), cnt ≠ 0#3 →
    (decode [0x31#8, (0#1 ++ cnt ++ 0xA#4 : Byte)] = .done (.shr cnt) ∧
      ∀ x, x = repeated (fun v => ((0#1 ++ v.extractLsb' 1 7 : Byte), v.getLsbD 0)) cnt.toNat (s.r8 .a, s.psw.cy) →
        exec (.shr cnt) s = .next (((s.advance 2).setR8 .a x.1).setCy x.2)) ∧
    (decode [0x31#8, (0#1 ++ cnt ++ 0xB#4 : Byte)] = .done (.sar cnt) ∧
      ∀ x, x = repeated (fun v => ((v.extractLsb' 7 1 ++ v.extractLsb' 1 7 : Byte), v.getLsbD 0)) cnt.toNat
          (s.r8 .a, s.psw.cy) →
        exec (.sar cnt) s = .next (((s.advance 2).setR8 .a x.1).setCy x.2)) ∧
    ∀ (r : Reg8) (k : BitVec 4), (r, k) ∈ [(Reg8.a, 9#4), (.b, 8#4), (.c, 7#4)] →
      decode [0x31#8, (0#1 ++ cnt ++ k : Byte)] = .done (.shl r cnt) ∧
      ∀ x, x = repeated (fun v => ((v.extractLsb' 0 7 ++ 0#1 : Byte), v.getLsbD 7)) cnt.toNat (s.r8 r, s.psw.cy) →
        exec (.shl r cnt) s = .next (((s.advance 2).setR8 r x.1).setCy x.2)) ∧
  ∀ (s : State) (cnt : BitVec 4), cnt ≠ 0#4 →
    (decode [0x31#8, (cnt ++ 0xE#4 : Byte)] = .done (.shrw cnt) ∧
      ∀ x, x = repeated (fun v => ((0#1 ++ v.extractLsb' 1 15 : Word), v.getLsbD 0)) cnt.toNat (s.rp .ax, s.psw.cy) →
        exec (.shrw cnt) s = .next (((s.advance 2).setRp .ax x.1).setCy x.2)) ∧
    (decode [0x31#8, (cnt ++ 0xF#4 : Byte)] = .done (.sarw cnt) ∧
      ∀ x, x = repeated (fun v => ((v.extractLsb' 15 1 ++ v.extractLsb' 1 15 : Word), v.getLsbD 0)) cnt.toNat
          (s.rp .ax, s.psw.cy) →
        exec (.sarw cnt) s = .next (((s.advance 2).setRp .ax x.1).setCy x.2)) ∧
    ∀ (p : RegPair) (k : BitVec 4), (p, k) ∈ [(RegPair.ax, 0xD#4), (.bc, 0xC#4)] →
      decode [0x31#8, (cnt ++ k : Byte)] = .done (.shlw p cnt) ∧
      ∀ x, x = repeated (fun v => ((v.extractLsb' 0 15 ++ 0#1 : Word), v.getLsbD 15)) cnt.toNat (s.rp p, s.psw.cy) →
        exec (.shlw p cnt) s = .next (((s.advance 2).setRp p x.1).setCy x.2)

/-- The rotates: ROR and ROL rotate the register and copy the bit moved round to CY; RORC, ROLC and ROLWC rotate CY
and the register together as one value (R259 to R264). -/
def Obligations.RotateResults : Prop :=
  (decode [0x61#8, 0xDB#8] = .done .ror ∧ decode [0x61#8, 0xEB#8] = .done .rol ∧
      decode [0x61#8, 0xFB#8] = .done .rorc ∧ decode [0x61#8, 0xDC#8] = .done .rolc ∧
      decode [0x61#8, 0xEE#8] = .done (.rolwc .ax) ∧ decode [0x61#8, 0xFE#8] = .done (.rolwc .bc)) ∧
    ∀ (s : State) (c : Bool) (v : Byte),
      exec .ror s =
          .next (((s.advance 2).setR8 .a ((s.r8 .a).rotateRight 1)).setCy (((s.r8 .a).rotateRight 1).getLsbD 7)) ∧
        exec .rol s =
          .next (((s.advance 2).setR8 .a ((s.r8 .a).rotateLeft 1)).setCy (((s.r8 .a).rotateLeft 1).getLsbD 0)) ∧
        (BitVec.ofBool c ++ v = (BitVec.ofBool s.psw.cy ++ s.r8 .a).rotateRight 1 →
          exec .rorc s = .next (((s.advance 2).setR8 .a v).setCy c)) ∧
        (BitVec.ofBool c ++ v = (BitVec.ofBool s.psw.cy ++ s.r8 .a).rotateLeft 1 →
          exec .rolc s = .next (((s.advance 2).setR8 .a v).setCy c)) ∧
        ∀ (p : RegPair) (w : Word), BitVec.ofBool c ++ w = (BitVec.ofBool s.psw.cy ++ s.rp p).rotateLeft 1 →
          exec (.rolwc p) s = .next (((s.advance 2).setRp p w).setCy c)

/-! ### Bit manipulation -/

/-- What reading a bit gives: bit n of A, bit n of the PSW byte, CY, or bit n of the byte at the effective address; a
bit instruction reads and writes that byte as a byte instruction does, but for a product SFR, whose unit is the bit
(R86, R103, R270). The place of the flags in the PSW byte is presumed (R34, log 8). The instructions that leave their
result in CY: MOV1 CY, AND1, OR1, XOR1, NOT1, SET1 CY, CLR1 CY; nothing else changes (R271 to R277). The instructions
that write a bit of A or of memory, MOV1 with CY, SET1 and CLR1: the bit reads back, every other bit of the byte stays
(R103, R270, R271, R275, R276), in RAM and wherever else the byte can be read and written: a register of another bank,
ES, CS, PMC, a storage SFR. Excepted are bits 7 to 4 of ES and CS: that they are not stored and read 0 is presumed (R52,
log 11). The byte is read once and written once (the spec's choice, R103, log 18), and a storage SFR reads back what was
written (the model's choice, log 18). A value PMC may not hold is refused, and a write to PMC sets the mirror wait bit
(the spec's choices, R55, R63, log 22). -/
def Obligations.BitResults : Prop :=
  (∀ s : State,
      (∀ n : BitVec 3, readBit s (.a n) = .ok ((s.r8 .a).getLsbD n.toNat) ∧
        readBit s (.psw n) = .ok (s.psw.toByte.getLsbD n.toNat)) ∧
      readBit s .cy = .ok s.psw.cy ∧
      (∀ (m : Mem) (n : BitVec 3),
        (∀ a, ea s false m = .ok a →
          (∀ w, memReadBit s a = .ok w → readBit s (.mem m n) = .ok (w.getLsbD n.toNat)) ∧
            ∀ e, memReadBit s a = .error e → readBit s (.mem m n) = .error e) ∧
          ∀ e, ea s false m = .error e → readBit s (.mem m n) = .error e) ∧
      ∀ a : Addr, ¬(s.region a = .sfr2 ∨ s.region a = .sfr ∧ sfrKind s.product.core a = .product) →
        memReadBit s a = memRead8 s a ∧ ∀ win v, memWriteBit win s a v = memWrite8 win s a v) ∧
  (∀ s : State,
      (∀ (o : BitOpd) (v : Bool), readBit s o = .ok v →
        exec (.mov1 .cy o) s = .next ((s.advance (Instr.mov1 .cy o).len).setCy v) ∧
          exec (.and1 o) s = .next ((s.advance (Instr.and1 o).len).setCy (s.psw.cy && v)) ∧
          exec (.or1 o) s = .next ((s.advance (Instr.or1 o).len).setCy (s.psw.cy || v)) ∧
          exec (.xor1 o) s = .next ((s.advance (Instr.xor1 o).len).setCy (s.psw.cy ^^ v))) ∧
        exec .not1 s = .next ((s.advance 2).setCy (!s.psw.cy)) ∧ exec (.set1 .cy) s = .next ((s.advance 2).setCy true) ∧
        exec (.clr1 .cy) s = .next ((s.advance 2).setCy false)) ∧
  (∀ (s : State) (i : Instr) (o : BitOpd) (n : BitVec 3) (v : Bool),
    (i = .mov1 o .cy ∧ v = s.psw.cy ∨ i = .set1 o ∧ v = true ∨ i = .clr1 o ∧ v = false) →
    (o = .a n → ∃ t, exec i s = .next t ∧ t.pc = s.next i ∧ t.psw = s.psw ∧
      ∀ k : BitVec 3, (t.r8 .a).getLsbD k.toNat = if k = n then v else (s.r8 .a).getLsbD k.toNat) ∧
    ∀ (m : Mem) (a : Addr) (w : Byte), Inv s → o = .mem m n → ea s false m = .ok a →
      ramFree s (s.next i) a = true → s.byteAt a = some w →
      ∃ t x, exec i s = .next t ∧ t.pc = s.next i ∧ t.psw = s.psw ∧ t.byteAt a = some x ∧
        ∀ k : BitVec 3, x.getLsbD k.toNat = if k = n then v else w.getLsbD k.toNat) ∧
  ∀ (s : State) (i : Instr) (m : Mem) (n : BitVec 3) (v : Bool) (a : Addr) (w x : Byte),
    (i = .mov1 (.mem m n) .cy ∧ v = s.psw.cy ∨ i = .set1 (.mem m n) ∧ v = true ∨ i = .clr1 (.mem m n) ∧ v = false) →
    ea s false m = .ok a → memReadBit s a = .ok w →
    (∀ k : BitVec 3, x.getLsbD k.toNat = if k = n then v else w.getLsbD k.toNat) →
    (∀ u, memWriteBit (some (s.next i)) s.begin a x = .ok u → exec i s = .next (u.goto (s.next i))) ∧
      (aheadOfFetch s (s.next i) a = false →
        (s.region a = .gpr → exec i s = .next ((s.advance i.len).setGpr (gprIndexAt a) x)) ∧
        (a = esAddr → exec i s = .next { s.advance i.len with es := x &&& 0x0F#8 }) ∧
        (a = csAddr → exec i s = .next { s.advance i.len with cs := x &&& 0x0F#8 }) ∧
        (a = pmcAddr → (if s.product.core = .s1 then x = 0x00#8 else x.toNat ≤ 1) →
          exec i s = .next { s.advance i.len with pmc := x, pmcWait := true }) ∧
        (a = pmcAddr → ¬(if s.product.core = .s1 then x = 0x00#8 else x.toNat ≤ 1) →
          exec i s = .refused (.prohibitedSetting x)) ∧
        ∀ e r, Inv s → (s.region a = .sfr2 ∨ s.region a = .sfr ∧ sfrKind s.product.core a = .product) →
          sfrEntry s.product a = some e → e.writable = true → e.behaviour = .storage r →
          ∃ t, exec i s = .next t ∧ t.pc = s.next i ∧ t.psw = s.psw ∧ t.byteAt a = some x)

/-- A bit write to the PSW, by MOV1, SET1 or CLR1, changes that bit alone, and no interrupt is acknowledged before the
next instruction (R60, R278). That bits 5 and 3 stay 0 on S1 is the spec's choice (R42, log 10). -/
def Obligations.PswBitResults : Prop :=
  ∀ (s : State) (i : Instr) (n : BitVec 3) (v : Bool), Inv s →
    (i = .mov1 (.psw n) .cy ∧ v = s.psw.cy ∨ i = .set1 (.psw n) ∧ v = true ∨ i = .clr1 (.psw n) ∧ v = false) →
    ∃ t, exec i s = .next t ∧ t.pc = s.next i ∧ (∀ r, acknowledgeable t r = false) ∧
      ∀ k : BitVec 3, t.psw.getBit k =
        if k = n ∧ ¬(s.product.core = .s1 ∧ (n = 5#3 ∨ n = 3#3)) then v else s.psw.getBit k

/-! ### Calls, returns, the stack -/

/-- CALL pushes the address of the next instruction below 00H and goes to its target (R47, R290, R291); CALL $!addr20 in
RAM with its target in the code flash is refused (R321, the spec's choice, log 24). CALLT does the same as CALL with
the target from the table entry 0080H + 2n (R79, R292). That bits 7 to 4 of the stored byte with bits 19 to 16 of the
address are 0 is the spec's choice (R290, log 33). -/
def Obligations.CallResults : Prop :=
  (∀ (s : State) (c : CallTarget), Inv s → stackFree s (s.next (.call c)) 4 = true →
      (callRelative c = true → fromRamToFlash s (callGoal s c) = false) →
      ∃ t, exec (.call c) s = .next t ∧ t.pc = callGoal s c ∧ t.sp = s.sp - 4#16 ∧ t.psw = s.psw ∧
        stackByte t 3 = some 0x00#8 ∧ stackByte t 2 = some (((s.next (.call c)).extractLsb' 16 4).setWidth 8) ∧
        stackByte t 1 = some ((s.next (.call c)).extractLsb' 8 8) ∧
        stackByte t 0 = some ((s.next (.call c)).extractLsb' 0 8)) ∧
  (∀ (s : State) (c : CallTarget), callRelative c = true → fromRamToFlash s (callGoal s c) = true →
      exec (.call c) s = .refused (.prohibitedBranch (callGoal s c))) ∧
  ∀ (s : State) (n : BitVec 5) (a : Addr), Inv s → a.toNat = 0x80 + 2 * n.toNat →
    stackFree s (s.pc + 2#20) 4 = true →
    ∃ t, exec (.callt n) s = .next t ∧ t.pc = 0#4 ++ s.image (a + 1#20) ++ s.image a ∧ t.sp = s.sp - 4#16 ∧
      t.psw = s.psw ∧ stackByte t 3 = some 0x00#8 ∧
      stackByte t 2 = some (((s.pc + 2#20).extractLsb' 16 4).setWidth 8) ∧
      stackByte t 1 = some ((s.pc + 2#20).extractLsb' 8 8) ∧ stackByte t 0 = some ((s.pc + 2#20).extractLsb' 0 8)

/-- BRK pushes the PSW as it was above the return address, clears IE, and goes to the word at 0007EH; ISP and the bank
stay (R293). That bits 7 to 4 of the stored byte with bits 19 to 16 of the address are 0 is the spec's choice (R290,
log 33). -/
def Obligations.BrkEntry : Prop :=
  ∀ s : State, Inv s → stackFree s (s.pc + 2#20) 4 = true →
    ∃ t, exec .brk s = .next t ∧ t.pc = 0#4 ++ s.image 0x0007F#20 ++ s.image 0x0007E#20 ∧ t.sp = s.sp - 4#16 ∧
      t.psw = { s.psw with ie := false } ∧ stackByte t 3 = some s.psw.toByte ∧
      stackByte t 2 = some (((s.pc + 2#20).extractLsb' 16 4).setWidth 8) ∧
      stackByte t 1 = some ((s.pc + 2#20).extractLsb' 8 8) ∧ stackByte t 0 = some ((s.pc + 2#20).extractLsb' 0 8)

/-- RET takes pc from the three bytes at SP and does not read the fourth (R294). RETI and RETB take pc and the whole
PSW from the four bytes at SP and hold interrupts for one instruction; RETI also tells the controller (R295, R296,
R385). That bits 7 to 4 of the byte with bits 19 to 16 of pc are ignored (R290, log 33) and that PSW bits 5 and 3 stay
0 on S1 (R42, log 10) are the spec's choices. -/
def Obligations.ReturnResults : Prop :=
  (∀ (s : State) (l h x : Byte), stackByte s 0 = some l → stackByte s 1 = some h → stackByte s 2 = some x →
      decode [0xD7#8] = .done .ret ∧
        exec .ret s = .next { s.advance 0 with pc := x.extractLsb' 0 4 ++ h ++ l, sp := (s.sp + 4#16) &&& 0xFFFE#16 }) ∧
  ∀ (s : State) (l h x p : Byte), stackByte s 0 = some l → stackByte s 1 = some h → stackByte s 2 = some x →
    stackByte s 3 = some p → ∃ t, exec .retb s = .next t ∧ exec .reti s = .next { t with notices := .returned :: s.notices } ∧
      t.pc = x.extractLsb' 0 4 ++ h ++ l ∧ t.sp = (s.sp + 4#16) &&& 0xFFFE#16 ∧ t.notices = s.notices ∧
      t.psw.toByte = (if s.product.core = .s1 then p &&& 0xD7#8 else p) ∧ ∀ r, acknowledgeable t r = false

/-- PUSH stores the pair as a little-endian word below SP, or the PSW above 00H (R300). POP takes a pair from the two
bytes at SP; POP PSW takes the byte at SP + 1, does not read the one at SP, and holds interrupts for one instruction
(R301). That PSW bits 5 and 3 stay 0 on S1 is the spec's choice (R42, log 10). -/
def Obligations.PushPopResults : Prop :=
  (∀ (s : State) (o : StackOpd), Inv s → stackFree s (s.next (.push o)) 2 = true →
      ∃ t, exec (.push o) s = .next t ∧ t.pc = s.next (.push o) ∧ t.sp = s.sp - 2#16 ∧ t.psw = s.psw ∧
        (∀ p, o = .rp p → stackByte t 1 = some (s.r8 (pairHi p)) ∧ stackByte t 0 = some (s.r8 (pairLo p))) ∧
        (o = .psw → stackByte t 1 = some s.psw.toByte ∧ stackByte t 0 = some 0x00#8)) ∧
  ∀ (s : State) (h : Byte), stackByte s 1 = some h →
    (∀ (p : RegPair) (l : Byte), stackByte s 0 = some l →
      exec (.pop (.rp p)) s = .next ({ s.advance 1 with sp := (s.sp + 2#16) &&& 0xFFFE#16 }.setRp p (h ++ l))) ∧
    ∃ t, exec (.pop .psw) s = .next t ∧ t.pc = s.pc + 2#20 ∧ t.sp = (s.sp + 2#16) &&& 0xFFFE#16 ∧
      t.psw.toByte = (if s.product.core = .s1 then h &&& 0xD7#8 else h) ∧ ∀ r, acknowledgeable t r = false

/-- What a push saves the matching pop restores: PUSH and POP of a pair and of the PSW, with SP back where it was
(R47, R300, R301). -/
def Obligations.PushPopRoundTrip : Prop :=
  ∀ (s t : State) (o : StackOpd), Inv s → exec (.push o) s = .next t →
    ∃ u, exec (.pop o) t = .next u ∧ u.sp = s.sp ∧ u.psw = s.psw ∧ u.regs = s.regs

/-- A subroutine that returns with the stack as it found it returns behind its call, with SP where it was (R290, R291,
R292, R294). -/
def Obligations.CallReturns : Prop :=
  ∀ (s t u : State) (i : Instr), Inv s → ((∃ c, i = .call c) ∨ ∃ n, i = .callt n) → exec i s = .next t →
    u.product = t.product → u.sp = t.sp → (∀ k, k < 3 → stackByte u k = stackByte t k) →
    ∃ w, exec .ret u = .next w ∧ w.pc = s.next i ∧ w.sp = s.sp

/-- A handler entered by BRK that returns by RETB with the stack as it found it gives back pc, the whole PSW and SP
(R293, R296). A handler that returns by RETI with the stack as it found it gives back pc, the whole PSW and SP of the
interrupted program, and at least one instruction of it runs before the next interrupt (R383, R385). -/
def Obligations.HandlersReturn : Prop :=
  (∀ (s t u : State), Inv s → exec .brk s = .next t → u.product = t.product → u.sp = t.sp →
      (∀ k, k < 4 → stackByte u k = stackByte t k) →
      ∃ w, exec .retb u = .next w ∧ w.pc = s.pc + 2#20 ∧ w.psw = s.psw ∧ w.sp = s.sp) ∧
  ∀ (s t u : State) (r : IrqRequest), Inv s → acknowledgeable s r = true →
    step (s.offered (requestInput r)) = .next t → u.product = t.product → u.sp = t.sp →
    (∀ k, k < 4 → stackByte u k = stackByte t k) →
    ∃ w, exec .reti u = .next w ∧ w.pc = s.pc ∧ w.psw = s.psw ∧ w.sp = s.sp ∧ ∀ q, acknowledgeable w q = false

/-- The first stack byte outside RAM_START to FFEDFH is a fault, and nothing is written (R49, R99, R290): of the two
bytes of PUSH (R300), of the four of CALL, CALLT and BRK, the relative CALL once its branch is allowed, and of an
interrupt entry (R383), which are written downwards from SP - 1; of the bytes RET, RETI, RETB and POP read upwards from
SP (R294, R295, R301), POP PSW the one at SP + 1 alone. A byte to be read that is in RAM but has not been written is the
fault of that read (R83). That these are faults is the spec's choice (log 7, 20). -/
def Obligations.StackFaults : Prop :=
  (∀ (s : State) (k : Nat) (a : Addr), a = addrOf 0xF#4 (s.sp - BitVec.ofNat 16 (k + 1)) →
    within s.product.ramStart 0xFFEDF#20 a = false →
    (∀ o, k < 2 → stackFree s (s.next (.push o)) k = true → exec (.push o) s = .fault (.stackOutsideRam a)) ∧
      (k < 4 → stackFree s (s.pc + 2#20) k = true →
        exec .brk s = .fault (.stackOutsideRam a) ∧ ∀ n, exec (.callt n) s = .fault (.stackOutsideRam a)) ∧
      (∀ c, k < 4 → stackFree s (s.next (.call c)) k = true →
        (callRelative c = true → fromRamToFlash s (callGoal s c) = false) →
        exec (.call c) s = .fault (.stackOutsideRam a)) ∧
      ∀ r, k < 4 → stackRoom s k = true → acknowledgeable s r = true → divisionExposed s = false →
        step (s.offered (requestInput r)) = .fault (.stackOutsideRam a)) ∧
  (∀ (s : State) (k : Nat) (a : Addr) (f : Fault), (∀ j, j < k → (stackByte s j).isSome = true) →
    stackByte s k = none → a = stackAddr s k →
    f = (if within s.product.ramStart 0xFFEDF#20 a then .unwrittenRead a else .stackOutsideRam a) →
    (k < 3 → exec .ret s = .fault f) ∧ (k < 4 → exec .reti s = .fault f ∧ exec .retb s = .fault f) ∧
      (k < 2 → ∀ p, exec (.pop (.rp p)) s = .fault f)) ∧
  ∀ (s : State) (a : Addr) (f : Fault), stackByte s 1 = none → a = stackAddr s 1 →
    f = (if within s.product.ramStart 0xFFEDF#20 a then .unwrittenRead a else .stackOutsideRam a) →
    exec (.pop .psw) s = .fault f

/-! ### Branches and skips -/

/-- BR goes to its target (R320, R322). The flag branches: encodings, the condition of each, next plus the signed
displacement when it holds, next when not (R320, R323 to R330). A taken relative branch from RAM to code flash is
refused (R321, the spec's choice, log 24). -/
def Obligations.FlagBranchResults : Prop :=
  (∀ (s : State) (b : BrTarget),
      ((brRelative b = true → fromRamToFlash s (brGoal s b) = false) →
        exec (.br b) s = .next { s.advance 0 with pc := brGoal s b }) ∧
      (brRelative b = true → fromRamToFlash s (brGoal s b) = true →
        exec (.br b) s = .refused (.prohibitedBranch (brGoal s b)))) ∧
  ∀ (s : State) (i : Instr) (d : Byte) (c : Bool) (bytes : List Byte),
    (i, c, bytes) ∈ [(Instr.bc d, s.psw.cy, [0xDC#8, d]), (.bnc d, !s.psw.cy, [0xDE#8, d]), (.bz d, s.psw.z, [0xDD#8, d]),
      (.bnz d, !s.psw.z, [0xDF#8, d]), (.bh d, !s.psw.z && !s.psw.cy, [0x61#8, 0xC3#8, d]),
      (.bnh d, s.psw.z || s.psw.cy, [0x61#8, 0xD3#8, d])] →
    decode bytes = .done i ∧
      (c = false → exec i s = .next (s.advance bytes.length)) ∧
      ∀ target, target = s.pc + BitVec.ofNat 20 bytes.length + d.signExtend 20 →
        (c = true → fromRamToFlash s target = false → exec i s = .next { s.advance 0 with pc := target }) ∧
        (c = true → fromRamToFlash s target = true → exec i s = .refused (.prohibitedBranch target))

/-- BT and BF branch when the bit is 1, or 0, and change nothing (R324, R331, R332). BTCLR: a 0 bit passes on without a
write; a 1 bit is cleared, it alone, wherever its byte can be read and written, and the branch taken (R270, R324, R333);
the PSW form holds interrupts either way (R60, R333). A taken branch from RAM to code flash is refused, before the write
(R321, the spec's choice, log 24). What the byte then holds elsewhere than in RAM rests on choices: bits 7 to 4 of ES
and CS are not stored and read 0 (R52, presumed, log 11), bits 5 and 3 of PSW stay 0 on S1 (R42, log 10), a write to PMC
sets the mirror wait bit (R63, log 22), and the byte is read once and written once and a storage SFR reads back what was
written (R86, R103, log 18). -/
def Obligations.BitTestBranchResults : Prop :=
  (∀ (s : State) (o : BitOpd) (d : Byte) (v want : Bool) (i : Instr) (target : Addr), readBit s o = .ok v →
      (i = .bt o d ∧ want = true ∨ i = .bf o d ∧ want = false) → target = s.next i + d.signExtend 20 →
      (v ≠ want → exec i s = .next (s.advance i.len)) ∧
        (v = want → fromRamToFlash s target = false → exec i s = .next { s.advance 0 with pc := target }) ∧
        (v = want → fromRamToFlash s target = true → exec i s = .refused (.prohibitedBranch target))) ∧
  ∀ (s : State) (o : BitOpd) (d : Byte) (target : Addr), target = s.next (.btclr o d) + d.signExtend 20 →
    (readBit s o = .ok false → exec (.btclr o d) s =
      .next { s.advance (Instr.btclr o d).len with intHold := isPswBit o }) ∧
    (readBit s o = .ok true → fromRamToFlash s target = true →
      exec (.btclr o d) s = .refused (.prohibitedBranch target)) ∧
    ∀ u, readBit s o = .ok true → fromRamToFlash s target = false →
      writeBit s (s.next (.btclr o d)) s.begin o false = .ok u →
      exec (.btclr o d) s = .next (u.goto target) ∧ u.intHold = isPswBit o ∧
        (∀ n, o = .a n → ∀ k : BitVec 3, (u.r8 .a).getLsbD k.toNat = (decide (k ≠ n) && (s.r8 .a).getLsbD k.toNat)) ∧
        (∀ n, o = .psw n → s.product.core ≠ .s1 ∨ Inv s → ∀ k : BitVec 3,
          u.psw.getBit k = (decide (k ≠ n) && s.psw.getBit k)) ∧
        ∀ m n a w, o = .mem m n → ea s false m = .ok a → memReadBit s a = .ok w →
          ∃ x, (∀ k : BitVec 3, x.getLsbD k.toNat = (decide (k ≠ n) && w.getLsbD k.toNat)) ∧
            memWriteBit (some (s.next (.btclr o d))) s.begin a x = .ok u ∧
            (s.region a = .gpr → u.gpr (gprIndexAt a) = x) ∧ (a = pmcAddr → u.pmc = x ∧ u.pmcWait = true) ∧
            (a = esAddr → u.es = x &&& 0x0F#8) ∧ (a = csAddr → u.cs = x &&& 0x0F#8) ∧
            ((storageOf s.product a).isSome = true → Inv s → s.byteAt a = some w ∧ u.byteAt a = some x)

/-- The skips: encodings, the condition of each. A false skip goes on with interrupts held for one instruction (R340 to
R346). A true skip passes the whole next instruction, PREFIX byte included. It stops on bytes that are no instruction,
or none of this core, or that cannot be fetched: refused when they decode to nothing, to an instruction the core lacks,
or run out of code flash and RAM; a fault when they run into a RAM byte that nothing has written (R92, R145). The source
does not speak of the step a skip makes: that a true skip and the skipped instruction are one step, with no hold after
it, and that a stop of the skipped bytes ends it, is the spec's choice (R62, R340; log 27); the stops are those of a
fetch (log 7, 21, 45). -/
def Obligations.SkipResults : Prop :=
  ∀ (s : State) (i : Instr) (c : Bool) (b : Byte),
    (i, c, b) ∈ [(Instr.skc, s.psw.cy, 0xC8#8), (.sknc, !s.psw.cy, 0xD8#8), (.skz, s.psw.z, 0xE8#8),
      (.sknz, !s.psw.z, 0xF8#8), (.skh, !s.psw.z && !s.psw.cy, 0xE3#8), (.sknh, s.psw.z || s.psw.cy, 0xF3#8)] →
    decode [0x61#8, b] = .done i ∧
      (c = false → exec i s = .next { s.advance 2 with intHold := true }) ∧
      (∀ j : Instr, c = true → j.wf = true → bytesAt s (s.pc + 2#20) (encode j) = true →
        Instr.onCore j s.product.core = true → exec i s = .next (s.advance (2 + (encode j).length))) ∧
      ∀ bytes : List Byte, c = true → bytes.length ≤ 5 → bytesAt s (s.pc + 2#20) bytes = true →
        (decode bytes = .undefined → exec i s = .refused .undefinedInstruction) ∧
          (∀ j, decode bytes = .done j → Instr.onCore j s.product.core = false →
            exec i s = .refused .undefinedInstruction) ∧
          ∀ a, decode bytes = .more → bytes.length < 5 → a = s.pc + 2#20 + BitVec.ofNat 20 bytes.length →
            (s.region a ≠ .cflash → s.region a ≠ .ram → exec i s = .refused (.prohibitedFetch a)) ∧
              (s.region a = .ram → s.byteAt a = none → exec i s = .fault (.unwrittenRead a))

/-! ### CPU control -/

/-- NOP (R352), EI (R353), DI (R354): encodings and effects; EI and DI change IE alone, and after them no interrupt is
acknowledged before the next instruction. -/
def Obligations.NopEiDi : Prop :=
  (decode [0x00#8] = .done .nop ∧ decode [0x71#8, 0x7A#8, 0xFA#8] = .done .ei ∧
      decode [0x71#8, 0x7B#8, 0xFA#8] = .done .di) ∧
    ∀ s : State, exec .nop s = .next (s.advance 1) ∧
      exec .ei s = .next { s.advance 3 with psw := { s.psw with ie := true }, intHold := true } ∧
      exec .di s = .next { s.advance 3 with psw := { s.psw with ie := false }, intHold := true } ∧
      ∀ (i : Instr) (t : State) (r : IrqRequest), i = .ei ∨ i = .di → exec i s = .next t → acknowledgeable t r = false

/-- SEL RBn on S2 and S3: the four encodings, RBS1 and RBS0 set to n, the registers of the old bank kept in memory (R22,
R351). That the interrupt hold is a flag that SEL, not in the list of R60, clears is the spec's choice (log 26). -/
def Obligations.SelResult : Prop :=
  (∀ n : BitVec 2, decode [0x61#8, (3#2 ++ n ++ 0xF#4 : Byte)] = .done (.sel n)) ∧
    ∀ (s : State) (n : BitVec 2), s.product.core ≠ .s1 →
      ∃ t, exec (.sel n) s = .next t ∧ t.pc = s.pc + 2#20 ∧ t.bank = n ∧ t.regs = s.regs ∧ t.intHold = false ∧
        (∀ k : BitVec 3, k ≠ 5#3 → k ≠ 3#3 → t.psw.getBit k = s.psw.getBit k) ∧
        ∀ r, t.r8 r = s.gpr (gprIndex n r)

/-- HALT and STOP: encodings, and nothing but the mode and pc (R356, R357). In standby a step executes nothing and keeps
all state until a release, after which the CPU is at an ordinary boundary (R359, R399; that all state is kept and that a
release ends standby is presumed, log 29). -/
def Obligations.Standby : Prop :=
  (decode [0x61#8, 0xED#8] = .done .halt ∧ decode [0x61#8, 0xFD#8] = .done .stop) ∧
    (∀ s : State, exec .halt s = .next { s.advance 2 with mode := .halt } ∧
      exec .stop s = .next { s.advance 2 with mode := .stop }) ∧
    ∀ s : State, s.mode ≠ .run →
      (∀ r, stepWith s { quietInput with request := r } = .next s) ∧
        ∀ r, stepWith s { quietInput with release := true, request := r } =
          stepWith { s with mode := .run } { quietInput with request := r }

/-! ### Interrupts and reset -/

/-- When a request is acknowledged (R382): the CPU runs, no hold, and the request is not maskable, or IE is 1 and its
level does not exceed ISP. Otherwise the step is that of the next instruction. That a level up to ISP is taken, and that
ISP is ISP0 alone without HAS_ISP1, is presumed (R39, log 9); that the hold blocks requests that are not maskable is the
spec's choice (R382, log 26). An interrupt right after a DIVHU or DIVWU is refused when the division ran from RAM or the
next byte is not NOP (R234, R438, the spec's choice, log 25). -/
def Obligations.AcknowledgeResult : Prop :=
  (∀ (s : State) (r : IrqRequest),
      (acknowledgeable s r = true ↔ s.mode = .run ∧ s.intHold = false ∧
        (r.maskable = false ∨ s.psw.ie = true ∧
          r.level.toNat ≤ (if s.product.hasIsp1 then 2 * s.psw.isp1.toNat else 0) + s.psw.isp0.toNat)) ∧
      (acknowledgeable s r = false → step (s.offered (requestInput r)) = stepWith s quietInput)) ∧
  ∀ (s : State) (d : Addr) (r : IrqRequest), s.afterDiv = some d → acknowledgeable s r = true →
    (s.region d = .ram ∨ fetchByte s s.pc ≠ .ok 0x00#8) →
    step (s.offered (requestInput r)) = .refused .divideInterruptHazard

/-- Interrupt entry (R383): the frame of BRK with the address of the instruction that would have run, IE cleared, ISP
loaded for a maskable request, pc from the vector, the controller told; the mirror wait stays (R63), and so do the
general registers, the other bits of the PSW, ES, CS, PMC, MACR and every byte of memory outside the frame. What ISP is
loaded with, and that without HAS_ISP1 it is ISP0 alone and bit 2 stays, is presumed (R39, log 9); that bits 7 to 4 of
the stored byte with bits 19 to 16 of pc are 0 is the spec's choice (R290, log 33), and so are the hold and the mirror
wait as bits that an entry clears and keeps (log 26, 22) and the controller being told (log 28). -/
def Obligations.InterruptEntry : Prop :=
  ∀ (s : State) (r : IrqRequest), Inv s → acknowledgeable s r = true → divisionExposed s = false →
    stackRoom s 4 = true →
    ∃ (t : State) (a : Addr), step (s.offered (requestInput r)) = .next t ∧ a.toNat = 2 * r.entry.toNat ∧
      t.pc = 0#4 ++ s.image (a + 1#20) ++ s.image a ∧ t.sp = s.sp - 4#16 ∧ t.regs = s.regs ∧
      stackByte t 3 = some s.psw.toByte ∧ stackByte t 2 = some ((s.pc.extractLsb' 16 4).setWidth 8) ∧
      stackByte t 1 = some (s.pc.extractLsb' 8 8) ∧ stackByte t 0 = some (s.pc.extractLsb' 0 8) ∧
      t.psw.ie = false ∧ (∀ k : BitVec 3, k ≠ 7#3 → k ≠ 2#3 → k ≠ 1#3 → t.psw.getBit k = s.psw.getBit k) ∧
      (r.maskable = false → t.psw = { s.psw with ie := false }) ∧
      (r.maskable = true → t.psw.isp s.product.hasIsp1 =
        if s.product.hasIsp1 then ispOnAck s.product r.level else ispOnAck s.product r.level &&& 1#2) ∧
      (s.product.hasIsp1 = false → t.psw.isp1 = s.psw.isp1) ∧
      t.es = s.es ∧ t.cs = s.cs ∧ t.pmc = s.pmc ∧ t.macr = s.macr ∧ t.mode = s.mode ∧ t.product = s.product ∧
      t.intHold = false ∧ t.pmcWait = s.pmcWait ∧ t.notices = .ack r :: s.notices ∧
      ∀ b, b ∉ belowSp s 4 → t.byteAt b = s.byteAt b

/-- The PSW after reset is 06H: interrupts disabled, bank 0, no interrupt in service (R43). -/
def Obligations.ResetPsw : Prop :=
  State.reset.psw.toByte = 0x06#8 ∧
    ∀ (s t : State) (e : EnvInput), e.reset = true → step (s.offered e) = .next t →
      t.psw.toByte = 0x06#8 ∧ t.psw.ie = false ∧ t.bank = 0#2 ∧ ∀ r : IrqRequest, r.maskable = true →
        acknowledgeable t r = false

/-- Reset of a legal product, whenever the environment asserts it, in any mode (R32, R65, R373, R421): pc from the
reset vector, PSW, ES, CS and PMC at their values, RAM unwritten, flash kept, storage SFRs at their reset values. That
RAM is unwritten is the spec's choice (R83, log 7, 41), and what a storage SFR holds is the model's (log 18, 41). (The
general registers, SP and MACR take the model's values, log 4 to 6: no clause here is about them.) -/
def Obligations.ResetEvent : Prop :=
  ∀ (s : State) (e : EnvInput), Product.legal s.product = true → e.reset = true →
    ∃ t, step (s.offered e) = .next t ∧ t.pc = 0#4 ++ s.image 0x00001#20 ++ s.image 0x00000#20 ∧
      t.psw.toByte = 0x06#8 ∧ t.es = 0x0F#8 ∧ t.cs = 0x00#8 ∧ t.pmc = 0x00#8 ∧ t.intHold = false ∧
      t.mode = .run ∧ t.pmcWait = false ∧ t.product = s.product ∧
      (∀ a, storageOf s.product a = some .ram → t.byteAt a = none) ∧
      (∀ a, storageOf s.product a = some .flash → t.byteAt a = s.byteAt a) ∧
      ∀ a v, storageOf s.product a = some (.sfr v) → t.byteAt a = some v

/-- The stores of another bus master (R108). A step begins with them, one after another. A byte stored to RAM or to a
storage SFR is read back and no other byte of memory changes; a byte stored to the address of a general register or of
an SFR of the core changes that register alone; flash, and every address at which there is nothing, stays as it is. That
the fixed bits of PSW on S1, SP, ES, CS and PMC stay, that a store to PMC sets the mirror wait, and that a store to any
other address is without effect are the model's choices (log 31; the fixed bits log 10, 11, 22). -/
def Obligations.BusMasterStores : Prop :=
  (∀ (s : State) (e : EnvInput) (c : Host.Cell) (rest : List Host.Cell),
      stepWith s { e with dma := c :: rest } = stepWith (dmaStore s c) { e with dma := rest }) ∧
  ∀ (s t : State) (a : Addr) (v : Byte), t = dmaStore s (a.toNat, v) →
    (∀ k, storageOf s.product a = some k → k ≠ .flash → Inv s →
      t = { s with mem := t.mem } ∧ t.byteAt a = some v ∧ ∀ b, b ≠ a → t.byteAt b = s.byteAt b) ∧
    (∀ k, a = fileAddr k → s.product.core ≠ .s1 ∨ k.toNat < 8 → t = s.setGpr k v) ∧
    (a = pswAddr → t = { s with psw := t.psw } ∧ t.psw.toByte = if s.product.core = .s1 then v &&& 0xD7#8 else v) ∧
    (a = 0xFFFF8#20 → t = { s with sp := (s.sp.extractLsb' 8 8 ++ v) &&& 0xFFFE#16 }) ∧
    (a = 0xFFFF9#20 → t = { s with sp := (v ++ s.sp.extractLsb' 0 8) &&& 0xFFFE#16 }) ∧
    (a = csAddr → t = { s with cs := v &&& 0x0F#8 }) ∧ (a = esAddr → t = { s with es := v &&& 0x0F#8 }) ∧
    (a = pmcAddr → t = { s with pmc := if s.product.core = .s1 then 0x00#8 else v &&& 0x01#8, pmcWait := true }) ∧
    (∀ j, j < 4 → s.product.core = .s3 → a.toNat = 0xFFFF0 + j → t = { s with macr := t.macr } ∧
      ∀ n, n < 4 → t.macr.extractLsb' (8 * n) 8 = if n = j then v else s.macr.extractLsb' (8 * n) 8) ∧
    (storageOf s.product a = some .flash ∨ s.region a = .mirror ∨ s.region a = .reserved ∨
        s.product.core = .s1 ∧ 0xFFEE0 ≤ a.toNat ∧ a.toNat ≤ 0xFFEF7 ∨ a = 0xFFFFB#20 ∨ a = 0xFFFFF#20 ∨
        sfrStorage s.product a = none ∧ (s.region a = .sfr2 ∨ s.region a = .sfr ∧ sfrKind s.product.core a = .product) →
      t = s)
end

