-- ==== Sys2Proof/Laws/State.lean ====
section
/-! SUPPORT. One lemma for each field of State under each update of the machine, true by definition, so that no proof
unfolds a record update. -/

namespace Sys2Proof.Machine

variable (s : State)

/-! ### State.begin -/

@[simp] theorem State.begin_product : s.begin.product = s.product := rfl
@[simp] theorem State.begin_regs : s.begin.regs = s.regs := rfl
@[simp] theorem State.begin_pc : s.begin.pc = s.pc := rfl
@[simp] theorem State.begin_psw : s.begin.psw = s.psw := rfl
@[simp] theorem State.begin_sp : s.begin.sp = s.sp := rfl
@[simp] theorem State.begin_es : s.begin.es = s.es := rfl
@[simp] theorem State.begin_cs : s.begin.cs = s.cs := rfl
@[simp] theorem State.begin_pmc : s.begin.pmc = s.pmc := rfl
@[simp] theorem State.begin_macr : s.begin.macr = s.macr := rfl
@[simp] theorem State.begin_mem : s.begin.mem = s.mem := rfl
@[simp] theorem State.begin_intHold : s.begin.intHold = false := rfl
@[simp] theorem State.begin_mode : s.begin.mode = s.mode := rfl
@[simp] theorem State.begin_pmcWait : s.begin.pmcWait = false := rfl
@[simp] theorem State.begin_afterDiv : s.begin.afterDiv = none := rfl
@[simp] theorem State.begin_ticks : s.begin.ticks = s.ticks + 1 := rfl
@[simp] theorem State.begin_inputs : s.begin.inputs = s.inputs := rfl
@[simp] theorem State.begin_notices : s.begin.notices = s.notices := rfl

/-! ### State.advance -/

@[simp] theorem State.advance_product (n : Nat) : (s.advance n).product = s.product := rfl
@[simp] theorem State.advance_regs (n : Nat) : (s.advance n).regs = s.regs := rfl
@[simp] theorem State.advance_pc (n : Nat) : (s.advance n).pc = s.pc + BitVec.ofNat 20 n := rfl
@[simp] theorem State.advance_psw (n : Nat) : (s.advance n).psw = s.psw := rfl
@[simp] theorem State.advance_sp (n : Nat) : (s.advance n).sp = s.sp := rfl
@[simp] theorem State.advance_es (n : Nat) : (s.advance n).es = s.es := rfl
@[simp] theorem State.advance_cs (n : Nat) : (s.advance n).cs = s.cs := rfl
@[simp] theorem State.advance_pmc (n : Nat) : (s.advance n).pmc = s.pmc := rfl
@[simp] theorem State.advance_macr (n : Nat) : (s.advance n).macr = s.macr := rfl
@[simp] theorem State.advance_mem (n : Nat) : (s.advance n).mem = s.mem := rfl
@[simp] theorem State.advance_intHold (n : Nat) : (s.advance n).intHold = false := rfl
@[simp] theorem State.advance_mode (n : Nat) : (s.advance n).mode = s.mode := rfl
@[simp] theorem State.advance_pmcWait (n : Nat) : (s.advance n).pmcWait = false := rfl
@[simp] theorem State.advance_afterDiv (n : Nat) : (s.advance n).afterDiv = none := rfl
@[simp] theorem State.advance_ticks (n : Nat) : (s.advance n).ticks = s.ticks + 1 := rfl
@[simp] theorem State.advance_inputs (n : Nat) : (s.advance n).inputs = s.inputs := rfl
@[simp] theorem State.advance_notices (n : Nat) : (s.advance n).notices = s.notices := rfl

/-! ### State.goto -/

@[simp] theorem State.goto_product (a : Addr) : (s.goto a).product = s.product := rfl
@[simp] theorem State.goto_regs (a : Addr) : (s.goto a).regs = s.regs := rfl
@[simp] theorem State.goto_pc (a : Addr) : (s.goto a).pc = a := rfl
@[simp] theorem State.goto_psw (a : Addr) : (s.goto a).psw = s.psw := rfl
@[simp] theorem State.goto_sp (a : Addr) : (s.goto a).sp = s.sp := rfl
@[simp] theorem State.goto_es (a : Addr) : (s.goto a).es = s.es := rfl
@[simp] theorem State.goto_cs (a : Addr) : (s.goto a).cs = s.cs := rfl
@[simp] theorem State.goto_pmc (a : Addr) : (s.goto a).pmc = s.pmc := rfl
@[simp] theorem State.goto_macr (a : Addr) : (s.goto a).macr = s.macr := rfl
@[simp] theorem State.goto_mem (a : Addr) : (s.goto a).mem = s.mem := rfl
@[simp] theorem State.goto_intHold (a : Addr) : (s.goto a).intHold = s.intHold := rfl
@[simp] theorem State.goto_mode (a : Addr) : (s.goto a).mode = s.mode := rfl
@[simp] theorem State.goto_pmcWait (a : Addr) : (s.goto a).pmcWait = s.pmcWait := rfl
@[simp] theorem State.goto_afterDiv (a : Addr) : (s.goto a).afterDiv = s.afterDiv := rfl
@[simp] theorem State.goto_ticks (a : Addr) : (s.goto a).ticks = s.ticks := rfl
@[simp] theorem State.goto_inputs (a : Addr) : (s.goto a).inputs = s.inputs := rfl
@[simp] theorem State.goto_notices (a : Addr) : (s.goto a).notices = s.notices := rfl

/-! ### State.hold -/

@[simp] theorem State.hold_product : s.hold.product = s.product := rfl
@[simp] theorem State.hold_regs : s.hold.regs = s.regs := rfl
@[simp] theorem State.hold_pc : s.hold.pc = s.pc := rfl
@[simp] theorem State.hold_psw : s.hold.psw = s.psw := rfl
@[simp] theorem State.hold_sp : s.hold.sp = s.sp := rfl
@[simp] theorem State.hold_es : s.hold.es = s.es := rfl
@[simp] theorem State.hold_cs : s.hold.cs = s.cs := rfl
@[simp] theorem State.hold_pmc : s.hold.pmc = s.pmc := rfl
@[simp] theorem State.hold_macr : s.hold.macr = s.macr := rfl
@[simp] theorem State.hold_mem : s.hold.mem = s.mem := rfl
@[simp] theorem State.hold_intHold : s.hold.intHold = true := rfl
@[simp] theorem State.hold_mode : s.hold.mode = s.mode := rfl
@[simp] theorem State.hold_pmcWait : s.hold.pmcWait = s.pmcWait := rfl
@[simp] theorem State.hold_afterDiv : s.hold.afterDiv = s.afterDiv := rfl
@[simp] theorem State.hold_ticks : s.hold.ticks = s.ticks := rfl
@[simp] theorem State.hold_inputs : s.hold.inputs = s.inputs := rfl
@[simp] theorem State.hold_notices : s.hold.notices = s.notices := rfl

/-! ### State.setGpr -/

@[simp] theorem State.setGpr_product (k : BitVec 5) (v : Byte) : (s.setGpr k v).product = s.product := rfl
@[simp] theorem State.setGpr_regs (k : BitVec 5) (v : Byte) : (s.setGpr k v).regs = s.regs.set k.toNat v k.isLt := rfl
@[simp] theorem State.setGpr_pc (k : BitVec 5) (v : Byte) : (s.setGpr k v).pc = s.pc := rfl
@[simp] theorem State.setGpr_psw (k : BitVec 5) (v : Byte) : (s.setGpr k v).psw = s.psw := rfl
@[simp] theorem State.setGpr_sp (k : BitVec 5) (v : Byte) : (s.setGpr k v).sp = s.sp := rfl
@[simp] theorem State.setGpr_es (k : BitVec 5) (v : Byte) : (s.setGpr k v).es = s.es := rfl
@[simp] theorem State.setGpr_cs (k : BitVec 5) (v : Byte) : (s.setGpr k v).cs = s.cs := rfl
@[simp] theorem State.setGpr_pmc (k : BitVec 5) (v : Byte) : (s.setGpr k v).pmc = s.pmc := rfl
@[simp] theorem State.setGpr_macr (k : BitVec 5) (v : Byte) : (s.setGpr k v).macr = s.macr := rfl
@[simp] theorem State.setGpr_mem (k : BitVec 5) (v : Byte) : (s.setGpr k v).mem = s.mem := rfl
@[simp] theorem State.setGpr_intHold (k : BitVec 5) (v : Byte) : (s.setGpr k v).intHold = s.intHold := rfl
@[simp] theorem State.setGpr_mode (k : BitVec 5) (v : Byte) : (s.setGpr k v).mode = s.mode := rfl
@[simp] theorem State.setGpr_pmcWait (k : BitVec 5) (v : Byte) : (s.setGpr k v).pmcWait = s.pmcWait := rfl
@[simp] theorem State.setGpr_afterDiv (k : BitVec 5) (v : Byte) : (s.setGpr k v).afterDiv = s.afterDiv := rfl
@[simp] theorem State.setGpr_ticks (k : BitVec 5) (v : Byte) : (s.setGpr k v).ticks = s.ticks := rfl
@[simp] theorem State.setGpr_inputs (k : BitVec 5) (v : Byte) : (s.setGpr k v).inputs = s.inputs := rfl
@[simp] theorem State.setGpr_notices (k : BitVec 5) (v : Byte) : (s.setGpr k v).notices = s.notices := rfl

/-! ### State.setR8 -/

@[simp] theorem State.setR8_product (r : Reg8) (v : Byte) : (s.setR8 r v).product = s.product := rfl
@[simp] theorem State.setR8_pc (r : Reg8) (v : Byte) : (s.setR8 r v).pc = s.pc := rfl
@[simp] theorem State.setR8_psw (r : Reg8) (v : Byte) : (s.setR8 r v).psw = s.psw := rfl
@[simp] theorem State.setR8_sp (r : Reg8) (v : Byte) : (s.setR8 r v).sp = s.sp := rfl
@[simp] theorem State.setR8_es (r : Reg8) (v : Byte) : (s.setR8 r v).es = s.es := rfl
@[simp] theorem State.setR8_cs (r : Reg8) (v : Byte) : (s.setR8 r v).cs = s.cs := rfl
@[simp] theorem State.setR8_pmc (r : Reg8) (v : Byte) : (s.setR8 r v).pmc = s.pmc := rfl
@[simp] theorem State.setR8_macr (r : Reg8) (v : Byte) : (s.setR8 r v).macr = s.macr := rfl
@[simp] theorem State.setR8_mem (r : Reg8) (v : Byte) : (s.setR8 r v).mem = s.mem := rfl
@[simp] theorem State.setR8_intHold (r : Reg8) (v : Byte) : (s.setR8 r v).intHold = s.intHold := rfl
@[simp] theorem State.setR8_mode (r : Reg8) (v : Byte) : (s.setR8 r v).mode = s.mode := rfl
@[simp] theorem State.setR8_pmcWait (r : Reg8) (v : Byte) : (s.setR8 r v).pmcWait = s.pmcWait := rfl
@[simp] theorem State.setR8_afterDiv (r : Reg8) (v : Byte) : (s.setR8 r v).afterDiv = s.afterDiv := rfl
@[simp] theorem State.setR8_ticks (r : Reg8) (v : Byte) : (s.setR8 r v).ticks = s.ticks := rfl
@[simp] theorem State.setR8_inputs (r : Reg8) (v : Byte) : (s.setR8 r v).inputs = s.inputs := rfl
@[simp] theorem State.setR8_notices (r : Reg8) (v : Byte) : (s.setR8 r v).notices = s.notices := rfl

/-! ### State.setRp -/

@[simp] theorem State.setRp_product (p : RegPair) (v : Word) : (s.setRp p v).product = s.product := rfl
@[simp] theorem State.setRp_pc (p : RegPair) (v : Word) : (s.setRp p v).pc = s.pc := rfl
@[simp] theorem State.setRp_psw (p : RegPair) (v : Word) : (s.setRp p v).psw = s.psw := rfl
@[simp] theorem State.setRp_sp (p : RegPair) (v : Word) : (s.setRp p v).sp = s.sp := rfl
@[simp] theorem State.setRp_es (p : RegPair) (v : Word) : (s.setRp p v).es = s.es := rfl
@[simp] theorem State.setRp_cs (p : RegPair) (v : Word) : (s.setRp p v).cs = s.cs := rfl
@[simp] theorem State.setRp_pmc (p : RegPair) (v : Word) : (s.setRp p v).pmc = s.pmc := rfl
@[simp] theorem State.setRp_macr (p : RegPair) (v : Word) : (s.setRp p v).macr = s.macr := rfl
@[simp] theorem State.setRp_mem (p : RegPair) (v : Word) : (s.setRp p v).mem = s.mem := rfl
@[simp] theorem State.setRp_intHold (p : RegPair) (v : Word) : (s.setRp p v).intHold = s.intHold := rfl
@[simp] theorem State.setRp_mode (p : RegPair) (v : Word) : (s.setRp p v).mode = s.mode := rfl
@[simp] theorem State.setRp_pmcWait (p : RegPair) (v : Word) : (s.setRp p v).pmcWait = s.pmcWait := rfl
@[simp] theorem State.setRp_afterDiv (p : RegPair) (v : Word) : (s.setRp p v).afterDiv = s.afterDiv := rfl
@[simp] theorem State.setRp_ticks (p : RegPair) (v : Word) : (s.setRp p v).ticks = s.ticks := rfl
@[simp] theorem State.setRp_inputs (p : RegPair) (v : Word) : (s.setRp p v).inputs = s.inputs := rfl
@[simp] theorem State.setRp_notices (p : RegPair) (v : Word) : (s.setRp p v).notices = s.notices := rfl

/-! ### State.setBcax -/

@[simp] theorem State.setBcax_product (v : DWord) : (s.setBcax v).product = s.product := rfl
@[simp] theorem State.setBcax_pc (v : DWord) : (s.setBcax v).pc = s.pc := rfl
@[simp] theorem State.setBcax_psw (v : DWord) : (s.setBcax v).psw = s.psw := rfl
@[simp] theorem State.setBcax_sp (v : DWord) : (s.setBcax v).sp = s.sp := rfl
@[simp] theorem State.setBcax_es (v : DWord) : (s.setBcax v).es = s.es := rfl
@[simp] theorem State.setBcax_cs (v : DWord) : (s.setBcax v).cs = s.cs := rfl
@[simp] theorem State.setBcax_pmc (v : DWord) : (s.setBcax v).pmc = s.pmc := rfl
@[simp] theorem State.setBcax_macr (v : DWord) : (s.setBcax v).macr = s.macr := rfl
@[simp] theorem State.setBcax_mem (v : DWord) : (s.setBcax v).mem = s.mem := rfl
@[simp] theorem State.setBcax_intHold (v : DWord) : (s.setBcax v).intHold = s.intHold := rfl
@[simp] theorem State.setBcax_mode (v : DWord) : (s.setBcax v).mode = s.mode := rfl
@[simp] theorem State.setBcax_pmcWait (v : DWord) : (s.setBcax v).pmcWait = s.pmcWait := rfl
@[simp] theorem State.setBcax_afterDiv (v : DWord) : (s.setBcax v).afterDiv = s.afterDiv := rfl
@[simp] theorem State.setBcax_ticks (v : DWord) : (s.setBcax v).ticks = s.ticks := rfl
@[simp] theorem State.setBcax_inputs (v : DWord) : (s.setBcax v).inputs = s.inputs := rfl
@[simp] theorem State.setBcax_notices (v : DWord) : (s.setBcax v).notices = s.notices := rfl

/-! ### State.setHlde -/

@[simp] theorem State.setHlde_product (v : DWord) : (s.setHlde v).product = s.product := rfl
@[simp] theorem State.setHlde_pc (v : DWord) : (s.setHlde v).pc = s.pc := rfl
@[simp] theorem State.setHlde_psw (v : DWord) : (s.setHlde v).psw = s.psw := rfl
@[simp] theorem State.setHlde_sp (v : DWord) : (s.setHlde v).sp = s.sp := rfl
@[simp] theorem State.setHlde_es (v : DWord) : (s.setHlde v).es = s.es := rfl
@[simp] theorem State.setHlde_cs (v : DWord) : (s.setHlde v).cs = s.cs := rfl
@[simp] theorem State.setHlde_pmc (v : DWord) : (s.setHlde v).pmc = s.pmc := rfl
@[simp] theorem State.setHlde_macr (v : DWord) : (s.setHlde v).macr = s.macr := rfl
@[simp] theorem State.setHlde_mem (v : DWord) : (s.setHlde v).mem = s.mem := rfl
@[simp] theorem State.setHlde_intHold (v : DWord) : (s.setHlde v).intHold = s.intHold := rfl
@[simp] theorem State.setHlde_mode (v : DWord) : (s.setHlde v).mode = s.mode := rfl
@[simp] theorem State.setHlde_pmcWait (v : DWord) : (s.setHlde v).pmcWait = s.pmcWait := rfl
@[simp] theorem State.setHlde_afterDiv (v : DWord) : (s.setHlde v).afterDiv = s.afterDiv := rfl
@[simp] theorem State.setHlde_ticks (v : DWord) : (s.setHlde v).ticks = s.ticks := rfl
@[simp] theorem State.setHlde_inputs (v : DWord) : (s.setHlde v).inputs = s.inputs := rfl
@[simp] theorem State.setHlde_notices (v : DWord) : (s.setHlde v).notices = s.notices := rfl

/-! ### State.setPsw -/

@[simp] theorem State.setPsw_product (p : Psw) : (s.setPsw p).product = s.product := rfl
@[simp] theorem State.setPsw_regs (p : Psw) : (s.setPsw p).regs = s.regs := rfl
@[simp] theorem State.setPsw_pc (p : Psw) : (s.setPsw p).pc = s.pc := rfl
@[simp] theorem State.setPsw_psw (p : Psw) : (s.setPsw p).psw = p.masked s.product.core := rfl
@[simp] theorem State.setPsw_sp (p : Psw) : (s.setPsw p).sp = s.sp := rfl
@[simp] theorem State.setPsw_es (p : Psw) : (s.setPsw p).es = s.es := rfl
@[simp] theorem State.setPsw_cs (p : Psw) : (s.setPsw p).cs = s.cs := rfl
@[simp] theorem State.setPsw_pmc (p : Psw) : (s.setPsw p).pmc = s.pmc := rfl
@[simp] theorem State.setPsw_macr (p : Psw) : (s.setPsw p).macr = s.macr := rfl
@[simp] theorem State.setPsw_mem (p : Psw) : (s.setPsw p).mem = s.mem := rfl
@[simp] theorem State.setPsw_intHold (p : Psw) : (s.setPsw p).intHold = s.intHold := rfl
@[simp] theorem State.setPsw_mode (p : Psw) : (s.setPsw p).mode = s.mode := rfl
@[simp] theorem State.setPsw_pmcWait (p : Psw) : (s.setPsw p).pmcWait = s.pmcWait := rfl
@[simp] theorem State.setPsw_afterDiv (p : Psw) : (s.setPsw p).afterDiv = s.afterDiv := rfl
@[simp] theorem State.setPsw_ticks (p : Psw) : (s.setPsw p).ticks = s.ticks := rfl
@[simp] theorem State.setPsw_inputs (p : Psw) : (s.setPsw p).inputs = s.inputs := rfl
@[simp] theorem State.setPsw_notices (p : Psw) : (s.setPsw p).notices = s.notices := rfl

/-! ### State.setSp -/

@[simp] theorem State.setSp_product (v : Word) : (s.setSp v).product = s.product := rfl
@[simp] theorem State.setSp_regs (v : Word) : (s.setSp v).regs = s.regs := rfl
@[simp] theorem State.setSp_pc (v : Word) : (s.setSp v).pc = s.pc := rfl
@[simp] theorem State.setSp_psw (v : Word) : (s.setSp v).psw = s.psw := rfl
@[simp] theorem State.setSp_sp (v : Word) : (s.setSp v).sp = v &&& 0xFFFE#16 := rfl
@[simp] theorem State.setSp_es (v : Word) : (s.setSp v).es = s.es := rfl
@[simp] theorem State.setSp_cs (v : Word) : (s.setSp v).cs = s.cs := rfl
@[simp] theorem State.setSp_pmc (v : Word) : (s.setSp v).pmc = s.pmc := rfl
@[simp] theorem State.setSp_macr (v : Word) : (s.setSp v).macr = s.macr := rfl
@[simp] theorem State.setSp_mem (v : Word) : (s.setSp v).mem = s.mem := rfl
@[simp] theorem State.setSp_intHold (v : Word) : (s.setSp v).intHold = s.intHold := rfl
@[simp] theorem State.setSp_mode (v : Word) : (s.setSp v).mode = s.mode := rfl
@[simp] theorem State.setSp_pmcWait (v : Word) : (s.setSp v).pmcWait = s.pmcWait := rfl
@[simp] theorem State.setSp_afterDiv (v : Word) : (s.setSp v).afterDiv = s.afterDiv := rfl
@[simp] theorem State.setSp_ticks (v : Word) : (s.setSp v).ticks = s.ticks := rfl
@[simp] theorem State.setSp_inputs (v : Word) : (s.setSp v).inputs = s.inputs := rfl
@[simp] theorem State.setSp_notices (v : Word) : (s.setSp v).notices = s.notices := rfl

/-! ### State.setEs -/

@[simp] theorem State.setEs_product (v : Byte) : (s.setEs v).product = s.product := rfl
@[simp] theorem State.setEs_regs (v : Byte) : (s.setEs v).regs = s.regs := rfl
@[simp] theorem State.setEs_pc (v : Byte) : (s.setEs v).pc = s.pc := rfl
@[simp] theorem State.setEs_psw (v : Byte) : (s.setEs v).psw = s.psw := rfl
@[simp] theorem State.setEs_sp (v : Byte) : (s.setEs v).sp = s.sp := rfl
@[simp] theorem State.setEs_es (v : Byte) : (s.setEs v).es = v &&& 0x0F#8 := rfl
@[simp] theorem State.setEs_cs (v : Byte) : (s.setEs v).cs = s.cs := rfl
@[simp] theorem State.setEs_pmc (v : Byte) : (s.setEs v).pmc = s.pmc := rfl
@[simp] theorem State.setEs_macr (v : Byte) : (s.setEs v).macr = s.macr := rfl
@[simp] theorem State.setEs_mem (v : Byte) : (s.setEs v).mem = s.mem := rfl
@[simp] theorem State.setEs_intHold (v : Byte) : (s.setEs v).intHold = s.intHold := rfl
@[simp] theorem State.setEs_mode (v : Byte) : (s.setEs v).mode = s.mode := rfl
@[simp] theorem State.setEs_pmcWait (v : Byte) : (s.setEs v).pmcWait = s.pmcWait := rfl
@[simp] theorem State.setEs_afterDiv (v : Byte) : (s.setEs v).afterDiv = s.afterDiv := rfl
@[simp] theorem State.setEs_ticks (v : Byte) : (s.setEs v).ticks = s.ticks := rfl
@[simp] theorem State.setEs_inputs (v : Byte) : (s.setEs v).inputs = s.inputs := rfl
@[simp] theorem State.setEs_notices (v : Byte) : (s.setEs v).notices = s.notices := rfl

/-! ### State.setCs -/

@[simp] theorem State.setCs_product (v : Byte) : (s.setCs v).product = s.product := rfl
@[simp] theorem State.setCs_regs (v : Byte) : (s.setCs v).regs = s.regs := rfl
@[simp] theorem State.setCs_pc (v : Byte) : (s.setCs v).pc = s.pc := rfl
@[simp] theorem State.setCs_psw (v : Byte) : (s.setCs v).psw = s.psw := rfl
@[simp] theorem State.setCs_sp (v : Byte) : (s.setCs v).sp = s.sp := rfl
@[simp] theorem State.setCs_es (v : Byte) : (s.setCs v).es = s.es := rfl
@[simp] theorem State.setCs_cs (v : Byte) : (s.setCs v).cs = v &&& 0x0F#8 := rfl
@[simp] theorem State.setCs_pmc (v : Byte) : (s.setCs v).pmc = s.pmc := rfl
@[simp] theorem State.setCs_macr (v : Byte) : (s.setCs v).macr = s.macr := rfl
@[simp] theorem State.setCs_mem (v : Byte) : (s.setCs v).mem = s.mem := rfl
@[simp] theorem State.setCs_intHold (v : Byte) : (s.setCs v).intHold = s.intHold := rfl
@[simp] theorem State.setCs_mode (v : Byte) : (s.setCs v).mode = s.mode := rfl
@[simp] theorem State.setCs_pmcWait (v : Byte) : (s.setCs v).pmcWait = s.pmcWait := rfl
@[simp] theorem State.setCs_afterDiv (v : Byte) : (s.setCs v).afterDiv = s.afterDiv := rfl
@[simp] theorem State.setCs_ticks (v : Byte) : (s.setCs v).ticks = s.ticks := rfl
@[simp] theorem State.setCs_inputs (v : Byte) : (s.setCs v).inputs = s.inputs := rfl
@[simp] theorem State.setCs_notices (v : Byte) : (s.setCs v).notices = s.notices := rfl

/-! ### State.setZAcCy -/

@[simp] theorem State.setZAcCy_product (z ac cy : Bool) : (s.setZAcCy z ac cy).product = s.product := rfl
@[simp] theorem State.setZAcCy_regs (z ac cy : Bool) : (s.setZAcCy z ac cy).regs = s.regs := rfl
@[simp] theorem State.setZAcCy_pc (z ac cy : Bool) : (s.setZAcCy z ac cy).pc = s.pc := rfl
@[simp] theorem State.setZAcCy_psw (z ac cy : Bool) : (s.setZAcCy z ac cy).psw = { s.psw with z := z, ac := ac, cy := cy } := rfl
@[simp] theorem State.setZAcCy_sp (z ac cy : Bool) : (s.setZAcCy z ac cy).sp = s.sp := rfl
@[simp] theorem State.setZAcCy_es (z ac cy : Bool) : (s.setZAcCy z ac cy).es = s.es := rfl
@[simp] theorem State.setZAcCy_cs (z ac cy : Bool) : (s.setZAcCy z ac cy).cs = s.cs := rfl
@[simp] theorem State.setZAcCy_pmc (z ac cy : Bool) : (s.setZAcCy z ac cy).pmc = s.pmc := rfl
@[simp] theorem State.setZAcCy_macr (z ac cy : Bool) : (s.setZAcCy z ac cy).macr = s.macr := rfl
@[simp] theorem State.setZAcCy_mem (z ac cy : Bool) : (s.setZAcCy z ac cy).mem = s.mem := rfl
@[simp] theorem State.setZAcCy_intHold (z ac cy : Bool) : (s.setZAcCy z ac cy).intHold = s.intHold := rfl
@[simp] theorem State.setZAcCy_mode (z ac cy : Bool) : (s.setZAcCy z ac cy).mode = s.mode := rfl
@[simp] theorem State.setZAcCy_pmcWait (z ac cy : Bool) : (s.setZAcCy z ac cy).pmcWait = s.pmcWait := rfl
@[simp] theorem State.setZAcCy_afterDiv (z ac cy : Bool) : (s.setZAcCy z ac cy).afterDiv = s.afterDiv := rfl
@[simp] theorem State.setZAcCy_ticks (z ac cy : Bool) : (s.setZAcCy z ac cy).ticks = s.ticks := rfl
@[simp] theorem State.setZAcCy_inputs (z ac cy : Bool) : (s.setZAcCy z ac cy).inputs = s.inputs := rfl
@[simp] theorem State.setZAcCy_notices (z ac cy : Bool) : (s.setZAcCy z ac cy).notices = s.notices := rfl

/-! ### State.setZ -/

@[simp] theorem State.setZ_product (z : Bool) : (s.setZ z).product = s.product := rfl
@[simp] theorem State.setZ_regs (z : Bool) : (s.setZ z).regs = s.regs := rfl
@[simp] theorem State.setZ_pc (z : Bool) : (s.setZ z).pc = s.pc := rfl
@[simp] theorem State.setZ_psw (z : Bool) : (s.setZ z).psw = { s.psw with z := z } := rfl
@[simp] theorem State.setZ_sp (z : Bool) : (s.setZ z).sp = s.sp := rfl
@[simp] theorem State.setZ_es (z : Bool) : (s.setZ z).es = s.es := rfl
@[simp] theorem State.setZ_cs (z : Bool) : (s.setZ z).cs = s.cs := rfl
@[simp] theorem State.setZ_pmc (z : Bool) : (s.setZ z).pmc = s.pmc := rfl
@[simp] theorem State.setZ_macr (z : Bool) : (s.setZ z).macr = s.macr := rfl
@[simp] theorem State.setZ_mem (z : Bool) : (s.setZ z).mem = s.mem := rfl
@[simp] theorem State.setZ_intHold (z : Bool) : (s.setZ z).intHold = s.intHold := rfl
@[simp] theorem State.setZ_mode (z : Bool) : (s.setZ z).mode = s.mode := rfl
@[simp] theorem State.setZ_pmcWait (z : Bool) : (s.setZ z).pmcWait = s.pmcWait := rfl
@[simp] theorem State.setZ_afterDiv (z : Bool) : (s.setZ z).afterDiv = s.afterDiv := rfl
@[simp] theorem State.setZ_ticks (z : Bool) : (s.setZ z).ticks = s.ticks := rfl
@[simp] theorem State.setZ_inputs (z : Bool) : (s.setZ z).inputs = s.inputs := rfl
@[simp] theorem State.setZ_notices (z : Bool) : (s.setZ z).notices = s.notices := rfl

/-! ### State.setCy -/

@[simp] theorem State.setCy_product (cy : Bool) : (s.setCy cy).product = s.product := rfl
@[simp] theorem State.setCy_regs (cy : Bool) : (s.setCy cy).regs = s.regs := rfl
@[simp] theorem State.setCy_pc (cy : Bool) : (s.setCy cy).pc = s.pc := rfl
@[simp] theorem State.setCy_psw (cy : Bool) : (s.setCy cy).psw = { s.psw with cy := cy } := rfl
@[simp] theorem State.setCy_sp (cy : Bool) : (s.setCy cy).sp = s.sp := rfl
@[simp] theorem State.setCy_es (cy : Bool) : (s.setCy cy).es = s.es := rfl
@[simp] theorem State.setCy_cs (cy : Bool) : (s.setCy cy).cs = s.cs := rfl
@[simp] theorem State.setCy_pmc (cy : Bool) : (s.setCy cy).pmc = s.pmc := rfl
@[simp] theorem State.setCy_macr (cy : Bool) : (s.setCy cy).macr = s.macr := rfl
@[simp] theorem State.setCy_mem (cy : Bool) : (s.setCy cy).mem = s.mem := rfl
@[simp] theorem State.setCy_intHold (cy : Bool) : (s.setCy cy).intHold = s.intHold := rfl
@[simp] theorem State.setCy_mode (cy : Bool) : (s.setCy cy).mode = s.mode := rfl
@[simp] theorem State.setCy_pmcWait (cy : Bool) : (s.setCy cy).pmcWait = s.pmcWait := rfl
@[simp] theorem State.setCy_afterDiv (cy : Bool) : (s.setCy cy).afterDiv = s.afterDiv := rfl
@[simp] theorem State.setCy_ticks (cy : Bool) : (s.setCy cy).ticks = s.ticks := rfl
@[simp] theorem State.setCy_inputs (cy : Bool) : (s.setCy cy).inputs = s.inputs := rfl
@[simp] theorem State.setCy_notices (cy : Bool) : (s.setCy cy).notices = s.notices := rfl

/-! ### State.setZAc -/

@[simp] theorem State.setZAc_product (z ac : Bool) : (s.setZAc z ac).product = s.product := rfl
@[simp] theorem State.setZAc_regs (z ac : Bool) : (s.setZAc z ac).regs = s.regs := rfl
@[simp] theorem State.setZAc_pc (z ac : Bool) : (s.setZAc z ac).pc = s.pc := rfl
@[simp] theorem State.setZAc_psw (z ac : Bool) : (s.setZAc z ac).psw = { s.psw with z := z, ac := ac } := rfl
@[simp] theorem State.setZAc_sp (z ac : Bool) : (s.setZAc z ac).sp = s.sp := rfl
@[simp] theorem State.setZAc_es (z ac : Bool) : (s.setZAc z ac).es = s.es := rfl
@[simp] theorem State.setZAc_cs (z ac : Bool) : (s.setZAc z ac).cs = s.cs := rfl
@[simp] theorem State.setZAc_pmc (z ac : Bool) : (s.setZAc z ac).pmc = s.pmc := rfl
@[simp] theorem State.setZAc_macr (z ac : Bool) : (s.setZAc z ac).macr = s.macr := rfl
@[simp] theorem State.setZAc_mem (z ac : Bool) : (s.setZAc z ac).mem = s.mem := rfl
@[simp] theorem State.setZAc_intHold (z ac : Bool) : (s.setZAc z ac).intHold = s.intHold := rfl
@[simp] theorem State.setZAc_mode (z ac : Bool) : (s.setZAc z ac).mode = s.mode := rfl
@[simp] theorem State.setZAc_pmcWait (z ac : Bool) : (s.setZAc z ac).pmcWait = s.pmcWait := rfl
@[simp] theorem State.setZAc_afterDiv (z ac : Bool) : (s.setZAc z ac).afterDiv = s.afterDiv := rfl
@[simp] theorem State.setZAc_ticks (z ac : Bool) : (s.setZAc z ac).ticks = s.ticks := rfl
@[simp] theorem State.setZAc_inputs (z ac : Bool) : (s.setZAc z ac).inputs = s.inputs := rfl
@[simp] theorem State.setZAc_notices (z ac : Bool) : (s.setZAc z ac).notices = s.notices := rfl

/-! ### State.setZCy -/

@[simp] theorem State.setZCy_product (z cy : Bool) : (s.setZCy z cy).product = s.product := rfl
@[simp] theorem State.setZCy_regs (z cy : Bool) : (s.setZCy z cy).regs = s.regs := rfl
@[simp] theorem State.setZCy_pc (z cy : Bool) : (s.setZCy z cy).pc = s.pc := rfl
@[simp] theorem State.setZCy_psw (z cy : Bool) : (s.setZCy z cy).psw = { s.psw with z := z, cy := cy } := rfl
@[simp] theorem State.setZCy_sp (z cy : Bool) : (s.setZCy z cy).sp = s.sp := rfl
@[simp] theorem State.setZCy_es (z cy : Bool) : (s.setZCy z cy).es = s.es := rfl
@[simp] theorem State.setZCy_cs (z cy : Bool) : (s.setZCy z cy).cs = s.cs := rfl
@[simp] theorem State.setZCy_pmc (z cy : Bool) : (s.setZCy z cy).pmc = s.pmc := rfl
@[simp] theorem State.setZCy_macr (z cy : Bool) : (s.setZCy z cy).macr = s.macr := rfl
@[simp] theorem State.setZCy_mem (z cy : Bool) : (s.setZCy z cy).mem = s.mem := rfl
@[simp] theorem State.setZCy_intHold (z cy : Bool) : (s.setZCy z cy).intHold = s.intHold := rfl
@[simp] theorem State.setZCy_mode (z cy : Bool) : (s.setZCy z cy).mode = s.mode := rfl
@[simp] theorem State.setZCy_pmcWait (z cy : Bool) : (s.setZCy z cy).pmcWait = s.pmcWait := rfl
@[simp] theorem State.setZCy_afterDiv (z cy : Bool) : (s.setZCy z cy).afterDiv = s.afterDiv := rfl
@[simp] theorem State.setZCy_ticks (z cy : Bool) : (s.setZCy z cy).ticks = s.ticks := rfl
@[simp] theorem State.setZCy_inputs (z cy : Bool) : (s.setZCy z cy).inputs = s.inputs := rfl
@[simp] theorem State.setZCy_notices (z cy : Bool) : (s.setZCy z cy).notices = s.notices := rfl

/-! ### State.setAcCy -/

@[simp] theorem State.setAcCy_product (ac cy : Bool) : (s.setAcCy ac cy).product = s.product := rfl
@[simp] theorem State.setAcCy_regs (ac cy : Bool) : (s.setAcCy ac cy).regs = s.regs := rfl
@[simp] theorem State.setAcCy_pc (ac cy : Bool) : (s.setAcCy ac cy).pc = s.pc := rfl
@[simp] theorem State.setAcCy_psw (ac cy : Bool) : (s.setAcCy ac cy).psw = { s.psw with ac := ac, cy := cy } := rfl
@[simp] theorem State.setAcCy_sp (ac cy : Bool) : (s.setAcCy ac cy).sp = s.sp := rfl
@[simp] theorem State.setAcCy_es (ac cy : Bool) : (s.setAcCy ac cy).es = s.es := rfl
@[simp] theorem State.setAcCy_cs (ac cy : Bool) : (s.setAcCy ac cy).cs = s.cs := rfl
@[simp] theorem State.setAcCy_pmc (ac cy : Bool) : (s.setAcCy ac cy).pmc = s.pmc := rfl
@[simp] theorem State.setAcCy_macr (ac cy : Bool) : (s.setAcCy ac cy).macr = s.macr := rfl
@[simp] theorem State.setAcCy_mem (ac cy : Bool) : (s.setAcCy ac cy).mem = s.mem := rfl
@[simp] theorem State.setAcCy_intHold (ac cy : Bool) : (s.setAcCy ac cy).intHold = s.intHold := rfl
@[simp] theorem State.setAcCy_mode (ac cy : Bool) : (s.setAcCy ac cy).mode = s.mode := rfl
@[simp] theorem State.setAcCy_pmcWait (ac cy : Bool) : (s.setAcCy ac cy).pmcWait = s.pmcWait := rfl
@[simp] theorem State.setAcCy_afterDiv (ac cy : Bool) : (s.setAcCy ac cy).afterDiv = s.afterDiv := rfl
@[simp] theorem State.setAcCy_ticks (ac cy : Bool) : (s.setAcCy ac cy).ticks = s.ticks := rfl
@[simp] theorem State.setAcCy_inputs (ac cy : Bool) : (s.setAcCy ac cy).inputs = s.inputs := rfl
@[simp] theorem State.setAcCy_notices (ac cy : Bool) : (s.setAcCy ac cy).notices = s.notices := rfl

/-! ### State.markDivision -/

@[simp] theorem State.markDivision_product (a : Addr) : (s.markDivision a).product = s.product := rfl
@[simp] theorem State.markDivision_regs (a : Addr) : (s.markDivision a).regs = s.regs := rfl
@[simp] theorem State.markDivision_pc (a : Addr) : (s.markDivision a).pc = s.pc := rfl
@[simp] theorem State.markDivision_psw (a : Addr) : (s.markDivision a).psw = s.psw := rfl
@[simp] theorem State.markDivision_sp (a : Addr) : (s.markDivision a).sp = s.sp := rfl
@[simp] theorem State.markDivision_es (a : Addr) : (s.markDivision a).es = s.es := rfl
@[simp] theorem State.markDivision_cs (a : Addr) : (s.markDivision a).cs = s.cs := rfl
@[simp] theorem State.markDivision_pmc (a : Addr) : (s.markDivision a).pmc = s.pmc := rfl
@[simp] theorem State.markDivision_macr (a : Addr) : (s.markDivision a).macr = s.macr := rfl
@[simp] theorem State.markDivision_mem (a : Addr) : (s.markDivision a).mem = s.mem := rfl
@[simp] theorem State.markDivision_intHold (a : Addr) : (s.markDivision a).intHold = s.intHold := rfl
@[simp] theorem State.markDivision_mode (a : Addr) : (s.markDivision a).mode = s.mode := rfl
@[simp] theorem State.markDivision_pmcWait (a : Addr) : (s.markDivision a).pmcWait = s.pmcWait := rfl
@[simp] theorem State.markDivision_afterDiv (a : Addr) : (s.markDivision a).afterDiv = some a := rfl
@[simp] theorem State.markDivision_ticks (a : Addr) : (s.markDivision a).ticks = s.ticks := rfl
@[simp] theorem State.markDivision_inputs (a : Addr) : (s.markDivision a).inputs = s.inputs := rfl
@[simp] theorem State.markDivision_notices (a : Addr) : (s.markDivision a).notices = s.notices := rfl

/-! ### Registers read back -/

/-- A register written is read back, any other keeps its value. -/
theorem State.setGpr_gpr (k j : BitVec 5) (v : Byte) : (s.setGpr k v).gpr j = if j = k then v else s.gpr j := by
  simp only [State.gpr, State.setGpr, Vector.getElem_set, BitVec.toNat_inj]
  by_cases h : k = j
  · simp [h]
  · simp [h, Ne.symm h]

@[simp] theorem State.setGpr_gpr_self (k : BitVec 5) (v : Byte) : (s.setGpr k v).gpr k = v := by
  simp [State.setGpr_gpr]

theorem State.setGpr_gpr_ne {k j : BitVec 5} (h : j ≠ k) (v : Byte) : (s.setGpr k v).gpr j = s.gpr j := by
  simp [State.setGpr_gpr, h]

/-- Registers are read from the register file alone. -/
theorem State.gpr_of_regs {s t : State} (h : t.regs = s.regs) (k : BitVec 5) : t.gpr k = s.gpr k := by
  simp only [State.gpr, h]

/-- The bank depends on the core and the PSW alone. -/
theorem State.bank_of {s t : State} (hp : t.product = s.product) (hw : t.psw = s.psw) : t.bank = s.bank := by
  simp only [State.bank, hp, hw]

/-- The stored bytes depend on the product and the memory list alone. -/
theorem State.byteAt_of {s t : State} (hp : t.product = s.product) (hm : t.mem = s.mem) (a : Addr) :
    t.byteAt a = s.byteAt a := by
  simp only [State.byteAt, hp, hm]

/-- The index of a register determines it. -/
theorem gprIndex_inj (b : BitVec 2) : ∀ r q : Reg8, gprIndex b r = gprIndex b q ↔ r = q := by
  have num : ∀ r q : Reg8, r.num = q.num ↔ r = q := by intro r q; cases r <;> cases q <;> decide
  intro r q
  rw [← num]
  have low : ∀ n : BitVec 3, (b ++ n).extractLsb' 0 3 = n := fun n =>
    BitVec.extractLsb'_append_eq_of_add_le (by decide) |>.trans (by simp)
  exact ⟨fun h => by rw [← low r.num, ← low q.num]; exact congrArg _ h, fun h => by simp only [gprIndex, h]⟩

@[simp] theorem State.setR8_gpr (r : Reg8) (v : Byte) (k : BitVec 5) :
    (s.setR8 r v).gpr k = if k = gprIndex s.bank r then v else s.gpr k := State.setGpr_gpr s _ _ _

@[simp] theorem State.setR8_r8 (r q : Reg8) (v : Byte) : (s.setR8 r v).r8 q = if q = r then v else s.r8 q := by
  have hb : (s.setR8 r v).bank = s.bank := rfl
  simp only [State.r8, hb, State.setR8_gpr, gprIndex_inj]

/-- The two bytes of a word make the word. -/
@[simp] theorem wordOf_bytes (w : Word) : wordOf (loByte w) (hiByte w) = w := by
  simp only [wordOf, loByte, hiByte]
  ext i hi
  simp only [BitVec.getElem_append, BitVec.getElem_extractLsb']
  split
  · simp [← BitVec.getLsbD_eq_getElem hi]
  · rw [BitVec.getLsbD_eq_getElem (by omega)]
    congr 1
    omega

@[simp] theorem loByte_wordOf (l h : Byte) : loByte (wordOf l h) = l := by
  simp only [wordOf, loByte]
  exact BitVec.extractLsb'_append_eq_of_add_le (by decide) |>.trans (by simp)

@[simp] theorem hiByte_wordOf (l h : Byte) : hiByte (wordOf l h) = h := by
  simp only [wordOf, hiByte]
  exact BitVec.extractLsb'_append_eq_of_le (by decide) |>.trans (by simp)

@[simp] theorem State.setRp_rp_self (p : RegPair) (v : Word) : (s.setRp p v).rp p = v := by
  have hb : (s.setRp p v).bank = s.bank := rfl
  cases p <;> simp [State.rp, State.setRp, pairLo, pairHi]

theorem State.setRp_rp_ne {p q : RegPair} (h : q ≠ p) (v : Word) : (s.setRp p v).rp q = s.rp q := by
  cases p <;> cases q <;> first | exact absurd rfl h | simp [State.rp, State.setRp, pairLo, pairHi]

@[simp] theorem State.setRp_gpr (p : RegPair) (v : Word) (k : BitVec 5) :
    (s.setRp p v).gpr k =
      if k = gprIndex s.bank (pairHi p) then hiByte v
      else if k = gprIndex s.bank (pairLo p) then loByte v else s.gpr k := by
  have hb : (s.setR8 (pairLo p) (loByte v)).bank = s.bank := rfl
  simp only [State.setRp, State.setR8_gpr, hb]

end Sys2Proof.Machine
end

