-- ==== Sys2Proof/Laws/Memory.lean ====
section
/-! SUPPORT. Laws of the stored bytes: reading back a written byte, the frame of a write, and the canonical form, which
every memory operation keeps. -/

namespace Sys2Proof.Machine

/-! ### The list of cells -/

theorem lookup_insertCell (m : List Host.Cell) (a b : Nat) (v : Byte) :
    lookup (insertCell m a v) b = if b = a then some v else lookup m b := by
  induction m with
  | nil => rfl
  | cons c t ih =>
    obtain ⟨x, w⟩ := c
    simp only [insertCell]
    split
    · rfl
    · split
      · subst_vars
        simp only [lookup]
        split <;> rfl
      · simp only [lookup, ih]
        split
        · next h => simp [show ¬ b = a by omega]
        · rfl

theorem lookup_eraseCell_ne (m : List Host.Cell) {a b : Nat} (h : b ≠ a) : lookup (eraseCell m a) b = lookup m b := by
  induction m with
  | nil => rfl
  | cons c t ih =>
    obtain ⟨x, w⟩ := c
    simp only [eraseCell]
    split
    · subst_vars
      simp [lookup, h]
    · simp only [lookup, ih]

/-- The addresses of a rising list lie above a bound that its first address is above. -/
theorem strictlyRising_cons {a : Nat} {v : Byte} {t : List Host.Cell} :
    strictlyRising ((a, v) :: t) = true ↔ (∀ c ∈ t, a < c.1) ∧ strictlyRising t = true := by
  induction t generalizing a v with
  | nil => simp [strictlyRising]
  | cons c t ih =>
    obtain ⟨b, w⟩ := c
    constructor
    · intro h
      simp only [strictlyRising, Bool.and_eq_true, decide_eq_true_eq] at h
      refine ⟨?_, h.2⟩
      intro d hd
      rcases List.mem_cons.mp hd with rfl | hd
      · exact h.1
      · exact Nat.lt_trans h.1 ((ih.mp h.2).1 d hd)
    · rintro ⟨h, hr⟩
      simp only [strictlyRising, Bool.and_eq_true, decide_eq_true_eq]
      exact ⟨h (b, w) (List.mem_cons_self ..), hr⟩

theorem lookup_none_of_lt {m : List Host.Cell} {a : Nat} (h : ∀ c ∈ m, a < c.1) : lookup m a = none := by
  induction m with
  | nil => rfl
  | cons c t ih =>
    obtain ⟨b, w⟩ := c
    have hb : a < b := h (b, w) (List.mem_cons_self ..)
    simp [lookup, show ¬ a = b by omega, ih fun d hd => h d (List.mem_cons_of_mem _ hd)]

theorem lookup_eraseCell_self {m : List Host.Cell} (a : Nat) (h : strictlyRising m = true) :
    lookup (eraseCell m a) a = none := by
  induction m with
  | nil => rfl
  | cons c t ih =>
    obtain ⟨b, w⟩ := c
    rw [strictlyRising_cons] at h
    simp only [eraseCell]
    split
    · subst_vars
      exact lookup_none_of_lt h.1
    · next hne => simp [lookup, hne, ih h.2]

theorem mem_insertCell {m : List Host.Cell} {a : Nat} {v : Byte} {c : Host.Cell} (h : c ∈ insertCell m a v) :
    c = (a, v) ∨ c ∈ m := by
  induction m with
  | nil => exact .inl (by simpa [insertCell] using h)
  | cons d t ih =>
    obtain ⟨b, w⟩ := d
    simp only [insertCell] at h
    split at h
    · simpa using h
    · split at h
      · rcases List.mem_cons.mp h with h | h
        · exact .inl h
        · exact .inr (List.mem_cons_of_mem _ h)
      · rcases List.mem_cons.mp h with h | h
        · exact .inr (by simp [h])
        · exact (ih h).imp id (List.mem_cons_of_mem _)

theorem mem_eraseCell {m : List Host.Cell} {a : Nat} {c : Host.Cell} (h : c ∈ eraseCell m a) : c ∈ m := by
  induction m with
  | nil => exact h
  | cons d t ih =>
    obtain ⟨b, w⟩ := d
    simp only [eraseCell] at h
    split at h
    · exact List.mem_cons_of_mem _ h
    · rcases List.mem_cons.mp h with h | h
      · simp [h]
      · exact List.mem_cons_of_mem _ (ih h)

theorem insertCell_rising {m : List Host.Cell} (a : Nat) (v : Byte) (h : strictlyRising m = true) :
    strictlyRising (insertCell m a v) = true := by
  induction m with
  | nil => rfl
  | cons c t ih =>
    obtain ⟨b, w⟩ := c
    have hc := strictlyRising_cons.mp h
    simp only [insertCell]
    split
    · next hab => simp [strictlyRising, hab, h]
    · split
      · next hab => exact strictlyRising_cons.mpr ⟨by simpa [hab] using hc.1, hc.2⟩
      · refine strictlyRising_cons.mpr ⟨fun d hd => ?_, ih hc.2⟩
        rcases mem_insertCell hd with rfl | hd
        · simp only
          omega
        · exact hc.1 d hd

theorem eraseCell_rising {m : List Host.Cell} (a : Nat) (h : strictlyRising m = true) :
    strictlyRising (eraseCell m a) = true := by
  induction m with
  | nil => rfl
  | cons c t ih =>
    obtain ⟨b, w⟩ := c
    have hc := strictlyRising_cons.mp h
    simp only [eraseCell]
    split
    · exact hc.2
    · exact strictlyRising_cons.mpr ⟨fun d hd => hc.1 d (mem_eraseCell hd), ih hc.2⟩

theorem filter_rising {m : List Host.Cell} (f : Host.Cell → Bool) (h : strictlyRising m = true) :
    strictlyRising (m.filter f) = true := by
  induction m with
  | nil => rfl
  | cons c t ih =>
    obtain ⟨b, w⟩ := c
    have hc := strictlyRising_cons.mp h
    simp only [List.filter_cons]
    split
    · exact strictlyRising_cons.mpr ⟨fun d hd => hc.1 d (List.mem_filter.mp hd).1, ih hc.2⟩
    · exact ih hc.2

/-! ### Reading and writing a stored byte -/

/-- A write leaves every other address alone. -/
theorem readCell_writeCell_ne (p : Product) (m : List Host.Cell) {a b : Addr} (h : b ≠ a) (v : Byte) :
    readCell p (writeCell p m a v) b = readCell p m b := by
  have hn : b.toNat ≠ a.toNat := fun e => h (BitVec.eq_of_toNat_eq e)
  by_cases hb : blank p a = some v
  · simp only [readCell, writeCell, if_pos hb, lookup_eraseCell_ne m hn]
  · simp only [readCell, writeCell, if_neg hb, lookup_insertCell, if_neg hn]

/-- A written byte is read back. -/
theorem readCell_writeCell_self (p : Product) {m : List Host.Cell} (hm : strictlyRising m = true) (a : Addr)
    (v : Byte) : readCell p (writeCell p m a v) a = some v := by
  by_cases hb : blank p a = some v
  · simp only [readCell, writeCell, if_pos hb, lookup_eraseCell_self _ hm]
    exact hb
  · simp only [readCell, writeCell, if_neg hb, lookup_insertCell, if_true]

theorem Memory.wf_iff {p : Product} {m : List Host.Cell} :
    Memory.wf p m = true ↔ strictlyRising m = true ∧ ∀ c ∈ m, cellOk p c = true := by
  simp [Memory.wf]

theorem Memory.wf_rising {p : Product} {m : List Host.Cell} (h : Memory.wf p m = true) : strictlyRising m = true :=
  (Memory.wf_iff.mp h).1

/-- A cell the list may hold: a storing address and a byte other than the blank one. -/
theorem cellOk_of_storage {p : Product} {a : Addr} {v : Byte} (hs : (storageOf p a).isSome = true)
    (hb : blank p a ≠ some v) : cellOk p (a.toNat, v) = true := by
  simp only [cellOk, BitVec.ofNat_toNat, BitVec.setWidth_eq, Bool.and_eq_true, decide_eq_true_eq]
  exact ⟨⟨a.isLt, hs⟩, hb⟩

/-- Writing a byte at a storing address keeps the canonical form. -/
theorem writeCell_wf {p : Product} {m : List Host.Cell} (hm : Memory.wf p m = true) {a : Addr} (v : Byte)
    (hs : (storageOf p a).isSome = true) : Memory.wf p (writeCell p m a v) = true := by
  have h := Memory.wf_iff.mp hm
  rw [Memory.wf_iff, writeCell]
  split
  · exact ⟨eraseCell_rising _ h.1, fun c hc => h.2 c (mem_eraseCell hc)⟩
  · next hb =>
    refine ⟨insertCell_rising _ _ h.1, fun c hc => ?_⟩
    rcases mem_insertCell hc with rfl | hc
    · exact cellOk_of_storage hs hb
    · exact h.2 c hc

/-- Dropping cells keeps the canonical form. -/
theorem filter_wf {p : Product} {m : List Host.Cell} (f : Host.Cell → Bool) (hm : Memory.wf p m = true) :
    Memory.wf p (m.filter f) = true := by
  have h := Memory.wf_iff.mp hm
  exact Memory.wf_iff.mpr ⟨filter_rising f h.1, fun c hc => h.2 c (List.mem_filter.mp hc).1⟩

/-- The memory after reset has the canonical form. -/
theorem reset_memory_wf : Memory.wf State.reset.product State.reset.mem = true := rfl

/-! ### Regions and storage -/

/-- A RAM address stores a byte. -/
theorem storageOf_ram {p : Product} {maa : Bool} {a : Addr} (h : regionOf p maa a = .ram) : storageOf p a = some .ram := by
  simp only [regionOf] at h
  simp only [storageOf]
  split at h
  · simp at h
  split at h
  · simp at h
  split at h
  · next h1 h2 h3 => simp [h1, h2, h3]
  repeat' (split at h <;> try simp at h)

/-- An address that stores a RAM byte is in the region RAM, whatever the mirror selects. -/
theorem region_of_storage_ram {p : Product} {a : Addr} (h : storageOf p a = some .ram) (maa : Bool) :
    regionOf p maa a = .ram := by
  simp only [storageOf] at h
  simp only [regionOf]
  split at h
  · split at h <;> simp at h
  split at h
  · simp at h
  split at h
  · next h1 h2 h3 => simp [h1, h2, h3]
  split at h
  · simp at h
  repeat' (split at h <;> try simp at h)

/-- An SFR entry of the storage kind stores a byte. -/
theorem sfrStorage_isSome {p : Product} {a : Addr} {e : SfrEntry} {r : Byte} (he : sfrEntry p a = some e)
    (hb : e.behaviour = .storage r) : sfrStorage p a = some r := by
  simp [sfrStorage, he, hb]

theorem storageOf_sfr {p : Product} {maa : Bool} {a : Addr} {r : Byte} (h : regionOf p maa a = .sfr)
    (hk : sfrKind p.core a = .product) (hs : sfrStorage p a = some r) : storageOf p a = some (.sfr r) := by
  simp only [regionOf] at h
  simp only [storageOf]
  split at h
  · next h1 => simp [h1, hk, hs]
  repeat' (split at h <;> try simp at h)

theorem storageOf_sfr2 {p : Product} {maa : Bool} {a : Addr} {r : Byte} (h : regionOf p maa a = .sfr2)
    (hs : sfrStorage p a = some r) : storageOf p a = some (.sfr r) := by
  simp only [regionOf] at h
  simp only [storageOf]
  split at h
  · simp at h
  split at h
  · simp at h
  split at h
  · simp at h
  split at h
  · next h1 h2 h3 h4 => simp [h1, h2, h3, h4, hs]
  repeat' (split at h <;> try simp at h)

/-- A register that another bus master stores to is no part of the memory list. -/
@[simp] theorem dmaGpr_mem (s : State) (a : Addr) (v : Byte) : (dmaGpr s a v).mem = s.mem := by
  simp only [dmaGpr]; split <;> rfl

@[simp] theorem dmaGpr_product (s : State) (a : Addr) (v : Byte) : (dmaGpr s a v).product = s.product := by
  simp only [dmaGpr]; split <;> rfl

@[simp] theorem dmaSfr_mem (s : State) (a : Addr) (v : Byte) : (dmaSfr s a v).mem = s.mem := by
  simp only [dmaSfr]; split <;> rfl

@[simp] theorem dmaSfr_product (s : State) (a : Addr) (v : Byte) : (dmaSfr s a v).product = s.product := by
  simp only [dmaSfr]; split <;> rfl

/-- The bytes another bus master stores keep the canonical form. -/
theorem dmaStore_wf {s : State} (hm : Memory.wf s.product s.mem = true) (c : Host.Cell) :
    Memory.wf (dmaStore s c).product (dmaStore s c).mem = true := by
  simp only [dmaStore]
  split
  · next h => exact writeCell_wf hm _ (by simp [h])
  · next h => exact writeCell_wf hm _ (by simp [h])
  · exact hm
  · split <;> simp [hm]

/-- A byte placed for the fetch keeps the canonical form. -/
theorem pokeByte_wf {s : State} (hm : Memory.wf s.product s.mem = true) (a : Addr) (v : Byte) :
    Memory.wf (pokeByte s a v).product (pokeByte s a v).mem = true := by
  simp only [pokeByte]
  split
  · next h => exact writeCell_wf hm _ (by simp [h])
  · next h => exact writeCell_wf hm _ (by simp [h])
  · exact hm
  · exact hm

end Sys2Proof.Machine
end

