-- ==== Sys2Proof/Laws/Ops.lean ====
section
/-! SUPPORT. For each shared operation, once, everything it can do: `Wrote f b t` says that `t` is `b` but for a
footprint, with the hidden state kept and the invariant kept. Proofs cite these lemmas and do not unfold the
operations. -/

namespace Sys2Proof.Machine

/-! ### Results -/

@[simp] theorem outcome_next {r : Result State} {t : State} : outcome r = .next t ↔ r = .ok t := by
  match r with
  | .ok u => simp [outcome]
  | .error (.fault f) => simp [outcome]
  | .error (.refuse q) => simp [outcome]

theorem bind_ok {α β : Type} {x : Result α} {f : α → Result β} {b : β} :
    (x >>= f) = .ok b ↔ ∃ a, x = .ok a ∧ f a = .ok b := by
  match x with
  | .ok a => exact ⟨fun h => ⟨a, rfl, h⟩, fun ⟨_, h, hf⟩ => by cases h; exact hf⟩
  | .error e =>
    constructor
    · intro h
      cases h
    · rintro ⟨_, h, _⟩
      cases h

theorem pure_ok {α : Type} {a b : α} : (pure a : Result α) = .ok b ↔ a = b :=
  ⟨fun h => by cases h; rfl, fun h => by rw [h]; rfl⟩

@[simp] theorem refusing_ok {α : Type} {r : Refusal} {a : α} : ¬ (refusing r = .ok a) := nofun

@[simp] theorem faulting_ok {α : Type} {f : Fault} {a : α} : ¬ (faulting f = .ok a) := nofun

@[simp] theorem checkCore_ok {s : State} {i : Instr} {u : Unit} :
    s.checkCore i = .ok u ↔ Instr.onCore i s.product.core = true := by
  simp only [State.checkCore]
  split <;> simp_all

/-! ### Footprints -/

theorem Unchanged.refl (f : Footprint) (s : State) : Unchanged f s s :=
  ⟨rfl, fun _ _ _ => rfl, fun _ _ _ => rfl, fun _ _ => rfl, fun _ => rfl, fun _ => rfl, fun _ => rfl,
    fun _ _ _ => rfl, fun _ _ => rfl⟩

/-- Two updates one after the other stay within both footprints together. -/
theorem Unchanged.trans {f g : Footprint} {s u t : State} (h : Unchanged f s u) (k : Unchanged g u t) :
    Unchanged (f.and g) s t where
  product := k.product.trans h.product
  regs i hr hb := by
    simp only [Footprint.and, List.mem_append, not_or] at hr hb
    exact (k.regs i hr.2 hb.2).trans (h.regs i hr.1 hb.1)
  flags n hf hb := by
    simp only [Footprint.and, List.mem_append, not_or] at hf hb
    exact (k.flags n hf.2 hb.2).trans (h.flags n hf.1 hb.1)
  sp hs hb := by
    simp only [Footprint.and, Bool.or_eq_false_iff, List.mem_append, not_or] at hs hb
    exact (k.sp hs.2 hb.2).trans (h.sp hs.1 hb.1)
  es hb := by
    simp only [Footprint.and, List.mem_append, not_or] at hb
    exact (k.es hb.2).trans (h.es hb.1)
  cs hb := by
    simp only [Footprint.and, List.mem_append, not_or] at hb
    exact (k.cs hb.2).trans (h.cs hb.1)
  pmc hb := by
    simp only [Footprint.and, List.mem_append, not_or] at hb
    exact (k.pmc hb.2).trans (h.pmc hb.1)
  macr hm h0 h2 := by
    simp only [Footprint.and, Bool.or_eq_false_iff, List.mem_append, not_or] at hm h0 h2
    exact (k.macr hm.2 h0.2 h2.2).trans (h.macr hm.1 h0.1 h2.1)
  memory a ha := by
    simp only [Footprint.and, List.mem_append, not_or] at ha
    exact (k.memory a ha.2).trans (h.memory a ha.1)

/-- The part of the state no data write touches. -/
structure SameControl (b t : State) : Prop where
  pc : t.pc = b.pc
  mode : t.mode = b.mode
  afterDiv : t.afterDiv = b.afterDiv
  ticks : t.ticks = b.ticks
  inputs : t.inputs = b.inputs
  notices : t.notices = b.notices
  intHold : t.intHold = b.intHold

theorem SameControl.refl (s : State) : SameControl s s := ⟨rfl, rfl, rfl, rfl, rfl, rfl, rfl⟩

theorem SameControl.trans {s u t : State} (h : SameControl s u) (k : SameControl u t) : SameControl s t :=
  ⟨k.pc.trans h.pc, k.mode.trans h.mode, k.afterDiv.trans h.afterDiv, k.ticks.trans h.ticks, k.inputs.trans h.inputs,
    k.notices.trans h.notices, k.intHold.trans h.intHold⟩

/-- `t` is `b` but for a footprint: nothing outside it changes, control and hidden state stay, the mirror wait is set
by a store to PMC alone (R63), and the invariant is kept. -/
structure Wrote (f : Footprint) (b t : State) : Prop where
  frame : Unchanged f b t
  control : SameControl b t
  pmcWait : t.pmcWait = (b.pmcWait || decide (pmcAddr ∈ f.bytes))
  inv : Inv b → Inv t

theorem Wrote.trans {f g : Footprint} {s u t : State} (h : Wrote f s u) (k : Wrote g u t) : Wrote (f.and g) s t where
  frame := h.frame.trans k.frame
  control := h.control.trans k.control
  pmcWait := by
    rw [k.pmcWait, h.pmcWait]
    simp [Footprint.and, Bool.or_assoc]
  inv hi := k.inv (h.inv hi)

/-- A footprint may be replaced by a larger one with the same stored bytes. -/
theorem Wrote.weaken {f g : Footprint} {b t : State} (h : Wrote f b t) (hr : ∀ k, k ∈ f.regs → k ∈ g.regs)
    (hf : ∀ n, n ∈ f.flags → n ∈ g.flags) (hs : f.sp = true → g.sp = true) (hm : f.macr = true → g.macr = true)
    (hb : ∀ a, a ∈ f.bytes ↔ a ∈ g.bytes) : Wrote g b t where
  frame :=
    { product := h.frame.product
      regs := fun k k1 k2 => h.frame.regs k (fun m => k1 (hr k m)) (fun m => k2 ((hb _).mp m))
      flags := fun n k1 k2 => h.frame.flags n (fun m => k1 (hf n m)) (fun m => k2 ((hb _).mp m))
      sp := fun k1 k2 => h.frame.sp (by
        cases e : f.sp with
        | false => rfl
        | true => simp [hs e] at k1) (fun m => k2 ((hb _).mp m))
      es := fun k => h.frame.es (fun m => k ((hb _).mp m))
      cs := fun k => h.frame.cs (fun m => k ((hb _).mp m))
      pmc := fun k => h.frame.pmc (fun m => k ((hb _).mp m))
      macr := fun k1 k2 k3 => h.frame.macr (by
        cases e : f.macr with
        | false => rfl
        | true => simp [hm e] at k1) (fun m => k2 ((hb _).mp m)) (fun m => k3 ((hb _).mp m))
      memory := fun a k => h.frame.memory a (fun m => k ((hb _).mp m)) }
  control := h.control
  pmcWait := by rw [h.pmcWait, decide_eq_decide.mpr (hb pmcAddr)]
  inv := h.inv

theorem Wrote.refl (s : State) : Wrote .none s s :=
  ⟨Unchanged.refl _ _, SameControl.refl _, by simp [Footprint.none], id⟩

/-- The invariant depends on these fields alone. -/
theorem Inv.congr {s t : State} (h : Inv s) (hp : t.product = s.product) (hm : t.mem = s.mem) (hsp : t.sp = s.sp)
    (he : t.es = s.es) (hc : t.cs = s.cs) (hpmc : t.pmc = s.pmc) (h1 : t.psw.rbs1 = s.psw.rbs1)
    (h0 : t.psw.rbs0 = s.psw.rbs0) : Inv t where
  memory := by rw [hp, hm]; exact h.memory
  spEven := by rw [hsp]; exact h.spEven
  esHigh := by rw [he]; exact h.esHigh
  csHigh := by rw [hc]; exact h.csHigh
  pmcHigh := by rw [hpmc]; exact h.pmcHigh
  pmcS1 := by rw [hp, hpmc]; exact h.pmcS1
  banksS1 := by rw [hp, h1, h0]; exact h.banksS1

/-! ### Register updates -/

theorem wrote_setGpr (b : State) (k : BitVec 5) (v : Byte) :
    Wrote { Footprint.none with regs := [k] } b (b.setGpr k v) where
  frame := { Unchanged.refl (Footprint.none) b with
    regs := fun j hj _ => by
      simp only [List.mem_singleton] at hj
      exact State.setGpr_gpr_ne b hj v }
  control := ⟨rfl, rfl, rfl, rfl, rfl, rfl, rfl⟩
  pmcWait := by simp [Footprint.none]
  inv h := h.congr rfl rfl rfl rfl rfl rfl rfl rfl

theorem wrote_setR8 (b : State) (r : Reg8) (v : Byte) : Wrote (.ofReg b r) b (b.setR8 r v) := wrote_setGpr b _ v

theorem wrote_setRp (b : State) (p : RegPair) (v : Word) : Wrote (.ofPair b p) b (b.setRp p v) := by
  have h := (wrote_setR8 b (pairLo p) (loByte v)).trans
    (wrote_setR8 (b.setR8 (pairLo p) (loByte v)) (pairHi p) (hiByte v))
  exact h

/-- The footprint of a register depends on the bank alone. -/
theorem Footprint.ofReg_of_bank {s t : State} (h : t.bank = s.bank) (r : Reg8) :
    Footprint.ofReg t r = Footprint.ofReg s r := by
  simp only [Footprint.ofReg, h]

theorem Footprint.ofPair_of_bank {s t : State} (h : t.bank = s.bank) (p : RegPair) :
    Footprint.ofPair t p = Footprint.ofPair s p := by
  simp only [Footprint.ofPair, h]

theorem wrote_setBcax (b : State) (v : DWord) :
    Wrote ((Footprint.ofPair b .bc).and (.ofPair b .ax)) b (b.setBcax v) :=
  (wrote_setRp b .bc _).trans (wrote_setRp (b.setRp .bc _) .ax _)

theorem wrote_setHlde (b : State) (v : DWord) :
    Wrote ((Footprint.ofPair b .hl).and (.ofPair b .de)) b (b.setHlde v) :=
  (wrote_setRp b .hl _).trans (wrote_setRp (b.setRp .hl _) .de _)

theorem wrote_setSp (b : State) (v : Word) : Wrote .stackPointer b (b.setSp v) where
  frame := { Unchanged.refl (Footprint.none) b with
    sp := fun hs => by simp [Footprint.stackPointer] at hs }
  control := ⟨rfl, rfl, rfl, rfl, rfl, rfl, rfl⟩
  pmcWait := by simp [Footprint.stackPointer, Footprint.none]
  inv h := { h with spEven := by simp }

/-- A PSW whose bits outside a list are the old ones, with the bank bits kept at 0 on S1. -/
theorem wrote_psw (b : State) (p : Psw) (ns : List (BitVec 3)) (hn : ∀ n, n ∉ ns → p.getBit n = b.psw.getBit n)
    (hs : b.product.core = .s1 → b.psw.rbs1 = false ∧ b.psw.rbs0 = false → p.rbs1 = false ∧ p.rbs0 = false) :
    Wrote (.ofFlags ns) b { b with psw := p } where
  frame := { Unchanged.refl (Footprint.none) b with flags := fun n h _ => hn n h }
  control := ⟨rfl, rfl, rfl, rfl, rfl, rfl, rfl⟩
  pmcWait := by simp [Footprint.ofFlags, Footprint.none]
  inv h := { h with banksS1 := fun hc => hs hc (h.banksS1 hc) }

/-- Every 3-bit number is one of eight. -/
theorem forall_bit3 {P : BitVec 3 → Prop} :
    (∀ n, P n) ↔ P 0#3 ∧ P 1#3 ∧ P 2#3 ∧ P 3#3 ∧ P 4#3 ∧ P 5#3 ∧ P 6#3 ∧ P 7#3 := by
  constructor
  · intro h
    exact ⟨h _, h _, h _, h _, h _, h _, h _, h _⟩
  · rintro ⟨h0, h1, h2, h3, h4, h5, h6, h7⟩ n
    have hn : n.toNat < 8 := n.isLt
    have hb : n = BitVec.ofNat 3 n.toNat := by simp
    rw [hb]
    generalize n.toNat = k at hn
    match k, hn with
    | 0, _ => exact h0
    | 1, _ => exact h1
    | 2, _ => exact h2
    | 3, _ => exact h3
    | 4, _ => exact h4
    | 5, _ => exact h5
    | 6, _ => exact h6
    | 7, _ => exact h7

theorem wrote_setZAcCy (b : State) (z ac cy : Bool) : Wrote zAcCy b (b.setZAcCy z ac cy) :=
  wrote_psw b _ _ (by simp [forall_bit3, Psw.getBit]) fun _ h => h

theorem wrote_setZ (b : State) (z : Bool) : Wrote (.ofFlags [6#3]) b (b.setZ z) :=
  wrote_psw b _ _ (by simp [forall_bit3, Psw.getBit]) fun _ h => h

theorem wrote_setCy (b : State) (cy : Bool) : Wrote (.ofFlags [0#3]) b (b.setCy cy) :=
  wrote_psw b _ _ (by simp [forall_bit3, Psw.getBit]) fun _ h => h

theorem wrote_setZAc (b : State) (z ac : Bool) : Wrote (.ofFlags [6#3, 4#3]) b (b.setZAc z ac) :=
  wrote_psw b _ _ (by simp [forall_bit3, Psw.getBit]) fun _ h => h

theorem wrote_setZCy (b : State) (z cy : Bool) : Wrote (.ofFlags [6#3, 0#3]) b (b.setZCy z cy) :=
  wrote_psw b _ _ (by simp [forall_bit3, Psw.getBit]) fun _ h => h

theorem wrote_setAcCy (b : State) (ac cy : Bool) : Wrote (.ofFlags [4#3, 0#3]) b (b.setAcCy ac cy) :=
  wrote_psw b _ _ (by simp [forall_bit3, Psw.getBit]) fun _ h => h

/-- On S1 a written PSW has bank bits 0 (R42). -/
theorem Psw.masked_s1 (p : Psw) : (p.masked .s1).rbs1 = false ∧ (p.masked .s1).rbs0 = false := ⟨rfl, rfl⟩

/-- A write of the whole PSW. -/
theorem wrote_setPsw (b : State) (p : Psw) : Wrote wholePsw b (b.setPsw p) :=
  wrote_psw b _ _ (by simp [forall_bit3]) fun hc _ => by rw [hc]; exact p.masked_s1

/-- The masking of S1 changes nothing where the bank bits are 0 already. -/
theorem Psw.masked_of_s1 {p : Psw} {c : CoreVariant} (h : c = .s1 → p.rbs1 = false ∧ p.rbs0 = false) :
    p.masked c = p := by
  cases c with
  | s1 =>
    obtain ⟨h1, h0⟩ := h rfl
    obtain ⟨ie, z, rbs1, ac, rbs0, isp1, isp0, cy⟩ := p
    simp_all [Psw.masked]
  | s2 => rfl
  | s3 => rfl

/-- Setting one bit leaves the others (R278). -/
theorem Psw.setBit_getBit_ne (p : Psw) (v : Bool) : ∀ n m : BitVec 3, m ≠ n → (p.setBit n v).getBit m = p.getBit m := by
  simp only [forall_bit3]
  simp [Psw.setBit, Psw.getBit]

/-- A written bit is read back (R278). -/
theorem Psw.setBit_getBit_self (p : Psw) (v : Bool) : ∀ n : BitVec 3, (p.setBit n v).getBit n = v := by
  simp [forall_bit3, Psw.setBit, Psw.getBit]

/-- The masking of S1 leaves every bit but the two bank bits. -/
theorem Psw.masked_getBit (p : Psw) (c : CoreVariant) :
    ∀ n : BitVec 3, n ≠ 5#3 → n ≠ 3#3 → (p.masked c).getBit n = p.getBit n := by
  cases c <;> simp [forall_bit3, Psw.masked, Psw.getBit]

/-- A write of one PSW bit (R278). -/
theorem wrote_setPswBit (b : State) (n : BitVec 3) (v : Bool)
    (hb : b.product.core = .s1 → b.psw.rbs1 = false ∧ b.psw.rbs0 = false) :
    Wrote (.ofFlags [n]) b (b.setPsw (b.psw.setBit n v)) := by
  refine wrote_psw b _ _ (fun m hm => ?_) fun hc _ => by rw [hc]; exact Psw.masked_s1 _
  simp only [List.mem_singleton] at hm
  cases hc : b.product.core with
  | s1 =>
    obtain ⟨h1, h0⟩ := hb hc
    revert m n
    simp only [forall_bit3]
    simp [Psw.masked, Psw.setBit, Psw.getBit, h1, h0]
  | s2 => exact Psw.setBit_getBit_ne _ _ _ _ hm
  | s3 => exact Psw.setBit_getBit_ne _ _ _ _ hm

/-! ### Byte writes -/

/-- A byte put into the memory list (RAM and storage SFRs). -/
theorem wrote_cell (b : State) (a : Addr) (v : Byte) (h : (storageOf b.product a).isSome = true) (hp : a ≠ pmcAddr) :
    Wrote (.ofBytes [a]) b { b with mem := writeCell b.product b.mem a v } where
  frame := { Unchanged.refl (Footprint.ofBytes [a]) b with
    memory := fun c hc => by
      simp only [Footprint.ofBytes, List.mem_singleton] at hc
      exact readCell_writeCell_ne _ _ hc v }
  control := ⟨rfl, rfl, rfl, rfl, rfl, rfl, rfl⟩
  pmcWait := by simp [Footprint.ofBytes, Ne.symm hp]
  inv hi := { hi with memory := writeCell_wf hi.memory v h }

/-- The register file index of an address is the register that lives there. -/
theorem fileAddr_gprIndexAt {a : Addr} (h : within 0xFFEE0#20 0xFFEFF#20 a = true) : fileAddr (gprIndexAt a) = a := by
  have table : ∀ k : Fin 32, fileAddr (gprIndexAt (BitVec.ofNat 20 (0xFFEE0 + k))) = BitVec.ofNat 20 (0xFFEE0 + k) := by
    decide
  simp only [within, Bool.and_eq_true, decide_eq_true_eq] at h
  have h1 : 0xFFEE0 ≤ a.toNat := h.1
  have h2 : a.toNat ≤ 0xFFEFF := h.2
  have ha : a = BitVec.ofNat 20 (0xFFEE0 + (a.toNat - 0xFFEE0)) := by
    apply BitVec.eq_of_toNat_eq
    simp only [BitVec.toNat_ofNat]
    omega
  rw [ha]
  exact table ⟨a.toNat - 0xFFEE0, by omega⟩

/-- A register-area address written (R24). -/
theorem wrote_gprAt (b : State) (a : Addr) (v : Byte) (h : within 0xFFEE0#20 0xFFEFF#20 a = true) :
    Wrote (.ofBytes [a]) b (b.setGpr (gprIndexAt a) v) where
  frame := { Unchanged.refl (Footprint.ofBytes [a]) b with
    regs := fun k _ hk => by
      refine State.setGpr_gpr_ne b (fun e => hk ?_) v
      simp [Footprint.ofBytes, e, fileAddr_gprIndexAt h] }
  control := ⟨rfl, rfl, rfl, rfl, rfl, rfl, rfl⟩
  pmcWait := by
    have hp : a ≠ pmcAddr := by
      rintro rfl
      simp [within, pmcAddr] at h
    simp [Footprint.ofBytes, Ne.symm hp]
  inv hi := hi.congr rfl rfl rfl rfl rfl rfl rfl rfl

theorem regionOf_gpr {p : Product} {maa : Bool} {a : Addr} (h : regionOf p maa a = .gpr) :
    within 0xFFEE0#20 0xFFEFF#20 a = true := by
  simp only [regionOf] at h
  split at h
  · simp at h
  split at h
  · assumption
  repeat' (split at h <;> try simp at h)

/-- PMC is an SFR on every product. -/
theorem regionOf_pmc (p : Product) (maa : Bool) : regionOf p maa pmcAddr = .sfr := by
  simp [regionOf, within, pmcAddr]

theorem sfrKind_pmc (c : CoreVariant) : sfrKind c pmcAddr = .pmc := by
  simp [sfrKind, pmcAddr]

theorem sfrKind_eq_psw {c : CoreVariant} {a : Addr} (h : sfrKind c a = .psw) : a = pswAddr := by
  simp only [sfrKind] at h
  repeat' first | assumption | contradiction | split at h

theorem sfrKind_eq_cs {c : CoreVariant} {a : Addr} (h : sfrKind c a = .cs) : a = csAddr := by
  simp only [sfrKind] at h
  repeat' first | assumption | contradiction | split at h

theorem sfrKind_eq_es {c : CoreVariant} {a : Addr} (h : sfrKind c a = .es) : a = esAddr := by
  simp only [sfrKind] at h
  repeat' first | assumption | contradiction | split at h

theorem sfrKind_eq_pmc {c : CoreVariant} {a : Addr} (h : sfrKind c a = .pmc) : a = pmcAddr := by
  simp only [sfrKind] at h
  repeat' first | assumption | contradiction | split at h

theorem sfrKind_eq_sp {c : CoreVariant} {a : Addr} (h : sfrKind c a = .spByte) : a = spRegAddr ∨ a = 0xFFFF9#20 := by
  simp only [sfrKind] at h
  repeat' first | assumption | contradiction | split at h

theorem sfrKind_eq_macr {c : CoreVariant} {a : Addr} (h : sfrKind c a = .macr) :
    c = .s3 ∧ within 0xFFFF0#20 0xFFFF3#20 a = true := by
  simp only [sfrKind] at h
  repeat' first | assumption | contradiction | split at h

/-- A write of PMC (R55): only a legal value, and the mirror wait is set (R63). -/
theorem writePmc_ok {b t : State} {v : Byte} (h : b.writePmc v = .ok t) :
    t = { b with pmc := v, pmcWait := true } ∧ v &&& 0xFE#8 = 0x00#8 ∧ (b.product.core = .s1 → v = 0x00#8) := by
  cases hc : b.product.core <;> simp only [State.writePmc, hc] at h <;> split at h <;> simp_all

theorem wrote_writePmc {b t : State} {v : Byte} (h : b.writePmc v = .ok t) : Wrote (.ofBytes [pmcAddr]) b t := by
  obtain ⟨rfl, hv, hs⟩ := writePmc_ok h
  refine ⟨{ Unchanged.refl (Footprint.ofBytes [pmcAddr]) b with pmc := fun hn => by simp [Footprint.ofBytes] at hn },
    ⟨rfl, rfl, rfl, rfl, rfl, rfl, rfl⟩, by simp [Footprint.ofBytes], fun hi => { hi with pmcHigh := ?_, pmcS1 := hs }⟩
  have table : ∀ w : Byte, w &&& 0xFE#8 = 0x00#8 → w.extractLsb' 1 7 = 0#7 := by decide
  exact table v hv

/-- A product SFR written (R86). -/
theorem wrote_productWrite {u : AccessUnit} {b t : State} {a : Addr} {v : Byte} (h : productWrite u b a v = .ok t)
    (hs : ∀ r, sfrStorage b.product a = some r → (storageOf b.product a).isSome = true) (hp : a ≠ pmcAddr) :
    Wrote (.ofBytes [a]) b t := by
  simp only [productWrite] at h
  split at h
  · simp at h
  next e he =>
  split at h
  · split at h
    · next r hb =>
      cases h
      exact wrote_cell b a v (hs r (sfrStorage_isSome he hb)) hp
    · cases h
      exact ⟨Unchanged.refl _ _, SameControl.refl _, by simp [Footprint.ofBytes, Ne.symm hp], id⟩
  · simp at h

/-- Everything a byte write in the SFR area can do (R86). -/
theorem wrote_sfrWrite {u : AccessUnit} {b t : State} {a : Addr} {v : Byte} (hr : b.region a = .sfr)
    (h : sfrWrite u b a v = .ok t) : Wrote (.ofBytes [a]) b t := by
  simp only [sfrWrite] at h
  split at h
  · simp at h
  · next hk =>
    cases h
    obtain rfl := sfrKind_eq_psw hk
    refine ⟨{ Unchanged.refl (Footprint.ofBytes [pswAddr]) b with flags := fun n _ hn => ?_ },
      ⟨rfl, rfl, rfl, rfl, rfl, rfl, rfl⟩, ?_, (wrote_setPsw b _).inv⟩
    · simp [Footprint.ofBytes] at hn
    · simp [Footprint.ofBytes, pswAddr, pmcAddr]
  · simp at h
  · next hk =>
    cases h
    obtain rfl := sfrKind_eq_cs hk
    refine ⟨{ Unchanged.refl (Footprint.ofBytes [csAddr]) b with cs := fun hn => ?_ },
      ⟨rfl, rfl, rfl, rfl, rfl, rfl, rfl⟩, ?_, fun hi => { hi with csHigh := ?_ }⟩
    · simp [Footprint.ofBytes] at hn
    · simp [Footprint.ofBytes, csAddr, pmcAddr]
    · have table : ∀ w : Byte, (w &&& 0x0F#8).extractLsb' 4 4 = 0#4 := by decide
      exact table v
  · next hk =>
    cases h
    obtain rfl := sfrKind_eq_es hk
    refine ⟨{ Unchanged.refl (Footprint.ofBytes [esAddr]) b with es := fun hn => ?_ },
      ⟨rfl, rfl, rfl, rfl, rfl, rfl, rfl⟩, ?_, fun hi => { hi with esHigh := ?_ }⟩
    · simp [Footprint.ofBytes] at hn
    · simp [Footprint.ofBytes, esAddr, pmcAddr]
    · have table : ∀ w : Byte, (w &&& 0x0F#8).extractLsb' 4 4 = 0#4 := by decide
      exact table v
  · next hk =>
    obtain rfl := sfrKind_eq_pmc hk
    exact wrote_writePmc h
  · simp at h
  · next hk =>
    refine wrote_productWrite h (fun r hs => by rw [storageOf_sfr hr hk hs]; rfl) ?_
    rintro rfl
    rw [sfrKind_pmc] at hk
    cases hk

/-- Everything a byte write can do (R91): it changes the byte, the register or the SFR at its address and nothing
else. -/
theorem wrote_putByte {u : AccessUnit} {b t : State} {a : Addr} {v : Byte} (h : putByte u b a v = .ok t) :
    Wrote (.ofBytes [a]) b t := by
  simp only [putByte] at h
  have hp : b.region a ≠ .sfr → a ≠ pmcAddr := by
    rintro hn rfl
    exact hn (regionOf_pmc _ _)
  split at h
  · next hr =>
    cases h
    exact wrote_cell b a v (by rw [storageOf_ram hr]; rfl) (hp (by rw [hr]; nofun))
  · next hr =>
    obtain ⟨_, _, h⟩ := bind_ok.mp h
    cases h
    exact wrote_gprAt b a v (regionOf_gpr hr)
  · next hr => exact wrote_sfrWrite hr h
  · next hr => exact wrote_productWrite h (fun r hs => by rw [storageOf_sfr2 hr hs]; rfl) (hp (by rw [hr]; nofun))
  all_goals simp at h

theorem wrote_memWrite8 {win : Option Addr} {b t : State} {a : Addr} {v : Byte} (h : memWrite8 win b a v = .ok t) :
    Wrote (.ofBytes [a]) b t := by
  obtain ⟨_, _, h⟩ := bind_ok.mp h
  exact wrote_putByte h

theorem wrote_memWriteBit {win : Option Addr} {b t : State} {a : Addr} {v : Byte}
    (h : memWriteBit win b a v = .ok t) : Wrote (.ofBytes [a]) b t := by
  obtain ⟨_, _, h⟩ := bind_ok.mp h
  exact wrote_putByte h

/-! ### Word writes -/

theorem wrote_putPair {b t : State} {a : Addr} {v : Word} (h : putPair b a v = .ok t) :
    Wrote (.ofBytes [a, a + 1#20]) b t := by
  obtain ⟨u, hu, h⟩ := bind_ok.mp h
  exact (wrote_putByte hu).trans (wrote_putByte h)

/-- A word access goes to an even address (R93). -/
theorem wordAddr_ok {s : State} {a e : Addr} (h : wordAddr s a = .ok e) : e = wordBase s a ∧ e.getLsbD 0 = false := by
  simp only [wordAddr] at h
  split at h
  · simp at h
  · next hb =>
    cases h
    simpa using hb

/-- The even addresses of MACR (R58). -/
theorem even_in_macr {a : Addr} (he : a.getLsbD 0 = false) (hm : within 0xFFFF0#20 0xFFFF3#20 a = true) :
    a = 0xFFFF0#20 ∨ a = 0xFFFF2#20 := by
  simp only [within, Bool.and_eq_true, decide_eq_true_eq] at hm
  have h1 : 0xFFFF0 ≤ a.toNat := hm.1
  have h2 : a.toNat ≤ 0xFFFF3 := hm.2
  have h0 : a.toNat % 2 = 0 := by
    simpa [BitVec.getLsbD, Nat.testBit_zero] using he
  have : a.toNat = 0xFFFF0 ∨ a.toNat = 0xFFFF2 := by omega
  exact this.imp (fun h => BitVec.eq_of_toNat_eq h) fun h => BitVec.eq_of_toNat_eq h

/-- Everything a word write at an even address can do (R86, R91). -/
theorem wrote_evenWrite16 {b t : State} {e : Addr} {v : Word} (he : e.getLsbD 0 = false)
    (h : evenWrite16 b e v = .ok t) : Wrote (.ofBytes [e, e + 1#20]) b t := by
  simp only [evenWrite16] at h
  split at h
  · split at h
    · next hk =>
      cases h
      obtain rfl | rfl := sfrKind_eq_sp hk
      · refine ⟨{ Unchanged.refl (Footprint.ofBytes [spRegAddr, spRegAddr + 1#20]) b with sp := fun _ hn => ?_ },
          ⟨rfl, rfl, rfl, rfl, rfl, rfl, rfl⟩, ?_, (wrote_setSp b _).inv⟩
        · simp [Footprint.ofBytes] at hn
        · simp [Footprint.ofBytes, spRegAddr, pmcAddr]
      · simp at he
    · next hk =>
      cases h
      have hm := (sfrKind_eq_macr hk).2
      obtain rfl | rfl := even_in_macr he hm
      all_goals
        refine ⟨{ Unchanged.refl (Footprint.ofBytes _) b with macr := fun _ h0 h2 => ?_ },
          ⟨rfl, rfl, rfl, rfl, rfl, rfl, rfl⟩, by simp [Footprint.ofBytes, pmcAddr],
          fun hi => hi.congr rfl rfl rfl rfl rfl rfl rfl rfl⟩
        simp [Footprint.ofBytes] at h0 h2
    all_goals first | exact wrote_putPair h | simp at h
  all_goals exact wrote_putPair h

/-- Everything a word write can do (R91, R93). -/
theorem wrote_memWrite16 {win : Option Addr} {b t : State} {a : Addr} {v : Word} (h : memWrite16 win b a v = .ok t) :
    Wrote (.ofBytes (wordBytes b a)) b t := by
  obtain ⟨_, _, h⟩ := bind_ok.mp h
  obtain ⟨_, _, h⟩ := bind_ok.mp h
  obtain ⟨e, he, h⟩ := bind_ok.mp h
  obtain ⟨rfl, h0⟩ := wordAddr_ok he
  exact wrote_evenWrite16 h0 h

/-! ### The stack -/

theorem stackCheck_ok {s : State} {a : Addr} {u : Unit} :
    stackCheck s a = .ok u ↔ within s.product.ramStart 0xFFEDF#20 a = true := by
  simp only [stackCheck]
  split <;> simp_all

/-- A stack address is a RAM address (R49, R99). -/
theorem region_of_stack {s : State} {a : Addr} (h : within s.product.ramStart 0xFFEDF#20 a = true) :
    s.region a = .ram := by
  have hw := h
  simp only [within, Bool.and_eq_true, decide_eq_true_eq] at hw
  have h2 : a.toNat ≤ 0xFFEDF := hw.2
  have n1 : within 0xFFF00#20 0xFFFFF#20 a = false := by
    simp [within]
    omega
  have n2 : within 0xFFEE0#20 0xFFEFF#20 a = false := by
    simp [within]
    omega
  simp [State.region, regionOf, n1, n2, h]

/-- A stack write stores one byte in RAM (R99). -/
theorem stackWrite_ok {win : Option Addr} {b t : State} {p : Word} {v : Byte} (h : stackWrite win b p v = .ok t) :
    within b.product.ramStart 0xFFEDF#20 (addrOf 0xF#4 p) = true ∧
      t = { b with mem := writeCell b.product b.mem (addrOf 0xF#4 p) v } := by
  obtain ⟨_, hc, h⟩ := bind_ok.mp h
  have hw := stackCheck_ok.mp hc
  obtain ⟨_, _, h⟩ := bind_ok.mp h
  refine ⟨hw, ?_⟩
  simp only [putByte, region_of_stack hw] at h
  cases h
  rfl

theorem wrote_stackWrite {win : Option Addr} {b t : State} {p : Word} {v : Byte} (h : stackWrite win b p v = .ok t) :
    Wrote (.ofBytes [addrOf 0xF#4 p]) b t := by
  obtain ⟨_, _, h⟩ := bind_ok.mp h
  exact wrote_memWrite8 h

/-- A stack read takes one byte from RAM (R99). -/
theorem stackRead_ok {s : State} {p : Word} {v : Byte} :
    stackRead s p = .ok v ↔
      within s.product.ramStart 0xFFEDF#20 (addrOf 0xF#4 p) = true ∧ s.byteAt (addrOf 0xF#4 p) = some v := by
  constructor
  · intro h
    obtain ⟨_, hc, h⟩ := bind_ok.mp h
    have hw := stackCheck_ok.mp hc
    refine ⟨hw, ?_⟩
    simp only [memRead8, byteRead, region_of_stack hw, State.byteAt] at h ⊢
    split at h
    · next hv =>
      cases h
      exact hv
    · simp at h
  · rintro ⟨hw, hv⟩
    refine bind_ok.mpr ⟨(), stackCheck_ok.mpr hw, ?_⟩
    simp only [State.byteAt] at hv
    simp only [memRead8, byteRead, region_of_stack hw, hv]

/-- A store that is not into the bytes fetched ahead is not stopped by the window (R440). -/
theorem windowCheck_free {s : State} {next a : Addr} (h : aheadOfFetch s next a = false) :
    windowCheck (some next) s a = .ok () := by
  simp only [aheadOfFetch, Bool.and_eq_false_iff, decide_eq_false_iff_not] at h
  simp only [windowCheck]
  rw [if_neg]
  rintro ⟨x, y⟩
  rcases h with h | h <;> exact h ‹_›

/-- All a stack write can do (R99): the fault outside RAM, the stop of the window, or one byte stored. -/
theorem stackWrite_eq (win : Option Addr) (b : State) (p : Word) (v : Byte) :
    stackWrite win b p v =
      if within b.product.ramStart 0xFFEDF#20 (addrOf 0xF#4 p) = true then
        (windowCheck win b (addrOf 0xF#4 p)).map fun _ =>
          { b with mem := writeCell b.product b.mem (addrOf 0xF#4 p) v }
      else .error (.fault (.stackOutsideRam (addrOf 0xF#4 p))) := by
  by_cases h : within b.product.ramStart 0xFFEDF#20 (addrOf 0xF#4 p) = true
  · simp only [stackWrite, stackCheck, h, if_true, memWrite8, putByte, region_of_stack h, bind, Except.bind]
    cases windowCheck win b (addrOf 0xF#4 p) <;> rfl
  · simp only [stackWrite, stackCheck, h, if_false, bind, Except.bind, faulting, Bool.false_eq_true]

/-- All a stack read can do (R83, R99): the fault outside RAM, that of an unwritten byte, or the byte. -/
theorem stackRead_eq (s : State) (p : Word) :
    stackRead s p =
      if within s.product.ramStart 0xFFEDF#20 (addrOf 0xF#4 p) = true then
        match s.byteAt (addrOf 0xF#4 p) with
        | some v => .ok v
        | none => .error (.fault (.unwrittenRead (addrOf 0xF#4 p)))
      else .error (.fault (.stackOutsideRam (addrOf 0xF#4 p))) := by
  by_cases h : within s.product.ramStart 0xFFEDF#20 (addrOf 0xF#4 p) = true
  · simp only [stackRead, stackCheck, h, if_true, memRead8, byteRead, region_of_stack h, bind, Except.bind, State.byteAt]
    cases readCell s.product s.mem (addrOf 0xF#4 p) <;> rfl
  · simp only [stackRead, stackCheck, h, if_false, bind, Except.bind, faulting, Bool.false_eq_true]

/-- The bytes below SP depend on SP alone. -/
theorem belowSp_of_sp {s t : State} (h : t.sp = s.sp) (n : Nat) : belowSp t n = belowSp s n := by
  induction n with
  | zero => rfl
  | succ n ih => simp only [belowSp, h, ih]

/-- The frame of CALL, BRK and interrupts (R47, R290): the four bytes below SP, SP four lower, nothing else. -/
theorem push4_ok {win : Option Addr} {b t : State} {top : Byte} {ret : Addr} (h : push4 win b top ret = .ok t) :
    (∀ a ∈ belowSp b 4, within b.product.ramStart 0xFFEDF#20 a = true) ∧
      t = { b with
        sp := (b.sp - 4#16) &&& 0xFFFE#16
        mem := t.mem } := by
  obtain ⟨t1, h1, h⟩ := bind_ok.mp h
  obtain ⟨t2, h2, h⟩ := bind_ok.mp h
  obtain ⟨t3, h3, h⟩ := bind_ok.mp h
  obtain ⟨t4, h4, h⟩ := bind_ok.mp h
  obtain ⟨w1, rfl⟩ := stackWrite_ok h1
  obtain ⟨w2, rfl⟩ := stackWrite_ok h2
  obtain ⟨w3, rfl⟩ := stackWrite_ok h3
  obtain ⟨w4, rfl⟩ := stackWrite_ok h4
  cases h
  refine ⟨?_, rfl⟩
  simp only [belowSp, List.mem_cons, List.not_mem_nil, or_false]
  rintro a (rfl | rfl | rfl | rfl)
  · exact w4
  · exact w3
  · exact w2
  · exact w1

theorem wrote_push4 {win : Option Addr} {b t : State} {top : Byte} {ret : Addr} (h : push4 win b top ret = .ok t) :
    Wrote ((Footprint.ofBytes (belowSp b 4)).and .stackPointer) b t := by
  obtain ⟨t1, h1, h⟩ := bind_ok.mp h
  obtain ⟨t2, h2, h⟩ := bind_ok.mp h
  obtain ⟨t3, h3, h⟩ := bind_ok.mp h
  obtain ⟨t4, h4, h⟩ := bind_ok.mp h
  cases h
  have w := (wrote_stackWrite h1).trans ((wrote_stackWrite h2).trans ((wrote_stackWrite h3).trans (wrote_stackWrite h4)))
  refine Wrote.trans (w.weaken ?_ ?_ ?_ ?_ ?_) (wrote_setSp t4 _)
  · exact fun k hk => by simp [Footprint.and, Footprint.ofBytes, Footprint.none] at hk
  · exact fun n hn => by simp [Footprint.and, Footprint.ofBytes, Footprint.none] at hn
  · simp [Footprint.and, Footprint.ofBytes, Footprint.none]
  · simp [Footprint.and, Footprint.ofBytes, Footprint.none]
  · intro a
    simp only [Footprint.and, Footprint.ofBytes, belowSp, List.mem_append, List.mem_cons, List.not_mem_nil, or_false]
    exact ⟨fun h => by rcases h with h | h | h | h <;> simp [h], fun h => by rcases h with h | h | h | h <;> simp [h]⟩

/-- The return address comes from three RAM bytes (R290). -/
theorem pop3_ok {s : State} {r : Addr} :
    pop3 s = .ok r ↔ ∃ l h x, stackRead s s.sp = .ok l ∧ stackRead s (s.sp + 1#16) = .ok h ∧
      stackRead s (s.sp + 2#16) = .ok x ∧ r = addrOf (x.extractLsb' 0 4) (wordOf l h) := by
  simp only [pop3, bind_ok, pure_ok]
  constructor
  · rintro ⟨l, hl, h, hh, x, hx, rfl⟩
    exact ⟨l, h, x, hl, hh, hx, rfl⟩
  · rintro ⟨l, h, x, hl, hh, hx, rfl⟩
    exact ⟨l, hl, h, hh, x, hx, rfl⟩

/-! ### Taking an exception and returning from one -/

/-- Loading ISP changes bits 2 and 1 alone (R383). -/
theorem Psw.withIsp_getBit (p : Psw) (h : Bool) (v : BitVec 2) :
    ∀ n : BitVec 3, n ≠ 2#3 → n ≠ 1#3 → (p.withIsp h v).getBit n = p.getBit n := by
  cases h <;> simp [forall_bit3, Psw.withIsp, Psw.getBit]

theorem Psw.withIsp_banks (p : Psw) (h : Bool) (v : BitVec 2) :
    (p.withIsp h v).rbs1 = p.rbs1 ∧ (p.withIsp h v).rbs0 = p.rbs0 := by
  cases h <;> exact ⟨rfl, rfl⟩

/-- An entry keeps the bank bits (R383). -/
theorem entryPsw_banks (s : State) (isp : Option (BitVec 2)) :
    (entryPsw s isp).rbs1 = s.psw.rbs1 ∧ (entryPsw s isp).rbs0 = s.psw.rbs0 := by
  cases isp with
  | none => exact ⟨rfl, rfl⟩
  | some v => exact Psw.withIsp_banks _ _ _

/-- Everything an entry does (R293, R383): the frame on the stack, IE and ISP, and pc. -/
theorem enterVector_ok {win : Option Addr} {s t : State} {ret vector : Addr} {isp : Option (BitVec 2)}
    (h : enterVector win s ret vector isp = .ok t) :
    ∃ u, push4 win s s.psw.toByte ret = .ok u ∧
      t = { u with
        psw := entryPsw s isp
        pc := addrOf 0x0#4 (s.tableWord vector) } := by
  obtain ⟨u, hu, h⟩ := bind_ok.mp h
  cases h
  exact ⟨u, hu, rfl⟩

/-- Everything a return does (R295, R296): PSW, SP, pc and the interrupt hold of `b`, from four RAM bytes of `s`. -/
theorem leaveVector_ok {s b t : State} (h : leaveVector s b = .ok t) :
    ∃ r p, pop3 s = .ok r ∧ stackRead s (s.sp + 3#16) = .ok p ∧
      t = (((b.setPsw (Psw.ofByte p)).setSp (s.sp + 4#16)).goto r).hold := by
  obtain ⟨r, hr, h⟩ := bind_ok.mp h
  obtain ⟨p, hp, h⟩ := bind_ok.mp h
  cases h
  exact ⟨r, p, hr, hp, rfl⟩

/-! ### Operands -/

/-- Everything a byte store can do (R170). -/
theorem wrote_store8 {s b t : State} {next : Addr} {o : Opd8} {v : Byte} (hb : b.bank = s.bank)
    (h : store8 s next b o v = .ok t) : Wrote (destByte s o) b t := by
  cases o with
  | reg r =>
    cases h
    have w := wrote_setR8 b r v
    simpa only [destByte, Footprint.ofReg, hb] using w
  | imm w =>
    cases h
    exact Wrote.refl _
  | mem m =>
    obtain ⟨a, ha, h⟩ := bind_ok.mp h
    simp only [destByte, byteOf, ha]
    exact wrote_memWrite8 h
  | psw => exact wrote_memWrite8 h
  | cs => exact wrote_memWrite8 h
  | es => exact wrote_memWrite8 h

/-- Everything a word store can do (R170). -/
theorem wrote_store16 {s b t : State} {next : Addr} {o : Opd16} {v : Word} (hb : b.bank = s.bank)
    (hp : b.product = s.product) (h : store16 s next b o v = .ok t) : Wrote (destWord s o) b t := by
  have hw : ∀ a, wordBytes b a = wordBytes s a := fun a => by simp only [wordBytes, wordBase, hp]
  cases o with
  | rp p =>
    cases h
    have w := wrote_setRp b p v
    simpa only [destWord, Footprint.ofPair, hb] using w
  | imm w =>
    cases h
    exact Wrote.refl _
  | mem m =>
    obtain ⟨a, ha, h⟩ := bind_ok.mp h
    simp only [destWord, wordOfMem, ha, ← hw]
    exact wrote_memWrite16 h
  | sp =>
    simp only [destWord, ← hw]
    exact wrote_memWrite16 h

/-- A bit store is a write of its footprint, and the PSW form sets the interrupt hold besides (R270, R278). -/
theorem writeBit_ok {s b t : State} {next : Addr} {o : BitOpd} {v : Bool} (hb : b.bank = s.bank)
    (hs : b.product.core = .s1 → b.psw.rbs1 = false ∧ b.psw.rbs0 = false) (h : writeBit s next b o v = .ok t) :
    ∃ u, Wrote (destBit s o) b u ∧ t = { u with intHold := isPswBit o || b.intHold } := by
  cases o with
  | mem m n =>
    obtain ⟨a, ha, h⟩ := bind_ok.mp h
    obtain ⟨x, _, h⟩ := bind_ok.mp h
    have w := wrote_memWriteBit h
    refine ⟨t, by simpa only [destBit, byteOf, ha] using w, ?_⟩
    simp only [isPswBit, Bool.false_or, ← w.control.intHold]
  | a n =>
    cases h
    have w := wrote_setR8 b .a (withBit (s.r8 .a) n v)
    exact ⟨_, by simpa only [destBit, Footprint.ofReg, hb] using w, rfl⟩
  | psw n =>
    cases h
    exact ⟨_, wrote_setPswBit b n v hs, rfl⟩
  | cy =>
    cases h
    exact ⟨_, wrote_setCy b v, rfl⟩

/-! ### Another bus master -/

/-- What a byte of another bus master may change (R108, log 31). -/
def dmaFootprint (s : State) (c : Host.Cell) : Footprint :=
  let a : Addr := BitVec.ofNat 20 c.1
  match storageOf s.product a with
  | some .ram => .ofBytes [a]
  | some (.sfr _) => .ofBytes [a]
  | some .flash => .none
  | none =>
    match s.region a with
    | .gpr => { Footprint.none with regs := [gprIndexAt a] }
    | .sfr =>
      match sfrKind s.product.core a with
      | .spByte => .stackPointer
      | .psw => wholePsw
      | .cs => .ofBytes [csAddr]
      | .es => .ofBytes [esAddr]
      | .pmc => .ofBytes [pmcAddr]
      | .macr => .accumulator
      | .reserved | .product => .none
    | .ram | .sfr2 | .cflash | .dflash | .mirror | .reserved => .none

/-- A storing address is not that of PMC. -/
theorem ne_pmc_of_storage {p : Product} {a : Addr} {k : Storage} (h : storageOf p a = some k) : a ≠ pmcAddr := by
  rintro rfl
  have hw : within 0xFFF00#20 0xFFFFF#20 pmcAddr = true := by decide
  simp [storageOf, hw, sfrKind_pmc] at h

theorem wrote_setCs (b : State) (v : Byte) : Wrote (.ofBytes [csAddr]) b (b.setCs v) where
  frame := { Unchanged.refl (Footprint.ofBytes [csAddr]) b with cs := fun hn => by simp [Footprint.ofBytes] at hn }
  control := ⟨rfl, rfl, rfl, rfl, rfl, rfl, rfl⟩
  pmcWait := by simp [Footprint.ofBytes, csAddr, pmcAddr]
  inv hi := { hi with
    csHigh := (by decide : ∀ w : Byte, (w &&& 0x0F#8).extractLsb' 4 4 = 0#4) v }

theorem wrote_setEs (b : State) (v : Byte) : Wrote (.ofBytes [esAddr]) b (b.setEs v) where
  frame := { Unchanged.refl (Footprint.ofBytes [esAddr]) b with es := fun hn => by simp [Footprint.ofBytes] at hn }
  control := ⟨rfl, rfl, rfl, rfl, rfl, rfl, rfl⟩
  pmcWait := by simp [Footprint.ofBytes, esAddr, pmcAddr]
  inv hi := { hi with
    esHigh := (by decide : ∀ w : Byte, (w &&& 0x0F#8).extractLsb' 4 4 = 0#4) v }

theorem wrote_dmaPmc (b : State) (v : Byte) : Wrote (.ofBytes [pmcAddr]) b (dmaPmc b v) where
  frame := { Unchanged.refl (Footprint.ofBytes [pmcAddr]) b with pmc := fun hn => by simp [Footprint.ofBytes] at hn }
  control := ⟨rfl, rfl, rfl, rfl, rfl, rfl, rfl⟩
  pmcWait := by simp [dmaPmc, Footprint.ofBytes]
  inv hi := { hi with
    pmcHigh := by
      have table : ∀ w : Byte, (w &&& 0x01#8).extractLsb' 1 7 = 0#7 := by decide
      simp only [dmaPmc]
      cases b.product.core <;> simp [table]
    pmcS1 := fun hc => by
      replace hc : b.product.core = .s1 := hc
      simp only [dmaPmc, hc] }

/-- Everything a byte of another bus master can do (R108): it changes what its footprint names and nothing else, and
keeps the invariant. -/
theorem wrote_dmaStore (s : State) (c : Host.Cell) : Wrote (dmaFootprint s c) s (dmaStore s c) := by
  simp only [dmaFootprint, dmaStore]
  rcases hs : storageOf s.product (BitVec.ofNat 20 c.1) with _ | _ | _ | r
  · rcases hr : s.region (BitVec.ofNat 20 c.1) with _ | _ | _ | _ | _ | _ | _ | _
    · simp only [dmaSfr]
      rcases hk : sfrKind s.product.core (BitVec.ofNat 20 c.1) with _ | _ | _ | _ | _ | _ | _ | _
      · exact wrote_setSp s _
      · exact wrote_setPsw s _
      · exact Wrote.refl s
      · exact wrote_setCs s _
      · exact wrote_setEs s _
      · exact wrote_dmaPmc s _
      · exact { frame := { Unchanged.refl Footprint.none s with macr := fun hm => by simp [Footprint.accumulator] at hm }
                control := ⟨rfl, rfl, rfl, rfl, rfl, rfl, rfl⟩
                pmcWait := by simp [Footprint.accumulator, Footprint.none]
                inv := fun hi => { hi with } }
      · exact Wrote.refl s
    · simp only [dmaGpr]
      split
      · exact (Wrote.refl s).weaken (by simp [Footprint.none]) (by simp [Footprint.none]) (by simp [Footprint.none])
          (by simp [Footprint.none]) (by simp [Footprint.none])
      · exact wrote_setGpr s _ _
    all_goals exact Wrote.refl s
  · exact wrote_cell s _ _ (by simp [hs]) (ne_pmc_of_storage hs)
  · exact Wrote.refl s
  · exact wrote_cell s _ _ (by simp [hs]) (ne_pmc_of_storage hs)

/-- No byte of another bus master reaches the code flash or the data flash (R72, R85). -/
theorem dmaStore_flash (s : State) (c : Host.Cell) {a : Addr} (h : storageOf s.product a = some .flash) :
    (dmaStore s c).byteAt a = s.byteAt a := by
  refine (wrote_dmaStore s c).frame.memory a ?_
  have ne : ∀ {b : Addr} {k : Storage}, storageOf s.product b = some k → k ≠ .flash → a ∉ [b] := by
    rintro b k hb hk m
    rw [List.mem_singleton] at m
    rw [← m, h] at hb
    exact hk (Option.some.inj hb.symm)
  have far : ∀ {b : Addr}, storageOf s.product b = none → a ∉ [b] := by
    rintro b hb m
    rw [List.mem_singleton] at m
    rw [← m, h] at hb
    cases hb
  have core : storageOf s.product csAddr = none ∧ storageOf s.product esAddr = none ∧
      storageOf s.product pmcAddr = none := by
    refine ⟨?_, ?_, ?_⟩ <;> simp [storageOf, sfrKind, within, csAddr, esAddr, pmcAddr]
  simp only [dmaFootprint]
  rcases hs : storageOf s.product (BitVec.ofNat 20 c.1) with _ | _ | _ | r
  · rcases hr : s.region (BitVec.ofNat 20 c.1) with _ | _ | _ | _ | _ | _ | _ | _
    · rcases hk : sfrKind s.product.core (BitVec.ofNat 20 c.1) with _ | _ | _ | _ | _ | _ | _ | _
      · simp [Footprint.stackPointer, Footprint.none]
      · simp [wholePsw, Footprint.ofFlags, Footprint.none]
      · simp [Footprint.none]
      · exact far core.1
      · exact far core.2.1
      · exact far core.2.2
      · simp [Footprint.accumulator, Footprint.none]
      · simp [Footprint.none]
    all_goals simp [Footprint.none]
  · exact ne hs nofun
  · simp [Footprint.none]
  · exact ne hs nofun

/-- The stores of another bus master before a step, all together: the product and the control state stay, the flash
stays, the invariant is kept. -/
theorem dmaStores_keeps (s : State) (cells : List Host.Cell) :
    (dmaStores s cells).product = s.product ∧ SameControl s (dmaStores s cells) ∧ (Inv s → Inv (dmaStores s cells)) ∧
      ∀ a, storageOf s.product a = some .flash → (dmaStores s cells).byteAt a = s.byteAt a := by
  induction cells generalizing s with
  | nil => exact ⟨rfl, SameControl.refl s, id, fun _ _ => rfl⟩
  | cons c t ih =>
    obtain ⟨hp, hc, hi, hf⟩ := ih (dmaStore s c)
    have w := wrote_dmaStore s c
    refine ⟨hp.trans w.frame.product, w.control.trans hc, hi ∘ w.inv, fun a ha => ?_⟩
    exact (hf a (by rw [w.frame.product]; exact ha)).trans (dmaStore_flash s c ha)

end Sys2Proof.Machine
end

