-- ==== Sys2Proof/Laws/Decode.lean ====
section
/-! SUPPORT. Laws of the decoder and the fetch: bytes after an instruction do not matter, and the fetch of bytes that
decode yields their instruction. -/

namespace Sys2Proof

/-- A cell that has answered stays with its answer when more bytes follow. -/
def Settled (c : MapCell) : Prop := ∀ ops more, c ops ≠ .more → c (ops ++ more) = c ops

theorem settled_undef : Settled cUndef := fun _ _ _ => rfl

theorem settled_c0 (i : Instr) : Settled (c0 i) := fun _ _ _ => rfl

theorem settled_c1x (f : Byte → DecodeResult) : Settled (c1x f) := by
  intro ops more h
  match ops with
  | [] => exact absurd rfl h
  | _ :: _ => rfl

theorem settled_c2x (f : Byte → Byte → DecodeResult) : Settled (c2x f) := by
  intro ops more h
  match ops with
  | [] => exact absurd rfl h
  | [_] => exact absurd rfl h
  | _ :: _ :: _ => rfl

theorem settled_c3x (f : Byte → Byte → Byte → DecodeResult) : Settled (c3x f) := by
  intro ops more h
  match ops with
  | [] => exact absurd rfl h
  | [_] => exact absurd rfl h
  | [_, _] => exact absurd rfl h
  | _ :: _ :: _ :: _ => rfl

theorem settled_c1 (f : Byte → Instr) : Settled (c1 f) := settled_c1x _

theorem settled_c2 (f : Byte → Byte → Instr) : Settled (c2 f) := settled_c2x _

theorem settled_cW (f : Word → Instr) : Settled (cW f) := settled_c2x _

theorem settled_cWB (f : Word → Byte → Instr) : Settled (cWB f) := settled_c3x _

theorem settled_cBW (f : Byte → Word → Instr) : Settled (cBW f) := settled_c3x _

theorem settled_cA20 (f : Addr → Instr) : Settled (cA20 f) := settled_c3x _

theorem settled_ite {p : Prop} [Decidable p] {c d : MapCell} (hc : Settled c) (hd : Settled d) :
    Settled (if p then c else d) := by
  split
  · exact hc
  · exact hd

/-- Every cell of a map is settled. -/
def AllSettled (m : List MapCell) : Prop := ∀ c ∈ m, Settled c

theorem allSettled_append {m n : List MapCell} : AllSettled (m ++ n) ↔ AllSettled m ∧ AllSettled n := by
  simp only [AllSettled, List.mem_append, or_imp, forall_and]

theorem allSettled_nil : AllSettled [] ↔ True := by
  simp [AllSettled]

theorem allSettled_cons {c : MapCell} {m : List MapCell} : AllSettled (c :: m) ↔ Settled c ∧ AllSettled m := by
  simp only [AllSettled, List.forall_mem_cons]

theorem settled_getD {m : List MapCell} (hm : AllSettled m) (k : Nat) : Settled (m.getD k cUndef) := by
  rw [List.getD_eq_getElem?_getD]
  cases h : m[k]? with
  | none => exact settled_undef
  | some c => exact hm c (List.mem_of_getElem? h)

theorem settled_map1a : AllSettled map1a := by
  simp only [map1a, aluCells, allSettled_append, allSettled_cons, allSettled_nil, settled_undef, settled_c0, settled_c1,
    settled_c2, settled_cW, settled_cWB, and_self]

theorem settled_map1b : AllSettled map1b := by
  simp only [map1b, allSettled_append, allSettled_cons, allSettled_nil, settled_undef, settled_c0, settled_c1,
    settled_c2, settled_cW, settled_cWB, settled_cBW, settled_cA20, and_self]

theorem settled_map2a : AllSettled map2a := by
  simp only [map2a, aluRegACells, aluARegCells, allSettled_append, allSettled_cons, allSettled_nil, settled_undef,
    settled_c0, settled_c1, and_self]

theorem settled_map2b : AllSettled map2b := by
  simp only [map2b, map2Left, calltCell, allSettled_append, allSettled_cons, allSettled_nil, settled_undef, settled_c0,
    settled_c1, settled_cW, and_self]

theorem settled_map3 (b : Byte) : Settled (map3 b) := by
  simp only [map3]
  repeat' split
  all_goals first
    | exact settled_undef
    | exact settled_c0 _
    | exact settled_c1 _
    | exact settled_cW _

theorem settled_map4 (b : Byte) : Settled (map4 b) := by
  simp only [map4, shiftCell, shiftwCell]
  repeat' split
  all_goals first
    | exact settled_undef
    | exact settled_c0 _
    | exact settled_c1 _
    | exact settled_c2 _

theorem settled_half {a b : List MapCell} (ha : AllSettled a) (hb : AllSettled b) (v : Byte) :
    Settled (halfCellAt a b v) := by
  simp only [halfCellAt]
  split
  · exact settled_getD ha _
  · exact settled_getD hb _

/-- A plain decoding that has answered does not depend on the bytes that follow. -/
theorem decodePlain_append : Settled decodePlain := by
  intro ops more h
  match ops with
  | [] => exact absurd rfl h
  | b :: rest =>
    simp only [List.cons_append, decodePlain] at h ⊢
    split
    · next hb =>
      simp only [hb, if_true] at h
      match rest with
      | [] => exact absurd rfl h
      | b2 :: ops => exact settled_half settled_map2a settled_map2b b2 ops more h
    next h1 =>
    simp only [h1, if_false] at h
    split
    · next hb =>
      simp only [hb, if_true] at h
      match rest with
      | [] => exact absurd rfl h
      | b2 :: ops => exact settled_map3 b2 ops more h
    next h2 =>
    simp only [h2, if_false] at h
    split
    · next hb =>
      simp only [hb, if_true] at h
      match rest with
      | [] => exact absurd rfl h
      | b2 :: ops => exact settled_map4 b2 ops more h
    next h3 =>
    simp only [h3, if_false] at h
    exact settled_half settled_map1a settled_map1b b rest more h

theorem addEs_more {r : DecodeResult} : r.addEs = .more ↔ r = .more := by
  cases r with
  | done i =>
    simp only [DecodeResult.addEs]
    split <;> simp
  | more => simp [DecodeResult.addEs]
  | undefined => simp [DecodeResult.addEs]

/-- A decoding that has answered does not depend on the bytes that follow (R123). -/
theorem decode_append : Settled decode := by
  intro ops more h
  match ops with
  | [] => exact absurd rfl h
  | b :: rest =>
    simp only [List.cons_append, decode] at h ⊢
    split
    · next hb =>
      simp only [hb, if_true] at h
      rw [decodePlain_append rest more fun e => h (addEs_more.mpr e)]
    · next hb =>
      simp only [hb, if_false] at h
      exact decodePlain_append (b :: rest) more h

namespace Machine

/-- Bytes that decode are fetched as their instruction: the loop stops at the first answer, which is the answer of all
of them. -/
theorem fetchLoop_of_bytes {s : State} {a : Addr} {i : Instr} :
    ∀ (todo done : List Byte) (fuel : Nat), todo.length ≤ fuel →
      bytesAt s (a + BitVec.ofNat 20 done.length) todo = true → decode done = .more →
      decode (done ++ todo) = .done i → fetchLoop s a fuel done = .ok i := by
  intro todo
  induction todo with
  | nil =>
    intro done fuel _ _ hm hd
    rw [List.append_nil, hm] at hd
    cases hd
  | cons b t ih =>
    intro done fuel hf hb hm hd
    match fuel with
    | 0 => simp at hf
    | fuel + 1 =>
      simp only [bytesAt] at hb
      split at hb
      next v hv =>
        simp only [Bool.and_eq_true, decide_eq_true_eq] at hb
        obtain ⟨rfl, ht⟩ := hb
        have hd' : decode ((done ++ [v]) ++ t) = .done i := by simpa using hd
        simp only [fetchLoop, bind, Except.bind, hv]
        cases hk : decode (done ++ [v]) with
        | done j =>
          have := decode_append (done ++ [v]) t (by rw [hk]; nofun)
          rw [hd', hk] at this
          cases this
          rfl
        | undefined =>
          have := decode_append (done ++ [v]) t (by rw [hk]; nofun)
          rw [hd', hk] at this
          cases this
        | more =>
          refine ih (done ++ [v]) fuel (by simpa using hf) ?_ hk hd'
          have e : a + BitVec.ofNat 20 (done ++ [v]).length = a + BitVec.ofNat 20 done.length + 1#20 := by
            simp [BitVec.ofNat_add, BitVec.add_assoc]
          rw [e]
          exact ht
      next => cases hb

/-- The fetch at an address whose bytes decode (R123). -/
theorem fetchInstr_of_bytes {s : State} {a : Addr} {bs : List Byte} {i : Instr} (hl : bs.length ≤ 5)
    (hb : bytesAt s a bs = true) (hd : decode bs = .done i) : fetchInstr s a = .ok i :=
  fetchLoop_of_bytes bs [] 5 hl (by simpa using hb) rfl hd

/-- The fetch loop takes the bytes at an address one by one as long as they are no instruction. -/
theorem fetchLoop_of_more {s : State} {a : Addr} :
    ∀ (todo done : List Byte) (fuel : Nat), todo.length ≤ fuel →
      bytesAt s (a + BitVec.ofNat 20 done.length) todo = true → decode (done ++ todo) = .more →
      fetchLoop s a fuel done = fetchLoop s a (fuel - todo.length) (done ++ todo) := by
  intro todo
  induction todo with
  | nil => intros; simp
  | cons b t ih =>
    intro done fuel hl hb hd
    obtain ⟨n, rfl⟩ : ∃ n, fuel = n + 1 := ⟨fuel - 1, by simp at hl; omega⟩
    have hd' : decode (done ++ [b] ++ t) = .more := by simpa using hd
    have hm : decode (done ++ [b]) = .more := by
      by_cases h : decode (done ++ [b]) = .more
      · exact h
      · exact (decode_append _ t h).symm.trans hd'
    simp only [bytesAt] at hb
    cases hf : fetchByte s (a + BitVec.ofNat 20 done.length) with
    | error e => simp [hf] at hb
    | ok v =>
      simp only [hf, Bool.and_eq_true, decide_eq_true_eq] at hb
      obtain ⟨rfl, hb⟩ := hb
      have e : a + BitVec.ofNat 20 done.length + 1#20 = a + BitVec.ofNat 20 (done ++ [v]).length := by
        simp [BitVec.ofNat_add, BitVec.add_assoc]
      simp only [fetchLoop, hf, bind, Except.bind, hm]
      rw [ih (done ++ [v]) n (by simpa using hl) (by rw [← e]; exact hb) hd']
      simp

/-- When the bytes at an address are the start of an instruction, the fetch ends as the read of the next byte does. -/
theorem fetchInstr_of_more {s : State} {a : Addr} {bs : List Byte} {e : Stop} (hl : bs.length < 5)
    (hb : bytesAt s a bs = true) (hd : decode bs = .more)
    (hf : fetchByte s (a + BitVec.ofNat 20 bs.length) = .error e) : fetchInstr s a = .error e := by
  obtain ⟨n, hn⟩ : ∃ n, 5 - bs.length = n + 1 := ⟨4 - bs.length, by omega⟩
  have h := fetchLoop_of_more (s := s) (a := a) bs [] 5 (by omega) (by simpa using hb) hd
  rw [fetchInstr, h, hn]
  simp only [List.nil_append, fetchLoop, hf, bind, Except.bind]

/-- When the bytes at an address decode to nothing, the fetch is refused. -/
theorem fetchInstr_of_undefined {s : State} {a : Addr} {bs : List Byte} (hl : bs.length ≤ 5)
    (hb : bytesAt s a bs = true) (hd : decode bs = .undefined) :
    fetchInstr s a = .error (.refuse .undefinedInstruction) := by
  have go : ∀ (todo done : List Byte) (fuel : Nat), todo.length ≤ fuel →
      bytesAt s (a + BitVec.ofNat 20 done.length) todo = true → decode done = .more →
      decode (done ++ todo) = .undefined → fetchLoop s a fuel done = .error (.refuse .undefinedInstruction) := by
    intro todo
    induction todo with
    | nil =>
      intro done fuel _ _ hm hu
      rw [List.append_nil, hm] at hu
      cases hu
    | cons b t ih =>
      intro done fuel hl hb _ hu
      obtain ⟨n, rfl⟩ : ∃ n, fuel = n + 1 := ⟨fuel - 1, by simp at hl; omega⟩
      have hu' : decode (done ++ [b] ++ t) = .undefined := by simpa using hu
      simp only [bytesAt] at hb
      cases hf : fetchByte s (a + BitVec.ofNat 20 done.length) with
      | error e => simp [hf] at hb
      | ok v =>
        simp only [hf, Bool.and_eq_true, decide_eq_true_eq] at hb
        obtain ⟨rfl, hb⟩ := hb
        have e : a + BitVec.ofNat 20 done.length + 1#20 = a + BitVec.ofNat 20 (done ++ [v]).length := by
          simp [BitVec.ofNat_add, BitVec.add_assoc]
        simp only [fetchLoop, hf, bind, Except.bind]
        by_cases hm : decode (done ++ [v]) = .more
        · simp only [hm]
          exact ih (done ++ [v]) n (by simpa using hl) (by rw [← e]; exact hb) hm hu'
        · rw [← decode_append _ t hm, hu']
          rfl
  exact go bs [] 5 hl (by simpa using hb) rfl hd

/-- The length of the instruction at an address, once it is fetched: that of an instruction of the core; any other is
refused (R19, R340). -/
theorem fetchLength_of_fetch {s : State} {a : Addr} {i : Instr} (h : fetchInstr s a = .ok i) :
    fetchLength s a =
      if Instr.onCore i s.product.core then .ok i.len else .error (.refuse .undefinedInstruction) := by
  simp only [fetchLength, h, State.checkCore, bind, Except.bind]
  cases Instr.onCore i s.product.core <;> rfl

/-- A fetch that stops gives no length. -/
theorem fetchLength_of_stop {s : State} {a : Addr} {e : Stop} (h : fetchInstr s a = .error e) :
    fetchLength s a = .error e := by
  simp only [fetchLength, h, bind, Except.bind]

/-- All a skip can do (R340): a false one goes on with the hold; a true one passes the length of the next instruction,
or stops as finding that length stops. -/
theorem skipIf_cases (s : State) (i : Instr) (cond : Cond) :
    (condHolds s.psw cond = false ∧ skipIf s i cond = .ok (s.begin.goto (s.next i)).hold) ∨
      (∃ n, condHolds s.psw cond = true ∧ fetchLength s (s.next i) = .ok n ∧
        skipIf s i cond = .ok (s.begin.goto (s.next i + BitVec.ofNat 20 n))) ∨
      ∃ e, condHolds s.psw cond = true ∧ fetchLength s (s.next i) = .error e ∧ skipIf s i cond = .error e := by
  cases hc : condHolds s.psw cond
  · exact .inl ⟨rfl, by simp only [skipIf, hc, Bool.false_eq_true, if_false, pure, Except.pure]⟩
  · cases hf : fetchLength s (s.next i) with
    | ok n => exact .inr (.inl ⟨n, rfl, rfl, by simp only [skipIf, hc, if_true, hf, bind, Except.bind, pure, Except.pure]⟩)
    | error e => exact .inr (.inr ⟨e, rfl, rfl, by simp only [skipIf, hc, if_true, hf, bind, Except.bind]⟩)

end Machine

end Sys2Proof
end

