-- ==== Sys2Proof/Machine/Timing.lean ====
section
/-! DEFINITION. Clock counts (R460 to R470): data beside the machine. No rule of the machine depends on them and State
holds no clock (R396, log 39). -/

namespace Sys2Proof.Machine

/-- The two clock columns of an operation list row (R460), each as not taken and taken (R463; the two are equal
except for the conditional branches). `flash` is none where the Note 2 column has a dash. -/
structure Clocks where
  notTaken : Nat
  taken : Nat
  flash : Option (Nat × Nat)
  deriving DecidableEq, Repr

/-- A row without a Note 2 number. -/
def fixedClocks (n : Nat) : Clocks := { notTaken := n, taken := n, flash := none }

/-- A row whose Note 2 number is 3 more (R461). -/
def readClocks (n : Nat) : Clocks := { notTaken := n, taken := n, flash := some (n + 3, n + 3) }

/-- A branch row n/t. -/
def branchClocks (n t : Nat) (flash : Option (Nat × Nat)) : Clocks := { notTaken := n, taken := t, flash := flash }

/-- One clock for the PREFIX byte (R462). -/
def esClock (b : Bool) : Nat := if b then 1 else 0

/-- One clock more for 16-bit work on S1 (R468). -/
def s1Clock : CoreVariant → Nat
  | .s1 => 1
  | .s2 | .s3 => 0

/-- The operand can lie in flash: a memory operand other than saddr, sfr and [SP+byte] (R460). -/
def mayBeFlash : Mem → Bool
  | .saddr _ | .sfr _ | .spOff _ => false
  | .abs _ _ | .de _ | .deOff _ _ | .hl _ | .hlOff _ _ | .hlB _ | .hlC _ | .wordB _ _ | .wordC _ _ | .wordBC _ _ => true

/-- A row that reads a memory operand: with a Note 2 number where the operand can lie in flash. -/
def memReadClocks (n : Nat) (m : Mem) : Clocks :=
  if mayBeFlash m then readClocks (n + esClock m.hasEs) else fixedClocks (n + esClock m.hasEs)

/-- The rows of `op A, src`, `op r, A`, `op mem, #byte`; `rmw` is the cost of the memory destination. -/
def aluClocks (rmw : Clocks) : Opd8 → Opd8 → Clocks
  | .mem _, _ => rmw
  | _, .mem m => memReadClocks 1 m
  | _, _ => fixedClocks 1

/-- MOVW (R470), with the two S1 rows of R468. -/
def movwClocks (core : CoreVariant) (d s : Opd16) : Clocks :=
  let n := 1 + s1Clock core
  match d, s with
  | .rp .ax, .mem (.abs true _) =>
    match core with
    | .s1 => { notTaken := 2, taken := 2, flash := some (6, 6) }
    | .s2 | .s3 => readClocks 2
  | .mem (.abs true _), _ => fixedClocks 2
  | _, .mem m => memReadClocks n m
  | .mem m, _ => fixedClocks (n + esClock m.hasEs)
  | _, _ => fixedClocks n

/-- ADDW, SUBW, CMPW (R470). -/
def alu16Clocks (core : CoreVariant) : Opd16 → Clocks
  | .mem m => memReadClocks (1 + s1Clock core) m
  | _ => fixedClocks (1 + s1Clock core)

/-- INC, DEC, and the byte exchange: 1 on a register, 2 on memory. -/
def rmwClocks : Opd8 → Clocks
  | .mem m => fixedClocks (2 + esClock m.hasEs)
  | _ => fixedClocks 1

/-- INCW, DECW (R470). -/
def incwClocks (core : CoreVariant) : Opd16 → Clocks
  | .mem m => fixedClocks (2 + 2 * s1Clock core + esClock m.hasEs)
  | _ => fixedClocks (1 + s1Clock core)

/-- A bit read into CY (R470). -/
def bitReadClocks : BitOpd → Clocks
  | .mem m _ => memReadClocks 1 m
  | _ => fixedClocks 1

/-- A bit write (R470). -/
def bitWriteClocks : BitOpd → Clocks
  | .mem m _ => fixedClocks (2 + esClock m.hasEs)
  | .psw _ => fixedClocks 4
  | _ => fixedClocks 1

/-- BT and BF (R461, R463): 3/5, from flash 6/7. -/
def bitTestClocks : BitOpd → Clocks
  | .mem m _ =>
    let e := esClock m.hasEs
    branchClocks (3 + e) (5 + e) (if mayBeFlash m then some (6 + e, 7 + e) else none)
  | _ => branchClocks 3 5 none

/-- Clocks of an instruction form on a core (R470); none where the core's list has no row. -/
def clocksOf (core : CoreVariant) (i : Instr) : Option Clocks :=
  let w := s1Clock core
  match i with
  | .mov .psw _ => some (fixedClocks 3)
  | .mov (.mem m) _ => some (fixedClocks (1 + esClock m.hasEs))
  | .mov _ (.mem m) => some (memReadClocks 1 m)
  | .mov _ _ => some (fixedClocks 1)
  | .xch s => some (rmwClocks s)
  | .oneb d | .clrb d => some (fixedClocks (1 + esClock d.hasEs))
  | .movs e _ => some (fixedClocks (1 + esClock e))
  | .movw d s => some (movwClocks core d s)
  | .xchw _ | .onew _ | .clrw _ => some (fixedClocks (1 + w))
  | .add d s | .addc d s | .sub d s | .subc d s | .and d s | .or d s | .xor d s => some (aluClocks (fixedClocks 2) d s)
  | .cmp (.mem m) _ => some (memReadClocks 1 m)
  | .cmp d s => some (aluClocks (fixedClocks 1) d s)
  | .cmp0 (.mem m) => some (memReadClocks 1 m)
  | .cmp0 _ => some (fixedClocks 1)
  | .cmps e _ => some (readClocks (1 + esClock e))
  | .subw (.mem (.hlOff true _)) =>
    match core with
    | .s1 => none
    | .s2 | .s3 => some (readClocks 2)
  | .addw s | .subw s | .cmpw s => some (alu16Clocks core s)
  | .addwSp _ | .subwSp _ => some (fixedClocks (1 + w))
  | .mulu => some (fixedClocks (1 + w))
  | .mulhu | .mulh =>
    match core with
    | .s1 | .s2 => none
    | .s3 => some (fixedClocks 2)
  | .divhu =>
    match core with
    | .s1 | .s2 => none
    | .s3 => some (fixedClocks 9)
  | .divwu =>
    match core with
    | .s1 | .s2 => none
    | .s3 => some (fixedClocks 17)
  | .machu | .mach =>
    match core with
    | .s1 | .s2 => none
    | .s3 => some (fixedClocks 3)
  | .inc d | .dec d => some (rmwClocks d)
  | .incw d | .decw d => some (incwClocks core d)
  | .shr _ | .shrw _ | .shl _ _ | .sar _ | .ror | .rol | .rorc | .rolc => some (fixedClocks 1)
  | .shlw _ _ | .sarw _ | .rolwc _ => some (fixedClocks (1 + w))
  | .mov1 .cy s => some (bitReadClocks s)
  | .mov1 d _ => some (bitWriteClocks d)
  | .and1 s | .or1 s | .xor1 s => some (bitReadClocks s)
  | .set1 d | .clr1 d => some (bitWriteClocks d)
  | .not1 => some (fixedClocks 1)
  | .call _ => some (fixedClocks (3 + w))
  | .callt _ => some (fixedClocks (5 + w))
  | .brk => some (fixedClocks (5 + 2 * w))
  | .ret => some (fixedClocks (6 + w))
  | .reti | .retb => some (fixedClocks (6 + 2 * w))
  | .push _ => some (fixedClocks (1 + w))
  | .pop .psw => some (fixedClocks (3 + w))
  | .pop _ => some (fixedClocks (1 + w))
  | .br _ => some (fixedClocks 3)
  | .bc _ | .bnc _ | .bz _ | .bnz _ | .bh _ | .bnh _ => some (branchClocks 2 4 none)
  | .bt o _ | .bf o _ => some (bitTestClocks o)
  | .btclr o _ => some (branchClocks (3 + esClock o.hasEs) (5 + esClock o.hasEs) none)
  | .skc | .sknc | .skz | .sknz | .skh | .sknh => some (fixedClocks 1)
  | .sel _ =>
    match core with
    | .s1 => none
    | .s2 | .s3 => some (fixedClocks 1)
  | .nop => some (fixedClocks 1)
  | .ei | .di => some (fixedClocks 4)
  | .halt | .stop => some (fixedClocks 3)
  | .prefixByte => none

/-- The clocks a taken skip adds for the instruction it passes over (R465). -/
def skippedClocks (i : Instr) : Nat := if i.hasEs then 2 else 1

/-- Most clocks of a form fetched from RAM, from its figure in flash (R464). -/
def ramFetchBound (core : CoreVariant) (c : Nat) : Nat :=
  match core with
  | .s1 => 4 * c + 6
  | .s2 | .s3 => 2 * c + 3

/-- A data read at this address costs the Note 2 number (R461). -/
def flashData (s : State) (byteWide : Bool) (a : Addr) : Bool :=
  match s.region a with
  | .cflash => true
  | .mirror => true
  | .dflash => byteWide && decide (s.product.core ≠ .s1)
  | .sfr | .gpr | .ram | .sfr2 | .reserved => false

end Sys2Proof.Machine
end

