-- ==== Sys2Proof/Tests/Slice0.lean ====
section
/-! SUPPORT. Tests. Expected results are those of spec/95_test_vectors.md (the row is named) and of the examples in the
rules; the last part shows, for each statement with hypotheses, states and operands that meet them. -/

namespace Sys2Proof.Machine

/-- The state with bytes put at an address. -/
def State.withBytes (s : State) (a : Addr) (bytes : List Byte) : State := pokeBytes s a bytes

/-- The state with the PSW given as a byte. -/
def State.withPsw (s : State) (v : Byte) : State := { s with psw := Psw.ofByte v }

end Sys2Proof.Machine

namespace Sys2Proof.Tests

open Sys2Proof.Machine

/-- The start state of 95_test_vectors.md section 1 on a core, with SP at FE00H. -/
def start (c : CoreVariant) : State :=
  { State.reset with
    product := { Product.standard with core := c }
    pc := 0x00100#20
    sp := 0xFE00#16 }

/-- The start state on S3. -/
def s3 : State := start .s3

/-- An instruction completes, and its next state is as expected. -/
def after (i : Instr) (s : State) (p : State → Bool) : Bool :=
  match exec i s with
  | .next t => p t
  | .fault _ => false
  | .refused _ => false

/-- A step completes, and its next state is as expected. -/
def afterStep (s : State) (p : State → Bool) : Bool :=
  match step s with
  | .next t => p t
  | .fault _ => false
  | .refused _ => false

/-- An instruction is refused for a reason. -/
def refuses (i : Instr) (s : State) (r : Refusal) : Bool :=
  match exec i s with
  | .next _ => false
  | .fault _ => false
  | .refused q => decide (q = r)

/-- An instruction faults for a reason. -/
def faults (i : Instr) (s : State) (f : Fault) : Bool :=
  match exec i s with
  | .next _ => false
  | .fault g => decide (g = f)
  | .refused _ => false

/-- The three flags after an instruction: Z, AC, CY. -/
def zac (t : State) : Bool × Bool × Bool := (t.psw.z, t.psw.ac, t.psw.cy)

/-- Each word decodes to its instruction, whatever follows it. -/
def decodesAll (words : List (List Byte × Instr)) : Bool :=
  words.all fun w => decide (decode (w.1 ++ [0x11#8, 0xFF#8]) = .done w.2)

/-- None of the terms is well formed. -/
def noneFormed (terms : List Instr) : Bool := terms.all fun i => !i.wf

/-! ### Decoding: words written out from Table 5-8 -/

theorem test_decode_transfer : decodesAll [
    ([0x51#8, 0x4D#8], .mov (.reg .a) (.imm 0x4D#8)),
    ([0x11#8, 0x8B#8], .mov (.reg .a) (.mem (.hl true))),
    ([0x11#8, 0xCF#8, 0x00#8, 0xFD#8, 0x01#8], .mov (.mem (.abs true 0xFD00#16)) (.imm 0x01#8)),
    ([0xCE#8, 0xFA#8, 0x86#8], .mov .psw (.imm 0x86#8)),
    ([0x18#8, 0x00#8, 0xFD#8], .mov (.mem (.wordB false 0xFD00#16)) (.reg .a)),
    ([0x61#8, 0xA8#8, 0xBC#8], .xch (.mem (.saddr 0xBC#8))),
    ([0xE1#8], .oneb (.reg .a)),
    ([0xF5#8, 0x00#8, 0xFD#8], .clrb (.mem (.abs false 0xFD00#16))),
    ([0x61#8, 0xCE#8, 0x02#8], .movs false 0x02#8),
    ([0x17#8], .movw (.rp .ax) (.rp .hl)),
    ([0xFB#8, 0x34#8, 0x12#8], .movw (.rp .hl) (.mem (.abs false 0x1234#16))),
    ([0xCB#8, 0xF8#8, 0x20#8, 0xFE#8], .movw .sp (.imm 0xFE20#16)),
    ([0x33#8], .xchw .bc),
    ([0xE6#8], .onew .ax),
    ([0xF7#8], .clrw .bc)] = true := by decide

theorem test_decode_arith : decodesAll [
    ([0x0A#8, 0x20#8, 0x56#8], .add (.mem (.saddr 0x20#8)) (.imm 0x56#8)),
    ([0x61#8, 0x90#8], .addc (.reg .a) (.mem (.hlB false))),
    ([0x61#8, 0x25#8], .sub (.reg .d) (.reg .a)),
    ([0x3D#8], .subc (.reg .a) (.mem (.hl false))),
    ([0x5A#8, 0xBA#8, 0xDC#8], .and (.mem (.saddr 0xBA#8)) (.imm 0xDC#8)),
    ([0x6B#8, 0x98#8], .or (.reg .a) (.mem (.saddr 0x98#8))),
    ([0x61#8, 0x7E#8], .xor (.reg .a) (.reg .l)),
    ([0x40#8, 0x00#8, 0xFD#8, 0x05#8], .cmp (.mem (.abs false 0xFD00#16)) (.imm 0x05#8)),
    ([0xD0#8], .cmp0 (.reg .x)),
    ([0x61#8, 0xDE#8, 0xF0#8], .cmps false 0xF0#8),
    ([0x04#8, 0xCD#8, 0xAB#8], .addw (.imm 0xABCD#16)),
    ([0x10#8, 0x12#8], .addwSp 0x12#8),
    ([0x25#8], .subw (.rp .de)),
    ([0x20#8, 0x12#8], .subwSp 0x12#8),
    ([0x61#8, 0x49#8, 0x02#8], .cmpw (.mem (.hlOff false 0x02#8))),
    ([0xD6#8], .mulu),
    ([0xCE#8, 0xFB#8, 0x01#8], .mulhu),
    ([0xCE#8, 0xFB#8, 0x02#8], .mulh),
    ([0xCE#8, 0xFB#8, 0x03#8], .divhu),
    ([0xCE#8, 0xFB#8, 0x0B#8], .divwu),
    ([0xCE#8, 0xFB#8, 0x05#8], .machu),
    ([0xCE#8, 0xFB#8, 0x06#8], .mach)] = true := by decide

theorem test_decode_shift : decodesAll [
    ([0x83#8], .inc (.reg .b)),
    ([0x61#8, 0x69#8, 0x01#8], .dec (.mem (.hlOff false 0x01#8))),
    ([0xA2#8, 0x00#8, 0xFD#8], .incw (.mem (.abs false 0xFD00#16))),
    ([0xB5#8], .decw (.rp .de)),
    ([0x31#8, 0x3A#8], .shr 3#3),
    ([0x31#8, 0xFE#8], .shrw 15#4),
    ([0x31#8, 0x18#8], .shl .b 1#3),
    ([0x31#8, 0x3C#8], .shlw .bc 3#4),
    ([0x31#8, 0x4B#8], .sar 4#3),
    ([0x31#8, 0x4F#8], .sarw 4#4),
    ([0x61#8, 0xDB#8], .ror),
    ([0x61#8, 0xEB#8], .rol),
    ([0x61#8, 0xFB#8], .rorc),
    ([0x61#8, 0xDC#8], .rolc),
    ([0x61#8, 0xFE#8], .rolwc .bc)] = true := by decide

theorem test_decode_bits : decodesAll [
    ([0x71#8, 0xFC#8], .mov1 .cy (.a 7#3)),
    ([0x71#8, 0x69#8, 0xFA#8], .mov1 (.psw 6#3) .cy),
    ([0x71#8, 0x35#8, 0x7F#8], .and1 (.mem (.saddr 0x7F#8) 3#3)),
    ([0x71#8, 0x8E#8], .or1 (.a 0#3)),
    ([0x71#8, 0xFF#8], .xor1 (.a 7#3)),
    ([0x71#8, 0x10#8, 0x20#8, 0xFE#8], .set1 (.mem (.abs false 0xFE20#16) 1#3)),
    ([0x11#8, 0x71#8, 0xF3#8], .clr1 (.mem (.hl true) 7#3)),
    ([0x71#8, 0xC0#8], .not1)] = true := by decide

theorem test_decode_calls : decodesAll [
    ([0xFC#8, 0x00#8, 0x3E#8, 0x00#8], .call (.abs20 0x03E00#20)),
    ([0xFE#8, 0xFD#8, 0xFF#8], .call (.rel16 0xFFFD#16)),
    ([0x61#8, 0x84#8], .callt 0#5),
    ([0x61#8, 0xF7#8], .callt 31#5),
    ([0x61#8, 0xA5#8], .callt 10#5),
    ([0x61#8, 0xCC#8], .brk),
    ([0xD7#8], .ret),
    ([0x61#8, 0xFC#8], .reti),
    ([0x61#8, 0xEC#8], .retb),
    ([0x61#8, 0xDD#8], .push .psw),
    ([0xC1#8], .push (.rp .ax)),
    ([0xC2#8], .pop (.rp .bc))] = true := by decide

theorem test_decode_branches : decodesAll [
    ([0xEC#8, 0x45#8, 0x23#8, 0x01#8], .br (.abs20 0x12345#20)),
    ([0x61#8, 0xCB#8], .br .ax),
    ([0xDC#8, 0x7E#8], .bc 0x7E#8),
    ([0xDE#8, 0x80#8], .bnc 0x80#8),
    ([0xDD#8, 0x7F#8], .bz 0x7F#8),
    ([0xDF#8, 0xFC#8], .bnz 0xFC#8),
    ([0x61#8, 0xC3#8, 0x7F#8], .bh 0x7F#8),
    ([0x61#8, 0xD3#8, 0x10#8], .bnh 0x10#8),
    ([0x31#8, 0x32#8, 0x47#8, 0x7F#8], .bt (.mem (.saddr 0x47#8) 3#3) 0x7F#8),
    ([0x31#8, 0xF5#8, 0x05#8], .bf (.mem (.hl false) 7#3) 0x05#8),
    ([0x31#8, 0x80#8, 0xFA#8, 0x10#8], .btclr (.psw 0#3) 0x10#8),
    ([0x61#8, 0xC8#8], .skc),
    ([0x61#8, 0xD8#8], .sknc),
    ([0x61#8, 0xE8#8], .skz),
    ([0x61#8, 0xF8#8], .sknz),
    ([0x61#8, 0xE3#8], .skh),
    ([0x61#8, 0xF3#8], .sknh)] = true := by decide

theorem test_decode_control : decodesAll [
    ([0x61#8, 0xEF#8], .sel 2#2),
    ([0x00#8], .nop),
    ([0x71#8, 0x7A#8, 0xFA#8], .ei),
    ([0x71#8, 0x7B#8, 0xFA#8], .di),
    ([0x61#8, 0xED#8], .halt),
    ([0x61#8, 0xFD#8], .stop)] = true := by decide

theorem test_decode_prefix : decode [0x11#8, 0x00#8] = .done .prefixByte := by decide

theorem test_decode_alias_rows :
    decode [0xCE#8, 0xFA#8, 0x04#8] = .done (.mov .psw (.imm 0x04#8)) ∧
      decode [0xCE#8, 0xFB#8, 0x04#8] = .done (.mov (.mem (.sfr 0xFB#8)) (.imm 0x04#8)) := by decide

theorem test_decode_table_word :
    decodeTableWord 24 0x0BFBCE = some .divwu ∧ decodeTableWord 8 0x21 = none := by decide

theorem test_fetch_word : afterStep (State.reset.withFetchWord 16 0x4D51) (fun t => t.r8 .a == 0x4D#8) = true := by
  decide

/-! ### WellFormed: one ill-formed term for each check -/

theorem test_wf_mov : noneFormed [
    .mov (.mem (.sfr 0xFA#8)) (.imm 0x00#8), .mov (.mem (.sfr 0xFC#8)) (.imm 0x00#8),
    .mov (.mem (.sfr 0xFB#8)) (.imm 0x01#8), .mov (.mem (.sfr 0xFB#8)) (.imm 0x0B#8),
    .mov (.mem (.hl false)) (.imm 0x00#8), .mov (.mem (.de true)) (.imm 0x00#8), .mov (.mem (.hlB false)) (.imm 0x00#8),
    .mov (.reg .a) (.reg .a), .mov (.reg .b) (.reg .c), .mov (.reg .a) (.mem (.sfr 0xFD#8)),
    .mov (.reg .d) (.mem (.saddr 0x20#8)), .mov (.reg .x) (.mem (.hl false)), .mov (.mem (.sfr 0xFA#8)) (.reg .a),
    .mov (.mem (.saddr 0x20#8)) (.reg .x), .mov (.reg .b) .psw, .mov (.reg .b) .es, .mov (.reg .x) .cs,
    .mov .psw (.reg .b), .mov .es (.reg .x), .mov .cs (.reg .h), .mov .cs (.mem (.saddr 0x20#8)),
    .mov .es (.mem (.hl false)), .mov (.imm 0x00#8) (.reg .a), .mov .psw .es] = true := by decide

theorem test_wf_transfer : noneFormed [
    .xch (.reg .a), .xch (.mem (.spOff 0x00#8)), .xch (.mem (.wordB false 0x0000#16)), .xch (.imm 0x00#8), .xch .psw,
    .oneb (.reg .e), .oneb (.mem (.sfr 0x00#8)), .oneb .es, .clrb (.reg .h), .clrb (.mem (.hl false)),
    .clrb (.imm 0x00#8), .cmp0 (.reg .l), .cmp0 (.mem (.hlOff false 0x00#8)), .cmp0 .cs,
    .movw (.mem (.sfr 0xF8#8)) (.imm 0x0000#16), .movw (.mem (.hl false)) (.imm 0x0000#16),
    .movw (.rp .ax) (.rp .ax), .movw (.rp .bc) (.rp .de), .movw (.rp .ax) (.mem (.sfr 0xF8#8)),
    .movw (.rp .ax) (.mem (.hlB false)), .movw (.rp .bc) (.mem (.abs false 0xFFF8#16)),
    .movw (.rp .de) (.mem (.hl false)), .movw (.mem (.saddr 0x20#8)) (.rp .bc), .movw (.mem (.hlC true)) (.rp .ax),
    .movw .sp (.rp .hl), .movw .sp .sp, .movw (.imm 0x0000#16) (.rp .ax), .xchw .ax, .onew .de, .clrw .hl] = true := by
  decide

theorem test_wf_operations : noneFormed [
    .add (.reg .x) (.imm 0x00#8), .add (.mem (.abs false 0x0000#16)) (.imm 0x00#8), .addc (.reg .b) (.reg .c),
    .sub (.reg .x) (.mem (.hl false)), .subc (.reg .a) (.mem (.de false)), .and (.reg .a) (.mem (.sfr 0x20#8)),
    .or (.mem (.saddr 0x20#8)) (.reg .a), .xor (.reg .a) .psw, .cmp (.mem (.hl false)) (.imm 0x00#8),
    .addw .sp, .addw (.mem (.de false)), .subw (.rp .ax), .subw (.mem (.sfr 0x20#8)), .cmpw (.rp .ax), .cmpw .sp,
    .inc (.mem (.hl false)), .inc (.imm 0x00#8), .dec .psw, .dec (.mem (.spOff 0x00#8)), .incw (.imm 0x0000#16),
    .incw (.mem (.hlB false)), .decw .sp, .shr 0#3, .shrw 0#4, .shl .x 1#3, .shl .a 0#3, .shlw .de 1#4, .shlw .bc 0#4,
    .sar 0#3, .sarw 0#4, .rolwc .hl] = true := by decide

theorem test_wf_bits_and_prefix : noneFormed [
    .mov1 .cy .cy, .mov1 (.a 0#3) (.a 1#3), .mov1 .cy (.mem (.sfr 0xFA#8) 0#3), .mov1 .cy (.mem (.abs false 0x0000#16) 0#3),
    .mov1 (.mem (.hlOff false 0x00#8) 0#3) .cy, .and1 .cy, .or1 .cy, .xor1 (.mem (.de false) 0#3), .set1 (.psw 7#3),
    .clr1 (.psw 7#3), .set1 (.mem (.hlB false) 0#3), .clr1 (.mem (.sfr 0xFA#8) 0#3), .bt .cy 0x00#8,
    .bf (.mem (.abs false 0x0000#16) 0#3) 0x00#8, .btclr .cy 0x00#8, .btclr (.mem (.sfr 0xFA#8) 0#3) 0x00#8,
    .prefixByte] = true := by decide

/-! ### One step of each instruction -/

/-- T6, T9, T10: ES: form, based-indexed and based operands. -/
theorem test_mov :
    after (.mov (.reg .a) (.mem (.abs true 0x1234#16))) ({ s3.withBytes 0x01234#20 [0x5A#8] with es := 0x00#8 })
        (fun t => t.r8 .a == 0x5A#8 && t.pc == 0x00104#20) = true ∧
      after (.mov (.reg .a) (.mem (.hlB false)))
        (((s3.withBytes 0xFFD10#20 [0x77#8]).setRp .hl 0xFD00#16).setR8 .b 0x10#8) (fun t => t.r8 .a == 0x77#8) = true := by
  decide

/-- T12, T19, T21: `[SP+byte]`, the PSW and the ES forms. -/
theorem test_mov_stores :
    after (.mov (.mem (.spOff 0x02#8)) (.reg .a)) (s3.setR8 .a 0x11#8) (fun t => t.byteAt 0xFFE02#20 == some 0x11#8) = true ∧
      after (.mov .psw (.imm 0x86#8)) s3 (fun t => t.psw.toByte == 0x86#8 && t.intHold) = true ∧
      after (.mov .es (.imm 0x12#8)) s3 (fun t => t.es == 0x02#8) = true := by decide

/-- T23. -/
theorem test_xch :
    after (.xch (.mem (.saddr 0xBC#8))) ((s3.withBytes 0xFFEBC#20 [0xFE#8]).setR8 .a 0x01#8)
      (fun t => t.r8 .a == 0xFE#8 && t.byteAt 0xFFEBC#20 == some 0x01#8) = true := by decide

/-- T25. -/
theorem test_oneb : after (.oneb (.reg .a)) (s3.setZ true) (fun t => t.r8 .a == 0x01#8 && t.psw.z) = true := by decide

/-- T26. -/
theorem test_clrb :
    after (.clrb (.mem (.abs false 0xFD00#16))) s3 (fun t => t.byteAt 0xFFD00#20 == some 0x00#8) = true := by decide

/-- T27, T29. -/
theorem test_movs :
    after (.movs false 0x02#8) ((s3.setRp .hl 0xFE00#16).setRp .ax 0x0055#16)
        (fun t => t.byteAt 0xFFE02#20 == some 0x55#8 && zac t == (false, false, true)) = true ∧
      after (.movs false 0x02#8) (((s3.setRp .hl 0xFE00#16).setRp .ax 0x0741#16).setZCy true true)
        (fun t => zac t == (false, false, false)) = true := by decide

/-- W4, W7. -/
theorem test_movw :
    after (.movw (.mem (.abs false 0xFD02#16)) (.rp .ax)) (s3.setRp .ax 0xA1B2#16)
        (fun t => t.byteAt 0xFFD02#20 == some 0xB2#8 && t.byteAt 0xFFD03#20 == some 0xA1#8) = true ∧
      after (.movw (.rp .bc) (.mem (.saddr 0x40#8))) (s3.withBytes 0xFFE40#20 [0xCD#8, 0xAB#8])
        (fun t => t.rp .bc == 0xABCD#16) = true := by decide

/-- W12, G12: SP drops bit 0; the low half of MACR. -/
theorem test_movw_sfrs :
    after (.movw .sp (.imm 0xFE21#16)) s3 (fun t => t.sp == 0xFE20#16) = true ∧
      after (.movw (.mem (.sfr 0xF0#8)) (.rp .ax)) ({ s3.setRp .ax 0x1234#16 with macr := 0xAAAA5555#32 })
        (fun t => t.macr == 0xAAAA1234#32) = true := by decide

/-- W9. -/
theorem test_xchw :
    after (.xchw .bc) ((s3.setRp .ax 0x1122#16).setRp .bc 0x3344#16)
      (fun t => t.rp .ax == 0x3344#16 && t.rp .bc == 0x1122#16) = true := by decide

/-- W10. -/
theorem test_onew : after (.onew .ax) (s3.setRp .ax 0xFFFF#16) (fun t => t.rp .ax == 0x0001#16) = true := by decide

/-- W11. -/
theorem test_clrw : after (.clrw .bc) (s3.setRp .bc 0xFFFF#16) (fun t => t.rp .bc == 0x0000#16) = true := by decide

/-- A1, A3. -/
theorem test_add :
    after (.add (.reg .a) (.imm 0x01#8)) (s3.setR8 .a 0xFF#8)
        (fun t => t.r8 .a == 0x00#8 && zac t == (true, true, true)) = true ∧
      after (.add (.reg .a) (.imm 0x80#8)) (s3.setR8 .a 0x80#8)
        (fun t => t.r8 .a == 0x00#8 && zac t == (true, false, true)) = true := by decide

/-- A6, A7. -/
theorem test_addc :
    after (.addc (.reg .a) (.imm 0x00#8)) ((s3.setR8 .a 0xFF#8).setCy true)
        (fun t => t.r8 .a == 0x00#8 && zac t == (true, true, true)) = true ∧
      after (.addc (.reg .a) (.imm 0x0F#8)) (s3.setCy true)
        (fun t => t.r8 .a == 0x10#8 && zac t == (false, true, false)) = true := by decide

/-- A9, A10. -/
theorem test_sub :
    after (.sub (.reg .a) (.imm 0x01#8)) s3 (fun t => t.r8 .a == 0xFF#8 && zac t == (false, true, true)) = true ∧
      after (.sub (.reg .d) (.reg .a)) ((s3.setR8 .a 0x10#8).setR8 .d 0x10#8)
        (fun t => t.r8 .d == 0x00#8 && t.r8 .a == 0x10#8 && zac t == (true, false, false)) = true := by decide

/-- A12, A13. -/
theorem test_subc :
    after (.subc (.reg .a) (.imm 0x00#8)) (s3.setCy true)
        (fun t => t.r8 .a == 0xFF#8 && zac t == (false, true, true)) = true ∧
      after (.subc (.reg .a) (.imm 0xFF#8)) (s3.setCy true)
        (fun t => t.r8 .a == 0x00#8 && zac t == (true, true, true)) = true := by decide

/-- A15. -/
theorem test_and :
    after (.and (.mem (.saddr 0xBA#8)) (.imm 0xDC#8)) ((s3.withBytes 0xFFEBA#20 [0x23#8]).setZAcCy false true true)
      (fun t => t.byteAt 0xFFEBA#20 == some 0x00#8 && zac t == (true, true, true)) = true := by decide

/-- A16. -/
theorem test_or :
    after (.or (.reg .a) (.mem (.saddr 0x98#8))) ((s3.withBytes 0xFFE98#20 [0xF0#8]).setR8 .a 0x0F#8)
      (fun t => t.r8 .a == 0xFF#8 && zac t == (false, false, false)) = true := by decide

/-- A17. -/
theorem test_xor :
    after (.xor (.reg .a) (.reg .l)) (((s3.setR8 .a 0x5A#8).setR8 .l 0x5A#8).setCy true)
      (fun t => t.r8 .a == 0x00#8 && zac t == (true, false, true)) = true := by decide

/-- A19, A20. -/
theorem test_cmp :
    after (.cmp (.reg .a) (.imm 0x80#8)) (s3.setR8 .a 0x7F#8)
        (fun t => t.r8 .a == 0x7F#8 && zac t == (false, false, true)) = true ∧
      after (.cmp (.reg .a) (.imm 0x0F#8)) (s3.setR8 .a 0x10#8) (fun t => zac t == (false, true, false)) = true := by
  decide

/-- A22. -/
theorem test_cmp0 :
    after (.cmp0 (.reg .a)) (s3.setZAcCy false true true) (fun t => zac t == (true, false, false)) = true := by decide

/-- A24, A25. -/
theorem test_cmps :
    after (.cmps false 0xF0#8) (((s3.withBytes 0xFFE02#20 [0x33#8]).setRp .hl 0xFD12#16).setRp .ax 0x0133#16)
        (fun t => zac t == (true, false, false)) = true ∧
      after (.cmps false 0xF0#8) (((s3.withBytes 0xFFE02#20 [0x33#8]).setRp .hl 0xFD12#16).setRp .ax 0x0033#16)
        (fun t => zac t == (true, false, true)) = true := by decide

/-- B1. AC is free: nothing is said of it. -/
theorem test_addw :
    after (.addw (.imm 0xABCD#16)) (s3.setRp .ax 0x5433#16) (fun t => t.rp .ax == 0x0000#16 && t.psw.z && t.psw.cy) = true := by
  decide

/-- B5. -/
theorem test_subw :
    after (.subw (.rp .de)) (s3.setRp .de 0x0001#16) (fun t => t.rp .ax == 0xFFFF#16 && !t.psw.z && t.psw.cy) = true := by
  decide

/-- B7. -/
theorem test_cmpw :
    after (.cmpw (.rp .hl)) ((s3.setRp .ax 0x1000#16).setRp .hl 0x2000#16)
      (fun t => t.rp .ax == 0x1000#16 && !t.psw.z && t.psw.cy) = true := by decide

/-- B11. -/
theorem test_addw_sp : after (.addwSp 0x03#8) s3 (fun t => t.sp == 0xFE02#16) = true := by decide

/-- B10. -/
theorem test_subw_sp : after (.subwSp 0x12#8) s3 (fun t => t.sp == 0xFDEE#16) = true := by decide

/-- M1. -/
theorem test_mulu : after .mulu (s3.setRp .ax 0xFFFF#16) (fun t => t.rp .ax == 0xFE01#16) = true := by decide

/-- M3, M18. -/
theorem test_mulhu :
    after .mulhu ((s3.setRp .ax 0xC000#16).setRp .bc 0x1000#16)
        (fun t => t.rp .bc == 0x0C00#16 && t.rp .ax == 0x0000#16) = true ∧
      refuses .mulhu (start .s2) .undefinedInstruction = true := by decide

/-- M5, M7. -/
theorem test_mulh :
    after .mulh ((s3.setRp .ax 0xC000#16).setRp .bc 0x1000#16)
        (fun t => t.rp .bc == 0xFC00#16 && t.rp .ax == 0x0000#16) = true ∧
      after .mulh ((s3.setRp .ax 0xFFFF#16).setRp .bc 0xFFFF#16)
        (fun t => t.rp .bc == 0x0000#16 && t.rp .ax == 0x0001#16) = true := by decide

/-- M8, M9. -/
theorem test_divhu :
    after .divhu ((s3.setRp .ax 0x8081#16).setRp .de 0x0002#16)
        (fun t => t.rp .ax == 0x4040#16 && t.rp .de == 0x0001#16) = true ∧
      after .divhu (s3.setRp .ax 0x1234#16) (fun t => t.rp .ax == 0xFFFF#16 && t.rp .de == 0x1234#16) = true := by decide

/-- M10, M11. -/
theorem test_divwu :
    after .divwu (((s3.setRp .ax 0x8081#16).setRp .bc 0x8080#16).setRp .de 0x0002#16)
        (fun t => t.bcax == 0x40404040#32 && t.hlde == 0x00000001#32) = true ∧
      after .divwu ((s3.setRp .ax 0x5678#16).setRp .bc 0x1234#16)
        (fun t => t.bcax == 0xFFFFFFFF#32 && t.hlde == 0x12345678#32) = true := by decide

/-- M12, M13. -/
theorem test_machu :
    after .machu (((s3.setRp .ax 0xC000#16).setRp .bc 0x1000#16).setZAcCy false true true)
        (fun t => t.macr == 0x0C000000#32 && zac t == (false, false, false)) = true ∧
      after .machu ({ (s3.setRp .ax 0xFFFF#16).setRp .bc 0xFFFF#16 with macr := 0x0001FFFF#32 })
        (fun t => t.macr == 0x00000000#32 && zac t == (false, false, true)) = true := by decide

/-- M14, M15. -/
theorem test_mach :
    after .mach ({ (s3.setRp .ax 0x7FFF#16).setRp .bc 0xFFFF#16 with macr := 0x80000001#32 })
        (fun t => t.macr == 0x7FFF8002#32 && zac t == (false, false, true)) = true ∧
      after .mach ((s3.setRp .ax 0xFFFF#16).setRp .bc 0x0001#16)
        (fun t => t.macr == 0xFFFFFFFF#32 && zac t == (false, true, false)) = true := by decide

/-- I1. -/
theorem test_inc :
    after (.inc (.reg .b)) ((s3.setR8 .b 0xFF#8).setCy true) (fun t => t.r8 .b == 0x00#8 && zac t == (true, true, true)) =
      true := by decide

/-- I4, I5. -/
theorem test_dec :
    after (.dec (.reg .a)) s3 (fun t => t.r8 .a == 0xFF#8 && zac t == (false, true, false)) = true ∧
      after (.dec (.mem (.hlOff false 0x01#8))) ((s3.withBytes 0xFFD01#20 [0x10#8]).setRp .hl 0xFD00#16)
        (fun t => t.byteAt 0xFFD01#20 == some 0x0F#8 && zac t == (false, true, false)) = true := by decide

/-- I8. -/
theorem test_incw :
    after (.incw (.mem (.abs false 0xFD00#16))) (s3.withBytes 0xFFD00#20 [0xFF#8, 0x00#8])
      (fun t => t.byteAt 0xFFD00#20 == some 0x00#8 && t.byteAt 0xFFD01#20 == some 0x01#8) = true := by decide

/-- I7. -/
theorem test_decw :
    after (.decw (.rp .de)) s3 (fun t => t.rp .de == 0xFFFF#16 && zac t == (false, false, false)) = true := by decide

/-- S1, S2. -/
theorem test_shr :
    after (.shr 3#3) ((s3.setR8 .a 0xF5#8).setZ true) (fun t => t.r8 .a == 0x1E#8 && zac t == (true, false, true)) = true ∧
      after (.shr 7#3) (s3.setR8 .a 0x80#8) (fun t => t.r8 .a == 0x01#8 && !t.psw.cy) = true := by decide

/-- S3, S4. -/
theorem test_shrw :
    after (.shrw 3#4) (s3.setRp .ax 0xAAF5#16) (fun t => t.rp .ax == 0x155E#16 && t.psw.cy) = true ∧
      after (.shrw 15#4) (s3.setRp .ax 0xC000#16) (fun t => t.rp .ax == 0x0001#16 && t.psw.cy) = true := by decide

/-- S5, S6. -/
theorem test_shl :
    after (.shl .a 3#3) (s3.setR8 .a 0x5D#8) (fun t => t.r8 .a == 0xE8#8 && !t.psw.cy) = true ∧
      after (.shl .b 1#3) (s3.setR8 .b 0x80#8) (fun t => t.r8 .b == 0x00#8 && zac t == (false, false, true)) = true := by
  decide

/-- S7, S8. -/
theorem test_shlw :
    after (.shlw .bc 3#4) (s3.setRp .bc 0xC35D#16) (fun t => t.rp .bc == 0x1AE8#16 && !t.psw.cy) = true ∧
      after (.shlw .ax 8#4) (s3.setRp .ax 0x01FF#16) (fun t => t.rp .ax == 0xFF00#16 && t.psw.cy) = true := by decide

/-- S9, S10. -/
theorem test_sar :
    after (.sar 4#3) (s3.setR8 .a 0x8C#8) (fun t => t.r8 .a == 0xF8#8 && t.psw.cy) = true ∧
      after (.sar 7#3) (s3.setR8 .a 0x40#8) (fun t => t.r8 .a == 0x00#8 && t.psw.cy) = true := by decide

/-- S11, S12. -/
theorem test_sarw :
    after (.sarw 4#4) (s3.setRp .ax 0xA28C#16) (fun t => t.rp .ax == 0xFA28#16 && t.psw.cy) = true ∧
      after (.sarw 15#4) (s3.setRp .ax 0x8000#16) (fun t => t.rp .ax == 0xFFFF#16 && !t.psw.cy) = true := by decide

/-- O1. -/
theorem test_ror : after .ror (s3.setR8 .a 0x01#8) (fun t => t.r8 .a == 0x80#8 && t.psw.cy) = true := by decide

/-- O2. -/
theorem test_rol : after .rol (s3.setR8 .a 0x80#8) (fun t => t.r8 .a == 0x01#8 && t.psw.cy) = true := by decide

/-- O3, O4. -/
theorem test_rorc :
    after .rorc (s3.setR8 .a 0x01#8) (fun t => t.r8 .a == 0x00#8 && zac t == (false, false, true)) = true ∧
      after .rorc ((s3.setR8 .a 0x02#8).setCy true) (fun t => t.r8 .a == 0x81#8 && !t.psw.cy) = true := by decide

/-- O5. -/
theorem test_rolc :
    after .rolc ((s3.setR8 .a 0x80#8).setCy true) (fun t => t.r8 .a == 0x01#8 && t.psw.cy) = true := by decide

/-- O6, O7. -/
theorem test_rolwc :
    after (.rolwc .bc) (s3.setRp .bc 0x8000#16) (fun t => t.rp .bc == 0x0000#16 && t.psw.cy) = true ∧
      after (.rolwc .ax) ((s3.setRp .ax 0x4001#16).setCy true) (fun t => t.rp .ax == 0x8003#16 && !t.psw.cy) = true := by
  decide

/-- K3, K4. -/
theorem test_mov1 :
    after (.mov1 (.mem (.hl false) 0#3) .cy) ((s3.withBytes 0xFFD00#20 [0xFF#8]).setRp .hl 0xFD00#16)
        (fun t => t.byteAt 0xFFD00#20 == some 0xFE#8) = true ∧
      after (.mov1 (.psw 6#3) .cy) (s3.setCy true) (fun t => t.psw.toByte == 0x47#8 && t.intHold) = true := by decide

/-- K5. -/
theorem test_and1 :
    after (.and1 (.mem (.saddr 0x7F#8) 3#3)) ((s3.withBytes 0xFFE7F#20 [0xF7#8]).setCy true) (fun t => !t.psw.cy) = true := by
  decide

/-- K6. -/
theorem test_or1 : after (.or1 (.a 0#3)) (s3.setR8 .a 0x01#8) (fun t => t.psw.cy) = true := by decide

/-- K7. -/
theorem test_xor1 : after (.xor1 (.a 7#3)) ((s3.setR8 .a 0x80#8).setCy true) (fun t => !t.psw.cy) = true := by decide

/-- K8, K15. -/
theorem test_set1 :
    after (.set1 (.mem (.abs false 0xFE20#16) 1#3)) (s3.withBytes 0xFFE20#20 [0x00#8])
        (fun t => t.byteAt 0xFFE20#20 == some 0x02#8) = true ∧
      after (.set1 (.psw 3#3)) (start .s1) (fun t => t.psw.toByte == 0x06#8 && t.intHold) = true := by decide

/-- K11, K12. -/
theorem test_clr1 :
    after (.clr1 (.a 3#3)) (s3.setR8 .a 0xFF#8) (fun t => t.r8 .a == 0xF7#8) = true ∧
      after (.clr1 (.psw 4#3)) (s3.withPsw 0x96#8) (fun t => t.psw.toByte == 0x86#8 && t.intHold) = true := by decide

/-- K13. -/
theorem test_not1 : after .not1 (s3.setCy true) (fun t => !t.psw.cy) = true := by decide

/-- The frame of C1 and the others: the return address of four or two bytes at SP, little-endian, below a top byte. -/
def frameIs (t : State) (lo hi up top : Byte) : Bool :=
  t.sp == 0xFDFC#16 && t.byteAt 0xFFDFC#20 == some lo && t.byteAt 0xFFDFD#20 == some hi &&
    t.byteAt 0xFFDFE#20 == some up && t.byteAt 0xFFDFF#20 == some top

/-- C1, C4. -/
theorem test_call :
    after (.call (.abs20 0x03E00#20)) s3 (fun t => t.pc == 0x03E00#20 && frameIs t 0x04#8 0x01#8 0x00#8 0x00#8) = true ∧
      after (.call (.rp .hl)) ({ s3.setRp .hl 0x2345#16 with cs := 0x01#8 })
        (fun t => t.pc == 0x12345#20 && frameIs t 0x02#8 0x01#8 0x00#8 0x00#8) = true := by decide

/-- C6. -/
theorem test_callt :
    after (.callt 31#5) (s3.withBytes 0x000BE#20 [0x56#8, 0x04#8])
      (fun t => t.pc == 0x00456#20 && frameIs t 0x02#8 0x01#8 0x00#8 0x00#8) = true := by decide

/-- C7. -/
theorem test_brk :
    after .brk ((s3.withBytes 0x0007E#20 [0x00#8, 0x03#8]).withPsw 0xC7#8)
      (fun t => t.pc == 0x00300#20 && t.psw.toByte == 0x47#8 && frameIs t 0x02#8 0x01#8 0x00#8 0xC7#8) = true := by decide

/-- A state with a four-byte frame at SP = FDFCH. -/
def framed (lo hi up top : Byte) : State := { s3.withBytes 0xFFDFC#20 [lo, hi, up, top] with sp := 0xFDFC#16 }

/-- C8. -/
theorem test_ret :
    after .ret (framed 0x04#8 0x01#8 0xF0#8 0x00#8) (fun t => t.sp == 0xFE00#16 && t.pc == 0x00104#20) = true := by decide

/-- C9. -/
theorem test_reti :
    after .reti ((framed 0x02#8 0x01#8 0x00#8 0xC7#8).withPsw 0x00#8)
      (fun t => t.sp == 0xFE00#16 && t.pc == 0x00102#20 && t.psw.toByte == 0xC7#8 && t.intHold &&
        t.notices == [IrqNotice.returned]) = true := by decide

/-- C10. -/
theorem test_retb :
    after .retb ((framed 0x02#8 0x01#8 0x00#8 0xC7#8).withPsw 0x00#8)
      (fun t => t.sp == 0xFE00#16 && t.pc == 0x00102#20 && t.psw.toByte == 0xC7#8 && t.intHold && t.notices == []) =
      true := by decide

/-- C12, C18: the highest legal SP. -/
theorem test_push :
    after (.push .psw) (s3.withPsw 0x87#8)
        (fun t => t.sp == 0xFDFE#16 && t.byteAt 0xFFDFE#20 == some 0x00#8 && t.byteAt 0xFFDFF#20 == some 0x87#8) = true ∧
      after (.push (.rp .ax)) ({ s3.setRp .ax 0xA55A#16 with sp := 0xFEE0#16 })
        (fun t => t.byteAt 0xFFEDE#20 == some 0x5A#8 && t.byteAt 0xFFEDF#20 == some 0xA5#8) = true := by decide

/-- C13, C20. -/
theorem test_pop :
    after (.pop (.rp .bc)) ({ s3.withBytes 0xFFDFE#20 [0x34#8, 0x12#8] with sp := 0xFDFE#16 })
        (fun t => t.rp .bc == 0x1234#16 && t.sp == 0xFE00#16) = true ∧
      faults (.pop (.rp .ax)) ({ s3 with sp := 0xFEE0#16 }) (.stackOutsideRam 0xFFEE0#20) = true := by decide

/-- J3, J4. -/
theorem test_br :
    after (.br (.rel16 0x8000#16)) ({ s3 with pc := 0x08000#20 }) (fun t => t.pc == 0x00003#20) = true ∧
      after (.br .ax) (s3.setRp .ax 0x0200#16) (fun t => t.pc == 0x00200#20) = true := by decide

/-- J6, J7. -/
theorem test_bc :
    after (.bc 0x7E#8) ({ s3.setCy true with pc := 0x00280#20 }) (fun t => t.pc == 0x00300#20) = true ∧
      after (.bc 0x7E#8) ({ s3 with pc := 0x00280#20 }) (fun t => t.pc == 0x00282#20) = true := by decide

/-- J8. -/
theorem test_bnc : after (.bnc 0x80#8) ({ s3 with pc := 0x00280#20 }) (fun t => t.pc == 0x00202#20) = true := by decide

/-- J9. -/
theorem test_bz :
    after (.bz 0x7F#8) ({ s3.setZ true with pc := 0x00344#20 }) (fun t => t.pc == 0x003C5#20) = true := by decide

/-- J10. -/
theorem test_bnz : after (.bnz 0xFC#8) s3 (fun t => t.pc == 0x000FE#20) = true := by decide

/-- J11, J12. -/
theorem test_bh :
    after (.bh 0x7F#8) ({ s3 with pc := 0x002D4#20 }) (fun t => t.pc == 0x00356#20) = true ∧
      after (.bh 0x7F#8) ({ s3.setZ true with pc := 0x002D4#20 }) (fun t => t.pc == 0x002D7#20) = true := by decide

/-- J13. -/
theorem test_bnh : after (.bnh 0x10#8) (s3.setCy true) (fun t => t.pc == 0x00113#20) = true := by decide

/-- J14. -/
theorem test_bt :
    after (.bt (.mem (.saddr 0x47#8) 3#3) 0x7F#8) ({ s3.withBytes 0xFFE47#20 [0x08#8] with pc := 0x004D9#20 })
      (fun t => t.pc == 0x0055C#20) = true := by decide

/-- J16. -/
theorem test_bf :
    after (.bf (.mem (.hl false) 7#3) 0x05#8) ((s3.withBytes 0xFFD00#20 [0x7F#8]).setRp .hl 0xFD00#16)
      (fun t => t.pc == 0x00108#20) = true := by decide

/-- J17, J19. -/
theorem test_btclr :
    after (.btclr (.psw 0#3) 0x7E#8) ({ s3.withPsw 0x07#8 with pc := 0x002D4#20 })
        (fun t => t.pc == 0x00356#20 && t.psw.toByte == 0x06#8 && t.intHold) = true ∧
      after (.btclr (.mem (.saddr 0x20#8) 5#3) 0x02#8) (s3.withBytes 0xFFE20#20 [0xFF#8])
        (fun t => t.pc == 0x00106#20 && t.byteAt 0xFFE20#20 == some 0xDF#8) = true := by decide

/-- Q1, Q2. -/
theorem test_skc :
    after .skc ((s3.withBytes 0x00102#20 [0x0C#8, 0x55#8]).setCy true) (fun t => t.pc == 0x00104#20 && !t.intHold) = true ∧
      after .skc (s3.withBytes 0x00102#20 [0x0C#8, 0x55#8]) (fun t => t.pc == 0x00102#20 && t.intHold) = true := by decide

/-- Q3: the skipped instruction has a PREFIX byte. -/
theorem test_sknc :
    after .sknc (s3.withBytes 0x00102#20 [0x11#8, 0xCF#8, 0x00#8, 0xFD#8, 0x01#8])
      (fun t => t.pc == 0x00107#20 && !t.intHold) = true := by decide

/-- Q4. -/
theorem test_skz :
    after .skz ((s3.withBytes 0x00102#20 [0xFC#8, 0x00#8, 0x3E#8, 0x00#8]).setZ true) (fun t => t.pc == 0x00106#20) = true := by
  decide

/-- Q5. -/
theorem test_sknz : after .sknz (s3.setZ true) (fun t => t.pc == 0x00102#20 && t.intHold) = true := by decide

/-- Q6, Q7. -/
theorem test_skh :
    after .skh (s3.withBytes 0x00102#20 [0x00#8]) (fun t => t.pc == 0x00103#20 && !t.intHold) = true ∧
      after .skh (s3.setZ true) (fun t => t.pc == 0x00102#20 && t.intHold) = true := by decide

/-- Q8, Q9. -/
theorem test_sknh :
    after .sknh ((s3.withBytes 0x00102#20 [0x61#8, 0xC8#8]).setCy true) (fun t => t.pc == 0x00104#20) = true ∧
      after .sknh s3 (fun t => t.pc == 0x00102#20 && t.intHold) = true := by decide

/-- U2, U3. -/
theorem test_sel :
    after (.sel 1#2) (s3.withPsw 0xE7#8) (fun t => t.psw.toByte == 0xCF#8) = true ∧
      refuses (.sel 0#2) (start .s1) .undefinedInstruction = true := by decide

/-- U4. -/
theorem test_nop : after .nop s3.hold (fun t => t.pc == 0x00101#20 && !t.intHold) = true := by decide

/-- U5. -/
theorem test_ei : after .ei s3 (fun t => t.psw.toByte == 0x86#8 && t.intHold) = true := by decide

/-- U6. -/
theorem test_di : after .di (s3.withPsw 0x86#8) (fun t => t.psw.toByte == 0x06#8 && t.intHold) = true := by decide

/-- U7. -/
theorem test_halt : after .halt s3 (fun t => t.pc == 0x00102#20 && decide (t.mode = .halt)) = true := by decide

/-- U8. -/
theorem test_stop : after .stop s3 (fun t => t.pc == 0x00102#20 && decide (t.mode = .stop)) = true := by decide

/-- U9. -/
theorem test_prefix : refuses .prefixByte s3 .undefinedInstruction = true := by decide

/-- G17, G18: the bytes a program in RAM has ahead of it. -/
theorem test_fetch_window :
    refuses (.mov (.mem (.abs false 0xFD04#16)) (.reg .a)) ({ s3 with pc := 0xFFD00#20 })
        (.prohibitedAccess .storeIntoFetchWindow 0xFFD04#20) = true ∧
      after (.mov (.mem (.abs false 0xFD07#16)) (.reg .a)) ({ s3 with pc := 0xFFD00#20 })
        (fun t => t.byteAt 0xFFD07#20 == some 0x00#8) = true := by decide

/-- A request at a vector of the table. -/
def request (entry : BitVec 6) (level : BitVec 2) (maskable : Bool) : IrqRequest :=
  { entry := entry, level := level, maskable := maskable }

/-- Scenario 4.2 step 4: a level 3 request from PSW = 86H leaves 04H. -/
theorem test_interrupt :
    afterStep (((s3.withBytes 0x0000A#20 [0x80#8, 0x01#8]).withPsw 0x86#8).offered (requestInput (request 5#6 3#2 true)))
      (fun t => t.pc == 0x00180#20 && t.psw.toByte == 0x04#8 && frameIs t 0x00#8 0x01#8 0x00#8 0x86#8) = true := by decide

/-- Scenario 4.4 step 2: a non-maskable request with IE = 0. -/
theorem test_interrupt_nmi :
    afterStep ((s3.withBytes 0x00004#20 [0xE0#8, 0x01#8]).offered (requestInput (request 2#6 0#2 false)))
      (fun t => t.pc == 0x001E0#20 && t.psw.toByte == 0x06#8 && frameIs t 0x00#8 0x01#8 0x00#8 0x06#8) = true := by decide

/-- R421: reset with the reset vector at 0100H. -/
theorem test_reset :
    afterStep ((((start .s2).withBytes 0x00000#20 [0x00#8, 0x01#8]).withPsw 0xFF#8).offered { quietInput with reset := true })
      (fun t => t.pc == 0x00100#20 && t.psw.toByte == 0x06#8 && t.es == 0x0F#8) = true := by decide

/-- R108: another bus master stores to RAM, to a register of bank 1, to SPL and to MACR, and a NOP runs in the same step. -/
theorem test_bus_master :
    afterStep (s3.offered { quietInput with dma := [(0xFFD00, 0x12#8), (0xFFEF1, 0x34#8), (0xFFFF8, 0x57#8), (0xFFFF2, 0x9A#8)] })
      (fun t => t.byteAt 0xFFD00#20 == some 0x12#8 && t.gpr (gprIndex 1#2 .a) == 0x34#8 && t.sp == 0xFE56#16 &&
        t.macr == 0x009A0000#32 && t.pc == 0x00101#20) = true := by decide

/-- R55, R42, R72: PMC keeps MAA alone, PSW on S1 keeps its fixed bits, flash takes nothing. -/
theorem test_bus_master_fixed :
    dmaStore s3 (0xFFFFE, 0xFF#8) = { s3 with pmc := 0x01#8, pmcWait := true } ∧
      (dmaStore (start .s1) (0xFFFFA, 0xFF#8)).psw.toByte = 0xD7#8 ∧ dmaStore s3 (0x00100, 0x55#8) = s3 := by decide

/-! ### Witnesses: for each statement with hypotheses, states and operands that meet them -/

/-- A start state meets the invariant. -/
theorem start_inv (c : CoreVariant) : Inv (start c) := by cases c <;> constructor <;> decide

theorem witness_DecodeEncode :
    (Instr.movw (.rp .ax) (.imm 0x1234#16)).wf = true ∧ (Instr.mov (.reg .a) (.mem (.hl true))).wf = true := by decide

theorem witness_EncodeDecode :
    decode [0x51#8, 0x4D#8, 0xFF#8] = .done (.mov (.reg .a) (.imm 0x4D#8)) ∧ decode [0x11#8, 0x00#8] = .done .prefixByte := by
  decide

theorem witness_InstructionLength :
    Instr.nop.wf = true ∧ 0 < Instr.nop.len ∧
      (Instr.mov (.mem (.abs true 0xFD00#16)) (.imm 0x01#8)).wf = true ∧
      4 < (Instr.mov (.mem (.abs true 0xFD00#16)) (.imm 0x01#8)).len := by decide

/-- The ends of every range of undefined cells, and what lies beside them. -/
theorem witness_UndefinedEncodings :
    ([[0x21#8], [0x61#8, 0xF1#8], [0x61#8, 0x98#8], [0x61#8, 0x9F#8], [0x61#8, 0xBA#8], [0x61#8, 0xBF#8],
        [0x71#8, 0x90#8], [0x71#8, 0xF0#8], [0x71#8, 0x98#8], [0x71#8, 0xF8#8], [0x31#8, 0x06#8], [0x31#8, 0xF6#8],
        [0x31#8, 0x07#8], [0x31#8, 0x0F#8], [0x31#8, 0x87#8], [0x31#8, 0xFB#8], [0xEC#8, 0x45#8, 0x23#8, 0x10#8],
        [0xFC#8, 0x45#8, 0x23#8, 0xFF#8]].all fun b => decide (decode b = .undefined)) = true ∧
      ([[0x61#8, 0x97#8], [0x61#8, 0xA0#8], [0x61#8, 0xB9#8], [0x61#8, 0xC0#8], [0x71#8, 0x80#8], [0x71#8, 0xC0#8],
        [0x71#8, 0x88#8]].all fun b => decide (decode b ≠ .undefined)) = true ∧
      decode [0x31#8, 0x17#8] ≠ .undefined ∧ decode [0x31#8, 0xFC#8] ≠ .undefined ∧
      decode [0xEC#8, 0x45#8, 0x23#8, 0x0F#8] ≠ .undefined := by decide

theorem witness_PrefixByteRefused :
    Instr.nop.wf = true ∧ Instr.nop.hasEs = false ∧ Instr.nop.withEs = none ∧
      (Instr.mov (.reg .a) (.mem (.hl false))).wf = true ∧ (Instr.mov (.reg .a) (.mem (.hl false))).hasEs = false ∧
      (Instr.mov (.reg .a) (.mem (.hl false))).withEs = some (.mov (.reg .a) (.mem (.hl true))) := by decide

theorem witness_CoreGating :
    Instr.mach ∈ [Instr.mulhu, .mulh, .divhu, .divwu, .machu, .mach] ∧ (start .s2).product.core ≠ .s3 ∧
      (start .s1).product.core = .s1 := by decide

/-- The start state with pc in RAM. -/
def inRam : State := { s3 with pc := 0xFFD00#20 }

/-- A product with a storage SFR of bytes and bits at F0010H that is read and written, one of words at FFF20H that is
only written, and a device at F0011H, in STOP mode. -/
def withSfr : State :=
  { s3 with
    mode := .stop
    product := { s3.product with
      sfrMap := [
        { addr := 0xF0010#20, bitAccess := true, byteAccess := true, wordAccess := false, readable := true,
          writable := true, behaviour := .storage 0x5A#8 },
        { addr := 0xF0011#20, bitAccess := false, byteAccess := true, wordAccess := false, readable := true,
          writable := true, behaviour := .device },
        { addr := 0xFFF20#20, bitAccess := false, byteAccess := false, wordAccess := true, readable := false,
          writable := true, behaviour := .storage 0x00#8 }] } }

theorem withSfr_inv : Inv withSfr := by constructor <;> decide

/-- A five-byte instruction; an undefined cell; the first byte of two with the second beyond the flash; the first four bytes
of five with the fifth unwritten; and no byte at all. -/
theorem witness_StepRunsDecoded :
    let s := s3.withBytes 0x00100#20 [0x11#8, 0xCF#8, 0x00#8, 0xFD#8, 0x01#8]
    let u := s3.withBytes 0x00100#20 [0x61#8, 0x19#8]
    let e : State := { s3.withBytes 0x0FFFF#20 [0x61#8] with pc := 0x0FFFF#20 }
    let r := inRam.withBytes 0xFFD00#20 [0x11#8, 0xCF#8, 0x00#8, 0xFD#8]
    (s.inputs = [] ∧ s.mode = .run ∧ [0x11#8, 0xCF#8, 0x00#8, 0xFD#8, 0x01#8].length ≤ 5 ∧
        bytesAt s s.pc [0x11#8, 0xCF#8, 0x00#8, 0xFD#8, 0x01#8] = true ∧
        decode [0x11#8, 0xCF#8, 0x00#8, 0xFD#8, 0x01#8] = .done (.mov (.mem (.abs true 0xFD00#16)) (.imm 0x01#8))) ∧
      (bytesAt u u.pc [0x61#8, 0x19#8] = true ∧ decode [0x61#8, 0x19#8] = .undefined) ∧
      (bytesAt e e.pc [0x61#8] = true ∧ decode [0x61#8] = .more ∧ e.region (e.pc + BitVec.ofNat 20 1) = .reserved) ∧
      (bytesAt r r.pc [0x11#8, 0xCF#8, 0x00#8, 0xFD#8] = true ∧ decode [0x11#8, 0xCF#8, 0x00#8, 0xFD#8] = .more ∧
        r.region (r.pc + BitVec.ofNat 20 4) = .ram ∧ r.byteAt (r.pc + BitVec.ofNat 20 4) = none) ∧
      decode [] = .more ∧ bytesAt inRam inRam.pc [] = true ∧ inRam.byteAt (inRam.pc + BitVec.ofNat 20 0) = none := by
  decide

theorem witness_FrameOfEveryInstruction :
    Inv s3 ∧ (∃ t, exec (.push (.rp .ax)) s3 = .next t) ∧ Inv (start .s1) ∧
      ∃ t, exec (.set1 (.psw 3#3)) (start .s1) = .next t :=
  ⟨start_inv _, ⟨_, rfl⟩, start_inv _, ⟨_, rfl⟩⟩

/-- A store to PMC, an instruction that stores nothing, and BTCLR of a bit of PMC. -/
theorem witness_HiddenState :
    (∃ t, exec (.mov (.mem (.sfr 0xFE#8)) (.imm 0x01#8)) s3 = .next t) ∧
      pmcAddr ∈ (footprint s3 (.mov (.mem (.sfr 0xFE#8)) (.imm 0x01#8))).bytes ∧
      (∃ t, exec .nop s3 = .next t) ∧ pmcAddr ∉ (footprint s3 .nop).bytes ∧
      (∃ t, exec (.btclr (.mem (.sfr 0xFE#8) 0#3) 0x00#8) s3 = .next t) ∧
      pmcAddr ∈ (footprint s3 (.btclr (.mem (.sfr 0xFE#8) 0#3) 0x00#8)).bytes :=
  ⟨⟨_, rfl⟩, by decide, ⟨_, rfl⟩, by decide, ⟨_, rfl⟩, by decide⟩

theorem witness_StepKeepsInv : Inv s3 ∧ ∃ t, step s3 = .next t := ⟨start_inv _, ⟨_, rfl⟩⟩

theorem witness_FlashNeverChanges :
    (∃ t, step s3 = .next t) ∧ storageOf s3.product 0x00000#20 = some .flash ∧
      storageOf s3.product 0x0FFFF#20 = some .flash :=
  ⟨⟨_, rfl⟩, by decide, by decide⟩

theorem witness_StackPointerEven :
    (∃ t, memWrite16 none s3 spRegAddr 0xFE21#16 = .ok t) ∧
      load16 s3 (.imm 0xFFFF#16) = .ok 0xFFFF#16 ∧ (∃ t, exec (.movw .sp (.imm 0xFFFF#16)) s3 = .next t) ∧
      (∃ t, exec (.addwSp 0xFF#8) s3 = .next t) ∧ (∃ t, exec (.subwSp 0x01#8) s3 = .next t) ∧
      s3.sp.getLsbD 0 = false ∧ ∃ t, step s3 = .next t :=
  ⟨⟨_, rfl⟩, rfl, ⟨_, rfl⟩, ⟨_, rfl⟩, ⟨_, rfl⟩, by decide, ⟨_, rfl⟩⟩

/-- Both ends of every clause, with a region that the clause names. -/
theorem witness_MemoryMap :
    Product.legal s3.product = true ∧
      (s3.region 0x00000#20, s3.region 0x0FFFF#20) = (.cflash, .cflash) ∧
      (s3.region 0x10000#20, s3.region 0xEFFFF#20) = (.reserved, .reserved) ∧
      (s3.region 0xF0000#20, s3.region 0xF07FF#20) = (.sfr2, .sfr2) ∧
      (s3.region 0xF0800#20, s3.region 0xFEEFF#20) = (.mirror, .mirror) ∧
      (s3.region 0xFEF00#20, s3.region 0xFFEDF#20) = (.ram, .ram) ∧
      (s3.region 0xFFEE0#20, s3.region 0xFFEFF#20) = (.gpr, .gpr) ∧
      (s3.region 0xFFF00#20, s3.region 0xFFFFF#20) = (.sfr, .sfr) := by decide

/-- The start state with 128 KB of code flash and MAA = 1. -/
def mirrored : State :=
  { s3 with
    product := { s3.product with codeFlashEnd := 0x1FFFF#20 }
    pmc := 0x01#8 }

/-- A product with data flash at F1000H to F1FFFH. -/
def withDataFlash : State := { s3 with product := { s3.product with dataFlash := some (0xF1000#20, 0xF1FFF#20) } }

theorem witness_MirrorReads :
    (s3.region 0xF0800#20, s3.region 0xFEEFF#20) = (.mirror, .mirror) ∧
      (mirrored.region 0xF0800#20, mirrored.region 0xFEEFF#20, mirrored.maa) = (.mirror, .mirror, true) ∧
      ((start .s1).region 0xF8000#20, (start .s1).region 0xFDEFF#20) = (.mirror, .mirror) ∧
      s3.pmcWait = false ∧ ({ s3 with pmcWait := true } : State).region 0xF0800#20 = .mirror := by decide

theorem witness_RegionAccess :
    let s := s3.withBytes 0xFFD00#20 [0x12#8]
    let r : State := inRam
    (s.region 0xFFD00#20 = .ram ∧ s.byteAt 0xFFD00#20 = some 0x12#8) ∧ s.byteAt 0xFFD01#20 = none ∧
      s.region 0x00000#20 = .cflash ∧ withDataFlash.region 0xF1000#20 = .dflash ∧
      withDataFlash.byteAt 0xF1FFF#20 = some 0x00#8 ∧ s.region 0x10000#20 = .reserved ∧ s.region 0xF0800#20 = .mirror ∧
      aheadOfFetch s 0x00103#20 0x00103#20 = false ∧ aheadOfFetch r 0xFFD03#20 0xFFD03#20 = true ∧
      aheadOfFetch r 0xFFD03#20 0xFFD06#20 = true ∧ aheadOfFetch r 0xFFD03#20 0xFFD07#20 = false := by decide

/-- A byte, a bit and a word register, each direction an entry lacks, a device, and an address without an entry, at both
ends of the areas. -/
theorem witness_RegionAccess_sfrs :
    Inv withSfr ∧
      (withSfr.region 0xF0010#20 = .sfr2 ∧ withSfr.region 0xFFF20#20 = .sfr ∧
        sfrKind withSfr.product.core 0xFFF20#20 = .product) ∧
      (sfrEntry withSfr.product 0xF0010#20).map (fun e => (e.readable, e.writable, unitAllowed e .byte, unitAllowed e .bit,
        unitAllowed e .word, e.behaviour)) = some (true, true, true, true, false, .storage 0x5A#8) ∧
      (sfrEntry withSfr.product 0xFFF20#20).map (fun e => (e.readable, e.writable, unitAllowed e .word)) =
        some (false, true, true) ∧
      (sfrEntry withSfr.product 0xF0011#20).map (fun e => (e.writable, unitAllowed e .byte, e.behaviour)) =
        some (true, true, .device) ∧
      sfrEntry withSfr.product 0xF0000#20 = none ∧ sfrEntry withSfr.product 0xF07FF#20 = none ∧
      sfrEntry withSfr.product 0xFFF00#20 = none ∧ withSfr.region 0xFFF00#20 = .sfr :=
  ⟨withSfr_inv, by decide, rfl, rfl, rfl, by decide⟩

/-- A product with a word register in two bytes. -/
def withWordSfr : State :=
  { s3 with product := { s3.product with
      sfrMap := [
        { addr := 0xFFF10#20, bitAccess := false, byteAccess := false, wordAccess := true, readable := true,
          writable := true, behaviour := .storage 0x34#8 },
        { addr := 0xFFF11#20, bitAccess := false, byteAccess := false, wordAccess := true, readable := true,
          writable := true, behaviour := .storage 0x12#8 }] } }

theorem witness_RegionAccess_words :
    (0xFFF10#20).getLsbD 0 = false ∧ withWordSfr.region 0xFFF10#20 = .sfr ∧
      sfrKind withWordSfr.product.core 0xFFF10#20 = .product ∧ byteRead .word withWordSfr 0xFFF10#20 = .ok 0x34#8 ∧
      byteRead .word withWordSfr 0xFFF11#20 = .ok 0x12#8 ∧
      ∃ t u, putByte .word withWordSfr 0xFFF10#20 0x78#8 = .ok t ∧ putByte .word t 0xFFF11#20 0x56#8 = .ok u :=
  ⟨by decide, by decide, by decide, rfl, rfl, _, _, rfl, rfl⟩

/-- Words of RAM, of bank 3 and of code flash; a word of data flash. -/
theorem witness_RegionAccess_plainWords :
    let s : State := s3.withBytes 0xFFD00#20 [0x56#8, 0x78#8]
    let d : State := { s3 with product := { s3.product with dataFlash := some (0xF1000#20, 0xF1FFF#20) } }
    let plain : List Region := [.cflash, .mirror, .ram, .gpr]
    ((0xFFD00#20).getLsbD 0 = false ∧ s.region 0xFFD00#20 ∈ plain ∧ s.region (0xFFD00#20 + 1#20) ∈ plain ∧
        memRead8 s 0xFFD00#20 = .ok 0x56#8 ∧ memRead8 s (0xFFD00#20 + 1#20) = .ok 0x78#8) ∧
      (∃ t u, memWrite8 none s 0xFFD00#20 0x12#8 = .ok t ∧ memWrite8 none t (0xFFD00#20 + 1#20) 0x34#8 = .ok u) ∧
      (s.region 0xFFEE0#20 ∈ plain ∧ s.region (0xFFEE0#20 + 1#20) ∈ plain ∧ memRead8 s 0xFFEE0#20 = .ok 0x00#8 ∧
        memRead8 s (0xFFEE0#20 + 1#20) = .ok 0x00#8 ∧ s.region 0x0FFFE#20 ∈ plain ∧ s.region (0x0FFFE#20 + 1#20) ∈ plain) ∧
      d.region 0xF1000#20 = .dflash ∧ aheadOfFetch s 0x00102#20 0xFFD00#20 = false :=
  ⟨⟨by decide, by decide, by decide, rfl, rfl⟩, ⟨_, _, rfl, rfl⟩, ⟨by decide, by decide, rfl, rfl, by decide, by decide⟩,
    by decide, by decide⟩

theorem witness_RamStoreThenLoad :
    Product.legal s3.product = true ∧ Inv s3 ∧ ramFree s3 0x00103#20 0xFEF00#20 = true ∧
      ramFree s3 0x00103#20 0xFFEDF#20 = true :=
  ⟨by decide, start_inv _, by decide, by decide⟩

theorem witness_RamWordLittleEndian :
    Product.legal s3.product = true ∧ Inv s3 ∧ (0xFFEDE#20).getLsbD 0 = false ∧
      ramFree s3 0x00103#20 0xFFEDE#20 = true ∧ ramFree s3 0x00103#20 (0xFFEDE#20 + 1#20) = true :=
  ⟨by decide, start_inv _, by decide, by decide, by decide⟩

/-- The product of the start state under the other policy of R93. -/
def clearing : State := { s3 with product := { s3.product with oddWordPolicy := .clearBit0 } }

theorem witness_OddWords :
    (0x00001#20).getLsbD 0 = true ∧ (0xFFFFF#20).getLsbD 0 = true ∧ s3.product.oddWordPolicy = .refuse ∧
      clearing.product.oddWordPolicy = .clearBit0 := by decide

theorem witness_RegistersByAddress :
    (s3.product.core ≠ .s1 ∧ 3#2 ≠ s3.bank) ∧ 0#2 = s3.bank ∧ ((start .s1).product.core = .s1 ∧ 1#2 ≠ (start .s1).bank) ∧
      fileAddr (gprIndex 3#2 .x) = 0xFFEE0#20 ∧ fileAddr (gprIndex 0#2 .h) = 0xFFEFF#20 := by decide

theorem witness_CoreSfrs :
    (s3.product.core ≠ .s1 ∧ (0x01#8).toNat ≤ 1 ∧ 1 < (0x02#8).toNat) ∧
      ((start .s1).product.core = .s1 ∧ 0x01#8 ≠ 0x00#8) ∧ s3.product.core = .s3 ∧
      (0xFFFF0 ≤ (0xFFFF0#20).toNat ∧ (0xFFFF3#20).toNat ≤ 0xFFFF3) := by decide

/-- Sums of FFFFH and 10000H; `[SP+byte]` with its last byte at FFEDFH and above, as a byte and as a word. -/
theorem witness_OperandAddresses :
    let s := (s3.setRp .hl 0xFF00#16).setR8 .b 0xFF#8
    ((s.rp .hl).toNat + (s.r8 .b).toNat ≤ 0xFFFF) ∧ 0xFFFF < (s.rp .hl).toNat + 1 + (s.r8 .b).toNat ∧
      (0xFFEDF#20).toNat = 0xF0000 + s3.sp.toNat + (0xDF#8).toNat ∧
      s3.product.ramStart.toNat ≤ 0xF0000 + s3.sp.toNat ∧ (0xFFEDE#20 ||| 1#20).toNat ≤ 0xFFEDF ∧
      ¬(0xFFEE0#20).toNat ≤ 0xFFEDF ∧
      0xFFFF < ({ s3 with sp := 0xFFFE#16 } : State).sp.toNat + (0x02#8).toNat ∧
      (0xFFFFF#20).toNat = 0xF0000 + ({ s3 with sp := 0xFFFE#16 } : State).sp.toNat + (0x01#8).toNat := by decide

/-- An address, and a sum that has none, for a byte and for a word. -/
theorem witness_OperandAddresses_access :
    let s := s3.setRp .hl 0xFFFF#16
    ea s false (.hl false) = .ok 0xFFFFF#20 ∧ ea s true (.hl true) = .ok 0xFFFFF#20 ∧
      ea s false (.hlOff false 0x01#8) = .error (.refuse .prohibitedAddress) ∧
      ea s true (.hlOff true 0x01#8) = .error (.refuse .prohibitedAddress) ∧
      ea { s3 with sp := 0x0000#16 } true (.spOff 0x00#8) = .error (.fault (.stackOutsideRam 0xF0000#20)) :=
  ⟨rfl, rfl, rfl, rfl, rfl⟩

/-- The start state with PSW, HL = FD00H, AX = 1234H, a byte 56H at FFD00H and 78H at FFD01H. -/
def ready : State := ((s3.withBytes 0xFFD00#20 [0x56#8, 0x78#8]).setRp .hl 0xFD00#16).setRp .ax 0x1234#16

theorem witness_MovXchResults :
    load8 ready (.mem (.hl false)) = .ok 0x56#8 ∧
      (∃ u, store8 ready (ready.next (.mov (.mem (.hl false)) (.reg .a))) ready.begin (.mem (.hl false)) 0x12#8 = .ok u) ∧
      Reg8.x ≠ .a ∧ ea ready false (.hl false) = .ok 0xFFD00#20 ∧
      (∃ u, store8 ready (ready.next (.xch (.mem (.hl false)))) ready.begin (.mem (.hl false)) (ready.r8 .a) = .ok u) ∧
      ea ready false (.sfr 0xFA#8) = .ok pswAddr ∧
      aheadOfFetch ready (ready.next (.xch (.mem (.sfr 0xFA#8)))) pswAddr = false :=
  ⟨rfl, ⟨_, rfl⟩, by decide, rfl, ⟨_, rfl⟩, rfl, by decide⟩

theorem witness_MovPsw :
    load8 s3 (.imm 0xFF#8) = .ok 0xFF#8 ∧ aheadOfFetch s3 (s3.next (.mov .psw (.imm 0xFF#8))) pswAddr = false ∧
      load8 (start .s1) (.reg .a) = .ok 0x00#8 ∧
      aheadOfFetch (start .s1) ((start .s1).next (.mov .psw (.reg .a))) pswAddr = false :=
  ⟨rfl, by decide, rfl, by decide⟩

theorem witness_MovEsCs :
    load8 s3 (.imm 0x12#8) = .ok 0x12#8 ∧ aheadOfFetch s3 (s3.next (.mov .es (.imm 0x12#8))) esAddr = false ∧
      aheadOfFetch s3 (s3.next (.mov .cs (.imm 0x12#8))) csAddr = false :=
  ⟨rfl, by decide, by decide⟩

theorem witness_ConstantResults :
    (∃ u, store8 s3 (s3.next (.oneb (.mem (.abs false 0xFD00#16)))) s3.begin (.mem (.abs false 0xFD00#16)) 0x01#8 = .ok u) ∧
      ∃ u, store8 s3 (s3.next (.clrb (.mem (.saddr 0x20#8)))) s3.begin (.mem (.saddr 0x20#8)) 0x00#8 = .ok u :=
  ⟨⟨_, rfl⟩, ⟨_, rfl⟩⟩

theorem witness_MovwResult :
    load16 ready (.mem (.hl false)) = .ok 0x7856#16 ∧ load16 ready (.rp .ax) = .ok 0x1234#16 ∧
      (∃ u, store16 ready (ready.next (.movw (.mem (.hl false)) (.rp .ax))) ready.begin (.mem (.hl false)) 0x1234#16 = .ok u) ∧
      RegPair.bc ≠ .ax :=
  ⟨rfl, rfl, ⟨_, rfl⟩, by decide⟩

theorem witness_StackPointerInstructions :
    load16 s3 (.imm 0xFE21#16) = .ok 0xFE21#16 ∧
      aheadOfFetch s3 (s3.next (.movw .sp (.imm 0xFE21#16))) 0xFFFF8#20 = false ∧
      aheadOfFetch s3 (s3.next (.movw .sp (.imm 0xFE21#16))) 0xFFFF9#20 = false :=
  ⟨rfl, by decide, by decide⟩

/-- Each operation on A and an immediate, with CY clear and set. -/
theorem witness_ByteOperationResults :
    load8 ready (.reg .a) = .ok 0x12#8 ∧ load8 ready (.imm 0xFF#8) = .ok 0xFF#8 ∧ ready.psw.cy = false ∧
      (ready.setCy true).psw.cy = true ∧
      (∃ u, store8 ready (ready.next (.add (.reg .a) (.imm 0xFF#8))) ready.begin (.reg .a) 0x11#8 = .ok u) ∧
      0x11#8 = 0x12#8 + 0xFF#8 + BitVec.ofNat 8 false.toNat ∧ 0x12#8 = 0x12#8 + 0xFF#8 + BitVec.ofNat 8 true.toNat ∧
      0x13#8 = 0x12#8 - 0xFF#8 - BitVec.ofNat 8 false.toNat ∧ 0x12#8 = 0x12#8 - 0xFF#8 - BitVec.ofNat 8 true.toNat ∧
      ∃ u, store8 ready (ready.next (.xor (.reg .a) (.imm 0xFF#8))) ready.begin (.reg .a) (0x12#8 ^^^ 0xFF#8) = .ok u :=
  ⟨rfl, rfl, rfl, rfl, ⟨_, rfl⟩, by decide, by decide, by decide, by decide, ⟨_, rfl⟩⟩

theorem witness_CompareStringResults :
    load8 ready (.reg .a) = .ok 0x12#8 ∧ load8 ready (.mem (.hlOff false 0x01#8)) = .ok 0x78#8 ∧
      ea ready false (.hlOff false 0x02#8) = .ok 0xFFD02#20 ∧
      ramFree ready (ready.next (.movs false 0x02#8)) 0xFFD02#20 = true ∧ Inv ready :=
  ⟨rfl, rfl, rfl, by decide, by constructor <;> decide⟩

/-- MOVS to a register of bank 1, to PSW, ES, CS, PMC (a value it may hold and one it may not), to a storage SFR and a
device, and to the code flash, which is refused. -/
theorem witness_CompareStringResults_elsewhere :
    let free (s : State) (hl : Word) (a : Addr) : Bool :=
      match ea (s.setRp .hl hl) false (.hlOff false 0x00#8) with
      | .ok b => decide (b = a) && !aheadOfFetch (s.setRp .hl hl) ((s.setRp .hl hl).next (.movs false 0x00#8)) a
      | .error _ => false
    (free s3 0xFEF0#16 0xFFEF0#20 = true ∧ 0xFFEF0#20 = fileAddr (gprIndex 1#2 .x) ∧ s3.product.core ≠ .s1 ∧
        1#2 ≠ s3.bank) ∧
      (free s3 0xFFFA#16 pswAddr = true ∧ free s3 0xFFFD#16 esAddr = true ∧ free s3 0xFFFC#16 csAddr = true ∧
        free s3 0xFFFE#16 pmcAddr = true ∧ (s3.setR8 .x 0x01#8).r8 .x = 0x01#8 ∧ ¬(0x12#8).toNat ≤ 1) ∧
      (free withSfr 0x0010#16 0xF0010#20 = true ∧ free withSfr 0x0011#16 0xF0011#20 = true ∧
        withSfr.region 0xF0010#20 = .sfr2 ∧
        (sfrEntry withSfr.product 0xF0010#20).map (fun e => (e.writable && unitAllowed e .byte, e.behaviour)) =
          some (true, .storage 0x5A#8) ∧
        (sfrEntry withSfr.product 0xF0011#20).map (fun e => (e.writable && unitAllowed e .byte, e.behaviour)) =
          some (true, .device)) ∧
      (ea { s3 with es := 0x00#8 } false (.hlOff true 0x00#8) = .ok 0x00000#20 ∧
        memWrite8 (some (s3.next (.movs true 0x00#8))) { s3 with es := 0x00#8 }.begin 0x00000#20 0x12#8 =
          .error (.refuse (.writeToReadOnly 0x00000#20))) ∧ Inv withSfr :=
  ⟨by decide, by decide, by decide, ⟨rfl, rfl⟩, withSfr_inv⟩

theorem witness_CompareThenCondition :
    load8 ready (.reg .a) = .ok 0x12#8 ∧ load8 ready (.reg .x) = .ok 0x34#8 ∧
      ∃ t, exec (.cmp (.reg .a) (.reg .x)) ready = .next t :=
  ⟨rfl, rfl, ⟨_, rfl⟩⟩

theorem witness_WordArithmeticResults :
    load16 ready (.imm 0xFFFF#16) = .ok 0xFFFF#16 ∧ load16 ready (.mem (.hlOff false 0x00#8)) = .ok 0x7856#16 :=
  ⟨rfl, rfl⟩

theorem witness_MultiplyResults : s3.product.core = .s3 ∧ (start .s2).product.core ≠ .s3 := by decide

theorem witness_DivideResults :
    s3.product.core = .s3 ∧ s3.rp .de = 0#16 ∧ s3.hlde = 0#32 ∧ (s3.setRp .de 0x0001#16).rp .de ≠ 0#16 ∧
      (s3.setRp .de 0x0001#16).hlde ≠ 0#32 := by decide

theorem witness_AccumulateResults : s3.product.core = .s3 := rfl

theorem witness_IncDecResults :
    load8 ready (.mem (.hlOff false 0x00#8)) = .ok 0x56#8 ∧
      (∃ u, store8 ready (ready.next (.inc (.mem (.hlOff false 0x00#8)))) ready.begin (.mem (.hlOff false 0x00#8))
        (0x56#8 + 1#8) = .ok u) ∧
      (∃ u, store8 ready (ready.next (.dec (.reg .a))) ready.begin (.reg .a) (0x12#8 - 1#8) = .ok u) ∧
      load16 ready (.rp .hl) = .ok 0xFD00#16 ∧
      (∃ u, store16 ready (ready.next (.incw (.rp .hl))) ready.begin (.rp .hl) (0xFD00#16 + 1#16) = .ok u) ∧
      ∃ u, store16 ready (ready.next (.decw (.rp .hl))) ready.begin (.rp .hl) (0xFD00#16 - 1#16) = .ok u :=
  ⟨rfl, ⟨_, rfl⟩, ⟨_, rfl⟩, rfl, ⟨_, rfl⟩, ⟨_, rfl⟩⟩

theorem witness_ShiftResults :
    1#3 ≠ 0#3 ∧ 7#3 ≠ 0#3 ∧ 1#4 ≠ 0#4 ∧ 15#4 ≠ 0#4 ∧
      (Reg8.c, 7#4) ∈ [(Reg8.a, 9#4), (.b, 8#4), (.c, 7#4)] ∧ (RegPair.bc, 0xC#4) ∈ [(RegPair.ax, 0xD#4), (.bc, 0xC#4)] := by
  decide

theorem witness_RotateResults :
    BitVec.ofBool false ++ 0x09#8 = (BitVec.ofBool ready.psw.cy ++ ready.r8 .a).rotateRight 1 ∧
      BitVec.ofBool false ++ 0x24#8 = (BitVec.ofBool ready.psw.cy ++ ready.r8 .a).rotateLeft 1 ∧
      BitVec.ofBool false ++ 0x2468#16 = (BitVec.ofBool ready.psw.cy ++ ready.rp .ax).rotateLeft 1 := by decide

theorem ready_inv : Inv ready := by constructor <;> decide

theorem witness_BitResults :
    readBit ready (.mem (.hl false) 0#3) = .ok false ∧ readBit ready (.mem (.hl false) 6#3) = .ok true ∧ Inv ready ∧
      ea ready false (.hl false) = .ok 0xFFD00#20 ∧
      ramFree ready (ready.next (.set1 (.mem (.hl false) 7#3))) 0xFFD00#20 = true ∧
      ready.byteAt 0xFFD00#20 = some 0x56#8 :=
  ⟨rfl, rfl, ready_inv, rfl, by decide, by decide⟩

/-- A bit with no address, a bit of a byte that cannot be read, and a byte that is no product SFR. -/
theorem witness_BitResults_read :
    let s := s3.setRp .hl 0xFFFF#16
    ea s false (.hl false) = .ok 0xFFFFF#20 ∧
      memReadBit s 0xFFFFF#20 = .error (.refuse (.prohibitedAccess .reservedSfr 0xFFFFF#20)) ∧
      ea s false (.hlOff false 0x01#8) = .error (.refuse .prohibitedAddress) ∧ memReadBit s pswAddr = .ok s.psw.toByte ∧
      ¬(s.region pswAddr = .sfr2 ∨ s.region pswAddr = .sfr ∧ sfrKind s.product.core pswAddr = .product) :=
  ⟨rfl, rfl, rfl, rfl, by decide⟩

/-- Bits outside RAM: a register of bank 1, ES, PMC on S3 and on S1, a storage SFR. -/
theorem witness_BitResults_elsewhere :
    (ea s3 false (.abs false 0xFEF0#16) = .ok 0xFFEF0#20 ∧ memReadBit s3 0xFFEF0#20 = .ok 0x00#8 ∧
        s3.region 0xFFEF0#20 = .gpr) ∧
      (ea s3 false (.sfr 0xFD#8) = .ok esAddr ∧ memReadBit s3 esAddr = .ok 0x0F#8) ∧
      (ea s3 false (.sfr 0xFC#8) = .ok csAddr ∧ memReadBit s3 csAddr = .ok 0x00#8) ∧
      (ea s3 false (.sfr 0xFE#8) = .ok pmcAddr ∧ memReadBit s3 pmcAddr = .ok 0x00#8 ∧ (0x01#8).toNat ≤ 1 ∧
        ¬(0x80#8).toNat ≤ 1 ∧ (start .s1).product.core = .s1) ∧
      (ea withSfr false (.abs false 0x0010#16) = .ok 0xF0010#20 ∧ memReadBit withSfr 0xF0010#20 = .ok 0x5A#8 ∧
        Inv withSfr ∧ withSfr.region 0xF0010#20 = .sfr2) ∧
      (∀ k : BitVec 3, (0x5B#8).getLsbD k.toNat = if k = 0#3 then true else (0x5A#8).getLsbD k.toNat) ∧
      (Instr.set1 (.mem (.abs false 0x0010#16) 0#3)).wf = true ∧
      aheadOfFetch withSfr (withSfr.next (.set1 (.mem (.abs false 0x0010#16) 0#3))) 0xF0010#20 = false ∧
      ∃ u, memWriteBit (some (withSfr.next (.set1 (.mem (.abs false 0x0010#16) 0#3)))) withSfr.begin 0xF0010#20 0x5B#8 =
        .ok u :=
  ⟨⟨rfl, rfl, by decide⟩, ⟨rfl, rfl⟩, ⟨rfl, rfl⟩, ⟨rfl, rfl, by decide⟩, ⟨rfl, rfl, withSfr_inv, by decide⟩, by decide,
    by decide, by decide, _, rfl⟩

theorem witness_PswBitResults :
    Inv s3 ∧ Inv (start .s1) ∧ (Instr.set1 (.psw 5#3) = .mov1 (.psw 5#3) .cy ∧ true = s3.psw.cy ∨
      Instr.set1 (.psw 5#3) = .set1 (.psw 5#3) ∧ true = true ∨ Instr.set1 (.psw 5#3) = .clr1 (.psw 5#3) ∧ true = false) :=
  ⟨start_inv _, start_inv _, by decide⟩

theorem witness_CallResults :
    Inv s3 ∧ stackFree s3 (s3.next (.call (.rel16 0x0000#16))) 4 = true ∧
      fromRamToFlash s3 (callGoal s3 (.rel16 0x0000#16)) = false ∧
      (0x000BE#20).toNat = 0x80 + 2 * (31#5).toNat ∧ (0x00080#20).toNat = 0x80 + 2 * (0#5).toNat ∧
      stackFree s3 (s3.pc + 2#20) 4 = true ∧ callRelative (.rel16 0x0300#16) = true ∧
      fromRamToFlash inRam (callGoal inRam (.rel16 0x0300#16)) = true :=
  ⟨start_inv _, by decide, by decide, by decide, by decide, by decide, by decide, by decide⟩

/-- The lowest and the highest SP a frame of four bytes can be pushed at. -/
theorem witness_BrkEntry :
    Inv s3 ∧ stackFree s3 (s3.pc + 2#20) 4 = true ∧
      stackFree { s3 with sp := 0xEF04#16 } (s3.pc + 2#20) 4 = true ∧
      stackFree { s3 with sp := 0xFEE0#16 } (s3.pc + 2#20) 4 = true :=
  ⟨start_inv _, by decide, by decide, by decide⟩

theorem witness_ReturnResults :
    let s := framed 0x02#8 0x01#8 0xF0#8 0xC7#8
    stackByte s 0 = some 0x02#8 ∧ stackByte s 1 = some 0x01#8 ∧ stackByte s 2 = some 0xF0#8 ∧
      stackByte s 3 = some 0xC7#8 := by decide

theorem witness_PushPopResults :
    Inv s3 ∧ stackFree s3 (s3.next (.push .psw)) 2 = true ∧ stackFree s3 (s3.next (.push (.rp .hl))) 2 = true ∧
      stackByte (framed 0x02#8 0x01#8 0xF0#8 0xC7#8) 1 = some 0x01#8 ∧
      stackByte (framed 0x02#8 0x01#8 0xF0#8 0xC7#8) 0 = some 0x02#8 :=
  ⟨start_inv _, by decide, by decide, by decide, by decide⟩

theorem witness_PushPopRoundTrip :
    Inv s3 ∧ (∃ t, exec (.push .psw) s3 = .next t) ∧ ∃ t, exec (.push (.rp .de)) s3 = .next t :=
  ⟨start_inv _, ⟨_, rfl⟩, ⟨_, rfl⟩⟩

/-- The called subroutine is one that returns at once. -/
theorem witness_CallReturns :
    Inv s3 ∧ ∃ t, exec (.call (.abs16 0x2000#16)) s3 = .next t ∧ t.product = t.product ∧ t.sp = t.sp ∧
      ∀ k, k < 3 → stackByte t k = stackByte t k :=
  ⟨start_inv _, _, rfl, rfl, rfl, fun _ _ => rfl⟩

theorem witness_HandlersReturn :
    (Inv s3 ∧ ∃ t, exec .brk s3 = .next t) ∧
      Inv (s3.withPsw 0x86#8) ∧ acknowledgeable (s3.withPsw 0x86#8) (request 5#6 3#2 true) = true ∧
      ∃ t, step ((s3.withPsw 0x86#8).offered (requestInput (request 5#6 3#2 true))) = .next t :=
  ⟨⟨start_inv _, ⟨_, rfl⟩⟩, by constructor <;> decide, by decide, ⟨_, rfl⟩⟩

/-- A frame that leaves the RAM at its first and at its last byte, at its low end and above FFEDFH. -/
theorem witness_StackFaults :
    let at_ (sp : Word) : State := { s3.withPsw 0x86#8 with sp := sp }
    let out (s : State) (k : Nat) : Bool := !within s.product.ramStart 0xFFEDF#20 (addrOf 0xF#4 (s.sp - BitVec.ofNat 16 (k + 1)))
    (out (at_ 0xEF00#16) 0 = true ∧ out (at_ 0xFEE2#16) 0 = true ∧ out (at_ 0x0000#16) 0 = true ∧
        out (at_ 0xEF01#16) 1 = true ∧ out (at_ 0xEF03#16) 3 = true) ∧
      (stackFree (at_ 0xEF00#16) 0x00102#20 0 = true ∧ stackFree (at_ 0xEF01#16) ((at_ 0xEF01#16).next (.push .psw)) 1 = true ∧
        stackFree (at_ 0xEF03#16) 0x00102#20 3 = true ∧
        stackFree (at_ 0xEF03#16) ((at_ 0xEF03#16).next (.call (.rel16 0x0010#16))) 3 = true ∧
        fromRamToFlash (at_ 0xEF03#16) (callGoal (at_ 0xEF03#16) (.rel16 0x0010#16)) = false) ∧
      stackRoom (at_ 0xEF03#16) 3 = true ∧ acknowledgeable (at_ 0xEF03#16) (request 5#6 3#2 true) = true ∧
      divisionExposed (at_ 0xEF03#16) = false := by decide

/-- Pops that leave the RAM at their first and at their last byte, and pops of unwritten bytes. -/
theorem witness_StackFaults_pops :
    let at_ (sp : Word) : State := { s3.withBytes 0xFFEDD#20 [0x01#8, 0x02#8, 0x03#8] with sp := sp }
    let stops (s : State) (k : Nat) : Bool :=
      (List.range k).all (fun j => (stackByte s j).isSome) && decide (stackByte s k = none)
    (stops (at_ 0xFEE0#16) 0 = true ∧ stops (at_ 0xFEDF#16) 1 = true ∧ stops (at_ 0xFEDE#16) 2 = true ∧
        stops (at_ 0xFEDD#16) 3 = true ∧ within s3.product.ramStart 0xFFEDF#20 (stackAddr (at_ 0xFEDD#16) 3) = false) ∧
      (stops s3 0 = true ∧ within s3.product.ramStart 0xFFEDF#20 (stackAddr s3 0) = true) ∧
      stackByte (at_ 0xFEDF#16) 1 = none ∧ stackByte s3 1 = none := by decide

/-- Code at the low end of a RAM that the code flash touches (no legal product has one: the clauses about a refused
short branch then say that no flag branch of a legal product is refused). -/
def border : State :=
  { s3 with
    pc := 0xF0000#20
    product := { s3.product with
      ramStart := 0xF0000#20
      codeFlashEnd := 0xEFFFF#20 } }

theorem witness_FlagBranchResults :
    fromRamToFlash s3 (brGoal s3 (.rel8 0x10#8)) = false ∧ brRelative (.rel16 0x0300#16) = true ∧
      fromRamToFlash inRam (brGoal inRam (.rel16 0x0300#16)) = true ∧
      fromRamToFlash s3 (s3.pc + BitVec.ofNat 20 2 + (0x7E#8).signExtend 20) = false ∧
      fromRamToFlash border (border.pc + BitVec.ofNat 20 2 + (0x80#8).signExtend 20) = true := by decide

theorem witness_BitTestBranchResults :
    readBit ready (.mem (.hl false) 0#3) = .ok false ∧ readBit ready (.mem (.hl false) 6#3) = .ok true ∧
      fromRamToFlash ready (ready.next (.bt (.mem (.hl false) 6#3) 0x10#8) + (0x10#8).signExtend 20) = false ∧
      (∃ u, writeBit ready (ready.next (.btclr (.mem (.hl false) 6#3) 0x10#8)) ready.begin (.mem (.hl false) 6#3) false =
        .ok u) ∧
      Inv ready ∧ ea ready false (.hl false) = .ok 0xFFD00#20 ∧ ready.region 0xFFD00#20 = .ram ∧
      ready.byteAt 0xFFD00#20 = some 0x56#8 ∧ readBit border (.psw 1#3) = .ok true ∧
      fromRamToFlash border (border.next (.btclr (.psw 1#3) 0x80#8) + (0x80#8).signExtend 20) = true ∧
      fromRamToFlash border (border.next (.bt (.psw 1#3) 0x80#8) + (0x80#8).signExtend 20) = true :=
  ⟨rfl, rfl, by decide, ⟨_, rfl⟩, ready_inv, rfl, by decide, by decide, rfl, by decide, by decide⟩

/-- BTCLR of a bit of the PSW on S1, of a register of bank 1, of ES, of PMC, and of a storage SFR. -/
theorem witness_BitTestBranchResults_elsewhere :
    let bank : State := s3.setGpr (gprIndex 1#2 .x) 0x01#8
    let pmc : State := { s3 with pmc := 0x01#8 }
    let done (s : State) (o : BitOpd) : Bool :=
      match readBit s o, writeBit s (s.next (.btclr o 0x10#8)) s.begin o false with
      | .ok v, .ok _ => v && !fromRamToFlash s (s.next (.btclr o 0x10#8) + (0x10#8).signExtend 20)
      | _, _ => false
    done (start .s1) (.psw 1#3) = true ∧ done bank (.mem (.abs false 0xFEF0#16) 0#3) = true ∧
      done s3 (.mem (.sfr 0xFD#8) 3#3) = true ∧ done { s3 with cs := 0x01#8 } (.mem (.sfr 0xFC#8) 0#3) = true ∧
      done pmc (.mem (.sfr 0xFE#8) 0#3) = true ∧ done withSfr (.mem (.abs false 0x0010#16) 6#3) = true ∧
      bank.region 0xFFEF0#20 = .gpr ∧ (storageOf withSfr.product 0xF0010#20).isSome = true ∧ Inv withSfr ∧
      Inv (start .s1) :=
  ⟨by decide, by decide, by decide, by decide, by decide, by decide, by decide, by decide, withSfr_inv, start_inv _⟩

/-- A true skip over an instruction; over bytes that are none, that are none of the core, and that end where nothing can
be fetched, at the end of code flash and at a RAM byte that nothing has written. -/
theorem witness_SkipResults :
    let s := (s3.withBytes 0x00102#20 [0x11#8, 0xCF#8, 0x00#8, 0xFD#8, 0x01#8]).setCy true
    let u := (s3.withBytes 0x00102#20 [0x61#8, 0x19#8]).setCy true
    let p := (s3.withBytes 0x00102#20 [0x11#8, 0x00#8]).setCy true
    let b := ((start .s1).withBytes 0x00102#20 [0x61#8, 0xCF#8]).setCy true
    let e : State := { (s3.withBytes 0x0FFFF#20 [0x61#8]).setCy true with pc := 0x0FFFD#20 }
    let r : State := { (s3.withBytes 0xFFD02#20 [0x11#8, 0xCF#8, 0x00#8, 0xFD#8]).setCy true with pc := 0xFFD00#20 }
    s.psw.cy = true ∧ s3.psw.cy = false ∧ (Instr.mov (.mem (.abs true 0xFD00#16)) (.imm 0x01#8)).wf = true ∧
      bytesAt s (s.pc + 2#20) (encode (.mov (.mem (.abs true 0xFD00#16)) (.imm 0x01#8))) = true ∧
      Machine.Instr.onCore (.mov (.mem (.abs true 0xFD00#16)) (.imm 0x01#8)) s.product.core = true ∧
      (u.psw.cy = true ∧ bytesAt u (u.pc + 2#20) [0x61#8, 0x19#8] = true ∧ decode [0x61#8, 0x19#8] = .undefined) ∧
      (bytesAt p (p.pc + 2#20) [0x11#8, 0x00#8] = true ∧ decode [0x11#8, 0x00#8] = .done .prefixByte ∧
        Machine.Instr.onCore .prefixByte p.product.core = false) ∧
      (bytesAt b (b.pc + 2#20) [0x61#8, 0xCF#8] = true ∧ decode [0x61#8, 0xCF#8] = .done (.sel 0#2) ∧
        Machine.Instr.onCore (.sel 0#2) b.product.core = false) ∧
      (bytesAt e (e.pc + 2#20) [0x61#8] = true ∧ decode [0x61#8] = .more ∧
        e.region (e.pc + 2#20 + BitVec.ofNat 20 1) = .reserved) ∧
      (bytesAt r (r.pc + 2#20) [0x11#8, 0xCF#8, 0x00#8, 0xFD#8] = true ∧
        decode [0x11#8, 0xCF#8, 0x00#8, 0xFD#8] = .more ∧ r.region (r.pc + 2#20 + BitVec.ofNat 20 4) = .ram ∧
        r.byteAt (r.pc + 2#20 + BitVec.ofNat 20 4) = none) ∧
      u.psw.z = false ∧ ({ u with psw := { u.psw with z := true } } : State).psw.z = true := by decide

theorem witness_NopEiDi : ∃ t, exec .ei s3 = .next t := ⟨_, rfl⟩

theorem witness_SelResult : s3.product.core ≠ .s1 ∧ (start .s2).product.core ≠ .s1 := by decide

theorem witness_Standby :
    ({ s3 with mode := .halt } : State).mode ≠ .run ∧ ({ s3 with mode := .stop } : State).mode ≠ .run := by decide

/-- Right after a division, with the byte 81H next and interrupts enabled. -/
def divided : State := { (s3.withPsw 0x86#8).withBytes 0x00100#20 [0x81#8] with afterDiv := some 0x000FD#20 }

theorem witness_AcknowledgeResult :
    acknowledgeable (s3.withPsw 0x84#8) (request 5#6 2#2 true) = true ∧
      acknowledgeable (s3.withPsw 0x84#8) (request 5#6 3#2 true) = false ∧
      divided.afterDiv = some 0x000FD#20 ∧ acknowledgeable divided (request 5#6 3#2 true) = true ∧
      fetchByte divided divided.pc ≠ .ok 0x00#8 ∧ divided.region 0xFFD00#20 = .ram :=
  ⟨by decide, by decide, rfl, by decide,
    by rw [show fetchByte divided divided.pc = .ok 0x81#8 from rfl]; simp, by decide⟩

theorem witness_InterruptEntry :
    let s := s3.withPsw 0x86#8
    Inv s ∧ acknowledgeable s (request 5#6 3#2 true) = true ∧ acknowledgeable s (request 2#6 0#2 false) = true ∧
      divisionExposed s = false ∧ stackRoom s 4 = true ∧ s.product.hasIsp1 = true ∧
      acknowledgeable ({ s with product := { s.product with hasIsp1 := false } } : State) (request 5#6 1#2 true) = true ∧
      0xFFDFB#20 ∉ belowSp s 4 ∧ 0xFFE00#20 ∉ belowSp s 4 :=
  ⟨by constructor <;> decide, by decide, by decide, by decide, by decide, by decide, by decide, by decide, by decide⟩

theorem witness_ResetPsw :
    (∃ t, step (s3.offered { quietInput with reset := true }) = .next t) ∧
      (request 5#6 3#2 true).maskable = true := ⟨⟨_, rfl⟩, rfl⟩

theorem witness_ResetEvent :
    Product.legal withSfr.product = true ∧ ({ quietInput with reset := true } : EnvInput).reset = true ∧
      storageOf withSfr.product 0xFEF00#20 = some .ram ∧ storageOf withSfr.product 0x0FFFF#20 = some .flash ∧
      storageOf withSfr.product 0xF0010#20 = some (.sfr 0x5A#8) := by decide

/-- RAM and a storage SFR, both ends of the register file and of that of S1, and what takes nothing. -/
theorem witness_BusMasterStores :
    Inv withSfr ∧
      (storageOf withSfr.product 0xFEF00#20 = some .ram ∧ storageOf withSfr.product 0xF0010#20 = some (.sfr 0x5A#8)) ∧
      (0xFFEE0#20 = fileAddr 24#5 ∧ 0xFFEFF#20 = fileAddr 7#5 ∧ 0xFFEF8#20 = fileAddr 0#5 ∧ (7#5).toNat < 8) ∧
      ((0xFFFF3#20).toNat = 0xFFFF0 + 3 ∧ s3.product.core = .s3) ∧
      storageOf s3.product 0x0FFFF#20 = some .flash ∧ s3.region 0xF0800#20 = .mirror ∧ s3.region 0x10000#20 = .reserved ∧
      (sfrStorage withSfr.product 0xF0011#20 = none ∧ withSfr.region 0xF0011#20 = .sfr2) :=
  ⟨withSfr_inv, by decide, by decide, by decide, by decide, by decide, by decide, by decide⟩

end Sys2Proof.Tests
end

