-- ==== Sys2Proof/Proofs/Scope.lean ====
section
/-! PROOFS. The statements of 00_scope.md: core gating (R19), the multiplications that R19 divides among the cores
(R225 to R227), and the step as the meaning of the instruction at pc (R14, R123). -/

namespace Sys2Proof.Machine

/-! ### The end of an instruction that moves on to the next one -/

theorem State.setRp_goto (s : State) (p : RegPair) (v : Word) (a : Addr) :
    (s.setRp p v).goto a = (s.goto a).setRp p v := rfl

theorem State.setBcax_goto (s : State) (v : DWord) (a : Addr) : (s.setBcax v).goto a = (s.goto a).setBcax v := rfl

theorem State.begin_goto_next (s : State) (i : Instr) : s.begin.goto (s.next i) = s.advance i.len := rfl

/-! ### Core gating (R19) -/

theorem checkCore_bind_of_onCore {s : State} {i : Instr} (f : Unit → Result State)
    (h : Instr.onCore i s.product.core = true) : (s.checkCore i >>= f) = f () := by
  simp only [State.checkCore, h, if_true, bind, Except.bind]

theorem outcome_checkCore_of_lacking {s : State} {i : Instr} (f : Unit → Result State)
    (h : Instr.onCore i s.product.core = false) :
    outcome (s.checkCore i >>= f) = .refused .undefinedInstruction := by
  simp only [State.checkCore, h, Bool.false_eq_true, if_false, refusing, bind, Except.bind, outcome]

/-- The instructions a core lacks: the six expanded ones outside S3, SEL on S1, the bare PREFIX byte everywhere. -/
theorem onCore_eq_false {i : Instr} {c : CoreVariant} :
    Instr.onCore i c = false ↔
      i ∈ [.mulhu, .mulh, .divhu, .divwu, .machu, .mach] ∧ c ≠ .s3 ∨ (∃ n, i = .sel n) ∧ c = .s1 ∨
        i = .prefixByte := by
  cases c with
  | s1 => simp only [Instr.onCore, Instr.onS1]; split <;> simp_all
  | s2 => simp only [Instr.onCore, Instr.onS2]; split <;> simp_all
  | s3 => simp only [Instr.onCore, Instr.onS3]; split <;> simp_all

/-- The meaning of every instruction that a core can lack begins with the check of the core, and that of the bare PREFIX
byte is the refusal. -/
theorem exec_of_lacking {s : State} {i : Instr} (h : Instr.onCore i s.product.core = false) :
    exec i s = .refused .undefinedInstruction := by
  obtain ⟨hi, -⟩ | ⟨⟨n, rfl⟩, -⟩ | rfl := onCore_eq_false.mp h
  · simp only [List.mem_cons, List.not_mem_nil, or_false] at hi
    obtain rfl | rfl | rfl | rfl | rfl | rfl := hi <;> exact outcome_checkCore_of_lacking _ h
  · exact outcome_checkCore_of_lacking _ h
  · rfl

/-- Settles O7: those instructions are not on the core. -/
theorem coreGating : Obligations.CoreGating := by
  intro s i h
  exact exec_of_lacking (onCore_eq_false.mpr (h.imp_right .inl))

/-! ### Exact products (R225 to R227) -/

/-- The product of two unsigned numbers fits in twice their width. -/
theorem toNat_ofNat_mul {w : Nat} (x y : BitVec w) :
    (BitVec.ofNat (w * 2) (x.toNat * y.toNat)).toNat = x.toNat * y.toNat := by
  rw [BitVec.toNat_ofNat, Nat.mod_eq_of_lt BitVec.toNat_mul_toNat_lt]

/-- The product of two signed words fits in 32 bits: it is at most 2^30, which the two smallest words reach. -/
theorem toInt_ofInt_mul (x y : Word) : (BitVec.ofInt 32 (x.toInt * y.toInt)).toInt = x.toInt * y.toInt := by
  have hlo : -2 ^ 30 ≤ x.toInt * y.toInt := BitVec.le_toInt_mul_toInt
  have hhi : x.toInt * y.toInt ≤ 2 ^ 30 := BitVec.toInt_mul_toInt_le
  exact BitVec.toInt_ofInt_eq_self (by decide) (by omega) (by omega)

theorem highWord_append_lowWord (v : DWord) : v.extractLsb' 16 16 ++ v.extractLsb' 0 16 = v :=
  (BitVec.extractLsb'_append_extractLsb'_eq_extractLsb' rfl).trans BitVec.extractLsb'_eq_self

theorem exec_mulu (s : State) :
    exec .mulu s = .next ((s.advance 1).setRp .ax (BitVec.ofNat 16 ((s.r8 .a).toNat * (s.r8 .x).toNat))) := by
  change Host.Outcome.next _ = _
  rw [State.setRp_goto, State.begin_goto_next]
  rfl

/-- An instruction of the core that writes BC and AX as one number and moves on (R226, R227). -/
theorem outcome_setBcax {s : State} {i : Instr} (v : DWord) (h : Instr.onCore i s.product.core = true) :
    outcome (do s.checkCore i; pure ((s.begin.setBcax v).goto (s.next i))) = .next ((s.advance i.len).setBcax v) := by
  rw [checkCore_bind_of_onCore _ h, State.setBcax_goto, State.begin_goto_next]
  rfl

theorem exec_mulhu {s : State} (h : s.product.core = .s3) :
    exec .mulhu s = .next ((s.advance 3).setBcax (BitVec.ofNat 32 ((s.rp .ax).toNat * (s.rp .bc).toNat))) :=
  outcome_setBcax _ (by rw [h]; rfl)

theorem exec_mulh {s : State} (h : s.product.core = .s3) :
    exec .mulh s = .next ((s.advance 3).setBcax (BitVec.ofInt 32 ((s.rp .ax).toInt * (s.rp .bc).toInt))) :=
  outcome_setBcax _ (by rw [h]; rfl)

/-- Settles O34: the meanings compute the product in the width of the destination, where it is exact. -/
theorem multiplyResults : Obligations.MultiplyResults := by
  refine ⟨by decide, fun s => ?mulu, fun s h => ?mulhu, fun s h => ?mulh, fun s h => ?lacking⟩
  case mulu => exact ⟨_, toNat_ofNat_mul _ _, exec_mulu s⟩
  case mulhu => exact ⟨_, _, by rw [highWord_append_lowWord]; exact toNat_ofNat_mul _ _, exec_mulhu h⟩
  case mulh => exact ⟨_, _, by rw [highWord_append_lowWord]; exact toInt_ofInt_mul _ _, exec_mulh h⟩
  case lacking => exact ⟨coreGating s _ (.inl ⟨by simp, h⟩), coreGating s _ (.inl ⟨by simp, h⟩)⟩

/-! ### The step (R14, R123) -/

/-- With a quiet environment and the CPU running, nothing stands between the step and the instruction at pc. -/
theorem step_of_quiet {s : State} (hq : s.inputs = []) (hr : s.mode = .run) : step s = runInstr s := by
  simp only [step, hq, stepWith, quietInput, dmaStores, List.foldl_nil, released, Bool.false_eq_true, if_false,
    boundary, hr, if_true]

theorem runInstr_of_fetch {s : State} {i : Instr} (h : fetchInstr s s.pc = .ok i) : runInstr s = exec i s := by
  simp only [runInstr, h]

theorem runInstr_of_stop {s : State} {e : Stop} (h : fetchInstr s s.pc = .error e) :
    runInstr s = outcome (.error e) := by
  simp only [runInstr, h]

/-- Bytes are fetched from code flash and RAM alone (R92). -/
theorem fetchByte_of_prohibited {s : State} {a : Addr} (hf : s.region a ≠ .cflash) (hr : s.region a ≠ .ram) :
    fetchByte s a = .error (.refuse (.prohibitedFetch a)) := by
  simp only [fetchByte]
  cases h : s.region a with
  | cflash => exact absurd h hf
  | ram => exact absurd h hr
  | gpr | mirror | sfr | sfr2 | dflash | reserved => rfl

theorem fetchByte_of_unwritten {s : State} {a : Addr} (hr : s.region a = .ram) (hu : s.byteAt a = none) :
    fetchByte s a = .error (.fault (.unwrittenRead a)) := by
  simp only [State.byteAt] at hu
  simp only [fetchByte, hr, hu, faulting]

/-- Settles O8: the fetch of the bytes at pc, by what they decode to. -/
theorem stepRunsDecoded : Obligations.StepRunsDecoded := by
  intro s bytes hq hr hl hb
  rw [step_of_quiet hq hr]
  refine ⟨fun i hd => ?done, fun hd => ?undefined, ?more⟩
  case done => exact runInstr_of_fetch (fetchInstr_of_bytes hl hb hd)
  case undefined => exact runInstr_of_stop (fetchInstr_of_undefined hl hb hd)
  case more =>
    rintro _ hd hlt rfl
    exact ⟨fun hf hm => runInstr_of_stop (fetchInstr_of_more hlt hb hd (fetchByte_of_prohibited hf hm)),
      fun hm hu => runInstr_of_stop (fetchInstr_of_more hlt hb hd (fetchByte_of_unwritten hm hu))⟩

end Sys2Proof.Machine
end

/-! PROOFS. The statements of 20_memory.md: the memory map (R70 to R72, R84 to R88), data reads and writes by region
(R83, R85 to R93), operand access (R94 to R102, R170), and that no step changes the flash (R72, R84, R85, R421). -/

namespace Sys2Proof.Machine

/-! ### The memory map (R71, R84 to R88) -/

theorem within_iff {first last a : Addr} :
    within first last a = true ↔ first.toNat ≤ a.toNat ∧ a.toNat ≤ last.toNat := by
  simp only [within, Bool.and_eq_true, decide_eq_true_eq]

/-- The regions from the top of the address space down: each begins where the one above it ends. -/
theorem regionOf_eq (p : Product) (maa : Bool) (a : Addr) : regionOf p maa a =
    if 0xFFF00 ≤ a.toNat then .sfr
    else if 0xFFEE0 ≤ a.toNat then .gpr
    else if p.ramStart.toNat ≤ a.toNat then .ram
    else if 0xF0000 ≤ a.toNat ∧ a.toNat ≤ 0xF07FF then .sfr2
    else if inDataFlash p a then .dflash
    else if a.toNat ≤ p.codeFlashEnd.toNat then .cflash
    else if (mirrorSource p maa a).isSome then .mirror else .reserved := by
  have ha := a.isLt
  simp only [regionOf, within_iff, BitVec.reduceToNat, decide_eq_true_eq]
  refine ite_congr (propext (by omega)) (fun _ => rfl) fun h1 => ?_
  refine ite_congr (propext (by omega)) (fun _ => rfl) fun h2 => ?_
  exact ite_congr (propext (by omega)) (fun _ => rfl) fun _ => rfl

/-- The bounds of a legal product (R10, R70): the code flash ends below the extended SFRs, the data flash lies between
them and RAM. -/
theorem legal_bounds {p : Product} (h : Product.legal p = true) :
    0xF0800 ≤ p.ramStart.toNat ∧ p.ramStart.toNat ≤ 0xFFEE0 ∧ p.codeFlashEnd.toNat ≤ 0xEFFFF ∧
      ∀ a, inDataFlash p a = true → 0xF0800 ≤ a.toNat ∧ a.toNat < p.ramStart.toNat := by
  simp only [Product.legal, Bool.and_eq_true, decide_eq_true_eq] at h
  obtain ⟨⟨⟨⟨⟨⟨hlow, hhigh⟩, -⟩, -⟩, hflash⟩, -⟩, hdata⟩ := h
  refine ⟨hlow, hhigh, hflash, fun a ha => ?_⟩
  cases hd : p.dataFlash with
  | none => simp [inDataFlash, hd] at ha
  | some bounds =>
    simp only [hd, Bool.and_eq_true, decide_eq_true_eq] at hdata
    simp only [inDataFlash, hd, within_iff] at ha
    omega

/-- Where the mirror shows the code flash (R84): S2 and S3 show at F0000H the 64 KB that MAA selects, S1 at F8000H the
first 5F00H bytes. -/
theorem mirrorSource_some {p : Product} {maa : Bool} {a f : Addr} (h : mirrorSource p maa a = some f) :
    0xF0000 ≤ a.toNat ∧ f.toNat ≤ p.codeFlashEnd.toNat ∧
      (p.core = .s1 → f.toNat + 0xF8000 = a.toNat ∧ f.toNat ≤ 0x5EFF ∧ maa = false) ∧
      (p.core ≠ .s1 → maa = false → f.toNat + 0xF0000 = a.toNat) ∧
      (p.core ≠ .s1 → maa = true → f.toNat + 0xE0000 = a.toNat) := by
  have ha := a.isLt
  simp only [mirrorSource] at h
  split at h
  next g hg =>
    split at h
    next hle =>
      cases h
      cases hc : p.core with
      | s1 =>
        simp only [hc, within_iff, BitVec.reduceToNat, Bool.and_eq_true, Bool.not_eq_true',
          Option.ite_none_right_eq_some, Option.some.injEq] at hg
        obtain ⟨⟨hr, rfl⟩, rfl⟩ := hg
        refine ⟨by omega, hle, fun _ => ⟨?_, ?_, rfl⟩, fun hn => absurd rfl hn, fun hn => absurd rfl hn⟩ <;> bv_omega
      | s2 | s3 =>
        simp only [hc, within_iff, BitVec.reduceToNat, Option.ite_none_right_eq_some, Option.some.injEq] at hg
        obtain ⟨hr, rfl⟩ := hg
        refine ⟨hr.1, hle, nofun, fun _ hm => ?_, fun _ hm => ?_⟩
        · rw [hm, if_neg Bool.false_ne_true]
          bv_omega
        · rw [hm, if_pos rfl]
          bv_omega
    next => cases h
  next => cases h

/-- Settles O15: each clause is one row of the map, and the bounds of a legal product exclude the others. -/
theorem memoryMap : Obligations.MemoryMap := by
  intro s a hl
  obtain ⟨hlow, hhigh, hflash, hdata⟩ := legal_bounds hl
  have hd : a.toNat < 0xF0000 → ¬ inDataFlash s.product a = true := fun h hin => by
    have := hdata a hin
    omega
  have hm : a.toNat < 0xF0000 → ¬ (mirrorSource s.product s.maa a).isSome = true := fun h hs => by
    obtain ⟨f, hf⟩ := Option.isSome_iff_exists.mp hs
    have := (mirrorSource_some hf).1
    omega
  simp only [State.region, regionOf_eq]
  refine ⟨fun h => ?cflash, fun h1 h2 => ?reserved, fun h1 h2 => ?sfr2, fun h1 h2 => ?mirror, fun h1 h2 => ?ram,
    fun h1 h2 => ?gpr, fun h => ?sfr⟩
  case cflash =>
    rw [if_neg (by omega), if_neg (by omega), if_neg (by omega), if_neg (by omega), if_neg (hd (by omega)), if_pos h]
  case reserved =>
    rw [if_neg (by omega), if_neg (by omega), if_neg (by omega), if_neg (by omega), if_neg (hd h2), if_neg (by omega),
      if_neg (hm h2)]
  case sfr2 => rw [if_neg (by omega), if_neg (by omega), if_neg (by omega), if_pos ⟨h1, h2⟩]
  case mirror =>
    rw [if_neg (by omega), if_neg (by omega), if_neg (by omega), if_neg (by omega),
      if_neg (c := a.toNat ≤ _) (by omega)]
  case ram => rw [if_neg (by omega), if_neg (by omega), if_pos h1]
  case gpr => rw [if_neg (by omega), if_pos h1]
  case sfr => rw [if_pos h]

theorem mirrorSource_of_region {s : State} {a : Addr} (h : s.region a = .mirror) :
    ∃ f, mirrorSource s.product s.maa a = some f := by
  rw [← Option.isSome_iff_exists]
  refine Decidable.byContradiction fun hn => ?_
  simp only [State.region, regionOf_eq, if_neg hn] at h
  repeat' (split at h <;> try cases h)

/-! ### Reads by region (R90) -/

/-- Settles O16: the region is the mirror where the mirror shows a byte of the code flash, and a read gives
that byte. -/
theorem mirrorReads : Obligations.MirrorReads := by
  intro s a hr
  obtain ⟨f, hf⟩ := mirrorSource_of_region hr
  obtain ⟨-, hend, hs1, hlow, hhigh⟩ := mirrorSource_some hf
  refine ⟨fun hw => ?_, fun hw => ⟨f, hend, ?_, hs1, hlow, hhigh⟩⟩
  · simp only [memRead8, byteRead, hr, hw, if_true, refusing]
  · simp only [memRead8, byteRead, hr, hw, hf, Bool.false_eq_true, if_false]

/-! ### The base of a word access (R93) -/

theorem getLsbD_zero_eq_true {a : Addr} : a.getLsbD 0 = true ↔ a.toNat % 2 = 1 := by
  simp [BitVec.getLsbD, Nat.testBit_zero]

theorem getLsbD_zero_eq_false {a : Addr} : a.getLsbD 0 = false ↔ a.toNat % 2 = 0 := by
  simp [BitVec.getLsbD, Nat.testBit_zero]

/-- Clearing bit 0 gives the even address at or below. -/
theorem toNat_clearBit0 (a : Addr) : (a &&& 0xFFFFE#20).toNat = a.toNat - a.toNat % 2 := by
  have hmask : ∀ i, i < 20 → (0xFFFFE#20).getLsbD i = decide (1 ≤ i) := by decide
  have hshift : a &&& 0xFFFFE#20 = (a >>> 1) <<< 1 := by
    apply BitVec.eq_of_getLsbD_eq
    intro i hi
    rw [BitVec.getLsbD_and, hmask i hi, BitVec.getLsbD_shiftLeft, BitVec.getLsbD_ushiftRight]
    by_cases h : 1 ≤ i
    · simp [h, hi, Nat.add_sub_cancel' h, show ¬ i < 1 by omega]
    · simp [h, show i < 1 by omega]
  have := a.isLt
  rw [hshift, BitVec.toNat_shiftLeft, BitVec.toNat_ushiftRight, Nat.shiftRight_eq_div_pow, Nat.shiftLeft_eq]
  omega

/-- A word access at an even address is made there, under either policy. -/
theorem wordBase_of_even {s : State} {a : Addr} (h : a.getLsbD 0 = false) : wordBase s a = a := by
  simp only [wordBase]
  cases s.product.oddWordPolicy with
  | refuse => rfl
  | clearBit0 =>
    apply BitVec.eq_of_toNat_eq
    rw [toNat_clearBit0, getLsbD_zero_eq_false.mp h, Nat.sub_zero]

theorem wordAddr_of_even {s : State} {a : Addr} (h : a.getLsbD 0 = false) : wordAddr s a = .ok a := by
  simp only [wordAddr, wordBase_of_even h, h, Bool.false_eq_true, if_false]

theorem memRead16_of_even {s : State} {a : Addr} (h : a.getLsbD 0 = false) : memRead16 s a = evenRead16 s a := by
  simp only [memRead16, wordAddr_of_even h, bind, Except.bind]

theorem memWrite16_of_even {win : Option Addr} {s : State} {a : Addr} {v : Word} (h : a.getLsbD 0 = false)
    (hl : windowCheck win s a = .ok ()) (hh : windowCheck win s (a + 1#20) = .ok ()) :
    memWrite16 win s a v = evenWrite16 s a v := by
  simp only [memWrite16, wordBase_of_even h, wordAddr_of_even h, hl, hh, bind, Except.bind]

theorem wordBase_of_odd {s : State} {a : Addr} (hp : s.product.oddWordPolicy = .clearBit0)
    (h : a.getLsbD 0 = true) : wordBase s a = a - 1#20 := by
  have hodd := getLsbD_zero_eq_true.mp h
  apply BitVec.eq_of_toNat_eq
  simp only [wordBase, hp, toNat_clearBit0]
  bv_omega

theorem even_sub_one_of_odd {a : Addr} (h : a.getLsbD 0 = true) : (a - 1#20).getLsbD 0 = false := by
  rw [getLsbD_zero_eq_true] at h
  rw [getLsbD_zero_eq_false]
  bv_omega

/-- Settles O20: the base of the access is the odd address itself, which the alignment check refuses, or the even one
below. -/
theorem oddWords : Obligations.OddWords := by
  intro s a v hodd
  refine ⟨fun hp => ?refuse, fun hp => ?clearBit0⟩
  case refuse =>
    have hw : wordAddr s a = .error (.refuse (.misalignedWord a)) := by
      simp only [wordAddr, wordBase, hp, hodd, if_true, refusing]
    exact ⟨by simp only [memRead16, hw, bind, Except.bind],
      by simp only [memWrite16, windowCheck, hw, bind, Except.bind]⟩
  case clearBit0 =>
    have heven := even_sub_one_of_odd hodd
    have hw : wordAddr s a = .ok (a - 1#20) := by
      simp only [wordAddr, wordBase_of_odd hp hodd, heven, Bool.false_eq_true, if_false]
    refine ⟨?_, ?_⟩
    · rw [memRead16_of_even heven]
      simp only [memRead16, hw, bind, Except.bind]
    · rw [memWrite16_of_even heven rfl rfl]
      simp only [memWrite16, windowCheck, hw, bind, Except.bind]

/-! ### The fetch window (R440) -/

theorem windowCheck_of_ahead {s : State} {next a : Addr} (h : aheadOfFetch s next a = true) :
    windowCheck (some next) s a = .error (.refuse (.prohibitedAccess .storeIntoFetchWindow a)) := by
  simp only [aheadOfFetch, Bool.and_eq_true, decide_eq_true_eq] at h
  simp only [windowCheck, if_pos h, refusing]

theorem memWrite8_of_window {win : Option Addr} {s : State} {a : Addr} {v : Byte}
    (h : windowCheck win s a = .ok ()) : memWrite8 win s a v = putByte .byte s a v := by
  simp only [memWrite8, h, bind, Except.bind]

theorem State.region_of {s t : State} (hp : t.product = s.product) (hm : t.pmc = s.pmc) (a : Addr) :
    t.region a = s.region a := by
  simp only [State.region, State.maa, hp, hm]

/-- A byte store to another address than that of PMC leaves the map and the fetch window as they were. -/
theorem memWrite8_keeps_map {win : Option Addr} {s t : State} {a : Addr} {v : Byte} (hn : a ≠ pmcAddr)
    (h : memWrite8 win s a v = .ok t) :
    (∀ b, t.region b = s.region b) ∧ ∀ b, windowCheck win t b = windowCheck win s b := by
  have w := wrote_memWrite8 h
  have hr : ∀ b, t.region b = s.region b :=
    State.region_of w.frame.product (w.frame.pmc (by simp [Footprint.ofBytes, Ne.symm hn]))
  refine ⟨hr, fun b => ?_⟩
  simp only [windowCheck, hr, w.control.pc, w.frame.product]

/-! ### Accesses by region (R86, R90, R91) -/

section
variable {s : State} {a : Addr}

theorem byteRead_unwritten (h : s.region a = .ram) (hv : s.byteAt a = none) (u : AccessUnit) :
    byteRead u s a = .error (.fault (.unwrittenRead a)) := by
  simp only [State.byteAt] at hv
  simp only [byteRead, h, hv, faulting]

theorem byteRead_cflash (h : s.region a = .cflash) (u : AccessUnit) : byteRead u s a = .ok (s.image a) := by
  simp only [byteRead, h]

theorem byteRead_dflash {v : Byte} (h : s.region a = .dflash) (hv : s.byteAt a = some v) (u : AccessUnit) :
    byteRead u s a = .ok v := by
  simp only [State.byteAt] at hv
  simp only [byteRead, h, hv, Option.getD_some]

theorem byteRead_reserved (h : s.region a = .reserved) (u : AccessUnit) :
    byteRead u s a = .error (.refuse (.unmappedAccess a)) := by
  simp only [byteRead, h, refusing]

theorem putByte_readOnly (h : s.region a = .cflash ∨ s.region a = .mirror) (u : AccessUnit) (v : Byte) :
    putByte u s a v = .error (.refuse (.writeToReadOnly a)) := by
  obtain h | h := h <;> simp only [putByte, h, refusing]

theorem putByte_dflash (h : s.region a = .dflash) (u : AccessUnit) (v : Byte) :
    putByte u s a v = .error (.refuse (.prohibitedAccess .dataFlash a)) := by
  simp only [putByte, h, refusing]

theorem putByte_reserved (h : s.region a = .reserved) (u : AccessUnit) (v : Byte) :
    putByte u s a v = .error (.refuse (.unmappedAccess a)) := by
  simp only [putByte, h, refusing]

theorem evenRead16_dflash (h : s.region a = .dflash) :
    evenRead16 s a = .error (.refuse (.prohibitedAccess .dataFlash a)) := by
  simp only [evenRead16, h, refusing]

/-- Outside the SFR areas the unit of an access does not matter. -/
theorem byteRead_unit (hs : s.region a ≠ .sfr) (h2 : s.region a ≠ .sfr2) (u w : AccessUnit) :
    byteRead u s a = byteRead w s a := by
  simp only [byteRead]
  split <;> first | rfl | contradiction

theorem putByte_unit (hs : s.region a ≠ .sfr) (h2 : s.region a ≠ .sfr2) (u w : AccessUnit) (v : Byte) :
    putByte u s a v = putByte w s a v := by
  simp only [putByte]
  split <;> first | rfl | contradiction

theorem evenRead16_pair (hs : s.region a ≠ .sfr) (hd : s.region a ≠ .dflash) : evenRead16 s a = bytePair s a := by
  simp only [evenRead16]
  split <;> first | rfl | contradiction

theorem evenWrite16_pair (hs : s.region a ≠ .sfr) (v : Word) : evenWrite16 s a v = putPair s a v := by
  simp only [evenWrite16]
  split <;> first | rfl | contradiction

theorem bytePair_of {l h : Byte} (hl : byteRead .word s a = .ok l) (hh : byteRead .word s (a + 1#20) = .ok h) :
    bytePair s a = .ok (h ++ l) := by
  simp only [bytePair, hl, hh, bind, Except.bind]
  rfl

theorem putPair_of {l h : Byte} {t u : State} (hl : putByte .word s a l = .ok t)
    (hh : putByte .word t (a + 1#20) h = .ok u) : putPair s a (h ++ l) = .ok u := by
  have el : loByte (h ++ l) = l := loByte_wordOf l h
  have eh : hiByte (h ++ l) = h := hiByte_wordOf l h
  simp only [putPair, el, eh, hl, bind, Except.bind]
  exact hh

end

/-- The regions in which a word at an even address is two byte accesses (R90, R91). -/
theorem plain_region {r : Region} (h : r ∈ [Region.cflash, .mirror, .ram, .gpr]) :
    r ≠ .sfr ∧ r ≠ .sfr2 ∧ r ≠ .dflash := by
  revert r
  decide

section
variable {s : State} {a : Addr} (heven : a.getLsbD 0 = false)
  (hr : s.region a ∈ [Region.cflash, .mirror, .ram, .gpr])
  (hr' : s.region (a + 1#20) ∈ [Region.cflash, .mirror, .ram, .gpr])
include heven hr hr'

theorem memRead16_of_bytes {l h : Byte} (hl : memRead8 s a = .ok l) (hh : memRead8 s (a + 1#20) = .ok h) :
    memRead16 s a = .ok (h ++ l) := by
  obtain ⟨hs, hs2, hd⟩ := plain_region hr
  obtain ⟨hs', hs2', -⟩ := plain_region hr'
  rw [memRead16_of_even heven, evenRead16_pair hs hd]
  exact bytePair_of ((byteRead_unit hs hs2 _ _).trans hl) ((byteRead_unit hs' hs2' _ _).trans hh)

/-- The first store is not to PMC, so the second finds the map and the fetch window that the word store looks at. -/
theorem memWrite16_of_bytes {win : Option Addr} {l h : Byte} {t u : State} (ht : memWrite8 win s a l = .ok t)
    (hu : memWrite8 win t (a + 1#20) h = .ok u) : memWrite16 win s a (h ++ l) = .ok u := by
  obtain ⟨hs, hs2, -⟩ := plain_region hr
  obtain ⟨hs', hs2', -⟩ := plain_region hr'
  have hpmc : a ≠ pmcAddr := by
    rintro rfl
    exact hs (regionOf_pmc _ _)
  obtain ⟨hmap, hwin⟩ := memWrite8_keeps_map hpmc ht
  obtain ⟨_, hw, ht⟩ := bind_ok.mp ht
  obtain ⟨_, hw', hu⟩ := bind_ok.mp hu
  rw [memWrite16_of_even heven hw ((hwin _).symm.trans hw'), evenWrite16_pair hs]
  rw [← hmap] at hs' hs2'
  exact putPair_of ((putByte_unit hs hs2 _ _ l).trans ht) ((putByte_unit hs' hs2' _ _ h).trans hu)

end

/-! ### A byte put into the memory list -/

/-- The state with a byte put into the memory list, as a store to RAM or to a storage register does it. -/
def State.setCell (s : State) (a : Addr) (v : Byte) : State := { s with mem := writeCell s.product s.mem a v }

@[simp] theorem State.setCell_product (s : State) (a : Addr) (v : Byte) : (s.setCell a v).product = s.product := rfl

@[simp] theorem State.setCell_region (s : State) (a b : Addr) (v : Byte) : (s.setCell a v).region b = s.region b := rfl

theorem State.setCell_byteAt_self {s : State} (h : strictlyRising s.mem = true) (a : Addr) (v : Byte) :
    (s.setCell a v).byteAt a = some v := readCell_writeCell_self _ h a v

theorem State.setCell_byteAt_ne {s : State} {a b : Addr} (h : b ≠ a) (v : Byte) :
    (s.setCell a v).byteAt b = s.byteAt b := readCell_writeCell_ne _ _ h v

theorem State.setCell_image_ne {s : State} {a b : Addr} (h : b ≠ a) (v : Byte) :
    (s.setCell a v).image b = s.image b := by
  simp only [State.image, State.setCell, readCell_writeCell_ne _ _ h]

/-! ### Product SFRs (R86) -/

section
variable {s : State} {a : Addr} {u : AccessUnit}

theorem productAccess_of_noEntry (h : sfrEntry s.product a = none) (v : Byte) :
    productRead u s a = .error (.refuse (.unmappedAccess a)) ∧
      productWrite u s a v = .error (.refuse (.unmappedAccess a)) := by
  simp only [productRead, productWrite, h, refusing, and_self]

variable {e : SfrEntry} (he : sfrEntry s.product a = some e)
include he

theorem productRead_refused (h : e.readable = false ∨ unitAllowed e u = false) :
    productRead u s a = .error (.refuse (.prohibitedAccess .sfrUnit a)) := by
  have hn : (e.readable && unitAllowed e u) = false := Bool.and_eq_false_iff.mpr h
  simp only [productRead, he, hn, Bool.false_eq_true, if_false, refusing]

theorem productWrite_refused (h : e.writable = false ∨ unitAllowed e u = false) (v : Byte) :
    productWrite u s a v = .error (.refuse (.prohibitedAccess .sfrUnit a)) := by
  have hn : (e.writable && unitAllowed e u) = false := Bool.and_eq_false_iff.mpr h
  simp only [productWrite, he, hn, Bool.false_eq_true, if_false, refusing]

theorem productRead_device (hr : e.readable = true) (hu : unitAllowed e u = true) (hb : e.behaviour = .device) :
    productRead u s a = .ok (Config.sfrInput a s.ticks) := by
  simp only [productRead, he, hr, hu, hb, Bool.and_self, if_true]

theorem productRead_storage {r : Byte} (hr : e.readable = true) (hu : unitAllowed e u = true)
    (hb : e.behaviour = .storage r) : productRead u s a = .ok ((s.byteAt a).getD r) := by
  simp only [productRead, he, hr, hu, hb, Bool.and_self, if_true, State.byteAt]

theorem productWrite_device (hw : e.writable = true) (hu : unitAllowed e u = true) (hb : e.behaviour = .device)
    (v : Byte) : productWrite u s a v = .ok s := by
  simp only [productWrite, he, hw, hu, hb, Bool.and_self, if_true]

theorem productWrite_storage {r : Byte} (hw : e.writable = true) (hu : unitAllowed e u = true)
    (hb : e.behaviour = .storage r) (v : Byte) : productWrite u s a v = .ok (s.setCell a v) := by
  simp only [productWrite, he, hw, hu, hb, Bool.and_self, if_true, State.setCell]

end

/-- The address belongs to the product: an extended SFR, or an SFR that is none of the core's own. -/
def ProductSfr (s : State) (a : Addr) : Prop :=
  s.region a = .sfr2 ∨ s.region a = .sfr ∧ sfrKind s.product.core a = .product

section
variable {s : State} {a : Addr} (h : ProductSfr s a)
include h

theorem byteRead_productSfr (u : AccessUnit) : byteRead u s a = productRead u s a := by
  obtain hr | ⟨hr, hk⟩ := h
  · simp only [byteRead, hr]
  · simp only [byteRead, hr, sfrRead, hk]

theorem putByte_productSfr (u : AccessUnit) (v : Byte) : putByte u s a v = productWrite u s a v := by
  obtain hr | ⟨hr, hk⟩ := h
  · simp only [putByte, hr]
  · simp only [putByte, hr, sfrWrite, hk]

theorem evenRead16_productSfr : evenRead16 s a = bytePair s a := by
  obtain hr | ⟨hr, hk⟩ := h
  · simp only [evenRead16, hr]
  · simp only [evenRead16, hr, hk]

theorem evenWrite16_productSfr (v : Word) : evenWrite16 s a v = putPair s a v := by
  obtain hr | ⟨hr, hk⟩ := h
  · simp only [evenWrite16, hr]
  · simp only [evenWrite16, hr, hk]

/-- A storage register always holds a byte. -/
theorem byteAt_storage {e : SfrEntry} {r : Byte} (he : sfrEntry s.product a = some e) (hb : e.behaviour = .storage r) :
    s.byteAt a = some ((s.byteAt a).getD r) := by
  have hs : storageOf s.product a = some (.sfr r) := by
    obtain hr | ⟨hr, hk⟩ := h
    · exact storageOf_sfr2 hr (sfrStorage_isSome he hb)
    · exact storageOf_sfr hr hk (sfrStorage_isSome he hb)
  simp only [State.byteAt, readCell, blank, hs]
  split <;> rfl

end

/-! ### RAM (R83, R90, R91) -/

theorem putByte_ram {s : State} {a : Addr} (h : s.region a = .ram) (u : AccessUnit) (v : Byte) :
    putByte u s a v = .ok (s.setCell a v) := by
  simp only [putByte, h, State.setCell]

theorem byteRead_ram {s : State} {a : Addr} {v : Byte} (h : s.region a = .ram) (hv : s.byteAt a = some v)
    (u : AccessUnit) : byteRead u s a = .ok v := by
  simp only [State.byteAt] at hv
  simp only [byteRead, h, hv]

/-- A byte stored above the code flash changes the read of no other byte: the mirror shows code flash alone. -/
theorem byteRead_setCell_ne {s : State} {a b : Addr} (hf : s.product.codeFlashEnd.toNat < a.toNat) (h : b ≠ a)
    (u : AccessUnit) (v : Byte) : byteRead u (s.setCell a v) b = byteRead u s b := by
  have hcell : readCell s.product (s.setCell a v).mem b = readCell s.product s.mem b := readCell_writeCell_ne _ _ h v
  have hsfr : productRead u (s.setCell a v) b = productRead u s b := by
    simp only [productRead, State.setCell_product, hcell]
    rfl
  simp only [byteRead, State.setCell_region, State.setCell_product, hcell, hsfr]
  cases s.region b with
  | ram | sfr2 | dflash | reserved | gpr => rfl
  | cflash => simp only [State.setCell_image_ne h]
  | sfr =>
    simp only [sfrRead, State.setCell_product, hsfr]
    rfl
  | mirror =>
    have hmaa : (s.setCell a v).maa = s.maa := rfl
    have hwait : (s.setCell a v).pmcWait = s.pmcWait := rfl
    simp only [hmaa, hwait]
    split
    · rfl
    · cases hm : mirrorSource s.product s.maa b with
      | none => rfl
      | some f =>
        have hle := (mirrorSource_some hm).2.1
        have hne : f ≠ a := by
          rintro rfl
          omega
        simp only [State.setCell_image_ne hne]

/-- RAM lies above the code flash of a legal product. -/
theorem codeFlashEnd_lt_ram {s : State} {a : Addr} (hl : Product.legal s.product = true) (h : s.region a = .ram) :
    s.product.codeFlashEnd.toNat < a.toNat := by
  obtain ⟨hlow, -, hflash, -⟩ := legal_bounds hl
  simp only [State.region, regionOf_eq] at h
  refine Decidable.byContradiction fun hn => ?_
  rw [if_neg (by omega), if_neg (by omega), if_neg (by omega)] at h
  repeat' (split at h <;> try cases h)

theorem ramFree_iff {s : State} {next a : Addr} :
    ramFree s next a = true ↔ s.region a = .ram ∧ aheadOfFetch s next a = false := by
  simp only [ramFree, Bool.and_eq_true, decide_eq_true_eq, Bool.not_eq_true']

/-- Settles O18: the store puts one byte into the memory list. -/
theorem ramStoreThenLoad : Obligations.RamStoreThenLoad := by
  intro s next a v hl hi hfree
  obtain ⟨hr, hahead⟩ := ramFree_iff.mp hfree
  refine ⟨s.setCell a v, ?stored, ?readBack, fun b hb => byteRead_setCell_ne (codeFlashEnd_lt_ram hl hr) hb _ v⟩
  case stored => rw [memWrite8_of_window (windowCheck_free hahead), putByte_ram hr]
  case readBack => exact byteRead_ram (by simpa using hr) (State.setCell_byteAt_self (Memory.wf_rising hi.memory) a v) _

/-- A word store to RAM puts two bytes into the memory list, one after the other. -/
theorem putPair_ram {s : State} {a : Addr} (h : s.region a = .ram) (h' : s.region (a + 1#20) = .ram) (v : Word) :
    putPair s a v = .ok ((s.setCell a (loByte v)).setCell (a + 1#20) (hiByte v)) := by
  have hr : (s.setCell a (loByte v)).region (a + 1#20) = .ram := h'
  simp only [putPair, putByte_ram h, bind, Except.bind, putByte_ram hr]

/-- Settles O19: the two bytes go to different cells above the code flash, and a word is read as those two. -/
theorem ramWordLittleEndian : Obligations.RamWordLittleEndian := by
  intro s next a v hl hi heven hlo hhi
  obtain ⟨hr, hahead⟩ := ramFree_iff.mp hlo
  obtain ⟨hr', hahead'⟩ := ramFree_iff.mp hhi
  have hne : a ≠ a + 1#20 := by bv_omega
  have hlow := (State.setCell_byteAt_ne (s := s.setCell a (loByte v)) hne (hiByte v)).trans
    (State.setCell_byteAt_self (Memory.wf_rising hi.memory) a _)
  have hrising : strictlyRising (s.setCell a (loByte v)).mem = true :=
    Memory.wf_rising (writeCell_wf hi.memory _ (by rw [storageOf_ram hr]; rfl))
  have hhigh := State.setCell_byteAt_self hrising (a + 1#20) (hiByte v)
  refine ⟨_, ?stored, ?readBack, hlow, hhigh, fun b hb hb' => ?frame⟩
  case stored =>
    rw [memWrite16_of_even heven (windowCheck_free hahead) (windowCheck_free hahead'),
      evenWrite16_pair (by rw [hr]; nofun), putPair_ram hr hr']
  case readBack =>
    rw [memRead16_of_even heven, evenRead16_pair (by simp [hr]) (by simp [hr]),
      bytePair_of (byteRead_ram (by simpa using hr) hlow _) (byteRead_ram (by simpa using hr') hhigh _)]
    exact congrArg _ (wordOf_bytes v)
  case frame =>
    exact (byteRead_setCell_ne (s := s.setCell a (loByte v)) (codeFlashEnd_lt_ram hl hr') hb' _ _).trans
      (byteRead_setCell_ne (codeFlashEnd_lt_ram hl hr) hb _ _)

/-- Settles O17: byte reads by region, byte writes past the window check, words as two bytes, and product SFRs by their
entry. -/
theorem regionAccess : Obligations.RegionAccess := by
  refine ⟨fun s a => ?reads, fun s next a v => ?writes, fun s a heven => ?words,
    fun s a hp => ⟨fun u v => ?sfr, fun heven l h => ?sfrWord⟩⟩
  case reads =>
    exact ⟨fun v hr hv => byteRead_ram hr hv _, fun hr hv => byteRead_unwritten hr hv _, fun hr => byteRead_cflash hr _,
      fun v hr hv => byteRead_dflash hr hv _, fun hr => byteRead_reserved hr _⟩
  case writes =>
    refine ⟨fun ha => ?_, fun ha => ?_⟩
    · simp only [memWrite8, windowCheck_of_ahead ha, bind, Except.bind]
    · rw [memWrite8_of_window (windowCheck_free ha)]
      exact ⟨rfl, fun hr => putByte_readOnly hr _ v, fun hr => putByte_dflash hr _ v, fun hr => putByte_reserved hr _ v⟩
  case words =>
    refine ⟨fun hr => (memRead16_of_even heven).trans (evenRead16_dflash hr), ?_⟩
    rintro plain rfl hr hr'
    exact ⟨fun l h => memRead16_of_bytes heven hr hr', fun win l h t u => memWrite16_of_bytes heven hr hr'⟩
  case sfr =>
    rw [byteRead_productSfr hp, putByte_productSfr hp]
    refine ⟨fun hn => productAccess_of_noEntry hn v, fun e he => ⟨productRead_refused he,
      fun hw => productWrite_refused he hw v, fun hr hu => ?_, fun hw hu => ⟨fun hb => ?_, fun r hi hb => ?_⟩⟩⟩
    · cases hb : e.behaviour with
      | device => exact ⟨_, productRead_device he hr hu hb, nofun⟩
      | storage r =>
        refine ⟨_, productRead_storage he hr hu hb, ?_⟩
        rintro _ ⟨⟩
        exact byteAt_storage hp he hb
    · exact productWrite_device he hw hu hb v
    · have hback := State.setCell_byteAt_self (Memory.wf_rising hi.memory) a v
      refine ⟨_, productWrite_storage he hw hu hb v, rfl, hback, fun hr => ?_,
        fun c hc => State.setCell_byteAt_ne hc v⟩
      have hp' : ProductSfr (s.setCell a v) a := hp
      rw [byteRead_productSfr hp', productRead_storage (s := s.setCell a v) he hr hu hb, hback, Option.getD_some]
  case sfrWord =>
    refine ⟨fun hl hh => ?_, fun t u ht hu => ?_⟩
    · rw [memRead16_of_even heven, evenRead16_productSfr hp]
      exact bytePair_of hl hh
    · rw [memWrite16_of_even heven rfl rfl, evenWrite16_productSfr hp]
      exact putPair_of ht hu

/-! ### Effective addresses (R94 to R102, R170) -/

theorem sum16_of_le {x : Nat} (h : x ≤ 0xFFFF) : sum16 x = .ok (BitVec.ofNat 16 x) := by
  simp only [sum16, if_neg (Nat.not_lt.mpr h)]

theorem sum16_of_gt {x : Nat} (h : 0xFFFF < x) : sum16 x = .error (.refuse .prohibitedAddress) := by
  simp only [sum16, if_pos h, refusing]

theorem basedAddr_of_le {s : State} {es : Bool} {x : Nat} (h : x ≤ 0xFFFF) :
    basedAddr s es x = .ok (hiNib s es ++ BitVec.ofNat 16 x) := by
  simp only [basedAddr, sum16_of_le h, bind, Except.bind]
  rfl

theorem basedAddr_of_gt {s : State} {es : Bool} {x : Nat} (h : 0xFFFF < x) :
    basedAddr s es x = .error (.refuse .prohibitedAddress) := by
  simp only [basedAddr, sum16_of_gt h, bind, Except.bind]

theorem saddrAddr_eq (v : Byte) :
    saddrAddr v = BitVec.ofNat 20 (if v.toNat < 0x20 then 0xFFF00 + v.toNat else 0xFFE00 + v.toNat) := by
  simp only [saddrAddr]
  split <;> bv_omega

theorem sfrAddr_eq (v : Byte) : sfrAddr v = BitVec.ofNat 20 (0xFFF00 + v.toNat) := by
  simp only [sfrAddr]
  bv_omega

theorem toNat_addrOf_F (w : Word) : (addrOf 0xF#4 w).toNat = 0xF0000 + w.toNat := by
  have := w.isLt
  simp only [addrOf, BitVec.toNat_append]
  rw [← Nat.shiftLeft_add_eq_or_of_lt this]
  rfl

/-- `[SP+byte]` below the top of the address space: the sum when SP and the last byte lie in RAM, else the fault. -/
theorem spAddr_eq {s : State} {o : Byte} {a : Addr} (word : Bool) (h : a.toNat = 0xF0000 + s.sp.toNat + o.toNat) :
    spAddr s o word =
      if s.product.ramStart.toNat ≤ 0xF0000 + s.sp.toNat ∧ (if word then a ||| 1#20 else a).toNat ≤ 0xFFEDF then .ok a
      else .error (.fault (.stackOutsideRam a)) := by
  have hle : s.sp.toNat + o.toNat ≤ 0xFFFF := by
    have := a.isLt
    omega
  have ha : addrOf 0xF#4 (BitVec.ofNat 16 (s.sp.toNat + o.toNat)) = a := by
    apply BitVec.eq_of_toNat_eq
    rw [toNat_addrOf_F, BitVec.toNat_ofNat]
    omega
  simp only [spAddr, sum16_of_le hle, bind, Except.bind, ha, toNat_addrOf_F]
  rfl

theorem spAddr_of_gt {s : State} {o : Byte} (word : Bool) (h : 0xFFFF < s.sp.toNat + o.toNat) :
    spAddr s o word = .error (.refuse .prohibitedAddress) := by
  simp only [spAddr, sum16_of_gt h, bind, Except.bind]

/-! ### Operand access (R170) -/

theorem region_of_sfr_le {s : State} {a : Addr} (h : 0xFFF00 ≤ a.toNat) : s.region a = .sfr := by
  simp only [State.region, regionOf_eq, if_pos h]

section
variable {s b : State} {next a : Addr} {m : Mem} {e : Stop}

theorem load8_mem (h : ea s false m = .ok a) : load8 s (.mem m) = memRead8 s a := by
  simp only [load8, h, bind, Except.bind]

theorem load8_mem_stop (h : ea s false m = .error e) : load8 s (.mem m) = .error e := by
  simp only [load8, h, bind, Except.bind]

theorem store8_mem (h : ea s false m = .ok a) (v : Byte) :
    store8 s next b (.mem m) v = memWrite8 (some next) b a v := by
  simp only [store8, h, bind, Except.bind]

theorem store8_mem_stop (h : ea s false m = .error e) (v : Byte) : store8 s next b (.mem m) v = .error e := by
  simp only [store8, h, bind, Except.bind]

theorem load16_mem (h : ea s true m = .ok a) : load16 s (.mem m) = memRead16 s a := by
  simp only [load16, h, bind, Except.bind]

theorem load16_mem_stop (h : ea s true m = .error e) : load16 s (.mem m) = .error e := by
  simp only [load16, h, bind, Except.bind]

theorem store16_mem (h : ea s true m = .ok a) (v : Word) :
    store16 s next b (.mem m) v = memWrite16 (some next) b a v := by
  simp only [store16, h, bind, Except.bind]

theorem store16_mem_stop (h : ea s true m = .error e) (v : Word) : store16 s next b (.mem m) v = .error e := by
  simp only [store16, h, bind, Except.bind]

end

section
variable (s : State)

theorem load8_psw : load8 s .psw = .ok s.psw.toByte := by
  simp [load8, memRead8, byteRead, region_of_sfr_le, sfrRead, sfrKind, pswAddr]

theorem load8_cs : load8 s .cs = .ok s.cs := by
  simp [load8, memRead8, byteRead, region_of_sfr_le, sfrRead, sfrKind, csAddr]

theorem load8_es : load8 s .es = .ok s.es := by
  simp [load8, memRead8, byteRead, region_of_sfr_le, sfrRead, sfrKind, esAddr]

theorem load16_sp : load16 s .sp = .ok s.sp := by
  rw [load16, memRead16_of_even (by rfl)]
  simp [evenRead16, region_of_sfr_le, sfrKind, spRegAddr]

end

/-- Settles O23: the address of each operand form, and each operand access through its address. -/
theorem operandAddresses : Obligations.OperandAddresses := by
  refine ⟨fun s word es hi hhi => ?address, fun s word o a ha => ?stack, fun s word o h => spAddr_of_gt word h,
    fun s b next v => ?byte, fun s b next v => ?word⟩
  case address =>
    obtain rfl : hi = hiNib s es := hhi
    refine ⟨fun v => congrArg _ (saddrAddr_eq v), fun v => congrArg _ (sfrAddr_eq v), fun w => rfl, rfl, rfl,
      fun m x hm => ?_⟩
    have hea : ea s word m = basedAddr s es x := by
      obtain ⟨o, rfl, rfl⟩ | ⟨o, rfl, rfl⟩ | ⟨rfl, rfl⟩ | ⟨rfl, rfl⟩ | ⟨w, rfl, rfl⟩ | ⟨w, rfl, rfl⟩ |
        ⟨w, rfl, rfl⟩ := hm
      all_goals rfl
    rw [hea]
    exact ⟨basedAddr_of_le, basedAddr_of_gt⟩
  case stack =>
    have hea : ea s word (.spOff o) = _ := spAddr_eq word ha
    exact ⟨fun h => hea.trans (if_pos h), fun h => hea.trans (if_neg h)⟩
  case byte =>
    exact ⟨fun r => ⟨rfl, rfl⟩, rfl,
      fun m => ⟨fun a h => ⟨load8_mem h, store8_mem h v⟩, fun e h => ⟨load8_mem_stop h, store8_mem_stop h v⟩⟩,
      load8_psw s, load8_cs s, load8_es s, rfl, rfl, rfl⟩
  case word =>
    exact ⟨fun p => ⟨rfl, rfl⟩, rfl,
      fun m => ⟨fun a h => ⟨load16_mem h, store16_mem h v⟩, fun e h => ⟨load16_mem_stop h, store16_mem_stop h v⟩⟩,
      load16_sp s, rfl⟩

/-! ### Code and data flash (R72, R84, R85, R421) -/

/-- `t` has the product of `s` and the same bytes in code and data flash. -/
structure KeepsFlash (s t : State) : Prop where
  product : t.product = s.product
  bytes : ∀ a, storageOf s.product a = some .flash → t.byteAt a = s.byteAt a

theorem KeepsFlash.refl (s : State) : KeepsFlash s s := ⟨rfl, fun _ _ => rfl⟩

theorem KeepsFlash.trans {s u t : State} (h : KeepsFlash s u) (k : KeepsFlash u t) : KeepsFlash s t :=
  ⟨k.product.trans h.product, fun a ha => (k.bytes a (h.product ▸ ha)).trans (h.bytes a ha)⟩

/-- An update of anything but the product and the memory list keeps the flash. -/
theorem KeepsFlash.update {s u t : State} (h : KeepsFlash s u) (hp : t.product = u.product) (hm : t.mem = u.mem) :
    KeepsFlash s t :=
  ⟨hp.trans h.product, fun a ha => (State.byteAt_of hp hm a).trans (h.bytes a ha)⟩

theorem keepsFlash_of_mem {s t : State} (hp : t.product = s.product) (hm : t.mem = s.mem) : KeepsFlash s t :=
  (KeepsFlash.refl s).update hp hm

/-- A computation of a state from `s` that keeps the flash wherever it completes. -/
def FlashSafe (s : State) (r : Result State) : Prop := ∀ t, r = .ok t → KeepsFlash s t

section
variable {s : State} {α : Type} {f : State → Result State}

theorem FlashSafe.done {t : State} (h : KeepsFlash s t) : FlashSafe s (.ok t) := by
  rintro _ ⟨⟩
  exact h

/-- Only registers and control are changed. -/
theorem FlashSafe.same {t : State} (hp : t.product = s.product) (hm : t.mem = s.mem) : FlashSafe s (.ok t) :=
  .done (keepsFlash_of_mem hp hm)

theorem FlashSafe.holdIf {t : State} (p : Prop) [Decidable p] (h : FlashSafe s (.ok t)) :
    FlashSafe s (.ok (if p then t.hold else t)) := by
  have ht := h t rfl
  split
  · exact .done (ht.update rfl rfl)
  · exact .done ht

theorem FlashSafe.stop {e : Stop} : FlashSafe s (.error e) :=
  fun _ h => by cases h

/-- What is read before a store does not matter. -/
theorem FlashSafe.read {x : Result α} {f : α → Result State} (h : ∀ v, FlashSafe s (f v)) :
    FlashSafe s (x >>= f) := by
  intro t ht
  obtain ⟨v, -, hv⟩ := bind_ok.mp ht
  exact h v t hv

/-- A store, and what is computed from the state after it. -/
theorem FlashSafe.store {x : Result State} (hx : FlashSafe s x) (hf : ∀ u, KeepsFlash s u → FlashSafe s (f u)) :
    FlashSafe s (x >>= f) := by
  intro t ht
  obtain ⟨u, hu, hfu⟩ := bind_ok.mp ht
  exact hf u (hx u hu) t hfu

/-- The outcome of a step, from the computation behind it. -/
theorem KeepsFlash.of_outcome {r : Result State} {t : State} (h : outcome r = .next t) (hr : FlashSafe s r) :
    KeepsFlash s t :=
  hr t (outcome_next.mp h)

theorem FlashSafe.ite {p : Prop} [Decidable p] {x y : Result State} (hx : FlashSafe s x) (hy : FlashSafe s y) :
    FlashSafe s (if p then x else y) := by
  split
  · exact hx
  · exact hy

/-- A computation that starts from a state in which the flash is kept. -/
theorem FlashSafe.after {u : State} {x : Result State} (h : KeepsFlash s u) (hx : FlashSafe u x) : FlashSafe s x :=
  fun t ht => h.trans (hx t ht)

/-- An instruction that begins, stores one operand and then changes registers and flags alone. -/
theorem FlashSafe.stored {b : State} {x : Result State} (hb : KeepsFlash s b)
    (hx : FlashSafe b x) (hf : ∀ u, FlashSafe u (f u)) : FlashSafe s (x >>= f) :=
  .store (.after hb hx) fun u hu => .after hu (hf u)

end

/-- A flash address lies in the region of the code flash or of the data flash, whatever the mirror selects. -/
theorem region_of_storage_flash {p : Product} {a : Addr} (h : storageOf p a = some .flash) (maa : Bool) :
    regionOf p maa a = .cflash ∨ regionOf p maa a = .dflash := by
  simp only [storageOf] at h
  simp only [regionOf]
  split at h
  · split at h <;> simp at h
  split at h
  · simp at h
  split at h
  · simp at h
  split at h
  · simp at h
  next h1 h2 h3 h4 =>
  by_cases hd : inDataFlash p a = true
  · simp [h1, h2, h3, h4, hd]
  · simp_all

/-- No byte write completes at a flash address (R72, R85). -/
theorem storage_ne_flash_of_putByte {u : AccessUnit} {b t : State} {a : Addr} {v : Byte}
    (h : putByte u b a v = .ok t) : storageOf b.product a ≠ some .flash := by
  intro hf
  rcases region_of_storage_flash hf b.maa with hr | hr <;> simp [putByte, State.region, hr] at h

section
variable (s : State)

theorem putByte_flashSafe (u : AccessUnit) (a : Addr) (v : Byte) : FlashSafe s (putByte u s a v) := by
  intro t h
  have w := wrote_putByte h
  refine ⟨w.frame.product, fun c hc => w.frame.memory c fun hm => ?_⟩
  rw [Footprint.ofBytes, List.mem_singleton] at hm
  exact storage_ne_flash_of_putByte h (hm ▸ hc)

theorem memWrite8_flashSafe (win : Option Addr) (a : Addr) (v : Byte) : FlashSafe s (memWrite8 win s a v) :=
  .read fun _ => putByte_flashSafe s _ a v

theorem memWriteBit_flashSafe (win : Option Addr) (a : Addr) (v : Byte) : FlashSafe s (memWriteBit win s a v) :=
  .read fun _ => putByte_flashSafe s _ a v

theorem putPair_flashSafe (a : Addr) (v : Word) : FlashSafe s (putPair s a v) :=
  .store (putByte_flashSafe s _ a _) fun u hu => .after hu (putByte_flashSafe u _ _ _)

theorem evenWrite16_flashSafe (a : Addr) (v : Word) : FlashSafe s (evenWrite16 s a v) := by
  simp only [evenWrite16]
  split
  · split
    · exact .same rfl rfl
    · exact .same rfl rfl
    all_goals first | exact .stop | exact putPair_flashSafe s a v
  all_goals exact putPair_flashSafe s a v

theorem memWrite16_flashSafe (win : Option Addr) (a : Addr) (v : Word) : FlashSafe s (memWrite16 win s a v) :=
  .read fun _ => .read fun _ => .read fun e => evenWrite16_flashSafe s e v

theorem stackWrite_flashSafe (win : Option Addr) (p : Word) (v : Byte) : FlashSafe s (stackWrite win s p v) :=
  .read fun _ => memWrite8_flashSafe s win _ v

theorem push4_flashSafe (win : Option Addr) (top : Byte) (ret : Addr) : FlashSafe s (push4 win s top ret) :=
  .store (stackWrite_flashSafe s win _ _) fun t1 h1 =>
  .store (.after h1 (stackWrite_flashSafe t1 win _ _)) fun t2 h2 =>
  .store (.after h2 (stackWrite_flashSafe t2 win _ _)) fun t3 h3 =>
  .store (.after h3 (stackWrite_flashSafe t3 win _ _)) fun _ h4 => .done (h4.update rfl rfl)

theorem enterVector_flashSafe (win : Option Addr) (ret vector : Addr) (isp : Option (BitVec 2)) :
    FlashSafe s (enterVector win s ret vector isp) :=
  .store (push4_flashSafe s win _ ret) fun _ h => .done (h.update rfl rfl)

theorem leaveVector_flashSafe (b : State) : FlashSafe b (leaveVector s b) :=
  .read fun _ => .read fun _ => .same rfl rfl

theorem store8_flashSafe (next : Addr) (b : State) (o : Opd8) (v : Byte) : FlashSafe b (store8 s next b o v) := by
  cases o with
  | reg r => exact .same rfl rfl
  | imm w => exact .same rfl rfl
  | mem m => exact .read fun a => memWrite8_flashSafe b _ a v
  | psw | cs | es => exact memWrite8_flashSafe b _ _ v

theorem store16_flashSafe (next : Addr) (b : State) (o : Opd16) (v : Word) : FlashSafe b (store16 s next b o v) := by
  cases o with
  | rp p => exact .same rfl rfl
  | imm w => exact .same rfl rfl
  | mem m => exact .read fun a => memWrite16_flashSafe b _ a v
  | sp => exact memWrite16_flashSafe b _ _ v

theorem writeBit_flashSafe (next : Addr) (b : State) (o : BitOpd) (v : Bool) :
    FlashSafe b (writeBit s next b o v) := by
  cases o with
  | mem m n => exact .read fun a => .read fun _ => memWriteBit_flashSafe b _ a _
  | a n | psw n | cy => exact .same rfl rfl

/-! ### Every instruction keeps the flash -/

theorem keepsFlash_begin : KeepsFlash s s.begin := keepsFlash_of_mem rfl rfl

theorem arith8_flashSafe (i : Instr) (f : Byte → Byte → Alu8) (dst src : Opd8) :
    FlashSafe s (arith8 i f dst src s) :=
  .read fun _ => .read fun _ => .stored (keepsFlash_begin s) (store8_flashSafe s _ _ dst _) fun _ => .same rfl rfl

theorem logic8_flashSafe (i : Instr) (f : Byte → Byte → Byte) (dst src : Opd8) :
    FlashSafe s (logic8 i f dst src s) :=
  .read fun _ => .read fun _ => .stored (keepsFlash_begin s) (store8_flashSafe s _ _ dst _) fun _ => .same rfl rfl

theorem condBranch_flashSafe (i : Instr) (cond : Cond) (d : Byte) : FlashSafe s (condBranch s i cond d) :=
  .ite (.read fun _ => .same rfl rfl) (.same rfl rfl)

theorem bitBranch_flashSafe (i : Instr) (o : BitOpd) (want : Bool) (d : Byte) :
    FlashSafe s (bitBranch s i o want d) :=
  .read fun _ => .ite (.read fun _ => .same rfl rfl) (.same rfl rfl)

theorem skipIf_flashSafe (i : Instr) (cond : Cond) : FlashSafe s (skipIf s i cond) :=
  .ite (.read fun _ => .same rfl rfl) (.same rfl rfl)

/-- No instruction changes a byte of flash: what it stores goes through the byte writes. -/
theorem exec_keepsFlash (i : Instr) {t : State} (h : exec i s = .next t) : KeepsFlash s t := by
  have hb := keepsFlash_begin s
  cases i with
  | add | addc | sub | subc => exact .of_outcome h (arith8_flashSafe s _ _ _ _)
  | and | or | xor => exact .of_outcome h (logic8_flashSafe s _ _ _ _)
  | bc | bnc | bz | bnz | bh | bnh => exact .of_outcome h (condBranch_flashSafe s _ _ _)
  | bt | bf => exact .of_outcome h (bitBranch_flashSafe s _ _ _ _)
  | skc | sknc | skz | sknz | skh | sknh => exact .of_outcome h (skipIf_flashSafe s _ _)
  | mov =>
    exact .of_outcome h (.read fun _ => .stored hb (store8_flashSafe s _ _ _ _) fun _ =>
      .same (by split <;> rfl) (by split <;> rfl))
  | xch src =>
    exact .of_outcome h (.read fun v => .stored (hb.update (t := s.begin.setR8 .a v) rfl rfl)
      (store8_flashSafe s _ _ src _) fun _ => .same rfl rfl)
  | oneb | clrb | movs => exact .of_outcome h (.stored hb (store8_flashSafe s _ _ _ _) fun _ => .same rfl rfl)
  | inc | dec => exact .of_outcome h (.read fun _ => .stored hb (store8_flashSafe s _ _ _ _) fun _ => .same rfl rfl)
  | movw | incw | decw =>
    exact .of_outcome h (.read fun _ => .stored hb (store16_flashSafe s _ _ _ _) fun _ => .same rfl rfl)
  | mov1 => exact .of_outcome h (.read fun _ => .stored hb (writeBit_flashSafe s _ _ _ _) fun _ => .same rfl rfl)
  | set1 | clr1 => exact .of_outcome h (.stored hb (writeBit_flashSafe s _ _ _ _) fun _ => .same rfl rfl)
  | btclr =>
    exact .of_outcome h (.read fun _ => .ite
      (.read fun _ => .stored hb (writeBit_flashSafe s _ _ _ _) fun _ => .holdIf _ (.same rfl rfl))
      (.holdIf _ (.same rfl rfl)))
  | call =>
    exact .of_outcome h (.read fun _ => .stored hb (push4_flashSafe _ _ _ _) fun _ => .same rfl rfl)
  | callt => exact .of_outcome h (.stored hb (push4_flashSafe _ _ _ _) fun _ => .same rfl rfl)
  | brk => exact .of_outcome h (.after hb (enterVector_flashSafe _ _ _ _ _))
  | push src =>
    exact .of_outcome h (.store (.after hb (stackWrite_flashSafe _ _ _ _)) fun u hu =>
      .stored hu (stackWrite_flashSafe u _ _ _) fun _ => .same rfl rfl)
  | ret => exact .of_outcome h (.read fun _ => .same rfl rfl)
  | reti => exact .of_outcome h (.stored hb (leaveVector_flashSafe s _) fun _ => .same rfl rfl)
  | retb => exact .of_outcome h (.after hb (leaveVector_flashSafe s _))
  | pop dst =>
    refine .of_outcome h ?_
    cases dst with
    | rp p => exact .read fun _ => .read fun _ => .same rfl rfl
    | psw => exact .read fun _ => .same rfl rfl
  | br t =>
    refine .of_outcome h ?_
    cases t with
    | rel8 | rel16 => exact .read fun _ => .same rfl rfl
    | ax | abs16 | abs20 => exact .same rfl rfl
  | cmp => exact .of_outcome h (.read fun _ => .read fun _ => .same rfl rfl)
  | cmps | cmp0 | addw | subw | cmpw | and1 | or1 | xor1 => exact .of_outcome h (.read fun _ => .same rfl rfl)
  | sel | mulhu | mulh | divhu | divwu | machu | mach => exact .of_outcome h (.read fun _ => .same rfl rfl)
  | prefixByte => cases h
  | xchw | onew | clrw | addwSp | subwSp | mulu | shr | shrw | shl | shlw | sar | sarw | ror | rol | rorc | rolc
  | rolwc | not1 | nop | ei | di | halt | stop =>
    cases h
    exact keepsFlash_of_mem rfl rfl

/-! ### Every event of a step keeps the flash -/

/-- A listed byte stays listed in a part of the list that keeps its address. -/
theorem lookup_filter (f : Host.Cell → Bool) (m : List Host.Cell) {a : Nat} (h : ∀ v, f (a, v) = true) :
    lookup (m.filter f) a = lookup m a := by
  induction m with
  | nil => rfl
  | cons c t ih =>
    obtain ⟨b, w⟩ := c
    by_cases hab : a = b
    · subst hab
      simp only [List.filter_cons, h, if_true, lookup]
    · simp only [List.filter_cons, lookup, if_neg hab, ← ih]
      split
      · simp only [lookup, if_neg hab]
      · rfl

/-- A reset keeps the flash (R421). -/
theorem resetEvent_keepsFlash : KeepsFlash s (resetEvent s) := by
  refine ⟨rfl, fun a ha => ?_⟩
  have hk : ∀ v, keptByReset s.product (a.toNat, v) = true := fun v => by
    simp only [keptByReset, BitVec.ofNat_toNat, BitVec.setWidth_eq, ha]
  change readCell s.product (s.mem.filter (keptByReset s.product)) a = readCell s.product s.mem a
  simp only [readCell, lookup_filter _ s.mem hk]

theorem released_keepsFlash (release : Bool) : KeepsFlash s (released s release) := by
  cases release <;> exact keepsFlash_of_mem rfl rfl

theorem dmaStores_keepsFlash (cells : List Host.Cell) : KeepsFlash s (dmaStores s cells) := by
  obtain ⟨hp, -, -, hf⟩ := dmaStores_keeps s cells
  exact ⟨hp, hf⟩

theorem takeInterrupt_flashSafe (r : IrqRequest) : FlashSafe s (takeInterrupt s r) :=
  .stored (.refl s) (enterVector_flashSafe s _ _ _ _) fun _ => .same rfl rfl

theorem runInstr_keepsFlash {t : State} (h : runInstr s = .next t) : KeepsFlash s t := by
  simp only [runInstr] at h
  split at h
  · exact exec_keepsFlash s _ h
  · exact nomatch outcome_next.mp h

theorem boundary_keepsFlash (r : Option IrqRequest) {t : State} (h : boundary s r = .next t) : KeepsFlash s t := by
  simp only [boundary] at h
  split at h
  · split at h
    · exact runInstr_keepsFlash s h
    · split at h
      · exact FlashSafe.ite .stop (takeInterrupt_flashSafe s _) t (outcome_next.mp h)
      · exact runInstr_keepsFlash s h
  · cases h
    exact .refl s

theorem stepWith_keepsFlash (e : EnvInput) {t : State} (h : stepWith s e = .next t) : KeepsFlash s t := by
  simp only [stepWith] at h
  split at h
  · cases h
    exact (dmaStores_keepsFlash s _).trans (resetEvent_keepsFlash _)
  · exact ((dmaStores_keepsFlash s _).trans (released_keepsFlash _ _)).trans (boundary_keepsFlash _ _ h)

theorem step_keepsFlash {t : State} (h : step s = .next t) : KeepsFlash s t := by
  simp only [step] at h
  split at h
  · exact stepWith_keepsFlash s _ h
  · have k := stepWith_keepsFlash _ _ h
    exact ⟨k.product, k.bytes⟩

end

/-- Settles O13: every event of a step keeps the flash, and so does every instruction. -/
theorem flashNeverChanges : Obligations.FlashNeverChanges :=
  fun s _ a h ha => (step_keepsFlash s h).bytes a ha

end Sys2Proof.Machine

/-! PROOFS. The statements of 40_transfer8.md: MOV and XCH (R171, R172), and ONEB, CLRB, ONEW, CLRW (R173, R174, R193,
R194). XCH puts its new A in before the store, so the key fact is that a byte store to an address other than that of
the PSW does not see a register of the current bank. -/

namespace Sys2Proof.Machine

/-! ### A byte store and a register of the current bank -/

theorem State.setR8_goto (s : State) (r : Reg8) (v : Byte) (a : Addr) :
    (s.setR8 r v).goto a = (s.goto a).setR8 r v := rfl

theorem State.setGpr_comm (s : State) {j k : BitVec 5} (h : j ≠ k) (v w : Byte) :
    (s.setGpr j v).setGpr k w = (s.setGpr k w).setGpr j v := by
  simp only [State.setGpr, Vector.set_comm v w (mt BitVec.eq_of_toNat_eq h)]

theorem gprIndex_bank (b : BitVec 2) (r : Reg8) : (gprIndex b r).extractLsb' 3 2 = b := by
  cases r <;> revert b <;> decide

/-- A register that may be accessed at its address is none of the current bank (R24). -/
theorem gprIndexAt_ne_of_gprCheck {s : State} {a : Addr} {x : Unit} (h : gprCheck s a = .ok x) (r : Reg8) :
    gprIndexAt a ≠ gprIndex s.bank r := by
  intro he
  simp only [gprCheck, he, gprIndex_bank, if_true] at h
  split at h <;> exact refusing_ok h

section
variable (u : AccessUnit) (b : State) (r : Reg8) (v : Byte) {a : Addr} (w : Byte)

theorem writePmc_setR8 : (b.setR8 r v).writePmc w = (b.writePmc w).map (·.setR8 r v) := by
  simp only [State.writePmc, State.setR8_product]
  cases b.product.core with
  | s1 | s2 | s3 => simp only; split <;> rfl

theorem productWrite_setR8 : productWrite u (b.setR8 r v) a w = (productWrite u b a w).map (·.setR8 r v) := by
  simp only [productWrite, State.setR8_product]
  cases sfrEntry b.product a with
  | none => rfl
  | some e =>
    simp only
    split
    · cases e.behaviour <;> rfl
    · rfl

/-- The PSW is the exception: a write of it can select another bank, in which the register is another one. -/
theorem sfrWrite_setR8 (h : a ≠ pswAddr) : sfrWrite u (b.setR8 r v) a w = (sfrWrite u b a w).map (·.setR8 r v) := by
  simp only [sfrWrite, State.setR8_product]
  cases hk : sfrKind b.product.core a with
  | psw => exact absurd (sfrKind_eq_psw hk) h
  | pmc => exact writePmc_setR8 b r v w
  | product => exact productWrite_setR8 u b r v w
  | spByte | reserved | cs | es | macr => rfl

theorem putByte_setR8 (h : a ≠ pswAddr) : putByte u (b.setR8 r v) a w = (putByte u b a w).map (·.setR8 r v) := by
  have hr : (b.setR8 r v).region a = b.region a := rfl
  simp only [putByte, hr]
  cases b.region a with
  | gpr =>
    have hc : gprCheck (b.setR8 r v) a = gprCheck b a := rfl
    simp only [hc]
    cases hg : gprCheck b a with
    | error e => rfl
    | ok x => exact congrArg _ (b.setGpr_comm (gprIndexAt_ne_of_gprCheck hg r).symm v w)
  | sfr => exact sfrWrite_setR8 u b r v w h
  | sfr2 => exact productWrite_setR8 u b r v w
  | ram | cflash | mirror | dflash | reserved => rfl

theorem memWrite8_setR8 (win : Option Addr) (h : a ≠ pswAddr) :
    memWrite8 win (b.setR8 r v) a w = (memWrite8 win b a w).map (·.setR8 r v) := by
  have hw : windowCheck win (b.setR8 r v) a = windowCheck win b a := rfl
  simp only [memWrite8, hw]
  cases windowCheck win b a with
  | error e => rfl
  | ok x => exact putByte_setR8 .byte b r v w h

theorem store8_mem_setR8 {s : State} {m : Mem} (next : Addr) (h : ea s false m ≠ .ok pswAddr) :
    store8 s next (b.setR8 r v) (.mem m) w = (store8 s next b (.mem m) w).map (·.setR8 r v) := by
  cases ha : ea s false m with
  | error e => rw [store8_mem_stop ha, store8_mem_stop ha]; rfl
  | ok a =>
    rw [store8_mem ha, store8_mem ha]
    exact memWrite8_setR8 b r v w _ fun he => h (ha.trans (congrArg _ he))

/-- The byte written to the PSW by its address (R41, R86). -/
theorem putByte_psw : putByte u b pswAddr w = .ok (b.setPsw (Psw.ofByte w)) := by
  simp [putByte, region_of_sfr_le, sfrWrite, sfrKind, pswAddr]

end

/-! ### What each instruction ends in -/

section
variable {s u : State} {dst src : Opd8} {v : Byte}

theorem outcome_bind_of_ok {α : Type} {x : Result α} {c : α} (f : α → Result State) (h : x = .ok c) :
    outcome (x >>= f) = outcome (f c) := by
  rw [h]
  rfl

/-- MOV (R171); its PSW form holds interrupts (R176). -/
theorem exec_mov (hl : load8 s src = .ok v) (hs : store8 s (s.next (.mov dst src)) s.begin dst v = .ok u) :
    exec (.mov dst src) s = .next ((if dst = .psw then u.hold else u).goto (s.next (.mov dst src))) :=
  (outcome_bind_of_ok _ hl).trans (outcome_bind_of_ok _ hs)

theorem exec_xch (hl : load8 s src = .ok v)
    (hs : store8 s (s.next (.xch src)) (s.begin.setR8 .a v) src (s.r8 .a) = .ok u) :
    exec (.xch src) s = .next (u.goto (s.next (.xch src))) :=
  (outcome_bind_of_ok _ hl).trans (outcome_bind_of_ok _ hs)

theorem exec_oneb (hs : store8 s (s.next (.oneb dst)) s.begin dst 0x01#8 = .ok u) :
    exec (.oneb dst) s = .next (u.goto (s.next (.oneb dst))) :=
  outcome_bind_of_ok _ hs

theorem exec_clrb (hs : store8 s (s.next (.clrb dst)) s.begin dst 0x00#8 = .ok u) :
    exec (.clrb dst) s = .next (u.goto (s.next (.clrb dst))) :=
  outcome_bind_of_ok _ hs

end

/-- Settles O24: the store of each destination, past the register A that XCH has put in before it. -/
theorem movXchResults : Obligations.MovXchResults := by
  refine ⟨fun s src v hl => ⟨fun r => ?movReg, fun m u hs => ?movMem⟩, fun s => ⟨fun r hr => ?xchReg,
    fun m v u hp hl hs => ?xchMem, fun m ha hw => ?xchPsw⟩⟩
  case movReg => exact exec_mov (dst := .reg r) hl rfl
  case movMem => exact exec_mov hl hs
  case xchReg =>
    refine ⟨_, exec_xch rfl rfl, rfl, ?_, ?_, fun q hqa hqr => ?_⟩
    all_goals rw [State.setR8_goto, State.setR8_goto, State.begin_goto_next, State.setR8_r8, State.setR8_r8]
    · rw [if_neg hr.symm, if_pos rfl]
    · rw [if_pos rfl]
    · rw [if_neg hqr, if_neg hqa]
      rfl
  case xchMem => exact exec_xch hl (by rw [store8_mem_setR8 _ _ _ _ _ hp, hs]; rfl)
  case xchPsw =>
    have hl : load8 s (.mem m) = .ok s.psw.toByte := (load8_mem ha).trans (load8_psw s)
    have hf : windowCheck (some (s.next (.xch (.mem m)))) (s.begin.setR8 .a s.psw.toByte) pswAddr = .ok () :=
      windowCheck_free hw
    exact exec_xch hl (by rw [store8_mem ha, memWrite8_of_window hf, putByte_psw])

/-- Settles O27: the store of the constant, for a pair the store of its two bytes. -/
theorem constantResults : Obligations.ConstantResults := fun _ =>
  ⟨fun r => ⟨exec_oneb (dst := .reg r) rfl, exec_clrb (dst := .reg r) rfl⟩, fun _ _ hs => exec_oneb hs,
    fun _ _ hs => exec_clrb hs, fun _ => rfl, fun _ => rfl⟩

end Sys2Proof.Machine

/-! PROOFS. The statement of 41_transfer16.md: MOVW to a pair and to memory, and XCHW (R191, R192). XCHW writes two
different pairs one after the other, so each pair it leaves is read past the writes of the others. -/

namespace Sys2Proof.Machine

/-- MOVW (R191). -/
theorem exec_movw {s u : State} {dst src : Opd16} {v : Word} (hl : load16 s src = .ok v)
    (hs : store16 s (s.next (.movw dst src)) s.begin dst v = .ok u) :
    exec (.movw dst src) s = .next (u.goto (s.next (.movw dst src))) :=
  (outcome_bind_of_ok _ hl).trans (outcome_bind_of_ok _ hs)

/-- XCHW AX, rp (R192). -/
theorem exec_xchw (s : State) (p : RegPair) :
    exec (.xchw p) s = .next (((s.advance 1).setRp p (s.rp .ax)).setRp .ax (s.rp p)) := rfl

/-- Settles O28: the store of each destination, and the pairs read back past the two writes of XCHW. -/
theorem movwResult : Obligations.MovwResult := by
  refine fun s => ⟨fun p src v hl => ?movwPair, fun m src v u hl hs => ?movwMem, fun p hp => ?xchwPair⟩
  case movwPair => exact exec_movw (dst := .rp p) hl rfl
  case movwMem => exact exec_movw hl hs
  case xchwPair =>
    refine ⟨_, exec_xchw s p, rfl, State.setRp_rp_self _ _ _, ?_, fun q hqa hqp => ?_⟩
    · rw [State.setRp_rp_ne _ hp, State.setRp_rp_self]
    · rw [State.setRp_rp_ne _ hqa, State.setRp_rp_ne _ hqp]
      rfl

end Sys2Proof.Machine

/-! PROOFS. The statements of 42_alu8.md: ADD, ADDC, SUB, SUBC, AND, OR, XOR (R201 to R207, R211), and the conditions
after CMP (R208, R325 to R330). The exact sum or difference of R211, cut to a byte, is the sum or difference of bytes,
and the flags of a difference with no borrow in compare its operands. -/

namespace Sys2Proof.Machine

/-! ### Add8 and Sub8 (R211) -/

section
variable {a b v : Byte} {c : Bool}

theorem add8_eq (hv : v = a + b + BitVec.ofNat 8 c.toNat) :
    add8 a b c =
      { result := v, z := v == 0#8
        ac := decide (15 < a.toNat % 16 + b.toNat % 16 + c.toNat)
        cy := decide (255 < a.toNat + b.toNat + c.toNat) } := by
  have hsum : BitVec.ofNat 8 (a.toNat + b.toNat + c.toNat) = v := by
    simp only [hv, BitVec.ofNat_add, BitVec.ofNat_toNat, BitVec.setWidth_eq]
  simp only [add8, hsum, gt_iff_lt]

theorem sub8_eq (hv : v = a - b - BitVec.ofNat 8 c.toNat) :
    sub8 a b c =
      { result := v, z := v == 0#8
        ac := decide (a.toNat % 16 < b.toNat % 16 + c.toNat)
        cy := decide (a.toNat < b.toNat + c.toNat) } := by
  have hdiff : BitVec.ofInt 8 ((a.toNat : Int) - b.toNat - c.toNat) = v := by
    simp only [hv, Int.sub_eq_add_neg, BitVec.ofInt_add, BitVec.ofInt_neg, BitVec.ofInt_natCast, BitVec.ofNat_toNat,
      BitVec.setWidth_eq, ← BitVec.sub_eq_add_neg]
  simp only [sub8, hdiff]

/-- With no borrow in, Z says that the operands are equal. -/
theorem sub8_false_z (a b : Byte) : (sub8 a b false).z = decide (a = b) := by
  have hz : (a - b - 0#8 == 0#8) = decide (a = b) := by
    rw [BitVec.sub_zero, Bool.eq_iff_iff, beq_iff_eq, decide_eq_true_iff, BitVec.sub_eq_iff_eq_add, BitVec.zero_add]
  rw [sub8_eq rfl]
  exact hz

end

/-! ### What each instruction ends in -/

section
variable {s u : State} {dst src : Opd8} {a b : Byte}

/-- The shape of ADD, ADDC, SUB, SUBC, by what the operation gives. -/
theorem outcome_arith8 {i : Instr} {f : Byte → Byte → Alu8} {v : Byte} {z ac cy : Bool} (hd : load8 s dst = .ok a)
    (hs : load8 s src = .ok b) (hf : f a b = ⟨v, z, ac, cy⟩) (hu : store8 s (s.next i) s.begin dst v = .ok u) :
    outcome (arith8 i f dst src s) = .next ((u.setZAcCy z ac cy).goto (s.next i)) := by
  simp only [arith8]
  rw [outcome_bind_of_ok _ hd, outcome_bind_of_ok _ hs, hf, outcome_bind_of_ok _ hu]
  rfl

/-- The shape of AND, OR, XOR. -/
theorem outcome_logic8 {i : Instr} {f : Byte → Byte → Byte} (hd : load8 s dst = .ok a) (hs : load8 s src = .ok b)
    (hu : store8 s (s.next i) s.begin dst (f a b) = .ok u) :
    outcome (logic8 i f dst src s) = .next ((u.setZ (f a b == 0#8)).goto (s.next i)) :=
  (outcome_bind_of_ok _ hd).trans ((outcome_bind_of_ok _ hs).trans (outcome_bind_of_ok _ hu))

/-- CMP (R208): the flags compare the operands as unsigned numbers, and their low halves for AC. -/
theorem exec_cmp (hd : load8 s dst = .ok a) (hs : load8 s src = .ok b) :
    exec (.cmp dst src) s = .next ((s.advance (Instr.cmp dst src).len).setZAcCy (decide (a = b))
      (decide (a.toNat % 16 < b.toNat % 16)) (decide (a.toNat < b.toNat))) := by
  rw [← sub8_false_z a b]
  exact (outcome_bind_of_ok _ hd).trans (outcome_bind_of_ok _ hs)

end

/-- Settles O30: the shape of each instruction, with Add8 and Sub8 in bytes. -/
theorem byteOperationResults : Obligations.ByteOperationResults := by
  refine ⟨fun s u d src a b v hd hs => ⟨fun c hv => ⟨fun hc hu => ?add, fun hc hu => ?addc⟩,
    fun c hv => ⟨fun hc hu => ?sub, fun hc hu => ?subc⟩⟩,
    fun s u d src a b hd hs => ⟨fun hu => ?and, fun hu => ?or, fun hu => ?xor⟩⟩
  case add => subst hc; exact outcome_arith8 hd hs (add8_eq hv) hu
  case addc => subst hc; exact outcome_arith8 hd hs (add8_eq hv) hu
  case sub => subst hc; exact outcome_arith8 hd hs (sub8_eq hv) hu
  case subc => subst hc; exact outcome_arith8 hd hs (sub8_eq hv) hu
  case and => exact outcome_logic8 hd hs hu
  case or => exact outcome_logic8 hd hs hu
  case xor => exact outcome_logic8 hd hs hu

/-! ### The conditions after CMP (R325 to R330) -/

/-- H holds where neither equal nor lower is the case, and NH where one of them is. -/
theorem condHolds_of_compare {p : Psw} {a b : Byte} (hz : p.z = decide (a = b))
    (hcy : p.cy = decide (a.toNat < b.toNat)) :
    (condHolds p .c = true ↔ a.toNat < b.toNat) ∧ (condHolds p .nc = true ↔ b.toNat ≤ a.toNat) ∧
      (condHolds p .z = true ↔ a = b) ∧ (condHolds p .nz = true ↔ a ≠ b) ∧
      (condHolds p .h = true ↔ b.toNat < a.toNat) ∧ (condHolds p .nh = true ↔ a.toNat ≤ b.toNat) := by
  have hle : a = b ∨ a.toNat < b.toNat ↔ a.toNat ≤ b.toNat := by
    rw [BitVec.toNat_eq, Nat.le_iff_lt_or_eq, or_comm]
  simp only [condHolds, hz, hcy, Bool.not_eq_true', ← Bool.decide_or, decide_eq_true_eq, decide_eq_false_iff_not, hle,
    Nat.not_lt, Nat.not_le, ne_eq, and_self]

/-- Settles O32: CMP leaves Z and CY as equal and lower. -/
theorem compareThenCondition : Obligations.CompareThenCondition := by
  intro s t d src a b hd hs ht
  rw [exec_cmp hd hs] at ht
  cases ht
  exact condHolds_of_compare rfl rfl

end Sys2Proof.Machine

/-! PROOFS. The statements of 43_alu16_muldiv.md: ADDW, SUBW, CMPW (R220 to R223), DIVHU and DIVWU (R228, R229, R234),
MACHU and MACH (R231 to R233). The arithmetic of each is a fact about words, apart from the state: the exact sum or
difference cut to 16 bits, the unsigned division, and the exact sum cut to 32 bits, which differs from it exactly where
it does not fit. -/

namespace Sys2Proof.Machine

/-! ### Add16 and Sub16 (R223) -/

theorem beq_zero_eq_decide (v : Word) : (v == 0#16) = decide (v = 0#16) := rfl

theorem add16_eq (a b : Word) :
    add16 a b = { result := a + b, z := decide (a + b = 0#16), cy := decide (65535 < a.toNat + b.toNat) } := by
  have hsum : BitVec.ofNat 16 (a.toNat + b.toNat) = a + b := by
    rw [BitVec.ofNat_add, BitVec.ofNat_toNat, BitVec.ofNat_toNat, BitVec.setWidth_eq, BitVec.setWidth_eq]
  simp only [add16, hsum, gt_iff_lt, beq_zero_eq_decide]

/-- The difference is zero exactly where the operands are equal, so Z compares them. -/
theorem sub16_eq (a b : Word) :
    sub16 a b = { result := a - b, z := decide (a = b), cy := decide (a.toNat < b.toNat) } := by
  have hdiff : BitVec.ofInt 16 ((a.toNat : Int) - b.toNat) = a - b := by
    simp only [Int.sub_eq_add_neg, BitVec.ofInt_add, BitVec.ofInt_neg, BitVec.ofInt_natCast, BitVec.ofNat_toNat,
      BitVec.setWidth_eq, ← BitVec.sub_eq_add_neg]
  have hz : a - b = 0#16 ↔ a = b := by rw [BitVec.sub_eq_iff_eq_add, BitVec.zero_add]
  simp only [sub16, hdiff, beq_zero_eq_decide, hz]

/-! ### ADDW, SUBW, CMPW (R220 to R222) -/

section
variable {s : State} {src : Opd16} {b : Word}

theorem exec_addw (hl : load16 s src = .ok b) :
    exec (.addw src) s = .next (((s.advance (Instr.addw src).len).setRp .ax (s.rp .ax + b)).setZAcCy
      (decide (s.rp .ax + b = 0#16)) s.freeAc (decide (65535 < (s.rp .ax).toNat + b.toNat))) := by
  refine (outcome_bind_of_ok _ hl).trans ?_
  rw [add16_eq]
  rfl

theorem exec_subw (hl : load16 s src = .ok b) :
    exec (.subw src) s = .next (((s.advance (Instr.subw src).len).setRp .ax (s.rp .ax - b)).setZAcCy
      (decide (s.rp .ax = b)) s.freeAc (decide ((s.rp .ax).toNat < b.toNat))) := by
  refine (outcome_bind_of_ok _ hl).trans ?_
  rw [sub16_eq]
  rfl

theorem exec_cmpw (hl : load16 s src = .ok b) :
    exec (.cmpw src) s = .next ((s.advance (Instr.cmpw src).len).setZAcCy
      (decide (s.rp .ax = b)) s.freeAc (decide ((s.rp .ax).toNat < b.toNat))) := by
  refine (outcome_bind_of_ok _ hl).trans ?_
  rw [sub16_eq]
  rfl

end

/-- Settles O33: the AC of each is the free value of the model (log 13). -/
theorem wordArithmeticResults : Obligations.WordArithmeticResults := fun _ _ _ hl =>
  ⟨⟨_, exec_addw hl⟩, ⟨_, exec_subw hl⟩, _, exec_cmpw hl⟩

/-! ### An expanded instruction on S3 (R230) -/

theorem outcome_checkCore_of_s3 {s : State} {i : Instr} (t : State) (h : s.product.core = .s3)
    (hi : i.onS3 = true) : outcome (do s.checkCore i; pure t) = .next t := by
  have hon : Instr.onCore i s.product.core = true := by rw [h]; exact hi
  rw [checkCore_bind_of_onCore _ hon]
  rfl

/-! ### Division (R228, R229) -/

/-- Quotient and remainder are no larger than the dividend, so they fit in its width. -/
theorem toNat_ofNat_div_mod {w : Nat} {n d : BitVec w} (hd : d ≠ 0#w) :
    n.toNat = (BitVec.ofNat w (n.toNat / d.toNat)).toNat * d.toNat + (BitVec.ofNat w (n.toNat % d.toNat)).toNat ∧
      (BitVec.ofNat w (n.toNat % d.toNat)).toNat < d.toNat := by
  have hpos : 0 < d.toNat := Nat.pos_of_ne_zero fun h => hd (BitVec.eq_of_toNat_eq (by rw [h, BitVec.toNat_zero]))
  have hq : n.toNat / d.toNat < 2 ^ w := Nat.lt_of_le_of_lt (Nat.div_le_self _ _) n.isLt
  have hr : n.toNat % d.toNat < 2 ^ w := Nat.lt_of_le_of_lt (Nat.mod_le _ _) n.isLt
  rw [BitVec.toNat_ofNat, BitVec.toNat_ofNat, Nat.mod_eq_of_lt hq, Nat.mod_eq_of_lt hr]
  exact ⟨(Nat.div_add_mod' _ _).symm, Nat.mod_lt _ hpos⟩

/-- The shape of DIVHU and DIVWU: all ones and the dividend for a zero divisor, else quotient and remainder. -/
theorem quotient_remainder_of_eq_ite {w : Nat} {n d ones : BitVec w} {p : BitVec w × BitVec w}
    (hp : p = if d = 0#w then (ones, n)
      else (BitVec.ofNat w (n.toNat / d.toNat), BitVec.ofNat w (n.toNat % d.toNat))) :
    (d = 0#w → p.1 = ones ∧ p.2 = n) ∧
      (d ≠ 0#w → n.toNat = p.1.toNat * d.toNat + p.2.toNat ∧ p.2.toNat < d.toNat) := by
  constructor <;> intro hd
  · rw [hp, if_pos hd]
    exact ⟨rfl, rfl⟩
  · rw [hp, if_neg hd]
    exact toNat_ofNat_div_mod hd

theorem State.setHlde_goto (s : State) (v : DWord) (a : Addr) : (s.setHlde v).goto a = (s.goto a).setHlde v := rfl

theorem State.markDivision_goto (s : State) (a b : Addr) : (s.markDivision a).goto b = (s.goto b).markDivision a := rfl

section
variable {s : State}

theorem exec_divhu (h : s.product.core = .s3) :
    exec .divhu s = .next ((((s.advance 3).setRp .ax (divhu16 (s.rp .ax) (s.rp .de)).1).setRp .de
      (divhu16 (s.rp .ax) (s.rp .de)).2).markDivision s.pc) :=
  outcome_checkCore_of_s3 _ h rfl

theorem exec_divwu (h : s.product.core = .s3) :
    exec .divwu s = .next ((((s.advance 3).setBcax (divwu32 s.bcax s.hlde).1).setHlde
      (divwu32 s.bcax s.hlde).2).markDivision s.pc) := by
  refine (outcome_checkCore_of_s3 _ h rfl).trans ?_
  rw [State.markDivision_goto, State.setHlde_goto, State.setBcax_goto, State.begin_goto_next]
  rfl

end

/-- Settles O35: the pairs that DIVWU writes are the halves of its 32-bit quotient and remainder. -/
theorem divideResults : Obligations.DivideResults := by
  refine fun s h => ⟨⟨_, _, exec_divhu h, quotient_remainder_of_eq_ite rfl⟩, _, _, _, _, exec_divwu h, ?_⟩
  simp only [highWord_append_lowWord]
  exact quotient_remainder_of_eq_ite rfl

/-! ### Accumulation (R232, R233) -/

section
variable {m : DWord} {a b : Word}

theorem machu32_result_emod :
    ((machu32 m a b).result.toNat : Int) % 2 ^ 32 = ((m.toNat + a.toNat * b.toNat : Nat) : Int) % 2 ^ 32 := by
  rw [machu32, BitVec.toNat_ofNat, Int.natCast_emod]
  exact Int.emod_emod_of_dvd _ (Int.dvd_refl _)

/-- CY of MACHU: the result differs from the exact sum. -/
theorem machu32_cy : (machu32 m a b).cy = decide ((machu32 m a b).result.toNat ≠ m.toNat + a.toNat * b.toNat) := by
  simp only [machu32, BitVec.toNat_ofNat, ne_eq, Nat.mod_eq_iff_lt (Nat.ne_of_gt (Nat.two_pow_pos 32)), Nat.not_lt, ge_iff_le]

theorem mach32_result_dvd : (2 ^ 32 : Int) ∣ m.toInt + a.toInt * b.toInt - (mach32 m a b).result.toInt := by
  rw [mach32, BitVec.toInt_ofInt]
  exact Int.dvd_self_sub_bmod

/-- AC of MACH: the sign of the result. -/
theorem mach32_ac : (mach32 m a b).ac = decide ((mach32 m a b).result.toInt < 0) :=
  (BitVec.msb_eq_getLsbD_last _).symm.trans BitVec.msb_eq_toInt

/-- A number is kept as a signed 32-bit value exactly where it lies in that range. -/
theorem toInt_ofInt_ne_iff (x : Int) : (BitVec.ofInt 32 x).toInt ≠ x ↔ x > 0x7FFFFFFF ∨ x < -0x80000000 := by
  rw [BitVec.toInt_ofInt, ne_eq, Int.bmod_eq_iff (Nat.two_pow_pos 32)]
  omega

/-- CY of MACH: the result differs from the exact sum. -/
theorem mach32_cy : (mach32 m a b).cy = decide ((mach32 m a b).result.toInt ≠ m.toInt + a.toInt * b.toInt) := by
  simp only [mach32, ← Bool.decide_or, toInt_ofInt_ne_iff]

end

section
variable {s : State}

theorem exec_machu (h : s.product.core = .s3) :
    exec .machu s = .next ({ s.advance 3 with macr := (machu32 s.macr (s.rp .ax) (s.rp .bc)).result }.setAcCy
      (machu32 s.macr (s.rp .ax) (s.rp .bc)).ac (machu32 s.macr (s.rp .ax) (s.rp .bc)).cy) :=
  outcome_checkCore_of_s3 _ h rfl

theorem exec_mach (h : s.product.core = .s3) :
    exec .mach s = .next ({ s.advance 3 with macr := (mach32 s.macr (s.rp .ax) (s.rp .bc)).result }.setAcCy
      (mach32 s.macr (s.rp .ax) (s.rp .bc)).ac (mach32 s.macr (s.rp .ax) (s.rp .bc)).cy) :=
  outcome_checkCore_of_s3 _ h rfl

end

/-- Settles O36: the flags of both instructions by the value that is kept. -/
theorem accumulateResults : Obligations.AccumulateResults := by
  refine fun s h => ⟨⟨_, machu32_result_emod, ?machu⟩, _, mach32_result_dvd, ?mach⟩
  case machu => rw [← machu32_cy]; exact exec_machu h
  case mach => rw [← mach32_ac, ← mach32_cy]; exact exec_mach h

end Sys2Proof.Machine

/-! PROOFS. The statements of 44_incdec_shift_rotate.md: INC, DEC, INCW, DECW (R240 to R244), the shifts (R250 to R256)
and the rotates (R259 to R264). The model shifts by the whole count at once, so the key fact is that one-bit shifts
compose to it, and that CY is the bit the last of them moves out. A rotate through CY is the one-bit rotation of the
value with CY in front of it, taken apart again into CY and the value. -/

namespace Sys2Proof.Machine

/-! ### Increment and decrement (R240 to R244) -/

theorem inc8_eq (a : Byte) :
    inc8 a = { result := a + 1#8, z := decide (a = 0xFF#8), ac := decide (a.toNat % 16 = 15), cy := false } := by
  have hr : BitVec.ofNat 8 (a.toNat + 1) = a + 1#8 := by rw [BitVec.ofNat_add, BitVec.ofNat_toNat, BitVec.setWidth_eq]
  have hz : (a + 1#8 == 0#8) = decide (a = 0xFF#8) := by
    rw [Bool.eq_iff_iff, beq_iff_eq, decide_eq_true_iff, eq_comm, ← BitVec.sub_eq_iff_eq_add]
    exact eq_comm
  simp only [inc8, hr, hz]

theorem dec8_eq (a : Byte) :
    dec8 a = { result := a - 1#8, z := decide (a = 0x01#8), ac := decide (a.toNat % 16 = 0), cy := false } := by
  have hr : BitVec.ofInt 8 ((a.toNat : Int) - 1) = a - 1#8 := by
    rw [Int.sub_eq_add_neg, BitVec.ofInt_add, BitVec.ofInt_natCast, BitVec.ofNat_toNat, BitVec.setWidth_eq,
      BitVec.sub_eq_add_neg]
    rfl
  have hz : (a - 1#8 == 0#8) = decide (a = 0x01#8) := by
    rw [Bool.eq_iff_iff, beq_iff_eq, decide_eq_true_iff, BitVec.sub_eq_iff_eq_add, BitVec.zero_add]
  simp only [dec8, hr, hz]

section
variable {s u : State}

theorem exec_inc {d : Opd8} {a : Byte} (hl : load8 s d = .ok a)
    (hs : store8 s (s.next (.inc d)) s.begin d (a + 1#8) = .ok u) :
    exec (.inc d) s =
      .next ((u.setZAc (decide (a = 0xFF#8)) (decide (a.toNat % 16 = 15))).goto (s.next (.inc d))) := by
  refine (outcome_bind_of_ok _ hl).trans ?_
  rw [inc8_eq]
  exact outcome_bind_of_ok _ hs

theorem exec_dec {d : Opd8} {a : Byte} (hl : load8 s d = .ok a)
    (hs : store8 s (s.next (.dec d)) s.begin d (a - 1#8) = .ok u) :
    exec (.dec d) s =
      .next ((u.setZAc (decide (a = 0x01#8)) (decide (a.toNat % 16 = 0))).goto (s.next (.dec d))) := by
  refine (outcome_bind_of_ok _ hl).trans ?_
  rw [dec8_eq]
  exact outcome_bind_of_ok _ hs

theorem exec_incw {d : Opd16} {a : Word} (hl : load16 s d = .ok a)
    (hs : store16 s (s.next (.incw d)) s.begin d (a + 1#16) = .ok u) :
    exec (.incw d) s = .next (u.goto (s.next (.incw d))) :=
  (outcome_bind_of_ok _ hl).trans (outcome_bind_of_ok _ hs)

theorem exec_decw {d : Opd16} {a : Word} (hl : load16 s d = .ok a)
    (hs : store16 s (s.next (.decw d)) s.begin d (a - 1#16) = .ok u) :
    exec (.decw d) s = .next (u.goto (s.next (.decw d))) :=
  (outcome_bind_of_ok _ hl).trans (outcome_bind_of_ok _ hs)

end

/-- Settles O37: the load and the store of each, with the flags of INC and DEC as they compare the old byte. -/
theorem incDecResults : Obligations.IncDecResults := fun _ =>
  ⟨fun _ _ _ hl => ⟨exec_inc hl, exec_dec hl⟩, fun _ _ _ hl => ⟨exec_incw hl, exec_decw hl⟩⟩

/-! ### Decoding a shift (R134, R250) -/

theorem decode_page31 (b : Byte) : decode [0x31#8, b] = map4 b [] := rfl

theorem loNibble_append (h k : BitVec 4) : loNibble (h ++ k) = k := BitVec.extractLsb'_append_eq_right

theorem hiNibble_append (h k : BitVec 4) : hiNibble (h ++ k) = h := BitVec.extractLsb'_append_eq_left

theorem bitField_append (cnt : BitVec 3) (k : BitVec 4) : bitField (0#1 ++ cnt ++ k : Byte) = cnt :=
  (BitVec.extractLsb'_append_eq_of_le (Nat.le_refl 4)).trans BitVec.extractLsb'_append_eq_right

/-- The low nibble of the second byte selects the cell, the bits above it are the count. -/
theorem decode_shiftCell {f : BitVec 3 → Instr} {cnt : BitVec 3} {k : BitVec 4}
    (hcell : ∀ b, loNibble b = k → map4 b = shiftCell f b) (h : cnt ≠ 0#3) :
    decode [0x31#8, (0#1 ++ cnt ++ k : Byte)] = .done (f cnt) := by
  have hhi : hiNibble (0#1 ++ cnt ++ k) < 8#4 := by
    rw [hiNibble_append, BitVec.lt_def, BitVec.toNat_append, BitVec.toNat_zero, Nat.zero_shiftLeft, Nat.zero_or]
    exact cnt.isLt
  have hb : bitField (0#1 ++ cnt ++ k) = cnt := bitField_append cnt k
  rw [decode_page31, hcell _ (loNibble_append _ _), shiftCell, hb, if_pos ⟨hhi, h⟩]
  rfl

theorem decode_shiftwCell {f : BitVec 4 → Instr} {cnt k : BitVec 4}
    (hcell : ∀ b, loNibble b = k → map4 b = shiftwCell f b) (h : cnt ≠ 0#4) :
    decode [0x31#8, (cnt ++ k : Byte)] = .done (f cnt) := by
  rw [decode_page31, hcell _ (loNibble_append _ _), shiftwCell, hiNibble_append, if_pos h]
  rfl

section
variable {b : Byte}

theorem map4_shr (h : loNibble b = 0xA#4) : map4 b = shiftCell .shr b := by rw [map4, h]; rfl

theorem map4_sar (h : loNibble b = 0xB#4) : map4 b = shiftCell .sar b := by rw [map4, h]; rfl

theorem map4_shl {r : Reg8} {k : BitVec 4} (hk : (r, k) ∈ [(Reg8.a, 9#4), (.b, 8#4), (.c, 7#4)])
    (h : loNibble b = k) : map4 b = shiftCell (.shl r) b := by
  simp only [List.mem_cons, Prod.mk.injEq, List.not_mem_nil, or_false] at hk
  obtain ⟨rfl, rfl⟩ | ⟨rfl, rfl⟩ | ⟨rfl, rfl⟩ := hk <;> rw [map4, h] <;> rfl

theorem map4_shrw (h : loNibble b = 0xE#4) : map4 b = shiftwCell .shrw b := by rw [map4, h]; rfl

theorem map4_sarw (h : loNibble b = 0xF#4) : map4 b = shiftwCell .sarw b := by rw [map4, h]; rfl

theorem map4_shlw {p : RegPair} {k : BitVec 4} (hk : (p, k) ∈ [(RegPair.ax, 0xD#4), (.bc, 0xC#4)])
    (h : loNibble b = k) : map4 b = shiftwCell (.shlw p) b := by
  simp only [List.mem_cons, Prod.mk.injEq, List.not_mem_nil, or_false] at hk
  obtain ⟨rfl, rfl⟩ | ⟨rfl, rfl⟩ := hk <;> rw [map4, h] <;> rfl

end

/-! ### Shifts as repeated one-bit shifts (R250 to R256) -/

section
variable {w n : Nat} {c : Bool}

/-- The shifts `sh` add up, and `out v` is the bit that a one-bit shift moves out of `v`. -/
theorem repeated_eq {one : BitVec w → BitVec w × Bool} {sh : BitVec w → Nat → BitVec w} {out : BitVec w → Bool}
    (hone : ∀ v, one v = (sh v 1, out v)) (hzero : ∀ v, sh v 0 = v)
    (hadd : ∀ v n, sh v (1 + n) = sh (sh v 1) n) (hn : n ≠ 0) (v : BitVec w) :
    repeated one n (v, c) = (sh v n, out (sh v (n - 1))) := by
  obtain ⟨n, rfl⟩ := Nat.exists_eq_succ_of_ne_zero hn
  induction n generalizing v c with
  | zero => rw [repeated, repeated, hone, hzero]
  | succ n ih =>
    calc repeated one (n + 1 + 1) (v, c)
      _ = repeated one (n + 1) (sh v 1, out v) := by rw [repeated, hone]
      _ = (sh (sh v 1) (n + 1), out (sh (sh v 1) n)) := ih _ (Nat.succ_ne_zero n)
      _ = (sh v (n + 1 + 1), out (sh v (n + 1))) := by rw [← hadd, ← hadd, Nat.add_comm 1, Nat.add_comm 1]

/-! The one-bit shifts, written out as they are in the statement. -/

theorem zero_append_eq_ushiftRight (v : BitVec (1 + w)) : 0#1 ++ v.extractLsb' 1 w = v >>> 1 := by
  ext i hi
  rw [BitVec.getElem_append, BitVec.getElem_ushiftRight]
  split
  · exact BitVec.getElem_extractLsb' _
  · rw [BitVec.getElem_zero, BitVec.getLsbD_of_ge v _ (by omega)]

theorem msb_append_eq_sshiftRight (v : BitVec (1 + w)) :
    v.extractLsb' w 1 ++ v.extractLsb' 1 w = v.sshiftRight 1 := by
  ext i hi
  rw [BitVec.getElem_append, BitVec.getElem_sshiftRight]
  split
  · rw [dif_pos (by omega), BitVec.getElem_extractLsb', BitVec.getLsbD_eq_getElem]
  · rw [dif_neg (by omega), BitVec.getElem_extractLsb', BitVec.msb_eq_getLsbD_last]
    congr 1
    omega

theorem append_zero_eq_shiftLeft (v : BitVec (w + 1)) : v.extractLsb' 0 w ++ 0#1 = v <<< 1 := by
  ext i hi
  rw [BitVec.getElem_append, BitVec.getElem_shiftLeft]
  grind

theorem repeated_ushiftRight (hn : n ≠ 0) (v : BitVec (1 + w)) :
    repeated (fun v => (0#1 ++ v.extractLsb' 1 w, v.getLsbD 0)) n (v, c) = (v >>> n, v.getLsbD (n - 1)) := by
  have hone (v : BitVec (1 + w)) : (0#1 ++ v.extractLsb' 1 w, v.getLsbD 0) = (v >>> 1, v.getLsbD 0) := by
    rw [zero_append_eq_ushiftRight]
  have hout : (v >>> (n - 1)).getLsbD 0 = v.getLsbD (n - 1) := BitVec.getLsbD_ushiftRight v (n - 1) 0
  rw [repeated_eq hone BitVec.ushiftRight_zero (fun v => BitVec.shiftRight_add v 1) hn, hout]

theorem repeated_sshiftRight (hn : n ≠ 0) (hw : n ≤ 1 + w) (v : BitVec (1 + w)) :
    repeated (fun v => (v.extractLsb' w 1 ++ v.extractLsb' 1 w, v.getLsbD 0)) n (v, c) =
      (v.sshiftRight n, v.getLsbD (n - 1)) := by
  have hone (v : BitVec (1 + w)) :
      (v.extractLsb' w 1 ++ v.extractLsb' 1 w, v.getLsbD 0) = (v.sshiftRight 1, v.getLsbD 0) := by
    rw [msb_append_eq_sshiftRight]
  have hout : (v.sshiftRight (n - 1)).getLsbD 0 = v.getLsbD (n - 1) := by
    rw [BitVec.getLsbD_sshiftRight, if_pos (by omega), decide_eq_false (by omega)]
    rfl
  rw [repeated_eq hone (fun _ => BitVec.sshiftRight_zero) (fun _ _ => BitVec.sshiftRight_add) hn, hout]

theorem repeated_shiftLeft (hn : n ≠ 0) (hw : n ≤ w + 1) (v : BitVec (w + 1)) :
    repeated (fun v => (v.extractLsb' 0 w ++ 0#1, v.getLsbD w)) n (v, c) = (v <<< n, v.getLsbD (w + 1 - n)) := by
  have hone (v : BitVec (w + 1)) : (v.extractLsb' 0 w ++ 0#1, v.getLsbD w) = (v <<< 1, v.getLsbD w) := by
    rw [append_zero_eq_shiftLeft]
  have hout : (v <<< (n - 1)).getLsbD w = v.getLsbD (w + 1 - n) := by grind
  rw [repeated_eq hone BitVec.shiftLeft_zero (fun v => BitVec.shiftLeft_add v 1) hn, hout]

end

/-! ### What a shift or rotate ends in -/

theorem len_shl (r : Reg8) (cnt : BitVec 3) : (Instr.shl r cnt).len = 2 := by cases r <;> rfl

theorem len_shlw (p : RegPair) (cnt : BitVec 4) : (Instr.shlw p cnt).len = 2 := by cases p <;> rfl

section
variable {s : State} {i : Instr}

theorem outcome_toR8 {r : Reg8} {v x : Byte × Bool} (hi : i.len = 2) (h : x = v) :
    outcome (toR8 s i r v) = .next (((s.advance 2).setR8 r x.1).setCy x.2) := by
  rw [h, ← hi]
  rfl

theorem outcome_toRp {p : RegPair} {v x : Word × Bool} (hi : i.len = 2) (h : x = v) :
    outcome (toRp s i p v) = .next (((s.advance 2).setRp p x.1).setCy x.2) := by
  rw [h, ← hi]
  rfl

end

/-- Settles O38: each shift by its count, as the one-bit shifts compose to it. -/
theorem shiftResults : Obligations.ShiftResults := by
  refine ⟨fun s cnt h => ?byte, fun s cnt h => ?word⟩
  case byte =>
    have hn : cnt.toNat ≠ 0 := BitVec.toNat_ne.mp h
    have hw : cnt.toNat ≤ 8 := Nat.le_of_lt cnt.isLt
    refine ⟨⟨decode_shiftCell (fun _ => map4_shr) h, fun _ hx => ?shr⟩,
      ⟨decode_shiftCell (fun _ => map4_sar) h, fun _ hx => ?sar⟩,
      fun r k hk => ⟨decode_shiftCell (fun _ => map4_shl hk) h, fun _ hx => ?shl⟩⟩
    case shr => exact outcome_toR8 rfl (hx.trans (repeated_ushiftRight hn _))
    case sar => exact outcome_toR8 rfl (hx.trans (repeated_sshiftRight hn hw _))
    case shl => exact outcome_toR8 (len_shl r cnt) (hx.trans (repeated_shiftLeft hn hw _))
  case word =>
    have hn : cnt.toNat ≠ 0 := BitVec.toNat_ne.mp h
    have hw : cnt.toNat ≤ 16 := Nat.le_of_lt cnt.isLt
    refine ⟨⟨decode_shiftwCell (fun _ => map4_shrw) h, fun _ hx => ?shrw⟩,
      ⟨decode_shiftwCell (fun _ => map4_sarw) h, fun _ hx => ?sarw⟩,
      fun p k hk => ⟨decode_shiftwCell (fun _ => map4_shlw hk) h, fun _ hx => ?shlw⟩⟩
    case shrw => exact outcome_toRp rfl (hx.trans (repeated_ushiftRight hn _))
    case sarw => exact outcome_toRp rfl (hx.trans (repeated_sshiftRight hn hw _))
    case shlw => exact outcome_toRp (len_shlw p cnt) (hx.trans (repeated_shiftLeft hn hw _))

/-! ### Rotates (R259 to R264) -/

section
variable {w i : Nat}

theorem getElem_rotateRight_one (hw : 1 < w) (v : BitVec w) (hi : i < w) :
    (v.rotateRight 1)[i] = v.getLsbD (if i + 1 < w then i + 1 else 0) := by
  rw [BitVec.getElem_rotateRight]
  simp only [Nat.mod_eq_of_lt hw]
  grind

theorem getElem_rotateLeft_one (hw : 1 < w) (v : BitVec w) (hi : i < w) :
    (v.rotateLeft 1)[i] = v.getLsbD (if i = 0 then w - 1 else i - 1) := by
  rw [BitVec.getElem_rotateLeft]
  simp only [Nat.mod_eq_of_lt hw]
  grind

theorem rotateRight_one (hw : 0 < w) (v : BitVec (1 + w)) :
    v.rotateRight 1 = BitVec.ofBool (v.getLsbD 0) ++ v.extractLsb' 1 w := by
  ext i hi
  rw [getElem_rotateRight_one (Nat.lt_add_right_iff_pos.mpr hw), BitVec.getElem_append]
  grind [BitVec.getElem_ofBool]

theorem rotateLeft_one (hw : 0 < w) (v : BitVec (w + 1)) :
    v.rotateLeft 1 = v.extractLsb' 0 w ++ BitVec.ofBool (v.getLsbD w) := by
  ext i hi
  rw [getElem_rotateLeft_one (Nat.lt_add_left_iff_pos.mpr hw), BitVec.getElem_append]
  grind [BitVec.getElem_ofBool]

theorem ofBool_append_rotateRight_one (c : Bool) (v : BitVec (1 + w)) :
    (BitVec.ofBool c ++ v).rotateRight 1 = BitVec.ofBool (v.getLsbD 0) ++ (BitVec.ofBool c ++ v.extractLsb' 1 w) := by
  ext i hi
  rw [getElem_rotateRight_one (by omega)]
  simp only [BitVec.getElem_append, BitVec.getLsbD_append]
  grind [BitVec.getElem_ofBool]

theorem ofBool_append_rotateLeft_one (c : Bool) (v : BitVec (w + 1)) :
    (BitVec.ofBool c ++ v).rotateLeft 1 = BitVec.ofBool (v.getLsbD w) ++ (v.extractLsb' 0 w ++ BitVec.ofBool c) := by
  ext i hi
  rw [getElem_rotateLeft_one (by omega)]
  simp only [BitVec.getElem_append, BitVec.getLsbD_append]
  grind [BitVec.getElem_ofBool]
/-- A bit and the value below it are determined by the two together. -/
theorem eq_of_ofBool_append_eq {c d : Bool} {v u : BitVec w} (h : BitVec.ofBool c ++ v = BitVec.ofBool d ++ u) :
    (v, c) = (u, d) := by
  have hv : v = u := by
    simpa only [BitVec.extractLsb'_append_eq_right] using congrArg (BitVec.extractLsb' 0 w) h
  subst hv
  have hc : c = d := BitVec.ofBool_eq_iff_eq.mp ((BitVec.append_left_inj v).mp h)
  rw [hc]

end

section
variable {c cy : Bool}

theorem ror8_eq (a : Byte) : (a.rotateRight 1, (a.rotateRight 1).getLsbD 7) = ror8 a := by
  have hr : a.rotateRight 1 = BitVec.ofBool (a.getLsbD 0) ++ a.extractLsb' 1 7 := rotateRight_one (w := 7) (by decide) a
  have hcy : (a.rotateRight 1).getLsbD 7 = a.getLsbD 0 := BitVec.getLsbD_rotateRight
  rw [ror8, hcy, hr]

theorem rol8_eq (a : Byte) : (a.rotateLeft 1, (a.rotateLeft 1).getLsbD 0) = rol8 a := by
  have hr : a.rotateLeft 1 = a.extractLsb' 0 7 ++ BitVec.ofBool (a.getLsbD 7) := rotateLeft_one (w := 7) (by decide) a
  have hcy : (a.rotateLeft 1).getLsbD 0 = a.getLsbD 7 := BitVec.getLsbD_rotateLeft
  rw [rol8, hcy, hr]

theorem eq_rorc8 {v a : Byte} (h : BitVec.ofBool c ++ v = (BitVec.ofBool cy ++ a).rotateRight 1) :
    (v, c) = rorc8 a cy :=
  eq_of_ofBool_append_eq (h.trans (ofBool_append_rotateRight_one (w := 7) cy a))

theorem eq_rolc8 {v a : Byte} (h : BitVec.ofBool c ++ v = (BitVec.ofBool cy ++ a).rotateLeft 1) :
    (v, c) = rolc8 a cy :=
  eq_of_ofBool_append_eq (h.trans (ofBool_append_rotateLeft_one cy a))

theorem eq_rolc16 {v a : Word} (h : BitVec.ofBool c ++ v = (BitVec.ofBool cy ++ a).rotateLeft 1) :
    (v, c) = rolc16 a cy :=
  eq_of_ofBool_append_eq (h.trans (ofBool_append_rotateLeft_one cy a))

end

theorem len_rolwc (p : RegPair) : (Instr.rolwc p).len = 2 := by cases p <;> rfl

/-- Settles O39: the value each rotate computes, as the rotation of the register or of CY and the register. -/
theorem rotateResults : Obligations.RotateResults := by
  refine ⟨by decide, fun s c v => ⟨?ror, ?rol, fun h => ?rorc, fun h => ?rolc, fun p w h => ?rolwc⟩⟩
  case ror => exact outcome_toR8 rfl (ror8_eq (s.r8 .a))
  case rol => exact outcome_toR8 rfl (rol8_eq (s.r8 .a))
  case rorc => exact outcome_toR8 rfl (eq_rorc8 h)
  case rolc => exact outcome_toR8 rfl (eq_rolc8 h)
  case rolwc => exact outcome_toRp (len_rolwc p) (eq_rolc16 h)

end Sys2Proof.Machine

/-! PROOFS. The statements of 46_call_stack.md: a handler entered by BRK or by an interrupt, and its return by RETB or
RETI (R290, R293, R295, R296, R383, R385). The entry leaves a frame on the stack, and a return that finds that frame
takes back what the entry put into it. -/

namespace Sys2Proof.Machine

/-! ### A stack byte read after a stack write (R99) -/

theorem addrOf_inj {hi : BitVec 4} {p q : Word} : addrOf hi p = addrOf hi q ↔ p = q := BitVec.append_right_inj hi

section
variable {win : Option Addr} {b t : State} {p : Word} {v : Byte} (h : stackWrite win b p v = .ok t)
include h

theorem stackRead_stackWrite_self (hi : Inv b) : stackRead t p = .ok v := by
  obtain ⟨hw, rfl⟩ := stackWrite_ok h
  exact stackRead_ok.mpr ⟨hw, State.setCell_byteAt_self (Memory.wf_rising hi.memory) _ v⟩

theorem stackRead_stackWrite_ne {q : Word} (hq : q ≠ p) : stackRead t q = stackRead b q := by
  obtain ⟨-, rfl⟩ := stackWrite_ok h
  have hb := State.setCell_byteAt_ne (s := b) (mt addrOf_inj.mp hq : addrOf 0xF#4 q ≠ addrOf 0xF#4 p) v
  rw [stackRead_eq, stackRead_eq, ← hb]
  rfl

end

theorem stackByte_eq_some {s : State} {k : Nat} {v : Byte} :
    stackByte s k = some v ↔ stackRead s (s.sp + BitVec.ofNat 16 k) = .ok v := by
  simp only [stackRead_ok, stackByte, stackAddr]
  exact Option.ite_none_right_eq_some

/-! ### The frame of an entry (R47, R290) -/

/-- At SP lies the frame that CALL, BRK and interrupts push: the return address, low byte first, below a top byte. -/
structure HoldsFrame (s : State) (top : Byte) (ret : Addr) : Prop where
  low : stackByte s 0 = some (ret.extractLsb' 0 8)
  high : stackByte s 1 = some (ret.extractLsb' 8 8)
  upper : stackByte s 2 = some ((ret.extractLsb' 16 4).setWidth 8)
  topByte : stackByte s 3 = some top

theorem HoldsFrame.of_stackBytes {t u : State} {top : Byte} {ret : Addr} (h : HoldsFrame t top ret)
    (hb : ∀ k, k < 4 → stackByte u k = stackByte t k) : HoldsFrame u top ret where
  low := (hb 0 (by decide)).trans h.low
  high := (hb 1 (by decide)).trans h.high
  upper := (hb 2 (by decide)).trans h.upper
  topByte := (hb 3 (by decide)).trans h.topByte

/-- A value of SP that has bit 0 clear is stored as it is (R45). -/
theorem clearBit0_of_even {v : Word} (h : v.getLsbD 0 = false) : v &&& 0xFFFE#16 = v := by
  have hmask : ∀ j : Fin 15, (0xFFFE#16).getLsbD (j + 1) = true := by decide
  refine BitVec.eq_of_getLsbD_eq fun i hlt => ?_
  rw [BitVec.getLsbD_and]
  cases i with
  | zero => rw [h, Bool.false_and]
  | succ j => rw [hmask ⟨j, by omega⟩, Bool.and_true]

theorem Inv.setSp_sub_four {s : State} (hi : Inv s) : (s.sp - 4#16) &&& 0xFFFE#16 = s.sp - 4#16 := by
  have heven : s.sp.toNat % 2 = 0 := by simpa [BitVec.getLsbD, Nat.testBit_zero] using hi.spEven
  have hlow : (s.sp - 4#16).toNat % 2 = 0 := by bv_omega
  exact clearBit0_of_even (by simpa [BitVec.getLsbD, Nat.testBit_zero] using hlow)

theorem push4_sp {win : Option Addr} {b t : State} {top : Byte} {ret : Addr} (hi : Inv b)
    (h : push4 win b top ret = .ok t) : t.sp = b.sp - 4#16 := by
  rw [(push4_ok h).2]
  exact hi.setSp_sub_four

/-- Four stack writes at four different addresses: each byte is read back. -/
theorem holdsFrame_of_push4 {win : Option Addr} {b t : State} {top : Byte} {ret : Addr} (hi : Inv b)
    (h : push4 win b top ret = .ok t) : HoldsFrame t top ret := by
  have hsp := push4_sp hi h
  obtain ⟨t1, h1, h⟩ := bind_ok.mp h
  obtain ⟨t2, h2, h⟩ := bind_ok.mp h
  obtain ⟨t3, h3, h⟩ := bind_ok.mp h
  obtain ⟨t4, h4, h⟩ := bind_ok.mp h
  have hi1 := (wrote_stackWrite h1).inv hi
  have hi2 := (wrote_stackWrite h2).inv hi1
  have hi3 := (wrote_stackWrite h3).inv hi2
  cases h
  have hread (p : Word) : stackRead (t4.setSp (b.sp - 4#16)) p = stackRead t4 p := rfl
  constructor <;> rw [stackByte_eq_some, hsp, hread]
  case low =>
    rw [show b.sp - 4#16 + BitVec.ofNat 16 0 = b.sp - 4#16 by bv_omega]
    exact stackRead_stackWrite_self h4 hi3
  case high =>
    rw [show b.sp - 4#16 + BitVec.ofNat 16 1 = b.sp - 3#16 by bv_omega, stackRead_stackWrite_ne h4 (by bv_omega)]
    exact stackRead_stackWrite_self h3 hi2
  case upper =>
    rw [show b.sp - 4#16 + BitVec.ofNat 16 2 = b.sp - 2#16 by bv_omega, stackRead_stackWrite_ne h4 (by bv_omega),
      stackRead_stackWrite_ne h3 (by bv_omega)]
    exact stackRead_stackWrite_self h2 hi1
  case topByte =>
    rw [show b.sp - 4#16 + BitVec.ofNat 16 3 = b.sp - 1#16 by bv_omega, stackRead_stackWrite_ne h4 (by bv_omega),
      stackRead_stackWrite_ne h3 (by bv_omega), stackRead_stackWrite_ne h2 (by bv_omega)]
    exact stackRead_stackWrite_self h1 hi

/-! ### Return from the frame (R290, R295, R296) -/

theorem Psw.ofByte_toByte (p : Psw) : Psw.ofByte p.toByte = p := by
  obtain ⟨ie, z, rbs1, ac, rbs0, isp1, isp0, cy⟩ := p
  revert ie z rbs1 ac rbs0 isp1 isp0 cy
  decide

theorem addrOf_frame (a : Addr) : addrOf (((a.extractLsb' 16 4).setWidth 8).extractLsb' 0 4)
    (wordOf (a.extractLsb' 0 8) (a.extractLsb' 8 8)) = a := by
  have hupper : ((a.extractLsb' 16 4).setWidth 8).extractLsb' 0 4 = a.extractLsb' 16 4 :=
    (BitVec.extractLsb'_setWidth_of_le (by decide)).trans BitVec.extractLsb'_eq_self
  have hlow : a.extractLsb' 8 8 ++ a.extractLsb' 0 8 = a.extractLsb' 0 16 :=
    BitVec.extractLsb'_append_extractLsb'_eq_extractLsb' rfl
  rw [addrOf, wordOf, hupper, hlow]
  exact (BitVec.extractLsb'_append_extractLsb'_eq_extractLsb' rfl).trans BitVec.extractLsb'_eq_self

section
variable {s : State} {ret : Addr}

theorem pop3_of_holdsFrame {top : Byte} (h : HoldsFrame s top ret) : pop3 s = .ok ret := by
  have hlow := stackByte_eq_some.mp h.low
  rw [BitVec.add_zero] at hlow
  exact pop3_ok.mpr ⟨_, _, _, hlow, stackByte_eq_some.mp h.high, stackByte_eq_some.mp h.upper, (addrOf_frame ret).symm⟩

theorem leaveVector_of_holdsFrame {p : Psw} (h : HoldsFrame s p.toByte ret) (b : State) :
    leaveVector s b = .ok (((b.setPsw p).setSp (s.sp + 4#16)).goto ret).hold := by
  have htop : stackRead s (s.sp + 3#16) = .ok p.toByte := stackByte_eq_some.mp h.topByte
  refine bind_ok.mpr ⟨ret, pop3_of_holdsFrame h, bind_ok.mpr ⟨_, htop, ?_⟩⟩
  rw [Psw.ofByte_toByte]
  rfl

end

/-- What an entry put on the stack, the return takes back: pc, the whole PSW and SP, whatever the handler did elsewhere. -/
theorem leaveVector_of_enterVector {win : Option Addr} {s t u : State} {ret vector : Addr} {isp : Option (BitVec 2)}
    (hi : Inv s) (ht : enterVector win s ret vector isp = .ok t) (hp : u.product = t.product) (hsp : u.sp = t.sp)
    (hb : ∀ k, k < 4 → stackByte u k = stackByte t k) :
    ∃ w, leaveVector u u.begin = .ok w ∧ w.pc = ret ∧ w.psw = s.psw ∧ w.sp = s.sp ∧ w.intHold = true := by
  obtain ⟨f, hf, rfl⟩ := enterVector_ok ht
  have hframe : HoldsFrame u s.psw.toByte ret := (holdsFrame_of_push4 hi hf).of_stackBytes hb
  have hcore : u.product = s.product := hp.trans (wrote_push4 hf).frame.product
  have hback : u.sp + 4#16 = s.sp := by
    rw [hsp]
    exact (congrArg (· + 4#16) (push4_sp hi hf)).trans (BitVec.sub_add_cancel _ _)
  refine ⟨_, leaveVector_of_holdsFrame hframe _, rfl, ?_, ?_, rfl⟩
  · simp only [State.hold_psw, State.goto_psw, State.setSp_psw, State.setPsw_psw, State.begin_product, hcore]
    exact Psw.masked_of_s1 hi.banksS1
  · simp only [State.hold_sp, State.goto_sp, State.setSp_sp, hback]
    exact clearBit0_of_even hi.spEven

/-! ### The acknowledged request (R373, R382, R383) -/

theorem step_offered (s : State) (e : EnvInput) : step (s.offered e) = stepWith s e := rfl

theorem step_of_acknowledgeable {s : State} {r : IrqRequest} (h : acknowledgeable s r = true) :
    step (s.offered (requestInput r)) = outcome (acknowledge s r) := by
  have hrun : s.mode = .run := by
    simp only [acknowledgeable, Bool.and_eq_true, decide_eq_true_eq] at h
    obtain ⟨⟨hrun, -⟩, -⟩ := h
    exact hrun
  rw [step_offered]
  simp only [stepWith, requestInput, quietInput, dmaStores, List.foldl_nil, released, Bool.false_eq_true, if_false,
    boundary, hrun, h, if_true]

/-- An acknowledgement that completes is an entry at the pc of the interrupted program, with the hold and the division
mark cleared and the notice given. -/
theorem acknowledge_ok {s t : State} {r : IrqRequest} (h : acknowledge s r = .ok t) :
    ∃ isp e, enterVector none s s.pc (vectorOf r) isp = .ok e ∧
      t = { e with intHold := false, afterDiv := none, notices := .ack r :: e.notices } := by
  simp only [acknowledge] at h
  split at h
  · exact absurd h refusing_ok
  · obtain ⟨e, he, h⟩ := bind_ok.mp h
    cases h
    exact ⟨_, e, he, rfl⟩

theorem acknowledgeable_of_intHold {s : State} (h : s.intHold = true) (r : IrqRequest) : acknowledgeable s r = false := by
  simp only [acknowledgeable, h, Bool.not_true, Bool.and_false, Bool.false_and]

theorem Inv.begin {s : State} (h : Inv s) : Inv s.begin := h.congr rfl rfl rfl rfl rfl rfl rfl rfl

/-- Settles O48: both entries push the frame that both returns take back; RETI also holds the next acknowledgement. -/
theorem handlersReturn : Obligations.HandlersReturn := by
  refine ⟨fun s t u hi ht hp hsp hb => ?brk, fun s t u r hi hr ht hp hsp hb => ?interrupt⟩
  case brk =>
    obtain ⟨w, hw, hpc, hpsw, hsp', -⟩ := leaveVector_of_enterVector hi.begin (outcome_next.mp ht) hp hsp hb
    exact ⟨w, outcome_next.mpr hw, hpc, hpsw, hsp'⟩
  case interrupt =>
    rw [step_of_acknowledgeable hr] at ht
    obtain ⟨isp, e, he, rfl⟩ := acknowledge_ok (outcome_next.mp ht)
    obtain ⟨w, hw, hpc, hpsw, hsp', hhold⟩ := leaveVector_of_enterVector hi he hp hsp hb
    exact ⟨{ w with notices := .returned :: w.notices }, outcome_bind_of_ok _ hw, hpc, hpsw, hsp',
      acknowledgeable_of_intHold hhold⟩

end Sys2Proof.Machine

/-! PROOFS. The statements of 47_branch_skip.md: BR and the flag branches (R320 to R330). A relative branch is the check
of R321 and then the jump, so that each outcome of a branch is that of its check. -/

namespace Sys2Proof.Machine

/-! ### The jump and the check before it (R320, R321) -/

theorem State.begin_goto (s : State) (a : Addr) : s.begin.goto a = { s.advance 0 with pc := a } := rfl

theorem branchCheck_eq (s : State) (a : Addr) :
    branchCheck s a = if fromRamToFlash s a then refusing (.prohibitedBranch a) else .ok () := by
  simp only [branchCheck, fromRamToFlash, Bool.and_eq_true, decide_eq_true_eq]

/-- What BR and the conditional branches do when they take a relative branch: the check of the target, then the jump. -/
def jumpChecked (s : State) (a : Addr) : Result State := do
  branchCheck s a
  pure (s.begin.goto a)

theorem jumpChecked_of_allowed {s : State} {a : Addr} (h : fromRamToFlash s a = false) :
    outcome (jumpChecked s a) = .next { s.advance 0 with pc := a } := by
  rw [jumpChecked, branchCheck_eq, h]
  exact congrArg _ (s.begin_goto a)

theorem jumpChecked_of_prohibited {s : State} {a : Addr} (h : fromRamToFlash s a = true) :
    outcome (jumpChecked s a) = .refused (.prohibitedBranch a) := by
  rw [jumpChecked, branchCheck_eq, h]
  rfl

/-! ### BR (R322) -/

theorem exec_br_relative {s : State} {b : BrTarget} (h : brRelative b = true) :
    exec (.br b) s = outcome (jumpChecked s (brGoal s b)) := by
  cases b with
  | rel8 d => rfl
  | rel16 d => rfl
  | ax | abs16 _ | abs20 _ => cases h

theorem exec_br_absolute {s : State} {b : BrTarget} (h : brRelative b = false) :
    exec (.br b) s = .next { s.advance 0 with pc := brGoal s b } := by
  cases b with
  | rel8 d => cases h
  | rel16 d => cases h
  | ax => rfl
  | abs16 a => rw [brGoal, BitVec.setWidth_eq_append (by decide)]; rfl
  | abs20 a => rfl

/-! ### The flag branches (R323) -/

theorem condHolds_h (p : Psw) : condHolds p .h = (!p.z && !p.cy) := Bool.not_or p.z p.cy

theorem condBranch_of_false {s : State} {cond : Cond} (h : condHolds s.psw cond = false) (i : Instr) (d : Byte) :
    condBranch s i cond d = .ok (s.advance i.len) := by
  rw [condBranch, h, s.begin_goto_next i]
  rfl

theorem condBranch_of_true {s : State} {cond : Cond} (h : condHolds s.psw cond = true) (i : Instr) (d : Byte) :
    condBranch s i cond d = jumpChecked s (s.next i + d.signExtend 20) := by
  rw [condBranch, h]
  rfl

/-- Settles O50: BR is the jump, checked where it is relative; each flag branch is the shape of R323 for its
condition. -/
theorem flagBranchResults : Obligations.FlagBranchResults := by
  refine ⟨fun s b => ⟨fun h => ?reached, fun hr hf => ?refused⟩, fun s i d c bytes hi => ?flags⟩
  case reached =>
    cases hr : brRelative b with
    | false => exact exec_br_absolute hr
    | true => exact (exec_br_relative hr).trans (jumpChecked_of_allowed (h hr))
  case refused => exact (exec_br_relative hr).trans (jumpChecked_of_prohibited hf)
  case flags =>
    obtain ⟨cond, hexec, hcond, hlen, hdecode⟩ : ∃ cond, exec i s = outcome (condBranch s i cond d) ∧
        condHolds s.psw cond = c ∧ i.len = bytes.length ∧ decode bytes = .done i := by
      simp only [List.mem_cons, List.not_mem_nil, or_false, Prod.mk.injEq] at hi
      obtain ⟨rfl, rfl, rfl⟩ | ⟨rfl, rfl, rfl⟩ | ⟨rfl, rfl, rfl⟩ | ⟨rfl, rfl, rfl⟩ | ⟨rfl, rfl, rfl⟩ | ⟨rfl, rfl, rfl⟩ := hi
      · exact ⟨.c, rfl, rfl, rfl, by cbv⟩
      · exact ⟨.nc, rfl, rfl, rfl, by cbv⟩
      · exact ⟨.z, rfl, rfl, rfl, by cbv⟩
      · exact ⟨.nz, rfl, rfl, rfl, by cbv⟩
      · exact ⟨.h, rfl, condHolds_h _, rfl, by cbv⟩
      · exact ⟨.nh, rfl, rfl, rfl, by cbv⟩
    rw [hexec, ← hlen]
    refine ⟨hdecode, fun hc => ?_, ?_⟩
    · exact congrArg outcome (condBranch_of_false (hcond.trans hc) i d)
    · rintro _ rfl
      have htaken (hc : c = true) := congrArg outcome (condBranch_of_true (hcond.trans hc) i d)
      exact ⟨fun hc hf => (htaken hc).trans (jumpChecked_of_allowed hf),
        fun hc hf => (htaken hc).trans (jumpChecked_of_prohibited hf)⟩

end Sys2Proof.Machine

/-! PROOFS. The statements of 48_cpu_control.md: NOP, EI and DI (R352 to R354), HALT, STOP and standby (R356, R357,
R359). Each of these instructions changes one field besides what every instruction changes by moving on. -/

namespace Sys2Proof.Machine

/-! ### NOP, EI, DI (R352 to R354) -/

theorem exec_nop (s : State) : exec .nop s = .next (s.advance 1) :=
  congrArg Host.Outcome.next (s.begin_goto_next .nop)

theorem exec_ei (s : State) :
    exec .ei s = .next { s.advance 3 with psw := { s.psw with ie := true }, intHold := true } := rfl

theorem exec_di (s : State) :
    exec .di s = .next { s.advance 3 with psw := { s.psw with ie := false }, intHold := true } := rfl

theorem intHold_of_exec_ei_or_di {s t : State} {i : Instr} (hi : i = .ei ∨ i = .di) (h : exec i s = .next t) :
    t.intHold = true := by
  obtain rfl | rfl := hi
  · cases (exec_ei s).symm.trans h
    rfl
  · cases (exec_di s).symm.trans h
    rfl

/-- Settles O53: the encodings are evaluated, and the hold that EI and DI leave blocks every request. -/
theorem nopEiDi : Obligations.NopEiDi := by
  refine ⟨⟨by decide, by decide, by decide⟩, fun s => ⟨exec_nop s, exec_ei s, exec_di s, fun i t r hi h => ?hold⟩⟩
  case hold => exact acknowledgeable_of_intHold (intHold_of_exec_ei_or_di hi h) r

/-! ### HALT, STOP and standby (R356, R357, R359) -/

theorem exec_halt (s : State) : exec .halt s = .next { s.advance 2 with mode := .halt } := rfl

theorem exec_stop (s : State) : exec .stop s = .next { s.advance 2 with mode := .stop } := rfl

/-- With no reset and no other bus master, a step is the release, if there is one, and then the boundary. -/
theorem stepWith_eq_boundary (s : State) (release : Bool) (r : Option IrqRequest) :
    stepWith s { quietInput with release := release, request := r } = boundary (released s release) r := rfl

theorem boundary_of_standby {s : State} (h : s.mode ≠ .run) (r : Option IrqRequest) : boundary s r = .next s :=
  if_neg h

/-- Settles O55: the boundary of a CPU in standby does nothing, and a release comes before the boundary. -/
theorem standby : Obligations.Standby := by
  refine ⟨⟨by decide, by decide⟩, fun s => ⟨exec_halt s, exec_stop s⟩, fun s h => ⟨fun r => ?asleep, fun r => ?woken⟩⟩
  case asleep => exact (stepWith_eq_boundary s false r).trans (boundary_of_standby h r)
  case woken =>
    calc stepWith s { quietInput with release := true, request := r }
      _ = boundary { s with mode := .run } r := stepWith_eq_boundary s true r
      _ = stepWith { s with mode := .run } { quietInput with request := r } :=
        (stepWith_eq_boundary { s with mode := .run } false r).symm

end Sys2Proof.Machine

/-! PROOFS. The statements of 30_encoding.md, first part: every form of Table 5-8 is read back from its bytes (R123, R131
to R141). Opcode bytes select a cell of a map, so each form is one evaluation of a map; the forms with `ES:` have the
bytes of the plain form behind 11H, and the maps give the plain form. -/

namespace Sys2Proof

open Machine (wordOf_bytes)

/-! ### What the maps make of the bytes of a form -/

/-- The maps make of the bytes the form `i`, or, where `i` is written with `ES:`, the form that 11H makes `i` of. -/
def Reads (bs : List Byte) (i : Instr) : Prop :=
  ∃ j, decodePlain bs = .done j ∧ if i.hasEs then j.withEs = some i else j = i

theorem Reads.plain {bs : List Byte} {i j : Instr} (h : decodePlain bs = .done j) (hj : j = i)
    (hi : i.hasEs = false) : Reads bs i :=
  ⟨j, h, by rw [if_neg (by simp [hi])]; exact hj⟩

theorem Reads.es {bs : List Byte} {i j : Instr} (h : decodePlain bs = .done j) (hj : j.withEs = some i)
    (hi : i.hasEs = true) : Reads bs i :=
  ⟨j, h, by rw [if_pos hi]; exact hj⟩

section

set_option maxRecDepth 10000

/-! ### 8-bit transfers (R171 to R177) -/

/-- Outside the bytes that R135 and R140 give away, the cell CEH is MOV to an SFR. -/
theorem movSfrImm_of_form {s v : Byte} (h : (Mem.sfr s).movImmForm v = true) :
    movSfrImm s v = .mov (.mem (.sfr s)) (.imm v) := by
  simp only [Mem.movImmForm, isMulDivCode, Bool.and_eq_true, bne_iff_ne, Bool.not_eq_true', Bool.and_eq_false_iff,
    beq_eq_false_iff_ne, Bool.or_eq_false_iff] at h
  obtain ⟨⟨hpsw, hcs⟩, hmul⟩ := h
  rw [movSfrImm, if_neg hpsw, if_neg hcs]
  split
  · next hfb =>
    obtain hne | ⟨⟨⟨⟨⟨h1, h2⟩, h3⟩, h5⟩, h6⟩, hB⟩ := hmul
    · exact absurd hfb hne
    · rw [if_neg h1, if_neg h2, if_neg h3, if_neg hB, if_neg h5, if_neg h6]
  · rfl

theorem sfrOpd_of_open {s : Byte} (h : sfrOpenForMovA s = true) : sfrOpd s = .mem (.sfr s) := by
  simp only [sfrOpenForMovA, Bool.and_eq_true, bne_iff_ne] at h
  obtain ⟨⟨hpsw, hcs⟩, hes⟩ := h
  rw [sfrOpd, if_neg hpsw, if_neg hcs, if_neg hes]

theorem reads_mov_mem_imm {m : Mem} {v : Byte} (h : m.movImmForm v = true) :
    Reads (encMov (.mem m) (.imm v)) (.mov (.mem m) (.imm v)) := by
  cases m with
  | de | hl | hlB | hlC => cases h
  | saddr | spOff => exact .plain rfl rfl rfl
  | sfr s => exact .plain rfl (movSfrImm_of_form h) rfl
  | abs es w | wordB es w | wordC es w | wordBC es w =>
    cases es with
    | false => exact .plain rfl (by simp only [wordOf_bytes]) rfl
    | true => exact .es rfl (by simp only [wordOf_bytes]; rfl) rfl
  | deOff es o | hlOff es o => cases es <;> [exact .plain rfl rfl rfl; exact .es rfl rfl rfl]

theorem reads_mov_a_mem {m : Mem} (h : m.movAForm = true) :
    Reads (encMov (.reg .a) (.mem m)) (.mov (.reg .a) (.mem m)) := by
  cases m with
  | saddr | spOff => exact .plain rfl rfl rfl
  | sfr s => exact .plain rfl (by simp only [sfrOpd_of_open h, opdA]) rfl
  | abs es w | wordB es w | wordC es w | wordBC es w =>
    cases es with
    | false => exact .plain rfl (by simp only [wordOf_bytes, opdA]) rfl
    | true => exact .es rfl (by simp only [wordOf_bytes]; rfl) rfl
  | de es | hl es | hlB es | hlC es | deOff es o | hlOff es o => cases es <;> [exact .plain rfl rfl rfl; exact .es rfl rfl rfl]

theorem reads_mov_mem_a {m : Mem} (h : m.movAForm = true) :
    Reads (encMov (.mem m) (.reg .a)) (.mov (.mem m) (.reg .a)) := by
  cases m with
  | saddr | spOff => exact .plain rfl rfl rfl
  | sfr s => exact .plain rfl (by simp only [sfrOpd_of_open h, opdA]) rfl
  | abs es w | wordB es w | wordC es w | wordBC es w =>
    cases es with
    | false => exact .plain rfl (by simp only [wordOf_bytes, opdA]) rfl
    | true => exact .es rfl (by simp only [wordOf_bytes]; rfl) rfl
  | de es | hl es | hlB es | hlC es | deOff es o | hlOff es o => cases es <;> [exact .plain rfl rfl rfl; exact .es rfl rfl rfl]

theorem reads_mov_low_mem {r : Reg8} {m : Mem} (hr : r = .x ∨ r = .b ∨ r = .c) (h : m.directForm = true) :
    Reads (encMov (.reg r) (.mem m)) (.mov (.reg r) (.mem m)) := by
  obtain rfl | rfl | rfl := hr
  all_goals
    cases m with
    | saddr => exact .plain rfl rfl rfl
    | abs es w =>
      cases es with
      | false => exact .plain rfl (by simp only [wordOf_bytes]) rfl
      | true => exact .es rfl (by simp only [wordOf_bytes]; rfl) rfl
    | _ => cases h

theorem reads_mov_reg_reg {r q : Reg8} (h : ((r == .a) != (q == .a)) = true) :
    Reads (encMov (.reg r) (.reg q)) (.mov (.reg r) (.reg q)) := by
  cases r with
  | a =>
    cases q with
    | a => cases h
    | _ => exact .plain rfl rfl rfl
  | _ =>
    obtain rfl : q = .a := by simpa using h
    exact .plain rfl rfl rfl

theorem reads_mov {d s : Opd8} (h : movForm d s = true) : Reads (encMov d s) (.mov d s) := by
  cases d with
  | reg r =>
    cases s with
    | imm v => cases r <;> exact .plain rfl rfl rfl
    | reg q => exact reads_mov_reg_reg h
    | mem m =>
      simp only [movForm, Bool.or_eq_true, Bool.and_eq_true, beq_iff_eq] at h
      obtain ⟨rfl, h⟩ | ⟨hr, h⟩ := h
      · exact reads_mov_a_mem h
      · exact reads_mov_low_mem (or_assoc.mp hr) h
    | psw | es | cs =>
      obtain rfl : r = .a := by simpa [movForm] using h
      exact .plain rfl rfl rfl
  | mem m =>
    cases s with
    | imm v => exact reads_mov_mem_imm h
    | reg r =>
      simp only [movForm, Bool.and_eq_true, beq_iff_eq] at h
      obtain ⟨rfl, h⟩ := h
      exact reads_mov_mem_a h
    | _ => cases h
  | psw | cs =>
    cases s with
    | imm v => exact .plain rfl rfl rfl
    | reg r =>
      obtain rfl : r = .a := by simpa [movForm] using h
      exact .plain rfl rfl rfl
    | _ => cases h
  | es =>
    cases s with
    | imm v => exact .plain rfl rfl rfl
    | reg r =>
      obtain rfl : r = .a := by simpa [movForm] using h
      exact .plain rfl rfl rfl
    | mem m =>
      cases m with
      | saddr => exact .plain rfl rfl rfl
      | _ => cases h
    | _ => cases h
  | imm => cases h

theorem reads_xch {o : Opd8} (h : xchForm o = true) : Reads (encXch o) (.xch o) := by
  cases o with
  | reg r =>
    cases r with
    | a => cases h
    | _ => exact .plain rfl rfl rfl
  | mem m =>
    cases m with
    | saddr | sfr => exact .plain rfl rfl rfl
    | abs es w =>
      cases es with
      | false => exact .plain rfl (by simp only [wordOf_bytes]) rfl
      | true => exact .es rfl (by simp only [wordOf_bytes]; rfl) rfl
    | de es | hl es | hlB es | hlC es | deOff es o | hlOff es o => cases es <;> [exact .plain rfl rfl rfl; exact .es rfl rfl rfl]
    | _ => cases h
  | _ => cases h

/-- ONEB, CLRB, CMP0, each by its row of the 1st MAP. -/
theorem reads_low {row : Byte} {mk : Opd8 → Instr} {o : Opd8}
    (hmk : (row, mk) ∈ [(0xE0#8, Instr.oneb), (0xF0#8, .clrb), (0xD0#8, .cmp0)]) (h : lowByteForm o = true) :
    Reads (encLow row o) (mk o) := by
  simp only [List.mem_cons, Prod.mk.injEq, List.not_mem_nil, or_false] at hmk
  cases o with
  | reg r =>
    obtain ⟨rfl, rfl⟩ | ⟨rfl, rfl⟩ | ⟨rfl, rfl⟩ := hmk
    all_goals
      cases r with
      | x | a | c | b => exact .plain rfl rfl rfl
      | _ => cases h
  | mem m =>
    obtain ⟨rfl, rfl⟩ | ⟨rfl, rfl⟩ | ⟨rfl, rfl⟩ := hmk
    all_goals
      cases m with
      | saddr => exact .plain rfl rfl rfl
      | abs es w =>
        cases es with
        | false => exact .plain rfl (by simp only [wordOf_bytes]) rfl
        | true => exact .es rfl (by simp only [wordOf_bytes]; rfl) rfl
      | _ => cases h
  | _ => cases h

/-! ### 16-bit transfers (R191 to R194, R302) -/

theorem sfrpOpd_of_ne {s : Byte} (h : s ≠ 0xF8#8) : sfrpOpd s = .mem (.sfr s) := if_neg h

theorem reads_movw_ax_mem {m : Mem} (h : m.movwAxForm = true) :
    Reads (encMovw (.rp .ax) (.mem m)) (.movw (.rp .ax) (.mem m)) := by
  cases m with
  | hlB | hlC => cases h
  | saddr | spOff => exact .plain rfl rfl rfl
  | sfr s => exact .plain rfl (by simp only [sfrpOpd_of_ne (bne_iff_ne.mp h), opdAX]) rfl
  | abs es w | wordB es w | wordC es w | wordBC es w =>
    cases es with
    | false => exact .plain rfl (by simp only [wordOf_bytes, opdAX]) rfl
    | true => exact .es rfl (by simp only [wordOf_bytes]; rfl) rfl
  | de es | hl es | deOff es o | hlOff es o => cases es <;> [exact .plain rfl rfl rfl; exact .es rfl rfl rfl]

theorem reads_movw_mem_ax {m : Mem} (h : m.movwAxForm = true) :
    Reads (encMovw (.mem m) (.rp .ax)) (.movw (.mem m) (.rp .ax)) := by
  cases m with
  | hlB | hlC => cases h
  | saddr | spOff => exact .plain rfl rfl rfl
  | sfr s => exact .plain rfl (by simp only [sfrpOpd_of_ne (bne_iff_ne.mp h), opdAX]) rfl
  | abs es w | wordB es w | wordC es w | wordBC es w =>
    cases es with
    | false => exact .plain rfl (by simp only [wordOf_bytes, opdAX]) rfl
    | true => exact .es rfl (by simp only [wordOf_bytes]; rfl) rfl
  | de es | hl es | deOff es o | hlOff es o => cases es <;> [exact .plain rfl rfl rfl; exact .es rfl rfl rfl]

/-- MOVW BC/DE/HL, !addr16 is the form from SP at the plain address FFF8H, which keeps its ES: form (R140, R141). -/
theorem withEs_movw_rpAbsOpd {p : RegPair} (hp : p ≠ .ax) (w : Word) :
    (Instr.movw (.rp p) (rpAbsOpd w)).withEs = some (.movw (.rp p) (.mem (.abs true w))) := by
  rw [rpAbsOpd]
  split
  · next hw =>
    subst hw
    cases p with
    | ax => exact absurd rfl hp
    | _ => rfl
  · cases p <;> rfl

theorem reads_movw_rp_mem {p : RegPair} {m : Mem} (hp : p ≠ .ax) (h : m.movwRpForm = true) :
    Reads (encMovw (.rp p) (.mem m)) (.movw (.rp p) (.mem m)) := by
  cases m with
  | saddr =>
    cases p with
    | ax => exact absurd rfl hp
    | _ => exact .plain rfl rfl rfl
  | abs es w =>
    have hread : decodePlain (encMovw (.rp p) (.mem (.abs es w))) = .done (.movw (.rp p) (rpAbsOpd w)) := by
      rw [← wordOf_bytes w]
      cases p with
      | ax => exact absurd rfl hp
      | _ => rw [wordOf_bytes]; exact (rfl : _ = DecodeResult.done _).trans (by rw [wordOf_bytes])
    cases es with
    | false => exact .plain hread (by rw [rpAbsOpd, if_neg (by simpa [Mem.movwRpForm] using h)]) rfl
    | true => exact .es hread (withEs_movw_rpAbsOpd hp w) rfl
  | _ => cases h

theorem reads_movw_rp_rp {p q : RegPair} (h : ((p == .ax) != (q == .ax)) = true) :
    Reads (encMovw (.rp p) (.rp q)) (.movw (.rp p) (.rp q)) := by
  cases p with
  | ax =>
    cases q with
    | ax => cases h
    | _ => exact .plain rfl rfl rfl
  | _ =>
    obtain rfl : q = .ax := by simpa using h
    exact .plain rfl rfl rfl

theorem reads_movw {d s : Opd16} (h : movwForm d s = true) : Reads (encMovw d s) (.movw d s) := by
  cases d with
  | rp p =>
    cases s with
    | imm w => cases p <;> exact .plain rfl (by simp only [wordOf_bytes, opdAX]) rfl
    | rp q => exact reads_movw_rp_rp h
    | mem m =>
      simp only [movwForm, Bool.or_eq_true, Bool.and_eq_true, beq_iff_eq, bne_iff_ne] at h
      obtain ⟨rfl, h⟩ | ⟨hp, h⟩ := h
      · exact reads_movw_ax_mem h
      · exact reads_movw_rp_mem hp h
    | sp => cases p <;> exact .plain rfl rfl rfl
  | mem m =>
    cases s with
    | imm w =>
      cases m with
      | saddr => exact .plain rfl (by simp only [wordOf_bytes]) rfl
      | sfr s => exact .plain rfl (by simp only [wordOf_bytes, sfrpOpd_of_ne (bne_iff_ne.mp h)]) rfl
      | _ => cases h
    | rp p =>
      simp only [movwForm, Bool.and_eq_true, beq_iff_eq] at h
      obtain ⟨rfl, h⟩ := h
      exact reads_movw_mem_ax h
    | _ => cases m <;> cases h
  | sp =>
    cases s with
    | imm w => exact .plain rfl (by simp only [wordOf_bytes, sfrpOpd, if_true]) rfl
    | rp p =>
      obtain rfl : p = .ax := by simpa [movwForm] using h
      exact .plain rfl rfl rfl
    | _ => cases h
  | imm => cases h

/-! ### Operations (R200 to R222, R241 to R244) -/

/-- The eight two-operand byte operations, each by its row of the 1st and the 2nd MAP. -/
def alu8Rows : List (Byte × (Opd8 → Opd8 → Instr)) :=
  [(0x00#8, .add), (0x10#8, .addc), (0x20#8, .sub), (0x30#8, .subc), (0x40#8, .cmp), (0x50#8, .and), (0x60#8, .or),
    (0x70#8, .xor)]

theorem mem_alu8Rows {n : Byte} {mk : Opd8 → Opd8 → Instr} (h : (n, mk) ∈ alu8Rows) :
    (n = 0x00#8 ∧ mk = .add) ∨ (n = 0x10#8 ∧ mk = .addc) ∨ (n = 0x20#8 ∧ mk = .sub) ∨ (n = 0x30#8 ∧ mk = .subc) ∨
      (n = 0x40#8 ∧ mk = .cmp) ∨ (n = 0x50#8 ∧ mk = .and) ∨ (n = 0x60#8 ∧ mk = .or) ∨ (n = 0x70#8 ∧ mk = .xor) := by
  simpa only [alu8Rows, List.mem_cons, Prod.mk.injEq, List.not_mem_nil, or_false] using h

section
variable {n : Byte} {mk : Opd8 → Opd8 → Instr} (hmk : (n, mk) ∈ alu8Rows)
include hmk

theorem reads_alu8_a_mem {m : Mem} (h : m.aluForm = true) :
    Reads (encAlu8 n (.reg .a) (.mem m)) (mk (.reg .a) (.mem m)) := by
  obtain ⟨rfl, rfl⟩ | ⟨rfl, rfl⟩ | ⟨rfl, rfl⟩ | ⟨rfl, rfl⟩ | ⟨rfl, rfl⟩ | ⟨rfl, rfl⟩ | ⟨rfl, rfl⟩ | ⟨rfl, rfl⟩ :=
    mem_alu8Rows hmk
  all_goals
    cases m with
    | saddr => exact .plain rfl rfl rfl
    | abs es w =>
      cases es with
      | false => exact .plain rfl (by simp only [wordOf_bytes, opdA]) rfl
      | true => exact .es rfl (by simp only [wordOf_bytes]; rfl) rfl
    | hl es | hlB es | hlC es | hlOff es o => cases es <;> [exact .plain rfl rfl rfl; exact .es rfl rfl rfl]
    | _ => cases h

theorem reads_alu8_reg_reg {r q : Reg8} (h : r = .a ∨ q = .a) :
    Reads (encAlu8 n (.reg r) (.reg q)) (mk (.reg r) (.reg q)) := by
  obtain ⟨rfl, rfl⟩ | ⟨rfl, rfl⟩ | ⟨rfl, rfl⟩ | ⟨rfl, rfl⟩ | ⟨rfl, rfl⟩ | ⟨rfl, rfl⟩ | ⟨rfl, rfl⟩ | ⟨rfl, rfl⟩ :=
    mem_alu8Rows hmk
  all_goals
    obtain rfl | rfl := h
    · cases q <;> exact .plain rfl rfl rfl
    · cases r <;> exact .plain rfl rfl rfl

theorem reads_alu8 {d s : Opd8} (h : alu8Form d s = true) : Reads (encAlu8 n d s) (mk d s) := by
  cases d with
  | reg r =>
    cases s with
    | imm v =>
      obtain rfl : r = .a := by simpa [alu8Form] using h
      obtain ⟨rfl, rfl⟩ | ⟨rfl, rfl⟩ | ⟨rfl, rfl⟩ | ⟨rfl, rfl⟩ | ⟨rfl, rfl⟩ | ⟨rfl, rfl⟩ | ⟨rfl, rfl⟩ | ⟨rfl, rfl⟩ :=
        mem_alu8Rows hmk
      all_goals exact .plain rfl rfl rfl
    | reg q => exact reads_alu8_reg_reg hmk (by simpa [alu8Form] using h)
    | mem m =>
      simp only [alu8Form, Bool.and_eq_true, beq_iff_eq] at h
      obtain ⟨rfl, h⟩ := h
      exact reads_alu8_a_mem hmk h
    | _ => cases h
  | mem m =>
    cases s with
    | imm v =>
      cases m with
      | saddr s =>
        obtain ⟨rfl, rfl⟩ | ⟨rfl, rfl⟩ | ⟨rfl, rfl⟩ | ⟨rfl, rfl⟩ | ⟨rfl, rfl⟩ | ⟨rfl, rfl⟩ | ⟨rfl, rfl⟩ | ⟨rfl, rfl⟩ :=
          mem_alu8Rows hmk
        all_goals exact .plain rfl rfl rfl
      | _ => cases h
    | _ => cases m <;> cases h
  | _ => cases h

end

theorem reads_cmp {d s : Opd8} (h : cmpForm d s = true) : Reads (encAlu8 0x40#8 d s) (.cmp d s) := by
  by_cases hd : alu8Form d s = true
  · exact reads_alu8 (by simp [alu8Rows]) hd
  · obtain ⟨es, w, v, rfl, rfl⟩ : ∃ es w v, d = .mem (.abs es w) ∧ s = .imm v := by
      simp only [cmpForm] at h
      split at h
      · exact ⟨_, _, _, rfl, rfl⟩
      · exact absurd h hd
    cases es with
    | false => exact .plain rfl (by simp only [wordOf_bytes]) rfl
    | true => exact .es rfl (by simp only [wordOf_bytes]; rfl) rfl

/-- ADDW AX, SUBW AX, CMPW AX, each by its row. -/
theorem reads_alu16 {n : Byte} {mk : Opd16 → Instr} {o : Opd16}
    (hmk : (n, mk) ∈ [(0x00#8, Instr.addw), (0x20#8, .subw), (0x40#8, .cmpw)])
    (h : (if n = 0x00#8 then addwForm o else subwForm o) = true) : Reads (encAlu16 n o) (mk o) := by
  simp only [List.mem_cons, Prod.mk.injEq, List.not_mem_nil, or_false] at hmk
  obtain ⟨rfl, rfl⟩ | ⟨rfl, rfl⟩ | ⟨rfl, rfl⟩ := hmk
  all_goals
    cases o with
    | rp p => cases p <;> first | exact .plain rfl rfl rfl | cases h
    | imm w => exact .plain rfl (by simp only [wordOf_bytes]) rfl
    | mem m =>
      cases m with
      | saddr => exact .plain rfl rfl rfl
      | abs es w =>
        cases es with
        | false => exact .plain rfl (by simp only [wordOf_bytes]) rfl
        | true => exact .es rfl (by simp only [wordOf_bytes]; rfl) rfl
      | hlOff es o => cases es <;> [exact .plain rfl rfl rfl; exact .es rfl rfl rfl]
      | _ => cases h
    | sp => cases h

theorem reads_inc {row sa ab ho : Byte} {mk : Opd8 → Instr} {o : Opd8}
    (hmk : (row, sa, ab, ho, mk) ∈ [(0x80#8, 0xA4#8, 0xA0#8, 0x59#8, Instr.inc),
      (0x90#8, 0xB4#8, 0xB0#8, 0x69#8, .dec)]) (h : incForm o = true) : Reads (encInc row sa ab ho o) (mk o) := by
  simp only [List.mem_cons, Prod.mk.injEq, List.not_mem_nil, or_false] at hmk
  obtain ⟨rfl, rfl, rfl, rfl, rfl⟩ | ⟨rfl, rfl, rfl, rfl, rfl⟩ := hmk
  all_goals
    cases o with
    | reg r => cases r <;> exact .plain rfl rfl rfl
    | mem m =>
      cases m with
      | saddr => exact .plain rfl rfl rfl
      | abs es w =>
        cases es with
        | false => exact .plain rfl (by simp only [wordOf_bytes]) rfl
        | true => exact .es rfl (by simp only [wordOf_bytes]; rfl) rfl
      | hlOff es o => cases es <;> [exact .plain rfl rfl rfl; exact .es rfl rfl rfl]
      | _ => cases h
    | _ => cases h

theorem reads_incw {n ho : Byte} {mk : Opd16 → Instr} {o : Opd16}
    (hmk : (n, ho, mk) ∈ [(0xA0#8, 0x79#8, Instr.incw), (0xB0#8, 0x89#8, .decw)]) (h : incwForm o = true) :
    Reads (encIncw n ho o) (mk o) := by
  simp only [List.mem_cons, Prod.mk.injEq, List.not_mem_nil, or_false] at hmk
  obtain ⟨rfl, rfl, rfl⟩ | ⟨rfl, rfl, rfl⟩ := hmk
  all_goals
    cases o with
    | rp p => cases p <;> exact .plain rfl rfl rfl
    | mem m =>
      cases m with
      | saddr => exact .plain rfl rfl rfl
      | abs es w =>
        cases es with
        | false => exact .plain rfl (by simp only [wordOf_bytes]) rfl
        | true => exact .es rfl (by simp only [wordOf_bytes]; rfl) rfl
      | hlOff es o => cases es <;> [exact .plain rfl rfl rfl; exact .es rfl rfl rfl]
      | _ => cases h
    | _ => cases h

end

end Sys2Proof
namespace Sys2Proof

open Machine (wordOf_bytes decode_shiftCell decode_shiftwCell)

section

set_option maxRecDepth 10000

/-! ### Bit instructions (R125, R133, R271 to R276) -/

theorem loNibble_bitByte (hi : Bool) (n : BitVec 3) (k : BitVec 4) : loNibble (bitByte hi n k) = k :=
  Machine.loNibble_append _ k

theorem bitField_bitByte (hi : Bool) (n : BitVec 3) (k : BitVec 4) : bitField (bitByte hi n k) = n :=
  (BitVec.extractLsb'_append_eq_of_le (Nat.le_refl 4)).trans BitVec.extractLsb'_append_eq_right

theorem hiNibble_bitByte_lt (hi : Bool) (n : BitVec 3) (k : BitVec 4) :
    hiNibble (bitByte hi n k) < 8#4 ↔ hi = false := by
  have h : hiNibble (bitByte hi n k) = BitVec.ofBool hi ++ n := Machine.hiNibble_append _ k
  have table : ∀ (hi : Bool) (n : BitVec 3), BitVec.ofBool hi ++ n < 8#4 ↔ hi = false := by decide
  rw [h]
  exact table hi n

/-- What an instruction with a bit operand has in the 3rd MAP: `k` is its low nibble for saddr and [HL], `ks` that for
sfr and A. Its ES: form is that of its operand. -/
structure BitColumns (k ks : BitVec 4) (mk : BitOpd → Instr) : Prop where
  saddr : ∀ n s, map3 (bitByte false n k) [s] = .done (mk (.mem (.saddr s) n))
  sfr : ∀ n s, s ≠ 0xFA#8 → map3 (bitByte false n ks) [s] = .done (mk (.mem (.sfr s) n))
  psw : ∀ n, n ≠ 7#3 → map3 (bitByte false n ks) [0xFA#8] = .done (mk (.psw n))
  hl : ∀ n, map3 (bitByte true n k) [] = .done (mk (.mem (.hl false) n))
  a : ∀ n, map3 (bitByte true n ks) [] = .done (mk (.a n))
  hasEs : ∀ o, (mk o).hasEs = o.hasEs
  withEs : ∀ n, (mk (.mem (.hl false) n)).withEs = some (mk (.mem (.hl true) n))

theorem bitColumns {k ks : BitVec 4} {mk : BitOpd → Instr}
    (h : (k, ks, mk) ∈ [(0x4#4, 0xC#4, Instr.mov1 .cy), (0x1#4, 0x9#4, (.mov1 · .cy)), (0x5#4, 0xD#4, .and1),
      (0x6#4, 0xE#4, .or1), (0x7#4, 0xF#4, .xor1), (0x2#4, 0xA#4, .set1), (0x3#4, 0xB#4, .clr1)]) :
    BitColumns k ks mk := by
  simp only [List.mem_cons, Prod.mk.injEq, List.not_mem_nil, or_false] at h
  obtain ⟨rfl, rfl, rfl⟩ | ⟨rfl, rfl, rfl⟩ | ⟨rfl, rfl, rfl⟩ | ⟨rfl, rfl, rfl⟩ | ⟨rfl, rfl, rfl⟩ | ⟨rfl, rfl, rfl⟩ |
    ⟨rfl, rfl, rfl⟩ := h
  all_goals
    constructor
    case hasEs => rintro (_ | _ | _ | _) <;> simp [Instr.hasEs, BitOpd.hasEs]
    case withEs => exact fun n => rfl
    all_goals
      intros
      simp only [map3, loNibble_bitByte, bitField_bitByte, hiNibble_bitByte_lt, if_true, Bool.true_eq_false, if_false]
    case saddr | hl | a => rfl
    case sfr n s h => simp [c1, c1x, sfrBitOpd, h]
    case psw n h => simp [c1, c1x, sfrBitOpd, h]

/-- The PSW form of bit 7 is one of SET1 and CLR1 alone no more (R140). -/
theorem map3_psw7 {ks : BitVec 4} {mk : BitOpd → Instr}
    (h : (ks, mk) ∈ [(0xC#4, Instr.mov1 .cy), (0x9#4, (.mov1 · .cy)), (0xD#4, .and1), (0xE#4, .or1), (0xF#4, .xor1)]) :
    map3 (bitByte false 7#3 ks) [0xFA#8] = .done (mk (.psw 7#3)) := by
  simp only [List.mem_cons, Prod.mk.injEq, List.not_mem_nil, or_false] at h
  obtain ⟨rfl, rfl⟩ | ⟨rfl, rfl⟩ | ⟨rfl, rfl⟩ | ⟨rfl, rfl⟩ | ⟨rfl, rfl⟩ := h <;> decide

theorem reads_bit {k ks : BitVec 4} {mk : BitOpd → Instr} {o : BitOpd} (hc : BitColumns k ks mk)
    (h7 : o = .psw 7#3 → map3 (bitByte false 7#3 ks) [0xFA#8] = .done (mk (.psw 7#3))) (h : bitSrcForm o = true) :
    Reads (encBit k ks o) (mk o) := by
  cases o with
  | cy => cases h
  | a n => exact .plain (hc.a n) rfl (hc.hasEs _)
  | psw n =>
    by_cases hn : n = 7#3
    · subst hn
      exact .plain (h7 rfl) rfl (hc.hasEs _)
    · exact .plain (hc.psw n hn) rfl (hc.hasEs _)
  | mem m n =>
    cases m with
    | saddr s => exact .plain (hc.saddr n s) rfl (hc.hasEs _)
    | sfr s => exact .plain (hc.sfr n s (bne_iff_ne.mp h)) rfl (hc.hasEs _)
    | hl es =>
      cases es with
      | false => exact .plain (hc.hl n) rfl (hc.hasEs _)
      | true => exact .es (hc.hl n) (hc.withEs n) (hc.hasEs _)
    | _ => cases h

theorem reads_mov1 {d s : BitOpd} (h : mov1Form d s = true) : Reads (encodePlain (.mov1 d s)) (.mov1 d s) := by
  have toCy (o : BitOpd) : bitSrcForm o = true → Reads (encBit 0x4#4 0xC#4 o) (.mov1 .cy o) :=
    reads_bit (bitColumns (by simp)) fun _ => map3_psw7 (by simp)
  have ofCy (o : BitOpd) : bitSrcForm o = true → Reads (encBit 0x1#4 0x9#4 o) (.mov1 o .cy) :=
    reads_bit (mk := (.mov1 · .cy)) (bitColumns (by simp)) fun _ => map3_psw7 (mk := (.mov1 · .cy)) (by simp)
  cases d with
  | cy => exact toCy s h
  | a n =>
    obtain rfl : s = .cy := by cases s <;> first | rfl | cases h
    exact ofCy (.a n) rfl
  | psw n =>
    obtain rfl : s = .cy := by cases s <;> first | rfl | cases h
    exact ofCy (.psw n) rfl
  | mem m n =>
    obtain rfl : s = .cy := by cases s <;> first | rfl | cases h
    exact ofCy (.mem m n) h

/-- SET1 and CLR1 have the direct form and the CY form besides (R275, R276). -/
theorem reads_setBit {k ks kd : BitVec 4} {mk : BitOpd → Instr} {o : BitOpd}
    (hmk : (k, ks, kd, mk) ∈ [(0x2#4, 0xA#4, 0x0#4, Instr.set1), (0x3#4, 0xB#4, 0x8#4, .clr1)])
    (h : setBitForm o = true) : Reads (encSetBit k ks kd o) (mk o) := by
  have hc : BitColumns k ks mk := bitColumns (by
    simp only [List.mem_cons, Prod.mk.injEq, List.not_mem_nil, or_false] at hmk
    obtain ⟨rfl, rfl, rfl, rfl⟩ | ⟨rfl, rfl, rfl, rfl⟩ := hmk <;> simp)
  simp only [List.mem_cons, Prod.mk.injEq, List.not_mem_nil, or_false] at hmk
  cases o with
  | cy => obtain ⟨rfl, rfl, rfl, rfl⟩ | ⟨rfl, rfl, rfl, rfl⟩ := hmk <;> exact .plain rfl rfl rfl
  | a n => exact reads_bit (o := .a n) hc nofun rfl
  | psw n => exact reads_bit (o := .psw n) hc (fun e => by cases e; cases h) rfl
  | mem m n =>
    cases m with
    | abs es w =>
      have hread : decodePlain [0x71#8, bitByte false n kd, loByte w, hiByte w] =
          .done (mk (.mem (.abs false w) n)) := by
        change map3 (bitByte false n kd) [loByte w, hiByte w] = _
        obtain ⟨rfl, rfl, rfl, rfl⟩ | ⟨rfl, rfl, rfl, rfl⟩ := hmk <;>
          simp [map3, loNibble_bitByte, bitField_bitByte, hiNibble_bitByte_lt, cW, c2x]
      obtain ⟨-, -, -, rfl⟩ | ⟨-, -, -, rfl⟩ := hmk <;> cases es <;>
        [exact .plain hread rfl rfl; exact .es hread rfl rfl; exact .plain hread rfl rfl; exact .es hread rfl rfl]
    | saddr | sfr | hl => exact reads_bit (o := .mem _ n) hc nofun h
    | _ => cases h

/-- What BT, BF and BTCLR have in the 4th MAP: `k` is the low nibble for saddr and sfr, the one after it that for A and
[HL]. -/
structure BranchColumns (k : BitVec 4) (mk : BitOpd → Byte → Instr) : Prop where
  saddr : ∀ n s d, map4 (bitByte false n k) [s, d] = .done (mk (.mem (.saddr s) n) d)
  sfr : ∀ n s d, map4 (bitByte true n k) [s, d] = .done (mk (sfrBitOpd s n) d)
  hl : ∀ n d, map4 (bitByte true n (k + 1#4)) [d] = .done (mk (.mem (.hl false) n) d)
  a : ∀ n d, map4 (bitByte false n (k + 1#4)) [d] = .done (mk (.a n) d)
  hasEs : ∀ o d, (mk o d).hasEs = o.hasEs
  withEs : ∀ n d, (mk (.mem (.hl false) n) d).withEs = some (mk (.mem (.hl true) n) d)

theorem branchColumns {k : BitVec 4} {mk : BitOpd → Byte → Instr}
    (h : (k, mk) ∈ [(0x2#4, Instr.bt), (0x4#4, .bf), (0x0#4, .btclr)]) : BranchColumns k mk := by
  simp only [List.mem_cons, Prod.mk.injEq, List.not_mem_nil, or_false] at h
  obtain ⟨rfl, rfl⟩ | ⟨rfl, rfl⟩ | ⟨rfl, rfl⟩ := h
  all_goals
    constructor
    case hasEs => exact fun o d => rfl
    case withEs => exact fun n d => rfl
    all_goals
      intros
      simp only [map4, BitVec.reduceAdd, loNibble_bitByte, bitField_bitByte, hiNibble_bitByte_lt, decide_true,
        Bool.true_eq_false, decide_false, if_true, if_false, Bool.false_eq_true]
      rfl

/-- BT, BF, BTCLR by the low nibble of the saddr form in the 4th MAP (R324, R331 to R333). -/
theorem reads_bitBranch {k : BitVec 4} {mk : BitOpd → Byte → Instr} {o : BitOpd} (d : Byte)
    (hc : BranchColumns k mk) (h : bitSrcForm o = true) : Reads (encBitBranch k d o) (mk o d) := by
  cases o with
  | cy => cases h
  | a n => exact .plain (hc.a n d) rfl (hc.hasEs _ d)
  | psw n => exact .plain (hc.sfr n 0xFA#8 d) rfl (hc.hasEs _ d)
  | mem m n =>
    cases m with
    | saddr s => exact .plain (hc.saddr n s d) rfl (hc.hasEs _ d)
    | sfr s => exact .plain (hc.sfr n s d) (by rw [sfrBitOpd, if_neg (bne_iff_ne.mp h)]) (hc.hasEs _ d)
    | hl es =>
      cases es with
      | false => exact .plain (hc.hl n d) rfl (hc.hasEs _ d)
      | true => exact .es (hc.hl n d) (hc.withEs n d) (hc.hasEs _ d)
    | _ => cases h

/-! ### Shifts, calls, branches (R251 to R256, R291, R292, R322, R351) -/

theorem reads_shl {r : Reg8} {n : BitVec 3} (h : ((r == .a || r == .b || r == .c) && n != 0#3) = true) :
    Reads (encodePlain (.shl r n)) (.shl r n) := by
  simp only [Bool.and_eq_true, Bool.or_eq_true, beq_iff_eq, bne_iff_ne] at h
  obtain ⟨(rfl | rfl) | rfl, hn⟩ := h
  · exact .plain (decode_shiftCell (fun _ => Machine.map4_shl (k := 9#4) (by simp)) hn) rfl rfl
  · exact .plain (decode_shiftCell (fun _ => Machine.map4_shl (k := 8#4) (by simp)) hn) rfl rfl
  · exact .plain (decode_shiftCell (fun _ => Machine.map4_shl (k := 7#4) (by simp)) hn) rfl rfl

theorem reads_shlw {p : RegPair} {n : BitVec 4} (h : (p.low && n != 0#4) = true) :
    Reads (encodePlain (.shlw p n)) (.shlw p n) := by
  simp only [Bool.and_eq_true, bne_iff_ne] at h
  obtain ⟨hp, hn⟩ := h
  cases p with
  | ax => exact .plain (decode_shiftwCell (fun _ => Machine.map4_shlw (k := 0xD#4) (by simp)) hn) rfl rfl
  | bc => exact .plain (decode_shiftwCell (fun _ => Machine.map4_shlw (k := 0xC#4) (by simp)) hn) rfl rfl
  | _ => cases hp

/-- The three bytes of a 20-bit target are put together again. -/
theorem cA20_addr20Bytes (f : Addr → Instr) (a : Addr) : cA20 f (addr20Bytes a) = .done (f a) := by
  have hhi : hiNibble ((a.extractLsb' 16 4).setWidth 8) = 0#4 := by
    have table : ∀ n : BitVec 4, hiNibble (n.setWidth 8) = 0#4 := by decide
    exact table _
  simp only [addr20Bytes, cA20, c3x, hhi, if_true]
  exact congrArg DecodeResult.done (congrArg f (Machine.addrOf_frame a))

theorem reads_call (t : CallTarget) : Reads (encodePlain (.call t)) (.call t) := by
  cases t with
  | rp p => cases p <;> exact .plain rfl rfl rfl
  | rel16 w | abs16 w => exact .plain rfl (by simp only [wordOf_bytes]) rfl
  | abs20 a => exact .plain (cA20_addr20Bytes (.call <| .abs20 ·) a) rfl rfl

theorem reads_br (t : BrTarget) : Reads (encodePlain (.br t)) (.br t) := by
  cases t with
  | ax | rel8 => exact .plain rfl rfl rfl
  | rel16 w | abs16 w => exact .plain rfl (by simp only [wordOf_bytes]) rfl
  | abs20 a => exact .plain (cA20_addr20Bytes (.br <| .abs20 ·) a) rfl rfl

theorem reads_callt (n : BitVec 5) : Reads (encodePlain (.callt n)) (.callt n) := by
  have table : ∀ n, decodePlain (encodePlain (.callt n)) = .done (.callt n) := by decide
  exact .plain (table n) rfl rfl

theorem reads_sel (n : BitVec 2) : Reads (encodePlain (.sel n)) (.sel n) := by
  have table : ∀ n, decodePlain (encodePlain (.sel n)) = .done (.sel n) := by decide
  exact .plain (table n) rfl rfl

/-! ### Every form -/

theorem reads_encodePlain {i : Instr} (h : i.wf = true) : Reads (encodePlain i) i := by
  cases i with
  | mov => exact reads_mov h
  | xch => exact reads_xch h
  | oneb | clrb | cmp0 => exact reads_low (by simp) h
  | movw => exact reads_movw h
  | cmp => exact reads_cmp h
  | add | addc | sub | subc | and | or | xor => exact reads_alu8 (by simp [alu8Rows]) h
  | addw | subw | cmpw => exact reads_alu16 (by simp) h
  | inc | dec => exact reads_inc (by simp) h
  | incw | decw => exact reads_incw (by simp) h
  | mov1 => exact reads_mov1 h
  | and1 => exact reads_bit (k := 0x5#4) (ks := 0xD#4) (mk := .and1) (bitColumns (by simp)) (fun _ => map3_psw7 (by simp)) h
  | or1 => exact reads_bit (k := 0x6#4) (ks := 0xE#4) (mk := .or1) (bitColumns (by simp)) (fun _ => map3_psw7 (by simp)) h
  | xor1 => exact reads_bit (k := 0x7#4) (ks := 0xF#4) (mk := .xor1) (bitColumns (by simp)) (fun _ => map3_psw7 (by simp)) h
  | set1 | clr1 => exact reads_setBit (by simp) h
  | bt o d | bf o d | btclr o d => exact reads_bitBranch d (branchColumns (by simp)) h
  | shr => exact .plain (decode_shiftCell (fun _ => Machine.map4_shr) (bne_iff_ne.mp h)) rfl rfl
  | sar => exact .plain (decode_shiftCell (fun _ => Machine.map4_sar) (bne_iff_ne.mp h)) rfl rfl
  | shrw => exact .plain (decode_shiftwCell (fun _ => Machine.map4_shrw) (bne_iff_ne.mp h)) rfl rfl
  | sarw => exact .plain (decode_shiftwCell (fun _ => Machine.map4_sarw) (bne_iff_ne.mp h)) rfl rfl
  | shl => exact reads_shl h
  | shlw => exact reads_shlw h
  | call t => exact reads_call t
  | br t => exact reads_br t
  | callt n => exact reads_callt n
  | sel n => exact reads_sel n
  | movs es o | cmps es o => cases es <;> [exact .plain rfl rfl rfl; exact .es rfl rfl rfl]
  | onew p | clrw p | rolwc p =>
    cases p with
    | ax | bc => exact .plain rfl rfl rfl
    | _ => cases h
  | xchw p =>
    cases p with
    | ax => cases h
    | _ => exact .plain rfl rfl rfl
  | push o | pop o =>
    cases o with
    | psw => exact .plain rfl rfl rfl
    | rp p => cases p <;> exact .plain rfl rfl rfl
  | prefixByte => cases h
  | addwSp | subwSp | mulu | mulhu | mulh | divhu | divwu | machu | mach | ror | rol | rorc | rolc | not1 | brk | ret | reti
  | retb | bc | bnc | bz | bnz | bh | bnh | skc | sknc | skz | sknz | skh | sknh | nop | ei | di | halt | stop =>
    exact .plain rfl rfl rfl

end

/-- The byte 11H begins no plain form: its cell is blank. -/
theorem decodePlain_prefix (ops : List Byte) : decodePlain (0x11#8 :: ops) = .undefined := by
  cases ops <;> rfl

/-- Bytes that the maps read as an instruction begin with no PREFIX byte. -/
theorem decode_of_decodePlain {bs : List Byte} {i : Instr} (h : decodePlain bs = .done i) : decode bs = .done i := by
  cases bs with
  | nil => cases h
  | cons b ops =>
    have hb : b ≠ 0x11#8 := by
      rintro rfl
      rw [decodePlain_prefix] at h
      cases h
    rw [decode, if_neg hb, h]

theorem decode_prefix (bs : List Byte) : decode (0x11#8 :: bs) = (decodePlain bs).addEs := rfl

theorem decode_encode {i : Instr} (h : i.wf = true) : decode (encode i) = .done i := by
  obtain ⟨j, hj, hi⟩ := reads_encodePlain h
  cases hes : i.hasEs with
  | true =>
    simp only [hes, if_true] at hi
    simp only [encode, hes, if_true, decode_prefix, hj, DecodeResult.addEs, hi]
  | false =>
    simp only [hes, Bool.false_eq_true, if_false] at hi
    subst hi
    simp only [encode, hes, Bool.false_eq_true, if_false]
    exact decode_of_decodePlain hj

/-- Settles O1: each form is read back from its own bytes, and bytes after an instruction do not matter. -/
theorem decodeEncode : Obligations.DecodeEncode := by
  intro i rest h
  rw [decode_append _ rest (by rw [decode_encode h]; nofun), decode_encode h]

end Sys2Proof
namespace Sys2Proof

open Machine (wordOf_bytes loByte_wordOf hiByte_wordOf)

/-! ### What each cell of the maps stands for -/

/-- `i` is a form of Table 5-8 without `ES:`, and `bs` are its bytes. -/
structure Written (bs : List Byte) (i : Instr) : Prop where
  wf : i.wf = true
  noEs : i.hasEs = false
  bytes : encodePlain i = bs

/-- Whatever a cell reached by the opcode bytes `op` answers is written by those bytes and the operand bytes it took. -/
def Makes (op : List Byte) (c : MapCell) : Prop :=
  ∀ ops i, c ops = .done i → ∃ bs rest, op ++ ops = bs ++ rest ∧ bs.length ≤ 4 ∧ Written bs i

section
variable {op : List Byte} (hop : op.length ≤ 2)

theorem makes_undef : Makes op cUndef := by
  intro ops i h
  cases h

include hop

omit hop in
theorem makes_ite {p : Prop} [Decidable p] {c d : MapCell} (hc : p → Makes op c) (hd : ¬p → Makes op d) :
    Makes op (if p then c else d) := by
  split
  · exact hc ‹_›
  · exact hd ‹_›

theorem makes_c0 {i : Instr} (h : Written op i) : Makes op (c0 i) := by
  rintro ops _ ⟨⟩
  exact ⟨op, ops, rfl, by omega, h⟩

theorem makes_c1 {f : Byte → Instr} (h : ∀ b, Written (op ++ [b]) (f b)) : Makes op (c1 f) := by
  intro ops i hi
  match ops with
  | b :: rest =>
    cases hi
    exact ⟨op ++ [b], rest, by simp, by simp; omega, h b⟩

theorem makes_c2 {f : Byte → Byte → Instr} (h : ∀ b c, Written (op ++ [b, c]) (f b c)) : Makes op (c2 f) := by
  intro ops i hi
  match ops with
  | b :: c :: rest =>
    cases hi
    exact ⟨op ++ [b, c], rest, by simp, by simp; omega, h b c⟩

theorem makes_cW {f : Word → Instr} (h : ∀ w, Written (op ++ [loByte w, hiByte w]) (f w)) : Makes op (cW f) := by
  intro ops i hi
  match ops with
  | l :: u :: rest =>
    cases hi
    exact ⟨op ++ [l, u], rest, by simp, by simp; omega, by simpa using h (wordOf l u)⟩

end

section
variable {op : List Byte} (hop : op.length ≤ 1)
include hop

theorem makes_cWB {f : Word → Byte → Instr} (h : ∀ w v, Written (op ++ [loByte w, hiByte w, v]) (f w v)) :
    Makes op (cWB f) := by
  intro ops i hi
  match ops with
  | l :: u :: v :: rest =>
    cases hi
    exact ⟨op ++ [l, u, v], rest, by simp, by simp; omega, by simpa using h (wordOf l u) v⟩

theorem makes_cBW {f : Byte → Word → Instr} (h : ∀ b w, Written (op ++ [b, loByte w, hiByte w]) (f b w)) :
    Makes op (cBW f) := by
  intro ops i hi
  match ops with
  | b :: l :: u :: rest =>
    cases hi
    exact ⟨op ++ [b, l, u], rest, by simp, by simp; omega, by simpa using h b (wordOf l u)⟩

omit hop in
theorem setWidth_loNibble {s : Byte} (h : hiNibble s = 0#4) : (loNibble s).setWidth 8 = s := by
  have table : ∀ s : Byte, hiNibble s = 0#4 → (loNibble s).setWidth 8 = s := by decide
  exact table s h

/-- The upper nibble of the third byte is 0, so that the target has every bit of the three bytes (R127). -/
theorem makes_cA20 {f : Addr → Instr} (h : ∀ a, Written (op ++ addr20Bytes a) (f a)) : Makes op (cA20 f) := by
  intro ops i hi
  match ops with
  | l :: u :: s :: rest =>
    simp only [cA20, c3x] at hi
    split at hi
    next hs =>
      cases hi
      have hbytes : addr20Bytes (loNibble s ++ wordOf l u : Addr) = [l, u, s] := by
        have hlow : (loNibble s ++ wordOf l u : Addr).extractLsb' 0 8 = l :=
          (BitVec.extractLsb'_append_eq_of_add_le (by decide)).trans (loByte_wordOf l u)
        have hmid : (loNibble s ++ wordOf l u : Addr).extractLsb' 8 8 = u :=
          (BitVec.extractLsb'_append_eq_of_add_le (by decide)).trans (hiByte_wordOf l u)
        have hup : ((loNibble s ++ wordOf l u : Addr).extractLsb' 16 4).setWidth 8 = s := by
          rw [BitVec.extractLsb'_append_eq_left]
          exact setWidth_loNibble hs
        simp only [addr20Bytes, hlow, hmid, hup]
      exact ⟨op ++ [l, u, s], rest, by simp, by simp; omega, hbytes ▸ h (loNibble s ++ wordOf l u)⟩
    next => cases hi

end

/-- Each cell of a part of a map, from the opcode byte `k` on, makes what is written by the opcode bytes to it. -/
def MakesFrom (page : List Byte) : Nat → List MapCell → Prop
  | _, [] => True
  | k, c :: t => Makes (page ++ [BitVec.ofNat 8 k]) c ∧ MakesFrom page (k + 1) t

theorem MakesFrom.getD {page : List Byte} {k : Nat} {m : List MapCell} (h : MakesFrom page k m) (n : Nat) :
    Makes (page ++ [BitVec.ofNat 8 (k + n)]) (m.getD n cUndef) := by
  induction m generalizing k n with
  | nil => exact makes_undef
  | cons c t ih =>
    obtain ⟨hc, ht⟩ := h
    cases n with
    | zero => exact hc
    | succ n =>
      rw [show k + (n + 1) = k + 1 + n by omega]
      exact ih ht n

section

set_option maxRecDepth 10000

/-! ### Cells that name an SFR form of their own (R135, R140) -/

theorem written_movSfrImm (s v : Byte) : Written [0xCE#8, s, v] (movSfrImm s v) := by
  by_cases h : (Mem.sfr s).movImmForm v = true
  · rw [movSfrImm_of_form h]
    exact ⟨h, rfl, rfl⟩
  · simp only [movSfrImm]
    split
    · subst s
      exact ⟨rfl, rfl, rfl⟩
    split
    · subst s
      exact ⟨rfl, rfl, rfl⟩
    next hpsw hcs =>
    have hmul : s = 0xFB#8 ∧ isMulDivCode v = true := by
      simpa [Mem.movImmForm, hpsw, hcs] using h
    obtain ⟨rfl, hv⟩ := hmul
    simp only [isMulDivCode, Bool.or_eq_true, beq_iff_eq] at hv
    obtain ((((rfl | rfl) | rfl) | rfl) | rfl) | rfl := hv <;> exact ⟨rfl, rfl, rfl⟩

theorem written_mov_a_sfr (s : Byte) : Written [0x8E#8, s] (.mov opdA (sfrOpd s)) := by
  by_cases h : sfrOpenForMovA s = true
  · rw [sfrOpd_of_open h]
    exact ⟨by simpa [Instr.wf, movForm, opdA, Mem.movAForm] using h, rfl, rfl⟩
  · simp only [sfrOpenForMovA, Bool.and_eq_true, bne_iff_ne, not_and_or, ne_eq, Decidable.not_not] at h
    obtain (rfl | rfl) | rfl := h <;> exact ⟨rfl, rfl, rfl⟩

theorem written_mov_sfr_a (s : Byte) : Written [0x9E#8, s] (.mov (sfrOpd s) opdA) := by
  by_cases h : sfrOpenForMovA s = true
  · rw [sfrOpd_of_open h]
    exact ⟨h, rfl, rfl⟩
  · simp only [sfrOpenForMovA, Bool.and_eq_true, bne_iff_ne, not_and_or, ne_eq, Decidable.not_not] at h
    obtain (rfl | rfl) | rfl := h <;> exact ⟨rfl, rfl, rfl⟩

section
variable (s : Byte) (w : Word)

theorem written_movw_ax_sfrp : Written [0xAE#8, s] (.movw opdAX (sfrpOpd s)) := by
  by_cases h : s = 0xF8#8
  · subst h
    exact ⟨rfl, rfl, rfl⟩
  · rw [sfrpOpd_of_ne h]
    exact ⟨by simpa [Instr.wf, movwForm, opdAX, Mem.movwAxForm] using h, rfl, rfl⟩

theorem written_movw_sfrp_ax : Written [0xBE#8, s] (.movw (sfrpOpd s) opdAX) := by
  by_cases h : s = 0xF8#8
  · subst h
    exact ⟨rfl, rfl, rfl⟩
  · rw [sfrpOpd_of_ne h]
    exact ⟨bne_iff_ne.mpr h, rfl, rfl⟩

theorem written_movw_sfrp_imm : Written [0xCB#8, s, loByte w, hiByte w] (.movw (sfrpOpd s) (.imm w)) := by
  by_cases h : s = 0xF8#8
  · subst h
    exact ⟨rfl, rfl, rfl⟩
  · rw [sfrpOpd_of_ne h]
    exact ⟨bne_iff_ne.mpr h, rfl, rfl⟩

theorem written_movw_rpAbs {p : RegPair} (hp : p ≠ .ax) :
    Written [plusPairHi 0xCB#8 p, loByte w, hiByte w] (.movw (.rp p) (rpAbsOpd w)) := by
  by_cases h : w = 0xFFF8#16
  · subst h
    cases p with
    | ax => exact absurd rfl hp
    | _ => exact ⟨rfl, rfl, rfl⟩
  · rw [rpAbsOpd, if_neg h]
    cases p with
    | ax => exact absurd rfl hp
    | _ => exact ⟨bne_iff_ne.mpr h, rfl, rfl⟩

end

/-! ### The 1st and the 2nd MAP (R131, R132) -/

theorem makes_map1a : MakesFrom [] 0 map1a := by
  simp only [map1a, aluCells, List.cons_append, List.nil_append, MakesFrom, Nat.reduceAdd]
  repeat' apply And.intro
  all_goals first
    | exact makes_undef
    | exact makes_c0 (by decide) ⟨rfl, rfl, rfl⟩
    | exact makes_c1 (by decide) fun _ => ⟨rfl, rfl, rfl⟩
    | exact makes_c2 (by decide) fun _ _ => ⟨rfl, rfl, rfl⟩
    | exact makes_cW (by decide) fun _ => ⟨rfl, rfl, rfl⟩
    | exact makes_cWB (by decide) fun _ _ => ⟨rfl, rfl, rfl⟩
    | exact trivial

theorem makes_map1b : MakesFrom [] 128 map1b := by
  simp only [map1b, List.cons_append, List.nil_append, MakesFrom, Nat.reduceAdd]
  repeat' apply And.intro
  all_goals first
    | exact makes_undef
    | exact makes_c0 (by decide) ⟨rfl, rfl, rfl⟩
    | exact makes_c1 (by decide) fun _ => ⟨rfl, rfl, rfl⟩
    | exact makes_c2 (by decide) fun _ _ => ⟨rfl, rfl, rfl⟩
    | exact makes_cW (by decide) fun _ => ⟨rfl, rfl, rfl⟩
    | exact makes_cWB (by decide) fun _ _ => ⟨rfl, rfl, rfl⟩
    | exact makes_cBW (by decide) fun _ _ => ⟨rfl, rfl, rfl⟩
    | exact makes_cA20 (by decide) fun _ => ⟨rfl, rfl, rfl⟩
    | exact makes_c1 (by decide) written_mov_a_sfr
    | exact makes_c1 (by decide) written_mov_sfr_a
    | exact makes_c1 (by decide) written_movw_ax_sfrp
    | exact makes_c1 (by decide) written_movw_sfrp_ax
    | exact makes_cBW (by decide) written_movw_sfrp_imm
    | exact makes_c2 (by decide) written_movSfrImm
    | exact makes_cW (by decide) fun w => written_movw_rpAbs w (p := .bc) nofun
    | exact makes_cW (by decide) fun w => written_movw_rpAbs w (p := .de) nofun
    | exact makes_cW (by decide) fun w => written_movw_rpAbs w (p := .hl) nofun
    | exact trivial

theorem makes_map2a : MakesFrom [0x61#8] 0 map2a := by
  simp only [map2a, aluRegACells, aluARegCells, List.cons_append, List.nil_append, MakesFrom, Nat.reduceAdd]
  repeat' apply And.intro
  all_goals first
    | exact makes_undef
    | exact makes_c0 (by decide) ⟨rfl, rfl, rfl⟩
    | exact makes_c1 (by decide) fun _ => ⟨rfl, rfl, rfl⟩
    | exact trivial

theorem makes_map2b : MakesFrom [0x61#8] 128 map2b := by
  simp only [map2b, map2Left, calltCell, List.cons_append, List.nil_append, MakesFrom, Nat.reduceAdd]
  repeat' apply And.intro
  all_goals first
    | exact makes_undef
    | exact makes_c0 (by decide) ⟨rfl, rfl, rfl⟩
    | exact makes_c1 (by decide) fun _ => ⟨rfl, rfl, rfl⟩
    | exact makes_cW (by decide) fun _ => ⟨rfl, rfl, rfl⟩
    | exact trivial

/-- A map in two halves, by the byte that selects the cell. -/
theorem makes_half {page : List Byte} {m n : List MapCell} (hm : MakesFrom page 0 m) (hn : MakesFrom page 128 n)
    (b : Byte) : Makes (page ++ [b]) (halfCellAt m n b) := by
  simp only [halfCellAt]
  split
  · simpa using hm.getD b.toNat
  · simpa [show 128 + (b.toNat - 128) = b.toNat by omega] using hn.getD (b.toNat - 128)

/-! ### The 3rd and the 4th MAP (R133, R134) -/

theorem exists_bitByte (b : Byte) : ∃ hi n k, b = bitByte hi n k := by
  refine ⟨b.getLsbD 7, bitField b, loNibble b, ?_⟩
  revert b
  decide

theorem nibble_cases (k : BitVec 4) : k = 0#4 ∨ k = 1#4 ∨ k = 2#4 ∨ k = 3#4 ∨ k = 4#4 ∨ k = 5#4 ∨ k = 6#4 ∨ k = 7#4 ∨
    k = 8#4 ∨ k = 9#4 ∨ k = 10#4 ∨ k = 11#4 ∨ k = 12#4 ∨ k = 13#4 ∨ k = 14#4 ∨ k = 15#4 := by
  revert k
  decide

/-- The `sfr.bit` cell of an instruction with a bit operand: the byte FAH is its PSW form (R140). -/
theorem written_sfrBit {ks : BitVec 4} {mk : BitOpd → Instr} {n : BitVec 3} {s : Byte}
    (hsfr : s ≠ 0xFA#8 → Written [0x71#8, bitByte false n ks, s] (mk (.mem (.sfr s) n)))
    (hpsw : Written [0x71#8, bitByte false n ks, 0xFA#8] (mk (.psw n))) :
    Written [0x71#8, bitByte false n ks, s] (mk (sfrBitOpd s n)) := by
  rw [sfrBitOpd]
  split
  · subst s
    exact hpsw
  · exact hsfr ‹_›

/-- SET1 and CLR1 of PSW.7 are EI and DI (R140). -/
theorem written_setSfrBit {ks : BitVec 4} {mk : BitOpd → Instr} {e : Instr}
    (hmk : (ks, mk, e) ∈ [(0xA#4, Instr.set1, Instr.ei), (0xB#4, .clr1, .di)]) (n : BitVec 3) (s : Byte) :
    Written [0x71#8, bitByte false n ks, s] (if s = 0xFA#8 ∧ n = 7#3 then e else mk (sfrBitOpd s n)) := by
  simp only [List.mem_cons, Prod.mk.injEq, List.not_mem_nil, or_false] at hmk
  split
  next h =>
    obtain ⟨rfl, rfl⟩ := h
    obtain ⟨rfl, rfl, rfl⟩ | ⟨rfl, rfl, rfl⟩ := hmk <;> exact ⟨rfl, rfl, rfl⟩
  next h =>
    obtain ⟨rfl, rfl, rfl⟩ | ⟨rfl, rfl, rfl⟩ := hmk
    all_goals
      by_cases hs : s = 0xFA#8
      · subst hs
        exact ⟨bne_iff_ne.mpr fun hn => h ⟨rfl, hn⟩, rfl, rfl⟩
      · rw [sfrBitOpd, if_neg hs]
        exact ⟨bne_iff_ne.mpr hs, rfl, rfl⟩

theorem makes_map3 (b : Byte) : Makes [0x71#8, b] (map3 b) := by
  obtain ⟨hi, n, k, rfl⟩ := exists_bitByte b
  simp only [map3, loNibble_bitByte, bitField_bitByte, hiNibble_bitByte_lt]
  cases hi with
  | false =>
    simp only [if_true]
    obtain rfl | rfl | rfl | rfl | rfl | rfl | rfl | rfl | rfl | rfl | rfl | rfl | rfl | rfl | rfl | rfl := nibble_cases k
    all_goals simp only [BitVec.reduceToNat]
    all_goals first
      | exact makes_c1 (by simp) fun _ => ⟨rfl, rfl, rfl⟩
      | exact makes_cW (by simp) fun _ => ⟨rfl, rfl, rfl⟩
      | exact makes_c1 (by simp) (written_setSfrBit (by simp) n)
      | exact makes_c1 (by simp) fun s => written_sfrBit (mk := .mov1 .cy)
          (fun h => ⟨bne_iff_ne.mpr h, rfl, rfl⟩) ⟨rfl, rfl, rfl⟩
      | exact makes_c1 (by simp) fun s => written_sfrBit (mk := (.mov1 · .cy))
          (fun h => ⟨bne_iff_ne.mpr h, rfl, rfl⟩) ⟨rfl, rfl, rfl⟩
      | exact makes_c1 (by simp) fun s => written_sfrBit (mk := .and1)
          (fun h => ⟨bne_iff_ne.mpr h, rfl, rfl⟩) ⟨rfl, rfl, rfl⟩
      | exact makes_c1 (by simp) fun s => written_sfrBit (mk := .or1)
          (fun h => ⟨bne_iff_ne.mpr h, rfl, rfl⟩) ⟨rfl, rfl, rfl⟩
      | exact makes_c1 (by simp) fun s => written_sfrBit (mk := .xor1)
          (fun h => ⟨bne_iff_ne.mpr h, rfl, rfl⟩) ⟨rfl, rfl, rfl⟩
  | true =>
    simp only [Bool.true_eq_false, if_false]
    obtain rfl | rfl | rfl | rfl | rfl | rfl | rfl | rfl | rfl | rfl | rfl | rfl | rfl | rfl | rfl | rfl := nibble_cases k
    all_goals simp only [BitVec.reduceToNat]
    all_goals first
      | exact makes_c0 (by simp) ⟨rfl, rfl, rfl⟩
      | refine makes_ite (fun h => ?_) fun _ => makes_ite (fun h => ?_) fun _ => makes_undef <;> subst h <;>
          exact makes_c0 (by simp) ⟨rfl, rfl, rfl⟩
      | refine makes_ite (fun h => ?_) fun _ => makes_undef
        subst h
        exact makes_c0 (by simp) ⟨rfl, rfl, rfl⟩

/-- The shift cells of the 4th MAP: a zero count has no cell (R250). -/
theorem makes_shiftCell {f : BitVec 3 → Instr} {hi : Bool} {n : BitVec 3} {k : BitVec 4}
    (h : n ≠ 0#3 → Written [0x31#8, bitByte false n k] (f n)) :
    Makes [0x31#8, bitByte hi n k] (shiftCell f (bitByte hi n k)) := by
  simp only [shiftCell, bitField_bitByte, hiNibble_bitByte_lt]
  refine makes_ite ?_ fun _ => makes_undef
  rintro ⟨rfl, hn⟩
  exact makes_c0 (by simp) (h hn)

theorem makes_shiftwCell {f : BitVec 4 → Instr} {hi : Bool} {n : BitVec 3} {k : BitVec 4}
    (h : ∀ c, c ≠ 0#4 → Written [0x31#8, c ++ k] (f c)) :
    Makes [0x31#8, bitByte hi n k] (shiftwCell f (bitByte hi n k)) := by
  have hc : hiNibble (bitByte hi n k) = BitVec.ofBool hi ++ n := Machine.hiNibble_append _ k
  simp only [shiftwCell, hc]
  exact makes_ite (fun hn => makes_c0 (by simp) (h _ hn)) fun _ => makes_undef

theorem written_branch {mk : BitOpd → Byte → Instr} {k : BitVec 4}
    (hmk : (k, mk) ∈ [(0x2#4, Instr.bt), (0x4#4, .bf), (0x0#4, .btclr)]) (n : BitVec 3) (s d : Byte) :
    Written [0x31#8, bitByte true n k, s, d] (mk (sfrBitOpd s n) d) := by
  simp only [List.mem_cons, Prod.mk.injEq, List.not_mem_nil, or_false] at hmk
  rw [sfrBitOpd]
  split
  next h =>
    subst h
    obtain ⟨rfl, rfl⟩ | ⟨rfl, rfl⟩ | ⟨rfl, rfl⟩ := hmk <;> exact ⟨rfl, rfl, rfl⟩
  next h =>
    obtain ⟨rfl, rfl⟩ | ⟨rfl, rfl⟩ | ⟨rfl, rfl⟩ := hmk <;> exact ⟨bne_iff_ne.mpr h, rfl, rfl⟩

theorem makes_map4 (b : Byte) : Makes [0x31#8, b] (map4 b) := by
  obtain ⟨hi, n, k, rfl⟩ := exists_bitByte b
  simp only [map4, loNibble_bitByte, bitField_bitByte, hiNibble_bitByte_lt]
  obtain rfl | rfl | rfl | rfl | rfl | rfl | rfl | rfl | rfl | rfl | rfl | rfl | rfl | rfl | rfl | rfl := nibble_cases k
  all_goals simp only [BitVec.reduceToNat]
  case inr.inr.inr.inr.inr.inr.inl => exact makes_undef
  all_goals first
    | exact makes_shiftCell fun h => ⟨bne_iff_ne.mpr h, rfl, rfl⟩
    | exact makes_shiftwCell fun c h => ⟨bne_iff_ne.mpr h, rfl, rfl⟩
    | cases hi with
      | false =>
        simp only [decide_true, if_true]
        first
          | exact makes_c1 (by simp) fun _ => ⟨rfl, rfl, rfl⟩
          | exact makes_c2 (by simp) fun _ _ => ⟨rfl, rfl, rfl⟩
      | true =>
        simp only [Bool.true_eq_false, decide_false, Bool.false_eq_true, if_false]
        first
          | exact makes_c1 (by simp) fun _ => ⟨rfl, rfl, rfl⟩
          | exact makes_c2 (by simp) (written_branch (mk := .bt) (by simp) n)
          | exact makes_c2 (by simp) (written_branch (mk := .bf) (by simp) n)
          | exact makes_c2 (by simp) (written_branch (mk := .btclr) (by simp) n)

/-! ### Every decoding -/

/-- What the maps answer is written by the bytes they took. -/
theorem written_of_decodePlain {bytes : List Byte} {i : Instr} (h : decodePlain bytes = .done i) :
    ∃ bs rest, bytes = bs ++ rest ∧ bs.length ≤ 4 ∧ Written bs i := by
  cases bytes with
  | nil => cases h
  | cons b ops =>
    simp only [decodePlain] at h
    split at h
    · subst b
      cases ops with
      | nil => cases h
      | cons c ops => exact makes_half makes_map2a makes_map2b c ops i h
    split at h
    · subst b
      cases ops with
      | nil => cases h
      | cons c ops => exact makes_map3 c ops i h
    split at h
    · subst b
      cases ops with
      | nil => cases h
      | cons c ops => exact makes_map4 c ops i h
    · exact makes_half makes_map1a makes_map1b b ops i h

end


end Sys2Proof
namespace Sys2Proof

/-! ### The ES: form of a form (R141) -/

/-- The two operands of an ES: form: one of them is the ES: form of a memory operand. -/
theorem withEs2_eq_some {mk : Opd8 → Opd8 → Instr} {d s : Opd8} {j : Instr} (h : withEs2 mk d s = some j) :
    (∃ m m', d = .mem m ∧ m.withEs = some m' ∧ j = mk (.mem m') s) ∨
      ∃ m m', s = .mem m ∧ m.withEs = some m' ∧ j = mk d (.mem m') := by
  have mem : ∀ {o o' : Opd8}, o.withEs = some o' → ∃ m m', o = .mem m ∧ m.withEs = some m' ∧ o' = .mem m' := by
    intro o o' ho
    cases o with
    | mem m =>
      obtain ⟨m', hm, rfl⟩ := Option.map_eq_some_iff.mp ho
      exact ⟨m, m', rfl, hm, rfl⟩
    | _ => cases ho
  simp only [withEs2] at h
  split at h
  next d' hd =>
    cases h
    obtain ⟨m, m', rfl, hm, rfl⟩ := mem hd
    exact .inl ⟨m, m', rfl, hm, rfl⟩
  next =>
    obtain ⟨s', hs, rfl⟩ := Option.map_eq_some_iff.mp h
    obtain ⟨m, m', rfl, hm, rfl⟩ := mem hs
    exact .inr ⟨m, m', rfl, hm, rfl⟩

/-- What the ES: form `j` of the form `i` shares with it: the bytes that stand behind 11H. -/
structure EsFormOf (i j : Instr) : Prop where
  wf : j.wf = true
  hasEs : j.hasEs = true
  bytes : encodePlain j = encodePlain i

theorem esFormOf_mov {d s : Opd8} {j : Instr} (hw : movForm d s = true) (h : withEs2 .mov d s = some j) :
    EsFormOf (.mov d s) j := by
  obtain ⟨m, m', rfl, hm, rfl⟩ | ⟨m, m', rfl, hm, rfl⟩ := withEs2_eq_some h
  · cases s with
    | imm v => cases m <;> cases hm <;> exact ⟨hw, rfl, rfl⟩
    | reg r => cases m <;> cases hm <;> exact ⟨hw, rfl, rfl⟩
    | _ => cases hw
  · cases d with
    | reg r =>
      cases r with
      | a => cases m <;> cases hm <;> exact ⟨hw, rfl, rfl⟩
      | x | b | c => cases m <;> cases hm <;> exact ⟨hw, rfl, rfl⟩
      | _ => cases hw
    | es => cases m <;> cases hm <;> cases hw
    | _ => cases hw

/-- Of the forms of a byte operation only those with A and a memory source have an ES: form. -/
theorem withEs2_of_alu8Form {mk : Opd8 → Opd8 → Instr} {d s : Opd8} {j : Instr} (hw : alu8Form d s = true)
    (h : withEs2 mk d s = some j) :
    ∃ m m', d = .reg .a ∧ s = .mem m ∧ m.aluForm = true ∧ m.withEs = some m' ∧ j = mk (.reg .a) (.mem m') := by
  obtain ⟨m, m', rfl, hm, rfl⟩ | ⟨m, m', rfl, hm, rfl⟩ := withEs2_eq_some h
  · cases m <;> cases hm <;> cases s <;> cases hw
  · cases d with
    | reg r =>
      simp only [alu8Form, Bool.and_eq_true, beq_iff_eq] at hw
      obtain ⟨rfl, hf⟩ := hw
      exact ⟨m, m', rfl, rfl, hf, hm, rfl⟩
    | mem n => cases n <;> cases hw
    | _ => cases hw

theorem esFormOf_alu8 {mk : Opd8 → Opd8 → Instr} {d s : Opd8} {j : Instr}
    (hmk : mk ∈ [Instr.add, .addc, .sub, .subc, .cmp, .and, .or, .xor]) (hw : alu8Form d s = true)
    (h : withEs2 mk d s = some j) : EsFormOf (mk d s) j := by
  obtain ⟨m, m', rfl, rfl, hf, hm, rfl⟩ := withEs2_of_alu8Form hw h
  simp only [List.mem_cons, List.not_mem_nil, or_false] at hmk
  obtain rfl | rfl | rfl | rfl | rfl | rfl | rfl | rfl := hmk <;> cases m <;> cases hm <;>
    first | exact ⟨rfl, rfl, rfl⟩ | cases hf

theorem esFormOf_cmp {d s : Opd8} {j : Instr} (hw : cmpForm d s = true) (h : withEs2 .cmp d s = some j) :
    EsFormOf (.cmp d s) j := by
  simp only [cmpForm] at hw
  split at hw
  next =>
    cases h
    exact ⟨rfl, rfl, rfl⟩
  next => exact esFormOf_alu8 (by simp) hw h

theorem esFormOf_movw {d s : Opd16} {j : Instr} (hw : movwForm d s = true) (h : movwWithEs d s = some j) :
    EsFormOf (.movw d s) j := by
  cases d with
  | rp p =>
    cases s with
    | sp => cases p <;> cases h <;> exact ⟨rfl, rfl, rfl⟩
    | mem m =>
      cases p <;> cases m <;> cases h <;> first | exact ⟨hw, rfl, rfl⟩ | exact ⟨rfl, rfl, rfl⟩
    | _ => cases p <;> cases h
  | mem m =>
    cases s with
    | rp p => cases m <;> cases h <;> exact ⟨hw, rfl, rfl⟩
    | imm w =>
      cases m with
      | saddr | sfr => cases h
      | _ => cases hw
    | _ => cases m <;> cases hw
  | sp => cases s <;> first | cases h | cases hw
  | imm => cases hw

/-- The ES: form of an instruction with one byte operand that can be a memory operand. -/
theorem esFormOf_opd8 {mk : Opd8 → Instr} {o : Opd8} {j : Instr}
    (hmk : mk ∈ [Instr.xch, .oneb, .clrb, .cmp0, .inc, .dec]) (hw : (mk o).wf = true)
    (h : o.withEs.map mk = some j) : EsFormOf (mk o) j := by
  cases o with
  | mem m =>
    simp only [List.mem_cons, List.not_mem_nil, or_false] at hmk
    obtain rfl | rfl | rfl | rfl | rfl | rfl := hmk <;> cases m <;> cases h <;>
      first | exact ⟨rfl, rfl, rfl⟩ | cases hw
  | _ => cases h

theorem esFormOf_opd16 {mk : Opd16 → Instr} {o : Opd16} {j : Instr}
    (hmk : mk ∈ [Instr.addw, .subw, .cmpw, .incw, .decw]) (hw : (mk o).wf = true)
    (h : o.withEs.map mk = some j) : EsFormOf (mk o) j := by
  cases o with
  | mem m =>
    simp only [List.mem_cons, List.not_mem_nil, or_false] at hmk
    obtain rfl | rfl | rfl | rfl | rfl := hmk <;> cases m <;> cases h <;> first | exact ⟨rfl, rfl, rfl⟩ | cases hw
  | _ => cases h

theorem esFormOf_bit {mk : BitOpd → Instr} {o : BitOpd} {j : Instr}
    (hmk : mk ∈ [Instr.mov1 .cy, (.mov1 · .cy), .and1, .or1, .xor1, .set1, .clr1]) (hw : (mk o).wf = true)
    (h : o.withEs.map mk = some j) : EsFormOf (mk o) j := by
  cases o with
  | mem m n =>
    simp only [List.mem_cons, List.not_mem_nil, or_false] at hmk
    obtain rfl | rfl | rfl | rfl | rfl | rfl | rfl := hmk <;> cases m <;> cases h <;>
      first | exact ⟨rfl, rfl, rfl⟩ | cases hw
  | _ => cases h

theorem esFormOf_mov1 {d s : BitOpd} {j : Instr} (hw : mov1Form d s = true) (h : (Instr.mov1 d s).withEs = some j) :
    EsFormOf (.mov1 d s) j := by
  cases d with
  | cy => exact esFormOf_bit (mk := .mov1 .cy) (by simp) hw h
  | mem m n =>
    obtain rfl : s = .cy := by cases s <;> first | rfl | cases hw
    cases m <;> cases h <;> first | exact ⟨rfl, rfl, rfl⟩ | cases hw
  | _ =>
    obtain rfl : s = .cy := by cases s <;> first | rfl | cases hw
    cases h

theorem esFormOf_bitBranch {mk : BitOpd → Byte → Instr} {o : BitOpd} {d : Byte} {j : Instr}
    (hmk : mk ∈ [Instr.bt, .bf, .btclr]) (hw : (mk o d).wf = true) (h : o.withEs.map (mk · d) = some j) :
    EsFormOf (mk o d) j := by
  cases o with
  | mem m n =>
    simp only [List.mem_cons, List.not_mem_nil, or_false] at hmk
    obtain rfl | rfl | rfl := hmk <;> cases m <;> cases h <;> first | exact ⟨rfl, rfl, rfl⟩ | cases hw
  | _ => cases h

/-- The byte 11H in front of a form makes its ES: form, which has the bytes of the plain one behind it (R141). -/
theorem esFormOf_withEs {i j : Instr} (hw : i.wf = true) (h : i.withEs = some j) : EsFormOf i j := by
  cases i with
  | mov => exact esFormOf_mov hw h
  | movw => exact esFormOf_movw hw h
  | cmp => exact esFormOf_cmp hw h
  | add | addc | sub | subc | and | or | xor => exact esFormOf_alu8 (by simp) hw h
  | xch | oneb | clrb | cmp0 | inc | dec => exact esFormOf_opd8 (by simp) hw h
  | addw | subw | cmpw | incw | decw => exact esFormOf_opd16 (by simp) hw h
  | mov1 => exact esFormOf_mov1 hw h
  | and1 | or1 | xor1 | set1 | clr1 => exact esFormOf_bit (by simp) hw h
  | bt | bf | btclr => exact esFormOf_bitBranch (by simp) hw h
  | movs | cmps =>
    cases h
    exact ⟨rfl, rfl, rfl⟩
  | _ => cases h

/-! ### Decoding back to bytes -/

theorem encode_of_noEs {i : Instr} (h : i.hasEs = false) : encode i = encodePlain i := by
  rw [encode, if_neg (by simp [h])]

theorem encode_of_hasEs {i : Instr} (h : i.hasEs = true) : encode i = 0x11#8 :: encodePlain i := by
  rw [encode, if_pos h]

/-- Settles O2: what the maps answer is written by the bytes they took, and 11H in front makes the ES: form of it or the
bare PREFIX byte. -/
theorem encodeDecode : Obligations.EncodeDecode := by
  intro bytes i h
  cases bytes with
  | nil => cases h
  | cons b ops =>
    simp only [decode] at h
    split at h
    next hb =>
      subst hb
      cases hd : decodePlain ops with
      | more | undefined =>
        rw [hd] at h
        cases h
      | done k =>
        obtain ⟨bs, rest, rfl, -, hk⟩ := written_of_decodePlain hd
        simp only [hd, DecodeResult.addEs] at h
        cases hes : k.withEs with
        | none =>
          simp only [hes, DecodeResult.done.injEq] at h
          subst h
          exact ⟨.inr rfl, bs ++ rest, rfl⟩
        | some j =>
          simp only [hes, DecodeResult.done.injEq] at h
          subst h
          obtain ⟨hwf, hhas, hbytes⟩ := esFormOf_withEs hk.wf hes
          exact ⟨.inl hwf, rest, by rw [encode_of_hasEs hhas, hbytes, hk.bytes, List.cons_append]⟩
    next =>
      obtain ⟨bs, rest, hbs, -, hi⟩ := written_of_decodePlain h
      exact ⟨.inl hi.wf, rest, by rw [encode_of_noEs hi.noEs, hi.bytes, hbs]⟩

/-- The bytes of a form without PREFIX are four at most. -/
theorem length_encodePlain_le {i : Instr} (h : i.wf = true) : (encodePlain i).length ≤ 4 := by
  obtain ⟨j, hj, hi⟩ := reads_encodePlain h
  obtain ⟨bs, rest, hbs, hlen, hw⟩ := written_of_decodePlain hj
  have hsame : encodePlain i = bs := by
    cases hes : i.hasEs with
    | false =>
      simp only [hes, Bool.false_eq_true, if_false] at hi
      rw [← hi, hw.bytes]
    | true =>
      simp only [hes, if_true] at hi
      rw [(esFormOf_withEs hw.wf hi).bytes, hw.bytes]
  rwa [hsame]

/-- Settles O3: had a shorter start an answer, it would be that of all the bytes, whose encoding is no shorter. -/
theorem instructionLength : Obligations.InstructionLength := by
  intro i h
  have hfour := length_encodePlain_le h
  have hdec := decode_encode h
  refine ⟨?pos, ?five, fun k hk => ?more, fun s => rfl⟩
  case pos =>
    refine Nat.pos_of_ne_zero fun h0 => ?_
    rw [List.eq_nil_of_length_eq_zero h0] at hdec
    cases hdec
  case five =>
    rw [Instr.len, encode]
    split
    · simp only [List.length_cons]
      omega
    · omega
  case more =>
    refine Decidable.byContradiction fun hne => ?_
    have hstart : decode ((encode i).take k) = .done i := by
      have happ := decode_append _ ((encode i).drop k) hne
      rwa [List.take_append_drop, hdec, eq_comm] at happ
    obtain ⟨-, rest, hrest⟩ := encodeDecode _ _ hstart
    have hlen := congrArg List.length hrest
    rw [List.length_take, List.length_append] at hlen
    have : k < (encode i).length := hk
    omega

/-- Settles O4: the words of the table are evaluated. -/
theorem tableWordsDecode : Obligations.TableWordsDecode := by
  refine ⟨?_, ?_, ?_, ?_, ?_, ?_, ?_, ?_, ?_, ?_, ?_⟩ <;> decide

/-- Settles O6: the maps read the form from the bytes behind 11H, and its ES: form, if it has one, has those bytes. -/
theorem prefixByteRefused : Obligations.PrefixByteRefused := by
  refine ⟨fun i rest hw hes => ⟨?decoded, fun j hj => ?bytes⟩, fun s => rfl⟩
  case decoded =>
    obtain ⟨j, hj, hi⟩ := reads_encodePlain hw
    simp only [hes, Bool.false_eq_true, if_false] at hi
    subst hi
    have hd := decodePlain_append _ rest (by rw [hj]; nofun)
    rw [decode_prefix, encode_of_noEs hes, hd, hj, DecodeResult.addEs]
    cases j.withEs <;> rfl
  case bytes =>
    obtain ⟨-, hhas, hbytes⟩ := esFormOf_withEs hw hj
    exact ⟨hhas, by rw [encode_of_hasEs hhas, hbytes, encode_of_noEs hes]⟩

end Sys2Proof

/-! PROOFS. The statements of 30_encoding.md, last part: what decodes to nothing (R127, R145). The bytes that make a cell
blank are a fixed start, so it is enough to evaluate the maps on that start. -/

namespace Sys2Proof

/-- The bytes begin no instruction, and none behind 11H. -/
def Blank (bytes : List Byte) : Prop := bytes.head? ≠ some 0x11#8 ∧ decodePlain bytes = .undefined

/-- What follows a blank start does not matter (R123). -/
theorem Blank.decode {bytes : List Byte} (h : Blank bytes) (rest : List Byte) :
    decode (bytes ++ rest) = .undefined ∧ Sys2Proof.decode (0x11#8 :: (bytes ++ rest)) = .undefined := by
  obtain ⟨hh, hd⟩ := h
  have hp : decodePlain (bytes ++ rest) = .undefined :=
    (decodePlain_append bytes rest (by rw [hd]; nofun)).trans hd
  cases bytes with
  | nil => cases hd
  | cons b t =>
    have hb : b ≠ 0x11#8 := fun e => hh (congrArg some e)
    exact ⟨(if_neg hb).trans hp, (decode_prefix _).trans (congrArg DecodeResult.addEs hp)⟩

section

set_option maxRecDepth 10000

theorem blank_of_mem : ∀ bytes ∈ [[0x21#8], [0xFF#8], [0x61#8, 0x19#8], [0x61#8, 0x39#8], [0x61#8, 0x81#8],
    [0x61#8, 0x83#8], [0x61#8, 0x88#8], [0x61#8, 0x91#8], [0x61#8, 0x93#8], [0x61#8, 0xA1#8], [0x61#8, 0xA3#8],
    [0x61#8, 0xB1#8], [0x61#8, 0xB3#8], [0x61#8, 0xC1#8], [0x61#8, 0xD1#8], [0x61#8, 0xE1#8], [0x61#8, 0xF1#8]],
    Blank bytes := by
  unfold Blank
  decide

theorem blank_map2 : ∀ b : Byte, 0x98 ≤ b.toNat ∧ b.toNat ≤ 0x9F ∨ 0xBA ≤ b.toNat ∧ b.toNat ≤ 0xBF →
    Blank [0x61#8, b] := by
  unfold Blank
  decide

theorem blank_map3_set1Column : ∀ n : BitVec 3, n ≠ 0#3 ∧ n ≠ 4#3 → Blank [0x71#8, 0x80#8 ||| n.setWidth 8 <<< 4] := by
  unfold Blank
  decide

theorem blank_map3_clr1Column : ∀ n : BitVec 3, n ≠ 0#3 → Blank [0x71#8, 0x88#8 ||| n.setWidth 8 <<< 4] := by
  unfold Blank
  decide

theorem blank_map4_column6 : ∀ n : BitVec 4, Blank [0x31#8, (n ++ 6#4 : Byte)] := by
  unfold Blank
  decide

/-- A shift by 0 is no instruction (R125). -/
theorem blank_map4_row0 : ∀ k : BitVec 4, 7 ≤ k.toNat → Blank [0x31#8, (0#4 ++ k : Byte)] := by
  unfold Blank
  decide

/-- Nor is an 8-bit shift by 8 or more (R125). -/
theorem blank_map4_highRows : ∀ n k : BitVec 4, 8 ≤ n.toNat ∧ 7 ≤ k.toNat ∧ k.toNat ≤ 11 →
    Blank [0x31#8, (n ++ k : Byte)] := by
  unfold Blank
  decide

/-- A 20-bit target whose upper nibble is not 0 is no target (R127). -/
theorem cA20_of_highNibble (f : Addr → Instr) (l h : Byte) {s : Byte} (hs : 16 ≤ s.toNat) :
    cA20 f [l, h, s] = .undefined := by
  have hn : hiNibble s ≠ 0#4 := by
    intro e
    have : (hiNibble s).toNat = 0 := by rw [e]; rfl
    simp only [hiNibble, BitVec.extractLsb'_toNat, Nat.shiftRight_eq_div_pow] at this
    omega
  simp only [cA20, c3x, hn, if_false]

theorem blank_addr20 {l h s : Byte} (hs : 16 ≤ s.toNat) : Blank [0xEC#8, l, h, s] ∧ Blank [0xFC#8, l, h, s] :=
  ⟨⟨by simp, cA20_of_highNibble (fun a => .br (.abs20 a)) l h hs⟩,
    ⟨by simp, cA20_of_highNibble (fun a => .call (.abs20 a)) l h hs⟩⟩

end

/-- Settles O5: each of the listed starts is blank. -/
theorem undefinedEncodings : Obligations.UndefinedEncodings := by
  intro rest bytes hb
  refine Blank.decode ?_ rest
  obtain hm | ⟨b, rfl, h⟩ | ⟨n, rfl, h⟩ | ⟨n, rfl, h⟩ | ⟨n, rfl⟩ | ⟨k, rfl, h⟩ | ⟨n, k, rfl, h⟩ |
    ⟨l, h, s, rfl | rfl, hs⟩ := hb
  · exact blank_of_mem bytes hm
  · exact blank_map2 b h
  · exact blank_map3_set1Column n h
  · exact blank_map3_clr1Column n h
  · exact blank_map4_column6 n
  · exact blank_map4_row0 k h
  · exact blank_map4_highRows n k h
  · exact (blank_addr20 hs).1
  · exact (blank_addr20 hs).2

end Sys2Proof

/-! PROOFS. The statements about the whole machine: what each instruction writes and what it leaves in
the hidden state (R20, R60, R61, R63, R170, R234, R385), the invariant of every step (R42, R45, R52, R54, R55), bit 0 of
SP (R45). Each state operation is given its `Effect` once; `Ran i s t` says all that is common to the instructions, and
the one pass over them, `ran_of_exec`, puts the effects together. -/

namespace Sys2Proof.Machine

/-! ### The effect of a state operation -/

/-- From `b`, `t` is what writes within `f` leave: the frame and the invariant under the invariant, the hidden state,
and an even SP even without it. `hold` says that the interrupt hold was set. -/
structure Effect (f : Footprint) (hold : Bool) (b t : State) : Prop where
  frame : Inv b → Unchanged f b t
  inv : Inv b → Inv t
  product : t.product = b.product
  mode : t.mode = b.mode
  afterDiv : t.afterDiv = b.afterDiv
  ticks : t.ticks = b.ticks
  inputs : t.inputs = b.inputs
  notices : t.notices = b.notices
  intHold : t.intHold = (b.intHold || hold)
  pmcWait : t.pmcWait = (b.pmcWait || decide (pmcAddr ∈ f.bytes))
  spEven : b.sp.getLsbD 0 = false → t.sp.getLsbD 0 = false

section
variable {f g : Footprint} {h k : Bool} {b u t : State}

theorem Wrote.effect (w : Wrote f b t) (hs : b.sp.getLsbD 0 = false → t.sp.getLsbD 0 = false) : Effect f false b t where
  frame _ := w.frame
  inv := w.inv
  product := w.frame.product
  mode := w.control.mode
  afterDiv := w.control.afterDiv
  ticks := w.control.ticks
  inputs := w.control.inputs
  notices := w.control.notices
  intHold := by rw [w.control.intHold, Bool.or_false]
  pmcWait := w.pmcWait
  spEven := hs

/-- A write that leaves SP as it is. -/
theorem Wrote.effectOfSp (w : Wrote f b t) (hs : t.sp = b.sp) : Effect f false b t :=
  w.effect fun hb => by rw [hs]; exact hb

theorem Effect.refl (b : State) : Effect .none false b b := (Wrote.refl b).effectOfSp rfl

theorem Effect.trans (e : Effect f h b u) (d : Effect g k u t) : Effect (f.and g) (h || k) b t where
  frame hi := (e.frame hi).trans (d.frame (e.inv hi))
  inv := d.inv ∘ e.inv
  product := d.product.trans e.product
  mode := d.mode.trans e.mode
  afterDiv := d.afterDiv.trans e.afterDiv
  ticks := d.ticks.trans e.ticks
  inputs := d.inputs.trans e.inputs
  notices := d.notices.trans e.notices
  intHold := by rw [d.intHold, e.intHold, Bool.or_assoc]
  pmcWait := by
    rw [d.pmcWait, e.pmcWait]
    simp [Footprint.and, Bool.or_assoc]
  spEven := d.spEven ∘ e.spEven

/-- The interrupt hold is set (R60). -/
theorem Effect.hold (e : Effect f h b t) : Effect f true b t.hold :=
  { e with
    frame := fun hi => { e.frame hi with }
    inv := fun hi => (e.inv hi).congr rfl rfl rfl rfl rfl rfl rfl rfl
    intHold := by simp }

theorem Effect.holdIf {p : Bool} (e : Effect f h b t) : Effect f (h || p) b (if p then t.hold else t) := by
  cases p with
  | true => simpa using e.hold
  | false => simpa using e

/-- The program counter is in no footprint (R30). -/
theorem Effect.goto (e : Effect f h b t) (a : Addr) : Effect f h b (t.goto a) :=
  { e with
    frame := fun hi => { e.frame hi with }
    inv := fun hi => (e.inv hi).congr rfl rfl rfl rfl rfl rfl rfl rfl }

/-- A footprint in another order. -/
theorem Effect.comm (e : Effect (f.and g) h b t) : Effect (g.and f) h b t := by
  have hb : ∀ a, a ∈ (g.and f).bytes ↔ a ∈ (f.and g).bytes := by simp [Footprint.and, or_comm]
  exact
  { e with
    frame := fun hi =>
      have u := e.frame hi
      { u with
        regs := fun k k1 k2 => u.regs k (by simpa [Footprint.and, and_comm] using k1) (k2 ∘ (hb _).mpr)
        flags := fun n k1 k2 => u.flags n (by simpa [Footprint.and, and_comm] using k1) (k2 ∘ (hb _).mpr)
        sp := fun k1 k2 => u.sp (by simpa [Footprint.and, and_comm] using k1) (k2 ∘ (hb _).mpr)
        es := fun k => u.es (k ∘ (hb _).mpr)
        cs := fun k => u.cs (k ∘ (hb _).mpr)
        pmc := fun k => u.pmc (k ∘ (hb _).mpr)
        macr := fun k1 k2 k3 =>
          u.macr (by simpa [Footprint.and, and_comm] using k1) (k2 ∘ (hb _).mpr) (k3 ∘ (hb _).mpr)
        memory := fun a k => u.memory a (k ∘ (hb _).mpr) }
    pmcWait := by rw [e.pmcWait, decide_eq_decide.mpr (hb pmcAddr)] }

end

/-! ### SP under the stores (R45, R46) -/

/-- A byte of SP cannot be written (R46). -/
theorem putByte_spReg {u : AccessUnit} {b t : State} {v : Byte} : putByte u b spRegAddr v ≠ .ok t := by
  have hr : b.region spRegAddr = .sfr := by simp [State.region, regionOf, within, spRegAddr]
  have hk : sfrKind b.product.core spRegAddr = .spByte := by simp [sfrKind, spRegAddr]
  simp [putByte, hr, sfrWrite, hk]

theorem putByte_sp {u : AccessUnit} {b t : State} {a : Addr} {v : Byte} (h : putByte u b a v = .ok t) :
    t.sp = b.sp := by
  by_cases ha : a = spRegAddr
  · subst ha
    exact absurd h putByte_spReg
  · exact (wrote_putByte h).frame.sp rfl (by simpa [Footprint.ofBytes] using Ne.symm ha)

theorem memWrite8_sp {win : Option Addr} {b t : State} {a : Addr} {v : Byte} (h : memWrite8 win b a v = .ok t) :
    t.sp = b.sp := by
  obtain ⟨_, -, h⟩ := bind_ok.mp h
  exact putByte_sp h

theorem memWriteBit_sp {win : Option Addr} {b t : State} {a : Addr} {v : Byte}
    (h : memWriteBit win b a v = .ok t) : t.sp = b.sp := by
  obtain ⟨_, -, h⟩ := bind_ok.mp h
  exact putByte_sp h

theorem evenWrite16_spReg (b : State) (v : Word) : evenWrite16 b spRegAddr v = .ok (b.setSp v) := by
  have hr : b.region spRegAddr = .sfr := by simp [State.region, regionOf, within, spRegAddr]
  have hk : sfrKind b.product.core spRegAddr = .spByte := by simp [sfrKind, spRegAddr]
  simp only [evenWrite16, hr, hk]

theorem setSp_even (b : State) (v : Word) : (b.setSp v).sp.getLsbD 0 = false := by simp

/-- A word write at an even address writes SP as a whole or leaves it. -/
theorem evenWrite16_sp {b t : State} {e : Addr} {v : Word} (he : e.getLsbD 0 = false)
    (h : evenWrite16 b e v = .ok t) (hs : b.sp.getLsbD 0 = false) : t.sp.getLsbD 0 = false := by
  by_cases ha : e = spRegAddr
  · subst ha
    rw [evenWrite16_spReg] at h
    cases h
    exact setSp_even b v
  · have hn : spRegAddr ≠ e + 1#20 := by
      rintro hc
      have h0 : e.toNat % 2 = 0 := by simpa [BitVec.getLsbD, Nat.testBit_zero] using he
      have h1 := congrArg BitVec.toNat hc
      simp only [spRegAddr, BitVec.toNat_add, BitVec.toNat_ofNat] at h1
      omega
    rw [(wrote_evenWrite16 he h).frame.sp rfl (by simp [Footprint.ofBytes, Ne.symm ha, hn])]
    exact hs

theorem memWrite16_spEven {win : Option Addr} {b t : State} {a : Addr} {v : Word} (h : memWrite16 win b a v = .ok t)
    (hs : b.sp.getLsbD 0 = false) : t.sp.getLsbD 0 = false := by
  obtain ⟨_, -, h⟩ := bind_ok.mp h
  obtain ⟨_, -, h⟩ := bind_ok.mp h
  obtain ⟨e, he, h⟩ := bind_ok.mp h
  exact evenWrite16_sp (wordAddr_ok he).2 h hs

theorem stackWrite_sp {win : Option Addr} {b t : State} {p : Word} {v : Byte} (h : stackWrite win b p v = .ok t) :
    t.sp = b.sp := by
  rw [(stackWrite_ok h).2]

/-! ### The effects of the operand stores, the stack and the PSW -/

section
variable {s b t : State} {next : Addr}

theorem effect_store8 {o : Opd8} {v : Byte} (hb : b.bank = s.bank) (h : store8 s next b o v = .ok t) :
    Effect (destByte s o) false b t := by
  refine (wrote_store8 hb h).effectOfSp ?_
  cases o with
  | reg r => cases h; rfl
  | imm w => cases h; rfl
  | mem m =>
    obtain ⟨a, -, h⟩ := bind_ok.mp h
    exact memWrite8_sp h
  | psw | cs | es => exact memWrite8_sp h

theorem effect_store16 {o : Opd16} {v : Word} (hb : b.bank = s.bank) (hp : b.product = s.product)
    (h : store16 s next b o v = .ok t) : Effect (destWord s o) false b t := by
  refine (wrote_store16 hb hp h).effect ?_
  cases o with
  | rp p => cases h; exact id
  | imm w => cases h; exact id
  | mem m =>
    obtain ⟨a, -, h⟩ := bind_ok.mp h
    exact memWrite16_spEven h
  | sp => exact memWrite16_spEven h

/-- A bit store; the PSW form holds interrupts (R270, R278). -/
theorem effect_writeBit {o : BitOpd} {v : Bool} (hb : b.bank = s.bank) (h : writeBit s next b o v = .ok t) :
    Effect (destBit s o) (isPswBit o) b t := by
  cases o with
  | mem m n =>
    obtain ⟨a, ha, h⟩ := bind_ok.mp h
    obtain ⟨x, -, h⟩ := bind_ok.mp h
    simpa only [destBit, byteOf, ha, isPswBit] using (wrote_memWriteBit h).effectOfSp (memWriteBit_sp h)
  | a n =>
    cases h
    have w := (wrote_setR8 b .a (withBit (s.r8 .a) n v)).effectOfSp rfl
    simpa only [destBit, Footprint.ofReg, hb, isPswBit] using w
  | psw n =>
    cases h
    have w := ((wrote_setPsw b (b.psw.setBit n v)).effectOfSp rfl).hold
    exact { w with
      frame := fun hi => { (wrote_setPswBit b n v hi.banksS1).frame with }
      pmcWait := by simp [destBit, Footprint.ofFlags, Footprint.none] }
  | cy =>
    cases h
    exact (wrote_setCy b v).effectOfSp rfl

theorem effect_push4 {win : Option Addr} {top : Byte} {ret : Addr} (h : push4 win b top ret = .ok t) :
    Effect ((Footprint.ofBytes (belowSp b 4)).and .stackPointer) false b t := by
  refine (wrote_push4 h).effect fun _ => ?_
  obtain ⟨-, ht⟩ := push4_ok h
  rw [ht]
  exact setSp_even b _

theorem effect_setSp (b : State) (v : Word) : Effect .stackPointer false b (b.setSp v) :=
  (wrote_setSp b v).effect fun _ => setSp_even b v

theorem effect_setIe (b : State) (x : Bool) : Effect (.ofFlags [7#3]) false b { b with psw := { b.psw with ie := x } } :=
  (wrote_psw b { b.psw with ie := x } [7#3] (by simp [forall_bit3, Psw.getBit]) fun _ h => h).effectOfSp rfl

/-- The bank bits, on a core that has banks (R351). -/
theorem effect_setBank (b : State) (x y : Bool) (hc : b.product.core ≠ .s1) :
    Effect (.ofFlags [5#3, 3#3]) false b { b with psw := { b.psw with rbs1 := x, rbs0 := y } } :=
  (wrote_psw b { b.psw with rbs1 := x, rbs0 := y } [5#3, 3#3] (by simp [forall_bit3, Psw.getBit]) fun h => absurd h hc).effectOfSp rfl

theorem wrote_setMacr (b : State) (m : DWord) : Wrote .accumulator b { b with macr := m } where
  frame := { Unchanged.refl Footprint.none b with macr := fun hm => by simp [Footprint.accumulator] at hm }
  control := ⟨rfl, rfl, rfl, rfl, rfl, rfl, rfl⟩
  pmcWait := by simp [Footprint.accumulator, Footprint.none]
  inv hi := { hi with }

/-- An accumulation (R232, R233). -/
theorem effect_accumulate (b : State) (m : DWord) (ac cy : Bool) :
    Effect (Footprint.accumulator.and (.ofFlags [4#3, 0#3])) false b ({ b with macr := m }.setAcCy ac cy) :=
  ((wrote_setMacr b m).trans (wrote_setAcCy { b with macr := m } ac cy)).effectOfSp rfl

end

end Sys2Proof.Machine

namespace Sys2Proof.Machine

/-! ### What every instruction has in common -/

/-- What the instruction writes in the run from `s`: its footprint, but that BTCLR writes only a bit that is 1 (R333). -/
def written (s : State) (i : Instr) : Footprint :=
  match i with
  | .btclr o _ =>
    match readBit s o with
    | .ok true => destBit s o
    | .ok false | .error _ => .none
  | _ => footprint s i

/-- Everything that is said of all instructions together. -/
structure Ran (i : Instr) (s t : State) : Prop where
  frame : Inv s → Unchanged (written s i) s t
  inv : Inv s → Inv t
  product : t.product = s.product
  mode : t.mode = modeAfter s i
  afterDiv : t.afterDiv = divisionAt s i
  ticks : t.ticks = s.ticks + 1
  inputs : t.inputs = s.inputs
  notices : t.notices = noticesAfter s i
  intHold : t.intHold = setsHold s i
  pmcWait : t.pmcWait = decide (pmcAddr ∈ (written s i).bytes)
  spEven : s.sp.getLsbD 0 = false → t.sp.getLsbD 0 = false

section
variable {f g : Footprint} {hold k : Bool} {i : Instr} {s t : State} {α : Type}

/-- Of an instruction that touches the hidden state by its hold alone. -/
theorem Effect.ran (e : Effect f hold s.begin t) (hf : written s i = f := by rfl) (hh : setsHold s i = hold := by rfl)
    (hm : modeAfter s i = s.mode := by rfl) (hd : divisionAt s i = none := by rfl)
    (hn : noticesAfter s i = s.notices := by rfl) : Ran i s t where
  frame hi := by rw [hf]; exact { e.frame hi.begin with }
  inv hi := e.inv hi.begin
  product := e.product
  mode := by rw [hm]; exact e.mode
  afterDiv := by rw [hd]; exact e.afterDiv
  ticks := e.ticks
  inputs := e.inputs
  notices := by rw [hn]; exact e.notices
  intHold := by rw [hh]; exact e.intHold
  pmcWait := by rw [hf]; exact e.pmcWait
  spEven := e.spEven

/-- Of a division, which marks itself for the boundary behind it (R234). -/
theorem Effect.ranDivision (e : Effect f false s.begin t) (a : Addr) (hf : written s i = f := by rfl)
    (hh : setsHold s i = false := by rfl) (hm : modeAfter s i = s.mode := by rfl)
    (hd : divisionAt s i = some s.pc := by rfl) (hn : noticesAfter s i = s.notices := by rfl) :
    Ran i s ((t.markDivision s.pc).goto a) where
  frame hi := by rw [hf]; exact { e.frame hi.begin with }
  inv hi := (e.inv hi.begin).congr rfl rfl rfl rfl rfl rfl rfl rfl
  product := e.product
  mode := by rw [hm]; exact e.mode
  afterDiv := hd.symm
  ticks := e.ticks
  inputs := e.inputs
  notices := by rw [hn]; exact e.notices
  intHold := by rw [hh]; exact e.intHold
  pmcWait := by rw [hf]; exact e.pmcWait
  spEven := e.spEven

/-- Of RETI, which tells the controller besides (R385). -/
theorem Effect.ranReturned (e : Effect f true s.begin t) (hf : written s .reti = f := by rfl) :
    Ran .reti s { t with notices := .returned :: t.notices } where
  frame hi := by rw [hf]; exact { e.frame hi.begin with }
  inv hi := (e.inv hi.begin).congr rfl rfl rfl rfl rfl rfl rfl rfl
  product := e.product
  mode := e.mode
  afterDiv := e.afterDiv
  ticks := e.ticks
  inputs := e.inputs
  notices := congrArg (IrqNotice.returned :: ·) e.notices
  intHold := e.intHold
  pmcWait := by rw [hf]; exact e.pmcWait
  spEven := e.spEven

/-- A computation that has an effect on `b` wherever it completes. -/
def Affects (f : Footprint) (hold : Bool) (b : State) (r : Result State) : Prop := ∀ t, r = .ok t → Effect f hold b t

theorem Affects.done {b : State} (e : Effect f hold b t) : Affects f hold b (.ok t) := by
  rintro _ ⟨⟩
  exact e

/-- What is read does not matter. -/
theorem Affects.read {b : State} {x : Result α} {F : α → Result State} (h : ∀ v, Affects f hold b (F v)) :
    Affects f hold b (x >>= F) := by
  intro t ht
  obtain ⟨v, -, hv⟩ := bind_ok.mp ht
  exact h v t hv

/-- A store, and what is computed from the state after it. -/
theorem Affects.store {b : State} {x : Result State} {F : State → Result State} (hx : Affects g k b x)
    (hF : ∀ u, Effect g k b u → Affects f hold b (F u)) : Affects f hold b (x >>= F) := by
  intro t ht
  obtain ⟨u, hu, hFu⟩ := bind_ok.mp ht
  exact hF u (hx u hu) t hFu

theorem Affects.ite {b : State} {p : Prop} [Decidable p] {x y : Result State} (hx : Affects f hold b x)
    (hy : Affects f hold b y) : Affects f hold b (if p then x else y) := by
  split
  · exact hx
  · exact hy

/-- The outcome of an instruction, from the computation behind it. -/
theorem Affects.ran {r : Result State} (h : outcome r = .next t) (e : Affects f hold s.begin r)
    (hf : written s i = f := by rfl) (hh : setsHold s i = hold := by rfl)
    (hm : modeAfter s i = s.mode := by rfl) (hd : divisionAt s i = none := by rfl)
    (hn : noticesAfter s i = s.notices := by rfl) : Ran i s t :=
  (e t (outcome_next.mp h)).ran hf hh hm hd hn

end

/-! ### The shapes that instructions share -/

section
variable (s : State)

theorem affects_goto (a : Addr) : Affects .none false s.begin (.ok (s.begin.goto a)) := .done ((Effect.refl _).goto a)

theorem affects_store8 (next : Addr) (b : State) (hb : b.bank = s.bank) (o : Opd8) (v : Byte) :
    Affects (destByte s o) false b (store8 s next b o v) :=
  fun _ => effect_store8 hb

theorem affects_store16 (next : Addr) (o : Opd16) (v : Word) :
    Affects (destWord s o) false s.begin (store16 s next s.begin o v) :=
  fun _ => effect_store16 rfl rfl

theorem affects_writeBit (next : Addr) (o : BitOpd) (v : Bool) :
    Affects (destBit s o) (isPswBit o) s.begin (writeBit s next s.begin o v) :=
  fun _ => effect_writeBit rfl

theorem affects_push4 (win : Option Addr) (top : Byte) (ret : Addr) :
    Affects ((Footprint.ofBytes (belowSp s 4)).and .stackPointer) false s.begin (push4 win s.begin top ret) :=
  fun _ => effect_push4

theorem affects_stackWrite (win : Option Addr) (b : State) (p : Word) (v : Byte) :
    Affects (.ofBytes [addrOf 0xF#4 p]) false b (stackWrite win b p v) :=
  fun _ h => (wrote_stackWrite h).effectOfSp (stackWrite_sp h)

/-- A store to a byte operand, and then flags (R201 to R207, R241, R242). -/
theorem affects_storeThenFlags {g : Footprint} (next : Addr) (o : Opd8) (v : Byte) {F : State → State}
    (hF : ∀ u, Wrote g u (F u) ∧ (F u).sp = u.sp) :
    Affects ((destByte s o).and g) false s.begin (do
      let t ← store8 s next s.begin o v
      pure ((F t).goto next)) :=
  .store (affects_store8 s next s.begin rfl o v) fun u e => .done ((e.trans ((hF u).1.effectOfSp (hF u).2)).goto next)

theorem affects_arith8 (i : Instr) (f : Byte → Byte → Alu8) (dst src : Opd8) :
    Affects ((destByte s dst).and zAcCy) false s.begin (arith8 i f dst src s) :=
  .read fun _ => .read fun _ => affects_storeThenFlags s _ dst _ fun u => ⟨wrote_setZAcCy u _ _ _, rfl⟩

theorem affects_logic8 (i : Instr) (f : Byte → Byte → Byte) (dst src : Opd8) :
    Affects ((destByte s dst).and (.ofFlags [6#3])) false s.begin (logic8 i f dst src s) :=
  .read fun _ => .read fun _ => affects_storeThenFlags s _ dst _ fun u => ⟨wrote_setZ u _, rfl⟩

theorem affects_condBranch (i : Instr) (cond : Cond) (d : Byte) :
    Affects .none false s.begin (condBranch s i cond d) :=
  .ite (.read fun _ => affects_goto s _) (affects_goto s _)

theorem affects_bitBranch (i : Instr) (o : BitOpd) (want : Bool) (d : Byte) :
    Affects .none false s.begin (bitBranch s i o want d) :=
  .read fun _ => .ite (.read fun _ => affects_goto s _) (affects_goto s _)

/-- A skip that is not taken holds interrupts (R340). -/
theorem affects_skipIf (i : Instr) (cond : Cond) :
    Affects .none (!condHolds s.psw cond) s.begin (skipIf s i cond) := by
  simp only [skipIf]
  cases condHolds s.psw cond with
  | true => exact .read fun _ => affects_goto s _
  | false => exact .done ((Effect.refl _).goto _).hold

/-- A return (R295, R296). -/
theorem affects_leaveVector :
    Affects (Footprint.stackPointer.and wholePsw) true s.begin (leaveVector s s.begin) :=
  .read fun _ => .read fun _ => .done
    ((((wrote_setPsw s.begin _).effectOfSp rfl).trans (effect_setSp _ _)).comm.goto _).hold

/-- A result to CY (R272 to R274, R277). -/
theorem affects_toCy (i : Instr) (v : Bool) : Affects (.ofFlags [0#3]) false s.begin (toCy s i v) :=
  .done (((wrote_setCy s.begin v).effectOfSp rfl).goto _)

/-- A result to a register and CY (R251 to R263). -/
theorem effect_toR8 (r : Reg8) (v : Byte) (cy : Bool) (a : Addr) :
    Effect ((Footprint.ofReg s r).and (.ofFlags [0#3])) false s.begin (((s.begin.setR8 r v).setCy cy).goto a) :=
  (((wrote_setR8 s.begin r v).trans (wrote_setCy _ cy)).effectOfSp rfl).goto a

theorem effect_toRp (p : RegPair) (v : Word) (cy : Bool) (a : Addr) :
    Effect ((Footprint.ofPair s p).and (.ofFlags [0#3])) false s.begin (((s.begin.setRp p v).setCy cy).goto a) :=
  (((wrote_setRp s.begin p v).trans (wrote_setCy _ cy)).effectOfSp rfl).goto a

end

/-! ### The pass over the instructions -/

section
variable {s t : State}

theorem ran_btclr {o : BitOpd} {d : Byte} (h : exec (.btclr o d) s = .next t) : Ran (.btclr o d) s t := by
  obtain ⟨v, hv, h⟩ := bind_ok.mp (outcome_next.mp h)
  have hh : setsHold s (.btclr o d) = isPswBit o := by cases o <;> rfl
  cases v with
  | false =>
    have e : Effect .none (isPswBit o) s.begin t := by
      cases h
      simpa using ((Effect.refl s.begin).goto (s.next (.btclr o d))).holdIf (p := isPswBit o)
    exact e.ran (by simp only [written, hv]) hh
  | true =>
    obtain ⟨_, -, h⟩ := bind_ok.mp h
    obtain ⟨w, hw, h⟩ := bind_ok.mp h
    have e : Effect (destBit s o) (isPswBit o) s.begin t := by
      cases h
      simpa using ((effect_writeBit (s := s) (b := s.begin) rfl hw).goto (rel8 (s.next (.btclr o d)) d)).holdIf (p := isPswBit o)
    exact e.ran (by simp only [written, hv]) hh

theorem ran_mov {dst src : Opd8} (h : exec (.mov dst src) s = .next t) : Ran (.mov dst src) s t := by
  obtain ⟨v, -, h⟩ := bind_ok.mp (outcome_next.mp h)
  obtain ⟨u, hu, h⟩ := bind_ok.mp h
  cases h
  have e : Effect (destByte s dst) false s.begin u := effect_store8 rfl hu
  cases dst with
  | psw => exact (e.hold.goto _).ran
  | reg | imm | mem | cs | es => exact (e.goto _).ran

theorem ran_pop {dst : StackOpd} (h : exec (.pop dst) s = .next t) : Ran (.pop dst) s t := by
  cases dst with
  | rp p =>
    exact Affects.ran h (.read fun _ => .read fun _ => .done
      ((((wrote_setRp s.begin p _).effectOfSp rfl).trans (effect_setSp _ _)).goto _))
  | psw =>
    exact Affects.ran h (.read fun _ => .done
      ((((wrote_setPsw s.begin _).effectOfSp rfl).hold.trans (effect_setSp _ _)).comm.goto _))

theorem ran_brk (h : exec .brk s = .next t) : Ran .brk s t := by
  obtain ⟨u, hu, rfl⟩ := enterVector_ok (outcome_next.mp h)
  have e := (effect_push4 hu).trans (effect_setIe u false)
  have hw : u.psw = s.psw := by rw [(push4_ok hu).2]; rfl
  rw [hw] at e
  exact (e.goto _).ran

/-- Every instruction that completes. -/
theorem ran_of_exec {i : Instr} (h : exec i s = .next t) : Ran i s t := by
  cases i with
  | mov => exact ran_mov h
  | xch src =>
    exact Affects.ran h (.read fun v => .store (g := (Footprint.ofReg s .a).and (destByte s src)) (k := false)
      (fun u hu => ((wrote_setR8 s.begin .a v).effectOfSp rfl).trans (effect_store8 rfl hu)) fun _ e =>
        .done (e.comm.goto _))
  | oneb | clrb => exact Affects.ran h (.store (affects_store8 s _ s.begin rfl _ _) fun _ e => .done (e.goto _))
  | movs es o =>
    exact Affects.ran h (affects_storeThenFlags s _ (.mem (.hlOff es o)) _ fun u => ⟨wrote_setZCy u _ _, rfl⟩)
  | inc | dec =>
    exact Affects.ran h (.read fun _ => affects_storeThenFlags s _ _ _ fun u => ⟨wrote_setZAc u _ _, rfl⟩)
  | add | addc | sub | subc => exact Affects.ran h (affects_arith8 s _ _ _ _)
  | and | or | xor => exact Affects.ran h (affects_logic8 s _ _ _ _)
  | cmp => exact Affects.ran h (.read fun _ => .read fun _ => .done (((wrote_setZAcCy _ _ _ _).effectOfSp rfl).goto _))
  | cmp0 | cmps | cmpw =>
    exact Affects.ran h (.read fun _ => .done (((wrote_setZAcCy _ _ _ _).effectOfSp rfl).goto _))
  | movw | incw | decw =>
    exact Affects.ran h (.read fun _ => .store (affects_store16 s _ _ _) fun _ e => .done (e.goto _))
  | addw | subw =>
    exact Affects.ran h (.read fun _ => .done
      ((((wrote_setRp s.begin .ax _).trans (wrote_setZAcCy _ _ _ _)).effectOfSp rfl).goto _))
  | xchw p =>
    cases h
    exact (((wrote_setRp s.begin p _).trans (wrote_setRp _ .ax _)).effectOfSp rfl |>.goto _).ran
  | onew | clrw | mulu =>
    cases h
    exact (((wrote_setRp s.begin _ _).effectOfSp rfl).goto _).ran
  | addwSp | subwSp =>
    cases h
    exact ((effect_setSp s.begin _).goto _).ran
  | mulhu | mulh => exact Affects.ran h (.read fun _ => .done (((wrote_setBcax s.begin _).effectOfSp rfl).goto _))
  | divhu =>
    obtain ⟨_, -, h⟩ := bind_ok.mp (outcome_next.mp h)
    cases h
    exact (((wrote_setRp s.begin .ax _).trans (wrote_setRp _ .de _)).effectOfSp rfl).ranDivision _
  | divwu =>
    obtain ⟨_, -, h⟩ := bind_ok.mp (outcome_next.mp h)
    cases h
    exact (((wrote_setBcax s.begin _).trans (wrote_setHlde _ _)).effectOfSp rfl).ranDivision _
  | machu | mach =>
    exact Affects.ran h (.read fun _ => .done ((effect_accumulate s.begin _ _ _).goto _))
  | shr | sar | shl | ror | rol | rorc | rolc =>
    cases h
    exact (effect_toR8 s _ _ _ _).ran
  | shrw | sarw | shlw | rolwc =>
    cases h
    exact (effect_toRp s _ _ _ _).ran
  | mov1 dst =>
    exact Affects.ran h (.read fun _ => .store (affects_writeBit s _ dst _) fun _ e => .done (e.goto _))
      (hh := by cases dst <;> rfl)
  | set1 dst | clr1 dst =>
    exact Affects.ran h (.store (affects_writeBit s _ dst _) fun _ e => .done (e.goto _))
      (hh := by cases dst <;> rfl)
  | and1 | or1 | xor1 => exact Affects.ran h (.read fun _ => affects_toCy s _ _)
  | not1 =>
    cases h
    exact (affects_toCy s .not1 _ _ rfl).ran
  | call => exact Affects.ran h (.read fun _ => .store (affects_push4 s _ _ _) fun _ e => .done (e.goto _))
  | callt => exact Affects.ran h (.store (affects_push4 s _ _ _) fun _ e => .done (e.goto _))
  | brk => exact ran_brk h
  | ret => exact Affects.ran h (.read fun _ => .done ((effect_setSp s.begin _).goto _))
  | retb => exact Affects.ran h (affects_leaveVector s)
  | reti =>
    obtain ⟨u, hu, h⟩ := bind_ok.mp (outcome_next.mp h)
    cases h
    exact (affects_leaveVector s u hu).ranReturned
  | push src =>
    exact Affects.ran h (.store (affects_stackWrite _ s.begin _ _) fun u e =>
      .store (fun v hv => (e.trans (affects_stackWrite _ u _ _ v hv)).comm) fun v e =>
        .done ((e.trans (effect_setSp v _)).goto _))
  | pop => exact ran_pop h
  | br tgt =>
    cases tgt with
    | rel8 | rel16 => exact Affects.ran h (.read fun _ => affects_goto s _)
    | ax | abs16 | abs20 =>
      cases h
      exact ((Effect.refl s.begin).goto _).ran
  | bc | bnc | bz | bnz | bh | bnh => exact Affects.ran h (affects_condBranch s _ _ _)
  | bt | bf => exact Affects.ran h (affects_bitBranch s _ _ _ _)
  | btclr => exact ran_btclr h
  | skc | skz | sknh => exact Affects.ran h (affects_skipIf s _ _)
  | sknc | sknz | skh => exact Affects.ran h (affects_skipIf s _ _) (hh := (Bool.not_not _).symm)
  | sel n =>
    refine Affects.ran h fun u hu => ?_
    obtain ⟨_, hc, hu⟩ := bind_ok.mp hu
    cases hu
    refine (effect_setBank s.begin _ _ fun h1 => ?_).goto _
    replace h1 : s.product.core = .s1 := h1
    simp [h1, Instr.onCore, Instr.onS1] at hc
  | nop =>
    cases h
    exact ((Effect.refl s.begin).goto _).ran
  | ei | di =>
    cases h
    exact ((effect_setIe s.begin _).goto _).hold.ran
  | halt | stop =>
    cases h
    exact { frame := fun _ => { Unchanged.refl .none s with }
            inv := fun hi => hi.congr rfl rfl rfl rfl rfl rfl rfl rfl
            product := rfl, mode := rfl, afterDiv := rfl, ticks := rfl, inputs := rfl, notices := rfl, intHold := rfl
            pmcWait := rfl, spEven := id }
  | prefixByte => cases h

end
end Sys2Proof.Machine

namespace Sys2Proof.Machine

/-! ### The footprint and the hidden state -/

/-- Nothing changes outside a larger footprint either. -/
theorem Unchanged.of_none {f : Footprint} {s t : State} (u : Unchanged .none s t) : Unchanged f s t where
  product := u.product
  regs k _ _ := u.regs k (by simp [Footprint.none]) (by simp [Footprint.none])
  flags n _ _ := u.flags n (by simp [Footprint.none]) (by simp [Footprint.none])
  sp _ _ := u.sp rfl (by simp [Footprint.none])
  es _ := u.es (by simp [Footprint.none])
  cs _ := u.cs (by simp [Footprint.none])
  pmc _ := u.pmc (by simp [Footprint.none])
  macr _ _ _ := u.macr rfl (by simp [Footprint.none]) (by simp [Footprint.none])
  memory a _ := u.memory a (by simp [Footprint.none])

/-- Only BTCLR can leave its footprint unwritten. -/
theorem written_of_ne_btclr {s : State} {i : Instr} (h : ∀ o d, i ≠ .btclr o d) : written s i = footprint s i := by
  cases i with
  | btclr o d => exact absurd rfl (h o d)
  | _ => rfl

theorem written_btclr (s : State) (o : BitOpd) (d : Byte) :
    readBit s o = .ok true ∧ written s (.btclr o d) = footprint s (.btclr o d) ∨
      readBit s o ≠ .ok true ∧ written s (.btclr o d) = .none := by
  simp only [written]
  split
  · next h => exact .inl ⟨h, rfl⟩
  · next h => exact .inr ⟨by simp [h], rfl⟩
  · next h => exact .inr ⟨by simp [h], rfl⟩

/-- What is written is the footprint or nothing. -/
theorem written_eq (s : State) (i : Instr) : written s i = footprint s i ∨ written s i = .none := by
  by_cases h : ∃ o d, i = .btclr o d
  · obtain ⟨o, d, rfl⟩ := h
    exact (written_btclr s o d).imp And.right And.right
  · exact .inl (written_of_ne_btclr fun o d e => h ⟨o, d, e⟩)

/-- Settles O9: the footprint holds what is written. -/
theorem frameOfEveryInstruction : Obligations.FrameOfEveryInstruction := by
  intro i s t hi h
  have u := (ran_of_exec h).frame hi
  obtain hw | hw := written_eq s i
  · rwa [hw] at u
  · rw [hw] at u
    exact u.of_none

/-- Settles O10: the mirror wait says whether PMC was written. -/
theorem hiddenState : Obligations.HiddenState := by
  refine ⟨fun i s t h => ?_, fun i s t h => ⟨fun hn => ?outside, fun hb hm => ?inside, ?btclr⟩⟩
  · have r := ran_of_exec h
    exact ⟨r.intHold, r.mode, r.afterDiv, r.notices, r.inputs, r.ticks, r.product⟩
  all_goals have hp := (ran_of_exec h).pmcWait
  case outside => obtain hw | hw := written_eq s i <;> simp [hp, hw, hn, Footprint.none]
  case inside => simp [hp, written_of_ne_btclr hb, hm]
  case btclr =>
    rintro m n d rfl hm
    obtain ⟨hr, hw⟩ | ⟨hr, hw⟩ := written_btclr s (.mem m n) d
    · simp [hp, hw, hm, hr]
    · simp [hp, hw, hr, Footprint.none]

/-! ### The invariant (R42, R45, R52, R54, R55) -/

theorem resetEvent_inv {s : State} (h : Inv s) : Inv (resetEvent s) where
  memory := filter_wf _ h.memory
  spEven := by simp [resetEvent]
  esHigh := by simp [resetEvent]
  csHigh := by simp [resetEvent]
  pmcHigh := by simp [resetEvent]
  pmcS1 _ := rfl
  banksS1 _ := ⟨rfl, rfl⟩

theorem released_inv {s : State} (h : Inv s) (release : Bool) : Inv (released s release) := by
  cases release with
  | false => exact h
  | true => exact h.congr rfl rfl rfl rfl rfl rfl rfl rfl

/-- An interrupt entry writes the stack, and keeps the bank bits (R383). -/
theorem acknowledge_inv {s t : State} {r : IrqRequest} (hi : Inv s) (h : acknowledge s r = .ok t) : Inv t := by
  simp only [acknowledge] at h
  split at h
  · cases h
  obtain ⟨u, hu, h⟩ := bind_ok.mp h
  obtain ⟨w, hw, rfl⟩ := enterVector_ok hu
  cases h
  have hk := (wrote_push4 hw).inv hi
  have hp := (wrote_push4 hw).frame.product
  refine { hk with banksS1 := fun hc => ?_ }
  rw [(entryPsw_banks s _).1, (entryPsw_banks s _).2]
  exact hi.banksS1 (hp ▸ hc)

theorem runInstr_inv {s t : State} (hi : Inv s) (h : runInstr s = .next t) : Inv t := by
  simp only [runInstr] at h
  split at h
  · exact (ran_of_exec h).inv hi
  · exact nomatch outcome_next.mp h

theorem boundary_inv {s t : State} {r : Option IrqRequest} (hi : Inv s) (h : boundary s r = .next t) : Inv t := by
  simp only [boundary] at h
  split at h
  · split at h
    · exact runInstr_inv hi h
    · split at h
      · exact acknowledge_inv hi (outcome_next.mp h)
      · exact runInstr_inv hi h
  · cases h
    exact hi

theorem stepWith_inv {s t : State} {e : EnvInput} (hi : Inv s) (h : stepWith s e = .next t) : Inv t := by
  obtain ⟨-, -, hd, -⟩ := dmaStores_keeps s e.dma
  simp only [stepWith] at h
  split at h
  · cases h
    exact resetEvent_inv (hd hi)
  · exact boundary_inv (released_inv (hd hi) _) h

/-- Settles O11: every event of a step keeps the invariant. -/
theorem stepKeepsInv : Obligations.StepKeepsInv := by
  intro s t hi h
  simp only [step] at h
  split at h
  · exact stepWith_inv hi h
  · refine stepWith_inv ?_ h
    exact hi.congr rfl rfl rfl rfl rfl rfl rfl rfl

/-- Settles O12: by the values of the reset state. -/
theorem resetInv : Obligations.ResetInv where
  memory := reset_memory_wf
  spEven := rfl
  esHigh := rfl
  csHigh := by simp [State.reset]
  pmcHigh := by simp [State.reset]
  pmcS1 _ := rfl
  banksS1 _ := ⟨rfl, rfl⟩

/-! ### Bit 0 of SP (R45) -/

theorem wordBase_spReg (s : State) : wordBase s spRegAddr = spRegAddr := by
  simp only [wordBase]
  cases s.product.oddWordPolicy <;> rfl

/-- A word written to the address of SP is what SP then holds, but for bit 0. -/
theorem memWrite16_spReg {win : Option Addr} {s t : State} {v : Word} (h : memWrite16 win s spRegAddr v = .ok t) :
    t = s.setSp v := by
  obtain ⟨_, -, h⟩ := bind_ok.mp h
  obtain ⟨_, -, h⟩ := bind_ok.mp h
  obtain ⟨e, he, h⟩ := bind_ok.mp h
  rw [(wordAddr_ok he).1, wordBase_spReg, evenWrite16_spReg] at h
  cases h
  rfl

theorem dmaSfr_spEven {s : State} (a : Addr) (v : Byte) (h : s.sp.getLsbD 0 = false) :
    (dmaSfr s a v).sp.getLsbD 0 = false := by
  simp only [dmaSfr]
  split
  · exact setSp_even s _
  all_goals exact h

theorem dmaStore_spEven {s : State} (c : Host.Cell) (h : s.sp.getLsbD 0 = false) :
    (dmaStore s c).sp.getLsbD 0 = false := by
  simp only [dmaStore]
  split
  · exact h
  · exact h
  · exact h
  split
  · simp only [dmaGpr]
    split <;> exact h
  · exact dmaSfr_spEven _ _ h
  all_goals exact h

theorem dmaStores_spEven (cells : List Host.Cell) :
    ∀ {s : State}, s.sp.getLsbD 0 = false → (dmaStores s cells).sp.getLsbD 0 = false := by
  induction cells with
  | nil => exact id
  | cons c t ih => exact fun h => ih (dmaStore_spEven c h)

theorem acknowledge_spEven {s t : State} {r : IrqRequest} (h : acknowledge s r = .ok t) : t.sp.getLsbD 0 = false := by
  simp only [acknowledge] at h
  split at h
  · cases h
  obtain ⟨u, hu, h⟩ := bind_ok.mp h
  obtain ⟨w, hw, rfl⟩ := enterVector_ok hu
  cases h
  change w.sp.getLsbD 0 = false
  rw [(push4_ok hw).2]
  exact setSp_even s _

theorem runInstr_spEven {s t : State} (hs : s.sp.getLsbD 0 = false) (h : runInstr s = .next t) :
    t.sp.getLsbD 0 = false := by
  simp only [runInstr] at h
  split at h
  · exact (ran_of_exec h).spEven hs
  · exact nomatch outcome_next.mp h

theorem boundary_spEven {s t : State} {r : Option IrqRequest} (hs : s.sp.getLsbD 0 = false)
    (h : boundary s r = .next t) : t.sp.getLsbD 0 = false := by
  simp only [boundary] at h
  split at h
  · split at h
    · exact runInstr_spEven hs h
    · split at h
      · exact acknowledge_spEven (outcome_next.mp h)
      · exact runInstr_spEven hs h
  · cases h
    exact hs

theorem stepWith_spEven {s t : State} {e : EnvInput} (hs : s.sp.getLsbD 0 = false) (h : stepWith s e = .next t) :
    t.sp.getLsbD 0 = false := by
  simp only [stepWith] at h
  split at h
  · cases h
    simp [resetEvent]
  · refine boundary_spEven ?_ h
    have hd := dmaStores_spEven e.dma hs
    cases e.release <;> exact hd

theorem step_spEven {s t : State} (hs : s.sp.getLsbD 0 = false) (h : step s = .next t) : t.sp.getLsbD 0 = false := by
  simp only [step] at h
  split at h
  · exact stepWith_spEven hs h
  · refine stepWith_spEven ?_ h
    exact hs

/-- What MOVW SP writes (R302). -/
theorem movwSp_ok {s t : State} {src : Opd16} {v : Word} (hv : load16 s src = .ok v)
    (h : exec (.movw .sp src) s = .next t) : t = (s.begin.setSp v).goto (s.next (.movw .sp src)) := by
  obtain ⟨w, hw, h⟩ := bind_ok.mp (outcome_next.mp h)
  obtain rfl := Except.ok.inj (hv.symm.trans hw)
  obtain ⟨u, hu, h⟩ := bind_ok.mp h
  rw [← pure_ok.mp h, memWrite16_spReg hu]

/-- Settles O14: by the write at the address of SP, and by the events of a step. -/
theorem stackPointerEven : Obligations.StackPointerEven := by
  refine ⟨fun win s t v h => ?write, fun s t src v hv h => ?movw, fun s t v h => ?addw, fun s t v h => ?subw,
    fun s t => step_spEven⟩
  case write => rw [memWrite16_spReg h]; rfl
  case movw => rw [movwSp_ok hv h]; rfl
  case addw | subw => cases h; rfl

end Sys2Proof.Machine

/-! PROOFS. The statements of 10_state.md and 20_memory.md about the registers and the SFRs of the core as bytes of the
data memory (R22 to R24, R34, R46, R52, R53, R55, R58, R63, R86). The layer that later parts use comes first: the PSW
byte, a register bank by address, and what a read and a write of each core SFR is. -/

namespace Sys2Proof.Machine

/-! ### The PSW byte (R34, R42) -/

theorem Psw.ofByte_getBit (v : Byte) : ∀ n : BitVec 3, (Psw.ofByte v).getBit n = v.getLsbD n.toNat := by
  simp [forall_bit3, Psw.ofByte, Psw.getBit]

theorem Psw.toByte_getLsbD (p : Psw) (n : BitVec 3) : p.toByte.getLsbD n.toNat = p.getBit n := by
  rw [← Psw.ofByte_getBit, Psw.ofByte_toByte]

theorem Psw.toByte_ofByte : ∀ v : Byte, (Psw.ofByte v).toByte = v := by decide

/-- A byte written to the PSW: on S1 bits 5 and 3 stay 0 (R42). -/
theorem Psw.masked_toByte (c : CoreVariant) (v : Byte) :
    ((Psw.ofByte v).masked c).toByte = if c = .s1 then v &&& 0xD7#8 else v := by
  cases c with
  | s1 => exact (by decide : ∀ w : Byte, ((Psw.ofByte w).masked .s1).toByte = w &&& 0xD7#8) v
  | s2 | s3 => exact Psw.toByte_ofByte v

theorem Psw.setBit_getBit (p : Psw) (n m : BitVec 3) (v : Bool) :
    (p.setBit n v).getBit m = if m = n then v else p.getBit m := by
  split
  · next h => rw [h, Psw.setBit_getBit_self]
  · next h => exact Psw.setBit_getBit_ne p v n m h

/-! ### The register banks by address (R22, R24) -/

section
variable (s : State) (k : BitVec 5) (b : BitVec 2) (r : Reg8)

theorem toNat_fileAddr : (fileAddr (gprIndex b r)).toNat = 0xFFEF8 - 8 * b.toNat + r.num.toNat := by
  cases r <;> revert b <;> decide

theorem fileAddr_bounds : 0xFFEE0 ≤ (fileAddr k).toNat ∧ (fileAddr k).toNat < 0xFFF00 := by
  revert k
  decide

theorem gprIndexAt_fileAddr : gprIndexAt (fileAddr k) = k := by
  revert k
  decide

theorem region_fileAddr : s.region (fileAddr k) = .gpr := by
  obtain ⟨hlo, hhi⟩ := fileAddr_bounds k
  simp only [State.region, regionOf_eq, if_neg (Nat.not_le.mpr hhi), if_pos hlo]

/-- An access to the register area is the check of the address, and then the register that lives there (R24). -/
theorem byteRead_gpr {s : State} {a : Addr} (h : s.region a = .gpr) (u : AccessUnit) :
    byteRead u s a = (gprCheck s a).map fun _ => s.gpr (gprIndexAt a) := by
  simp only [byteRead, h]
  cases gprCheck s a <;> rfl

theorem putByte_gpr {s : State} {a : Addr} (h : s.region a = .gpr) (u : AccessUnit) (v : Byte) :
    putByte u s a v = (gprCheck s a).map fun _ => s.setGpr (gprIndexAt a) v := by
  simp only [putByte, h]
  cases gprCheck s a <;> rfl

theorem byteRead_fileAddr (u : AccessUnit) :
    byteRead u s (fileAddr k) = (gprCheck s (fileAddr k)).map fun _ => s.gpr k := by
  rw [byteRead_gpr (region_fileAddr s k), gprIndexAt_fileAddr]

theorem putByte_fileAddr (u : AccessUnit) (v : Byte) :
    putByte u s (fileAddr k) v = (gprCheck s (fileAddr k)).map fun _ => s.setGpr k v := by
  rw [putByte_gpr (region_fileAddr s k), gprIndexAt_fileAddr]

/-- Below the registers of bank 0 lie those of the other banks. -/
theorem fileAddr_lt_bank0 : (fileAddr (gprIndex b r)).toNat < 0xFFEF8 ↔ b ≠ 0#2 := by
  cases r <;> revert b <;> decide

theorem bank_of_s1 {s : State} (h : s.product.core = .s1) : s.bank = 0#2 := by
  simp only [State.bank, h]

variable {s b}

theorem gprCheck_otherBank (hc : s.product.core ≠ .s1) (hb : b ≠ s.bank) :
    gprCheck s (fileAddr (gprIndex b r)) = .ok () := by
  rw [gprCheck, if_neg (fun h => hc h.1), gprIndexAt_fileAddr, gprIndex_bank, if_neg hb]

/-- On S1 the current bank is bank 0, which is no part of the reserved area. -/
theorem gprCheck_currentBank : gprCheck s (fileAddr (gprIndex s.bank r)) =
    .error (.refuse (.prohibitedAccess .registerAlias (fileAddr (gprIndex s.bank r)))) := by
  rw [gprCheck, if_neg, gprIndexAt_fileAddr, gprIndex_bank, if_pos rfl, refusing]
  rintro ⟨hc, hlt⟩
  exact (fileAddr_lt_bank0 _ r).mp hlt (bank_of_s1 hc)

theorem gprCheck_missingBank (hc : s.product.core = .s1) (hb : b ≠ s.bank) :
    gprCheck s (fileAddr (gprIndex b r)) =
      .error (.refuse (.prohibitedAccess .reservedRegisterArea (fileAddr (gprIndex b r)))) := by
  rw [gprCheck, if_pos ⟨hc, (fileAddr_lt_bank0 b r).mpr (bank_of_s1 hc ▸ hb)⟩, refusing]

end

/-- Settles O21: the access is the check of the address, and then the register that lives there. -/
theorem registersByAddress : Obligations.RegistersByAddress := by
  refine ⟨rfl, fun s => ⟨?bank, fun r => ⟨rfl, fun v => rfl⟩,
    fun k v => ⟨rfl, s.setGpr_gpr_self k v, fun j h => s.setGpr_gpr_ne h v⟩, fun p hi lo hm => ?pair⟩,
    fun s b r v => ⟨toNat_fileAddr b r, ?access⟩⟩
  case bank => cases h : s.product.core <;> simp [State.bank, h]
  case pair =>
    have hp : hi = pairHi p ∧ lo = pairLo p := by
      simp only [List.mem_cons, Prod.mk.injEq, List.not_mem_nil, or_false] at hm
      obtain ⟨rfl, rfl, rfl⟩ | ⟨rfl, rfl, rfl⟩ | ⟨rfl, rfl, rfl⟩ | ⟨rfl, rfl, rfl⟩ := hm <;> exact ⟨rfl, rfl⟩
    obtain ⟨rfl, rfl⟩ := hp
    refine ⟨rfl, fun h l => ?_⟩
    have hl : loByte (h ++ l) = l := loByte_wordOf l h
    have hh : hiByte (h ++ l) = h := hiByte_wordOf l h
    rw [State.setRp, hl, hh]
  case access =>
    simp only [memRead8, memWrite8_of_window (win := none) rfl, byteRead_fileAddr, putByte_fileAddr]
    refine ⟨fun hc hb => ?_, fun hb => ?_, fun hc hb => ?_⟩
    · rw [gprCheck_otherBank r hc hb]
      exact ⟨rfl, rfl⟩
    · subst hb
      rw [gprCheck_currentBank]
      exact ⟨rfl, rfl⟩
    · rw [gprCheck_missingBank r hc hb]
      exact ⟨rfl, rfl⟩

/-! ### The SFRs of the core (R86) -/

section
variable (u : AccessUnit) (s : State) (v : Byte) {a : Addr}

theorem byteRead_sfr (h : 0xFFF00 ≤ a.toNat) : byteRead u s a = sfrRead u s a := by
  simp only [byteRead, region_of_sfr_le h]

theorem putByte_sfr (h : 0xFFF00 ≤ a.toNat) : putByte u s a v = sfrWrite u s a v := by
  simp only [putByte, region_of_sfr_le h]

theorem byteRead_psw : byteRead u s pswAddr = .ok s.psw.toByte := by
  simp [byteRead_sfr, sfrRead, sfrKind, pswAddr]

theorem byteRead_cs : byteRead u s csAddr = .ok s.cs := by
  simp [byteRead_sfr, sfrRead, sfrKind, csAddr]

theorem byteRead_es : byteRead u s esAddr = .ok s.es := by
  simp [byteRead_sfr, sfrRead, sfrKind, esAddr]

theorem byteRead_pmc : byteRead u s pmcAddr = .ok s.pmc := by
  simp [byteRead_sfr, sfrRead, sfrKind, pmcAddr]

theorem putByte_cs : putByte u s csAddr v = .ok (s.setCs v) := by
  simp [putByte_sfr, sfrWrite, sfrKind, csAddr]

theorem putByte_es : putByte u s esAddr v = .ok (s.setEs v) := by
  simp [putByte_sfr, sfrWrite, sfrKind, esAddr]

theorem putByte_pmc : putByte u s pmcAddr v = s.writePmc v := by
  simp [putByte_sfr, sfrWrite, sfrKind, pmcAddr]

theorem and_highPmc : ∀ w : Byte, w &&& 0xFE#8 = 0x00#8 ↔ w.toNat ≤ 1 := by decide

/-- The values PMC may hold (R55). -/
theorem writePmc_legal (h : if s.product.core = .s1 then v = 0x00#8 else v.toNat ≤ 1) :
    s.writePmc v = .ok { s with pmc := v, pmcWait := true } := by
  simp only [State.writePmc]
  cases hc : s.product.core with
  | s1 => simp only [hc, if_true] at h ⊢; rw [if_pos h]
  | s2 | s3 => simp only [hc, reduceCtorEq, if_false] at h; exact if_pos ((and_highPmc v).mpr h)

theorem writePmc_illegal (h : ¬if s.product.core = .s1 then v = 0x00#8 else v.toNat ≤ 1) :
    s.writePmc v = .error (.refuse (.prohibitedSetting v)) := by
  simp only [State.writePmc]
  cases hc : s.product.core with
  | s1 => simp only [hc, if_true] at h ⊢; rw [if_neg h, refusing]
  | s2 | s3 => simp only [hc, reduceCtorEq, if_false] at h; exact if_neg (mt (and_highPmc v).mp h)

/-- The bytes that cannot be accessed: of SP, of MACR, FFFFBH and MEM. -/
theorem sfr_refused {why : ProhibitedReason} (h : 0xFFF00 ≤ a.toNat)
    (hk : (sfrKind s.product.core a, why) ∈
      [(SfrKind.spByte, ProhibitedReason.spByte), (.macr, .macrByte), (.reserved, .reservedSfr)]) :
    memRead8 s a = .error (.refuse (.prohibitedAccess why a)) ∧
      memWrite8 none s a v = .error (.refuse (.prohibitedAccess why a)) := by
  rw [memRead8, byteRead_sfr _ _ h, memWrite8_of_window rfl, putByte_sfr _ _ _ h, sfrRead, sfrWrite]
  generalize sfrKind s.product.core a = k at hk
  simp only [List.mem_cons, Prod.mk.injEq, List.not_mem_nil, or_false] at hk
  obtain ⟨rfl, rfl⟩ | ⟨rfl, rfl⟩ | ⟨rfl, rfl⟩ := hk <;> exact ⟨rfl, rfl⟩

/-- A pair of byte registers is no word (R86). -/
theorem byteSfrWord_refused (w : Word) (h : 0xFFF00 ≤ a.toNat) (he : a.getLsbD 0 = false)
    (hk : sfrKind s.product.core a ∈ [SfrKind.psw, .cs, .pmc]) :
    memRead16 s a = .error (.refuse (.prohibitedAccess .byteSfrWord a)) ∧
      memWrite16 none s a w = .error (.refuse (.prohibitedAccess .byteSfrWord a)) := by
  rw [memRead16_of_even he, memWrite16_of_even he rfl rfl, evenRead16, evenWrite16, region_of_sfr_le h]
  generalize sfrKind s.product.core a = k at hk
  simp only [List.mem_cons, List.not_mem_nil, or_false] at hk
  obtain rfl | rfl | rfl := hk <;> exact ⟨rfl, rfl⟩

theorem memRead16_sp : memRead16 s spRegAddr = .ok s.sp := load16_sp s

theorem memWrite16_sp (win : Option Addr) (w : Word) (hl : windowCheck win s spRegAddr = .ok ())
    (hh : windowCheck win s (spRegAddr + 1#20) = .ok ()) : memWrite16 win s spRegAddr w = .ok (s.setSp w) := by
  rw [memWrite16_of_even rfl hl hh, evenWrite16_spReg]

theorem sfrKind_macr {c : CoreVariant} (hc : c = .s3) (h1 : 0xFFFF0 ≤ a.toNat) (h2 : a.toNat ≤ 0xFFFF3) :
    sfrKind c a = .macr := by
  have hne : ∀ b : Addr, 0xFFFF3 < b.toNat → a ≠ b := by
    rintro b hb rfl
    omega
  simp [hc, sfrKind, within_iff, h1, h2, hne]

theorem memAccess_macr (w : Word) (hc : s.product.core = .s3) :
    (memRead16 s 0xFFFF0#20 = .ok (s.macr.extractLsb' 0 16) ∧ memRead16 s 0xFFFF2#20 = .ok (s.macr.extractLsb' 16 16)) ∧
      memWrite16 none s 0xFFFF0#20 w = .ok { s with macr := s.macr.extractLsb' 16 16 ++ w } ∧
      memWrite16 none s 0xFFFF2#20 w = .ok { s with macr := w ++ s.macr.extractLsb' 0 16 } := by
  have hk : ∀ a ∈ [0xFFFF0#20, 0xFFFF2#20], sfrKind s.product.core a = .macr := by
    simp [hc, sfrKind, within]
  have hr : ∀ a ∈ [0xFFFF0#20, 0xFFFF2#20], s.region a = .sfr := by
    simp [region_of_sfr_le]
  rw [memRead16_of_even rfl, memRead16_of_even rfl, memWrite16_of_even rfl rfl rfl, memWrite16_of_even rfl rfl rfl]
  simp [evenRead16, evenWrite16, hk, hr]

end

/-- Settles O22: the bits of the PSW byte, and each SFR of the core by its kind. -/
theorem coreSfrs : Obligations.CoreSfrs := by
  refine ⟨fun p => ?bits, Psw.toByte_ofByte, fun s z ac cy => ⟨rfl, rfl, rfl, rfl⟩, fun s v w =>
    ⟨?reads, ?psw, putByte_cs .byte s v, putByte_es .byte s v, fun hc hv => ?pmc, fun hc => ?pmcS1, fun hc hv => ?pmcIllegal,
      fun hc hv => ?pmcIllegalS1, memWrite16_sp s none w rfl rfl, fun hc => ?macr, ?spByte, ?byteSfrWord, ?reserved⟩⟩
  case bits =>
    have bit : ∀ n : BitVec 3, p.toByte.getLsbD n.toNat = p.getBit n := p.toByte_getLsbD
    refine ⟨bit 7, bit 6, bit 5, bit 4, bit 3, bit 2, bit 1, bit 0, p.ofByte_toByte, fun k => (bit k).symm,
      fun k j v => ?_⟩
    rw [Psw.toByte_getLsbD, Psw.setBit_getBit, bit]
  case reads =>
    exact ⟨byteRead_psw _ s, byteRead_cs _ s, byteRead_es _ s, byteRead_pmc _ s, memRead16_sp s⟩
  case psw => exact ⟨_, putByte_psw .byte s v, Psw.masked_toByte _ v⟩
  case pmc => exact (putByte_pmc .byte s v).trans (writePmc_legal s v (by rwa [if_neg hc]))
  case pmcS1 => exact (putByte_pmc .byte s 0#8).trans (writePmc_legal s 0#8 (by rw [if_pos hc]))
  case pmcIllegal => exact (putByte_pmc .byte s v).trans (writePmc_illegal s v (by rw [if_neg hc]; omega))
  case pmcIllegalS1 => exact (putByte_pmc .byte s v).trans (writePmc_illegal s v (by rwa [if_pos hc]))
  case macr =>
    obtain ⟨⟨hr0, hr2⟩, hw0, hw2⟩ := memAccess_macr s w hc
    exact ⟨hr0, hr2, hw0, hw2, fun a h1 h2 => sfr_refused s v (by omega) (by simp [sfrKind_macr hc h1 h2])⟩
  case spByte =>
    rintro a (rfl | rfl) <;> exact sfr_refused s v (by decide) (by simp [sfrKind])
  case byteSfrWord =>
    rintro a (rfl | rfl | rfl) <;> exact byteSfrWord_refused s w (by decide) rfl (by simp [sfrKind])
  case reserved =>
    rintro a (rfl | rfl) <;> exact sfr_refused s v (by decide) (by simp [sfrKind])

end Sys2Proof.Machine

/-! PROOFS. The statements of 40_transfer8.md, 41_transfer16.md and 42_alu8.md that are about the SFRs of the core as
operands: MOV with the PSW, ES and CS (R176, R177), the SP forms of MOVW, ADDW and SUBW (R302 to R304), and CMP, CMPS, MOVS
(R175, R208 to R210). Each stores by one byte or word write, which at the address of an SFR is a write of the register. -/

namespace Sys2Proof.Machine

/-! ### A store of an instruction that is not into the bytes fetched ahead (R440) -/

theorem memWrite8_begin {s : State} {next a : Addr} (h : aheadOfFetch s next a = false) (v : Byte) :
    memWrite8 (some next) s.begin a v = putByte .byte s.begin a v :=
  memWrite8_of_window (windowCheck_free h)

theorem memWriteBit_begin {s : State} {next a : Addr} (h : aheadOfFetch s next a = false) (v : Byte) :
    memWriteBit (some next) s.begin a v = putByte .bit s.begin a v := by
  have hw : windowCheck (some next) s.begin a = .ok () := windowCheck_free h
  simp only [memWriteBit, hw, bind, Except.bind]

/-! ### MOV with the PSW, ES, CS (R176, R177) -/

section
variable {s : State} {src : Opd8} {v : Byte} (hl : load8 s src = .ok v)
include hl

theorem exec_movToPsw (h : aheadOfFetch s (s.next (.mov .psw src)) pswAddr = false) :
    exec (.mov .psw src) s =
      .next ((s.begin.setPsw (Psw.ofByte v)).hold.goto (s.next (.mov .psw src))) :=
  exec_mov (dst := .psw) hl ((memWrite8_begin h v).trans (putByte_psw _ _ v))

theorem exec_movToEs (h : aheadOfFetch s (s.next (.mov .es src)) esAddr = false) :
    exec (.mov .es src) s = .next { s.advance (Instr.mov .es src).len with es := v &&& 0x0F#8 } :=
  exec_mov (dst := .es) hl ((memWrite8_begin h v).trans (putByte_es _ _ v))

theorem exec_movToCs (h : aheadOfFetch s (s.next (.mov .cs src)) csAddr = false) :
    exec (.mov .cs src) s = .next { s.advance (Instr.mov .cs src).len with cs := v &&& 0x0F#8 } :=
  exec_mov (dst := .cs) hl ((memWrite8_begin h v).trans (putByte_cs _ _ v))

end

section

set_option maxRecDepth 10000

theorem decode_movPsw : (∀ v : Byte, decode [0xCE#8, 0xFA#8, v] = .done (.mov .psw (.imm v))) ∧
    decode [0x9E#8, 0xFA#8] = .done (.mov .psw (.reg .a)) ∧ decode [0x8E#8, 0xFA#8] = .done (.mov (.reg .a) .psw) :=
  ⟨fun _ => rfl, rfl, rfl⟩

theorem decode_movEsCs : (∀ v : Byte, decode [0x41#8, v] = .done (.mov .es (.imm v)) ∧
      decode [0x61#8, 0xB8#8, v] = .done (.mov .es (.mem (.saddr v))) ∧
      decode [0xCE#8, 0xFC#8, v] = .done (.mov .cs (.imm v))) ∧
    decode [0x8E#8, 0xFD#8] = .done (.mov (.reg .a) .es) ∧ decode [0x9E#8, 0xFD#8] = .done (.mov .es (.reg .a)) ∧
    decode [0x8E#8, 0xFC#8] = .done (.mov (.reg .a) .cs) ∧ decode [0x9E#8, 0xFC#8] = .done (.mov .cs (.reg .a)) :=
  ⟨fun _ => ⟨rfl, rfl, rfl⟩, rfl, rfl, rfl, rfl⟩

theorem decode_spForms : (∀ l h : Byte, decode [0xCB#8, 0xF8#8, l, h] = .done (.movw .sp (.imm (h ++ l)))) ∧
      decode [0xBE#8, 0xF8#8] = .done (.movw .sp (.rp .ax)) ∧ decode [0xAE#8, 0xF8#8] = .done (.movw (.rp .ax) .sp) ∧
      decode [0xDB#8, 0xF8#8, 0xFF#8] = .done (.movw (.rp .bc) .sp) ∧
      decode [0xEB#8, 0xF8#8, 0xFF#8] = .done (.movw (.rp .de) .sp) ∧
      decode [0xFB#8, 0xF8#8, 0xFF#8] = .done (.movw (.rp .hl) .sp) ∧
      ∀ v : Byte, decode [0x10#8, v] = .done (.addwSp v) ∧ decode [0x20#8, v] = .done (.subwSp v) :=
  ⟨fun _ _ => rfl, rfl, rfl, rfl, rfl, rfl, fun _ => ⟨rfl, rfl⟩⟩

end

/-- Settles O25: the store is a write of the PSW, and the form holds interrupts. -/
theorem movPsw : Obligations.MovPsw := by
  obtain ⟨himm, hto, hfrom⟩ := decode_movPsw
  refine ⟨himm, hto, hfrom, fun s src v hl h => ⟨_, exec_movToPsw hl h, rfl, Psw.masked_toByte _ v, rfl, ?_⟩,
    fun s => exec_mov (dst := .reg .a) (load8_psw s) rfl⟩
  exact acknowledgeable_of_intHold rfl

/-- Settles O26: the stores are writes of the registers. -/
theorem movEsCs : Obligations.MovEsCs := by
  obtain ⟨himm, haes, hes, hacs, hcs⟩ := decode_movEsCs
  exact ⟨himm, haes, hes, hacs, hcs, fun s src v hl => ⟨exec_movToEs hl, exec_movToCs hl⟩,
    fun s => ⟨exec_mov (dst := .reg .a) (load8_es s) rfl, exec_mov (dst := .reg .a) (load8_cs s) rfl⟩⟩

/-! ### The stack pointer (R302 to R304) -/

theorem exec_movwToSp {s : State} {src : Opd16} {v : Word} (hv : load16 s src = .ok v)
    (hl : aheadOfFetch s (s.next (.movw .sp src)) 0xFFFF8#20 = false)
    (hh : aheadOfFetch s (s.next (.movw .sp src)) 0xFFFF9#20 = false) :
    exec (.movw .sp src) s = .next { s.advance (Instr.movw .sp src).len with sp := v &&& 0xFFFE#16 } :=
  exec_movw (dst := .sp) hv (memWrite16_sp s.begin _ v (windowCheck_free hl) (windowCheck_free hh))

theorem exec_addwSp (s : State) (v : Byte) : exec (.addwSp v) s =
    .next { s.advance 2 with sp := BitVec.ofNat 16 (s.sp.toNat + v.toNat) &&& 0xFFFE#16 } := by
  have hsum : s.sp + v.setWidth 16 = BitVec.ofNat 16 (s.sp.toNat + v.toNat) := by
    simp only [BitVec.ofNat_add, BitVec.ofNat_toNat, BitVec.setWidth_eq]
  rw [← hsum]
  rfl

theorem exec_subwSp (s : State) (v : Byte) : exec (.subwSp v) s =
    .next { s.advance 2 with sp := BitVec.ofInt 16 ((s.sp.toNat : Int) - v.toNat) &&& 0xFFFE#16 } := by
  have hdiff : s.sp - v.setWidth 16 = BitVec.ofInt 16 ((s.sp.toNat : Int) - v.toNat) := by
    simp only [Int.sub_eq_add_neg, BitVec.ofInt_add, BitVec.ofInt_neg, BitVec.ofInt_natCast, BitVec.ofNat_toNat,
      BitVec.setWidth_eq, ← BitVec.sub_eq_add_neg]
  rw [← hdiff]
  rfl

/-- Settles O29: MOVW writes SP by its address, and the sums of bytes are the exact ones cut to a word. -/
theorem stackPointerInstructions : Obligations.StackPointerInstructions := by
  obtain ⟨himm, hax, hfrom, hbc, hde, hhl, hsum⟩ := decode_spForms
  exact ⟨⟨himm, hax, hfrom, hbc, hde, hhl, fun s src v hv hl hh => exec_movwToSp hv hl hh,
      fun s p => exec_movw (dst := .rp p) (load16_sp s) rfl⟩,
    fun v => ⟨(hsum v).1, (hsum v).2, fun s => ⟨exec_addwSp s v, exec_subwSp s v⟩⟩⟩

/-! ### CMP0, CMPS (R209, R210) -/

theorem exec_cmp0 {s : State} {d : Opd8} {a : Byte} (h : load8 s d = .ok a) :
    exec (.cmp0 d) s = .next ((s.advance (Instr.cmp0 d).len).setZAcCy (decide (a = 0#8)) false false) :=
  outcome_bind_of_ok _ h

theorem exec_cmps {s : State} {es : Bool} {o m : Byte} (h : load8 s (.mem (.hlOff es o)) = .ok m) :
    exec (.cmps es o) s = .next ((s.advance (Instr.cmps es o).len).setZAcCy (decide (s.r8 .x = m))
      (decide ((s.r8 .x).toNat % 16 < m.toNat % 16)) (decide (¬(s.r8 .x = m ∧ s.r8 .a ≠ 0#8 ∧ s.r8 .x ≠ 0#8)))) := by
  have hcy : ((sub8 (s.r8 .x) m false).result != 0#8 || s.r8 .a == 0#8 || s.r8 .x == 0#8) =
      decide (¬(s.r8 .x = m ∧ s.r8 .a ≠ 0#8 ∧ s.r8 .x ≠ 0#8)) := by
    change (!(sub8 (s.r8 .x) m false).z || s.r8 .a == 0#8 || s.r8 .x == 0#8) = _
    rw [sub8_false_z, Bool.eq_iff_iff]
    simp only [Bool.or_eq_true, Bool.not_eq_true', decide_eq_false_iff_not, beq_iff_eq, decide_eq_true_eq]
    grind
  rw [← hcy, ← sub8_false_z]
  exact outcome_bind_of_ok _ h

/-! ### MOVS (R175) -/

section
variable {s u : State} {es : Bool} {o : Byte} {a : Addr} (ha : ea s false (.hlOff es o) = .ok a)
include ha

/-- MOVS is the byte write of X, and then Z and CY. -/
theorem exec_movs (h : memWrite8 (some (s.next (.movs es o))) s.begin a (s.r8 .x) = .ok u) :
    exec (.movs es o) s =
      .next ((u.setZCy (decide (s.r8 .x = 0#8)) (decide (s.r8 .a = 0#8 ∨ s.r8 .x = 0#8))).goto (s.next (.movs es o))) := by
  rw [Bool.decide_or]
  exact outcome_bind_of_ok _ ((store8_mem ha _).trans h)

theorem exec_movs_stop {r : Refusal}
    (h : memWrite8 (some (s.next (.movs es o))) s.begin a (s.r8 .x) = .error (.refuse r)) :
    exec (.movs es o) s = .refused r := by
  have hs : store8 s (s.next (.movs es o)) s.begin (.mem (.hlOff es o)) (s.r8 .x) = .error (.refuse r) :=
    (store8_mem ha _).trans h
  change outcome (store8 s (s.next (.movs es o)) s.begin (.mem (.hlOff es o)) (s.r8 .x) >>= _) = _
  rw [hs]
  rfl

end

/-- Settles O31: CMPS by the difference that is 0 where the bytes are equal, MOVS by what its byte write does at each
kind of address. -/
theorem compareStringResults : Obligations.CompareStringResults := by
  refine ⟨fun s => ⟨fun d src a b => exec_cmp, fun d a => exec_cmp0, fun es o m => exec_cmps⟩, ?movs⟩
  rintro s i es z c o x a rfl ha rfl rfl rfl
  have hput : aheadOfFetch s (s.next (.movs es o)) a = false → ∀ u, putByte .byte s.begin a (s.r8 .x) = .ok u → _ :=
    fun hw u hu => exec_movs ha ((memWrite8_begin hw _).trans hu)
  refine ⟨fun hi hf => ?ram, fun u hu => exec_movs ha hu, fun r hr => exec_movs_stop ha hr, fun hw =>
    ⟨?bank, ?psw, ?es, ?cs, ?pmc, ?pmcIllegal, fun e hp he hwr hun => ⟨fun hb => ?device, fun r hi hb => ?storage⟩⟩⟩
  case ram =>
    obtain ⟨hr, hw⟩ := ramFree_iff.mp hf
    exact ⟨_, hput hw (s.begin.setCell a (s.r8 .x)) (putByte_ram (s := s.begin) hr _ _), rfl,
      State.setCell_byteAt_self (s := s.begin) (Memory.wf_rising hi.memory) a _, rfl⟩
  case bank =>
    rintro b r rfl hc hb
    refine hput hw (s.begin.setGpr (gprIndex b r) (s.r8 .x)) ?_
    rw [putByte_fileAddr, gprCheck_otherBank (s := s.begin) r hc hb]
    rfl
  case psw => rintro rfl; exact hput hw _ (putByte_psw _ _ _)
  case es => rintro rfl; exact hput hw _ (putByte_es _ _ _)
  case cs => rintro rfl; exact hput hw _ (putByte_cs _ _ _)
  case pmc => rintro rfl hv; exact hput hw _ ((putByte_pmc _ _ _).trans (writePmc_legal s.begin _ hv))
  case pmcIllegal =>
    rintro rfl hv
    exact exec_movs_stop ha ((memWrite8_begin hw _).trans ((putByte_pmc _ _ _).trans (writePmc_illegal s.begin _ hv)))
  case device =>
    exact hput hw _ ((putByte_productSfr (s := s.begin) hp _ _).trans (productWrite_device (s := s.begin) he hwr hun hb _))
  case storage =>
    have hs : putByte .byte s.begin a (s.r8 .x) = .ok (s.begin.setCell a (s.r8 .x)) :=
      (putByte_productSfr (s := s.begin) hp _ _).trans (productWrite_storage (s := s.begin) he hwr hun hb _)
    exact ⟨_, hput hw _ hs, rfl, State.setCell_byteAt_self (s := s.begin) (Memory.wf_rising hi.memory) a _, rfl⟩

end Sys2Proof.Machine

/-! PROOFS. The statements of 45_bit.md and the bit branches of 47_branch_skip.md: what a bit read and a bit store are
(R103, R270), the bit instructions (R271 to R278), and BT, BF, BTCLR (R331 to R333). A bit store reads a byte, changes one
bit and writes the byte; a byte is known by its bits, so the byte written is `withBit`. -/

namespace Sys2Proof.Machine

/-! ### One bit of a byte (R103) -/

theorem one_shift_getLsbD : ∀ n k : BitVec 3, (1#8 <<< n.toNat).getLsbD k.toNat = decide (k = n) := by decide

theorem withBit_getLsbD (w : Byte) (n k : BitVec 3) (v : Bool) :
    (withBit w n v).getLsbD k.toNat = if k = n then v else w.getLsbD k.toNat := by
  have hk : k.toNat < 8 := k.isLt
  cases v with
  | true =>
    simp only [withBit, if_true, BitVec.getLsbD_or, one_shift_getLsbD]
    by_cases h : k = n <;> simp only [h, decide_true, decide_false, Bool.or_true, Bool.or_false, if_true, if_false]
  | false =>
    simp only [withBit, Bool.false_eq_true, if_false, BitVec.getLsbD_and, BitVec.getLsbD_not, one_shift_getLsbD, hk]
    by_cases h : k = n <;> simp [h]

/-- A byte is known by its eight bits. -/
theorem eq_withBit {w x : Byte} {n : BitVec 3} {v : Bool}
    (h : ∀ k : BitVec 3, x.getLsbD k.toNat = if k = n then v else w.getLsbD k.toNat) : x = withBit w n v := by
  refine BitVec.eq_of_getLsbD_eq fun i hi => ?_
  have hk : (BitVec.ofNat 3 i).toNat = i := by
    rw [BitVec.toNat_ofNat]
    omega
  rw [← hk, h, withBit_getLsbD]

/-- A cleared bit, as the bit branches speak of it. -/
theorem withBit_false_getLsbD (w : Byte) (n k : BitVec 3) :
    (withBit w n false).getLsbD k.toNat = (decide (k ≠ n) && w.getLsbD k.toNat) := by
  rw [withBit_getLsbD]
  by_cases h : k = n <;> simp [h]

/-! ### One bit of the PSW (R278) -/

/-- On S1 bits 5 and 3 are 0 and stay it (R42). -/
theorem Psw.masked_setBit_getBit (p : Psw) (c : CoreVariant) (v : Bool)
    (hb : c = .s1 → p.rbs1 = false ∧ p.rbs0 = false) : ∀ n k : BitVec 3, ((p.setBit n v).masked c).getBit k =
      if k = n ∧ ¬(c = .s1 ∧ (n = 5#3 ∨ n = 3#3)) then v else p.getBit k := by
  intro n k
  cases c with
  | s1 =>
    obtain ⟨h1, h0⟩ := hb rfl
    revert n k
    simp [forall_bit3, Psw.masked, Psw.setBit, Psw.getBit, h1, h0]
  | s2 | s3 => simp [Psw.masked, Psw.setBit_getBit]

/-! ### Reading a bit (R270) -/

section
variable {s : State} {m : Mem} {a : Addr} (n : BitVec 3)

theorem readBit_mem {w : Byte} (ha : ea s false m = .ok a) (h : memReadBit s a = .ok w) :
    readBit s (.mem m n) = .ok (w.getLsbD n.toNat) := by
  simp only [readBit, ha, bind, Except.bind, h]
  rfl

theorem readBit_mem_stop {e : Stop} (ha : ea s false m = .ok a) (h : memReadBit s a = .error e) :
    readBit s (.mem m n) = .error e := by
  simp only [readBit, ha, bind, Except.bind, h]

theorem readBit_ea_stop {e : Stop} (ha : ea s false m = .error e) : readBit s (.mem m n) = .error e := by
  simp only [readBit, ha, bind, Except.bind]

/-- Only a product SFR has a unit of access (R86). -/
theorem access_of_notProduct (h : ¬ProductSfr s a) (u w : AccessUnit) :
    byteRead u s a = byteRead w s a ∧ ∀ v, putByte u s a v = putByte w s a v := by
  by_cases hr : s.region a = .sfr
  · have hk : sfrKind s.product.core a ≠ .product := fun hk => h (.inr ⟨hr, hk⟩)
    simp only [byteRead, putByte, hr, sfrRead, sfrWrite]
    cases hk' : sfrKind s.product.core a with
    | product => exact absurd hk' hk
    | spByte | psw | reserved | cs | es | pmc | macr => exact ⟨rfl, fun _ => rfl⟩
  · have h2 : s.region a ≠ .sfr2 := fun h2 => h (.inl h2)
    exact ⟨byteRead_unit hr h2 u w, putByte_unit hr h2 u w⟩

end

/-! ### Instructions that leave their result in CY (R271 to R277) -/

section
variable {s : State} {o : BitOpd} {v : Bool} (h : readBit s o = .ok v)
include h

theorem exec_mov1ToCy : exec (.mov1 .cy o) s = .next ((s.advance (Instr.mov1 .cy o).len).setCy v) :=
  outcome_bind_of_ok _ h

theorem exec_and1 : exec (.and1 o) s = .next ((s.advance (Instr.and1 o).len).setCy (s.psw.cy && v)) :=
  outcome_bind_of_ok _ h

theorem exec_or1 : exec (.or1 o) s = .next ((s.advance (Instr.or1 o).len).setCy (s.psw.cy || v)) :=
  outcome_bind_of_ok _ h

theorem exec_xor1 : exec (.xor1 o) s = .next ((s.advance (Instr.xor1 o).len).setCy (s.psw.cy ^^ v)) :=
  outcome_bind_of_ok _ h

end

/-! ### Instructions that store a bit (R271, R275, R276, R278) -/

/-- The instruction stores the bit `v` to `o`: MOV1 with CY, SET1, CLR1. -/
def StoresBit (s : State) (i : Instr) (o : BitOpd) (v : Bool) : Prop :=
  i = .mov1 o .cy ∧ v = s.psw.cy ∨ i = .set1 o ∧ v = true ∨ i = .clr1 o ∧ v = false

section
variable {s u : State} {i : Instr} {o : BitOpd} {v : Bool} (hi : StoresBit s i o v)
include hi

theorem exec_of_writeBit (h : writeBit s (s.next i) s.begin o v = .ok u) : exec i s = .next (u.goto (s.next i)) := by
  obtain ⟨rfl, rfl⟩ | ⟨rfl, rfl⟩ | ⟨rfl, rfl⟩ := hi
  · exact (outcome_bind_of_ok _ rfl).trans (outcome_bind_of_ok _ h)
  · exact outcome_bind_of_ok _ h
  · exact outcome_bind_of_ok _ h

theorem exec_of_writeBit_stop {r : Refusal} (h : writeBit s (s.next i) s.begin o v = .error (.refuse r)) :
    exec i s = .refused r := by
  have hb : ∀ f : State → Result State, outcome (writeBit s (s.next i) s.begin o v >>= f) = .refused r := by
    intro f
    rw [h]
    rfl
  obtain ⟨rfl, rfl⟩ | ⟨rfl, rfl⟩ | ⟨rfl, rfl⟩ := hi
  · exact (outcome_bind_of_ok _ rfl).trans (hb _)
  · exact hb _
  · exact hb _

end

section
variable {s b u : State} {i : Instr} {m : Mem} {n : BitVec 3} {v : Bool} {a : Addr} {w x : Byte}

/-- A bit store to memory writes the byte read with one bit changed (R103). -/
theorem writeBit_mem (next : Addr) (ha : ea s false m = .ok a) (hw : memReadBit s a = .ok w) :
    writeBit s next b (.mem m n) v = memWriteBit (some next) b a (withBit w n v) := by
  simp only [writeBit, ha, bind, Except.bind, hw]

variable (hi : StoresBit s i (.mem m n) v) (ha : ea s false m = .ok a) (hw : memReadBit s a = .ok w)
  (hx : ∀ k : BitVec 3, x.getLsbD k.toNat = if k = n then v else w.getLsbD k.toNat)
include hi ha hw hx

theorem exec_bitStore (h : memWriteBit (some (s.next i)) s.begin a x = .ok u) :
    exec i s = .next (u.goto (s.next i)) :=
  exec_of_writeBit hi (by rw [writeBit_mem _ ha hw, ← eq_withBit hx, h])

theorem exec_bitStore_stop {r : Refusal} (h : memWriteBit (some (s.next i)) s.begin a x = .error (.refuse r)) :
    exec i s = .refused r :=
  exec_of_writeBit_stop hi (by rw [writeBit_mem _ ha hw, ← eq_withBit hx, h])

variable (hf : aheadOfFetch s (s.next i) a = false)
include hf

theorem exec_bitPut (h : putByte .bit s.begin a x = .ok u) : exec i s = .next (u.goto (s.next i)) :=
  exec_bitStore hi ha hw hx ((memWriteBit_begin hf x).trans h)

theorem exec_bitPut_stop {r : Refusal} (h : putByte .bit s.begin a x = .error (.refuse r)) : exec i s = .refused r :=
  exec_bitStore_stop hi ha hw hx ((memWriteBit_begin hf x).trans h)

end

/-- A register byte that can be read passes the check of its address, and can be written (R24). -/
theorem gprCheck_of_read {s : State} {a : Addr} {w : Byte} {u : AccessUnit} (hr : s.region a = .gpr)
    (h : byteRead u s a = .ok w) : gprCheck s a = .ok () := by
  rw [byteRead_gpr hr] at h
  cases hc : gprCheck s a with
  | error e => rw [hc] at h; cases h
  | ok _ => rfl

theorem putByte_of_gprCheck {s : State} {a : Addr} (hr : s.region a = .gpr) (h : gprCheck s a = .ok ())
    (u : AccessUnit) (x : Byte) : putByte u s a x = .ok (s.setGpr (gprIndexAt a) x) := by
  rw [putByte_gpr hr, h]
  rfl

/-- A product SFR that can be read in a unit has an entry that allows the unit (R86). -/
theorem unitAllowed_of_productRead {s : State} {a : Addr} {w : Byte} {u : AccessUnit} {e : SfrEntry}
    (he : sfrEntry s.product a = some e) (h : productRead u s a = .ok w) : unitAllowed e u = true := by
  simp only [productRead, he] at h
  split at h
  · next ha => exact (Bool.and_eq_true_iff.mp ha).2
  · cases h

/-- Settles O40: the byte is read in the unit of the bit and written with one bit changed, at each kind of address. -/
theorem bitResults : Obligations.BitResults := by
  refine ⟨fun s => ⟨fun n => ⟨rfl, ?readPsw⟩, rfl, fun m n => ⟨fun a ha => ⟨fun w => readBit_mem n ha, fun e =>
      readBit_mem_stop n ha⟩, fun e => readBit_ea_stop n⟩, fun a hn => ⟨(access_of_notProduct hn _ _).1, fun win v => ?unit⟩⟩,
    fun s => ⟨fun o v h => ⟨exec_mov1ToCy h, exec_and1 h, exec_or1 h, exec_xor1 h⟩, rfl, rfl, rfl⟩,
    fun s i o n v hi => ⟨?toA, fun m a w hinv ho ha hf hw => ?ram⟩, fun s i m n v a w x hi ha hw hx => ?elsewhere⟩
  case readPsw => rw [Psw.toByte_getLsbD]; rfl
  case unit => simp only [memWriteBit, memWrite8, (access_of_notProduct hn .bit .byte).2]
  case toA =>
    rintro rfl
    refine ⟨_, exec_of_writeBit hi rfl, rfl, rfl, fun k => ?_⟩
    change ((s.begin.setR8 .a (withBit (s.r8 .a) n v)).r8 .a).getLsbD k.toNat = _
    rw [State.setR8_r8, if_pos rfl, withBit_getLsbD]
  case ram =>
    subst ho
    obtain ⟨hr, hf⟩ := ramFree_iff.mp hf
    refine ⟨_, withBit w n v, exec_bitPut hi ha (byteRead_ram hr hw _) (fun k => withBit_getLsbD w n k v) hf
      (putByte_ram (s := s.begin) hr _ _), rfl, rfl, ?_, fun k => withBit_getLsbD w n k v⟩
    exact State.setCell_byteAt_self (s := s.begin) (Memory.wf_rising hinv.memory) a _
  case elsewhere =>
    refine ⟨fun u hu => exec_bitStore hi ha hw hx hu, fun hf => ?_⟩
    have put : ∀ u, putByte .bit s.begin a x = .ok u → exec i s = .next (u.goto (s.next i)) :=
      fun u => exec_bitPut hi ha hw hx hf
    refine ⟨fun hr => ?gpr, ?es, ?cs, ?pmc, ?pmcIllegal, fun e r hinv hp he hwr hb => ?storage⟩
    case gpr =>
      have hc : gprCheck s a = .ok () := gprCheck_of_read hr hw
      exact put _ (putByte_of_gprCheck (s := s.begin) hr hc _ x)
    case es => rintro rfl; exact put _ (putByte_es _ _ _)
    case cs => rintro rfl; exact put _ (putByte_cs _ _ _)
    case pmc => rintro rfl hv; exact put _ ((putByte_pmc _ _ _).trans (writePmc_legal s.begin _ hv))
    case pmcIllegal =>
      rintro rfl hv
      exact exec_bitPut_stop hi ha hw hx hf ((putByte_pmc _ _ _).trans (writePmc_illegal s.begin _ hv))
    case storage =>
      have hu : unitAllowed e .bit = true :=
        unitAllowed_of_productRead he ((byteRead_productSfr hp _).symm.trans hw)
      have hs : putByte .bit s.begin a x = .ok (s.begin.setCell a x) :=
        (putByte_productSfr (s := s.begin) hp _ _).trans (productWrite_storage (s := s.begin) he hwr hu hb _)
      exact ⟨_, put _ hs, rfl, rfl, State.setCell_byteAt_self (s := s.begin) (Memory.wf_rising hinv.memory) a _⟩

/-- Settles O41: the written PSW differs in the one bit, and the form holds interrupts. -/
theorem pswBitResults : Obligations.PswBitResults := by
  intro s i n v hinv hi
  exact ⟨_, exec_of_writeBit hi rfl, rfl, acknowledgeable_of_intHold rfl,
    Psw.masked_setBit_getBit s.psw _ v hinv.banksS1 n⟩

end Sys2Proof.Machine

namespace Sys2Proof.Machine

/-! ### BT and BF (R331, R332) -/

section
variable {s : State} {o : BitOpd} {d : Byte} {v want : Bool} {i : Instr}

/-- BT and BF: the branch is taken where the bit is the wanted one. -/
def BranchesOnBit (i : Instr) (o : BitOpd) (d : Byte) (want : Bool) : Prop :=
  i = .bt o d ∧ want = true ∨ i = .bf o d ∧ want = false

theorem exec_bitBranch (hi : BranchesOnBit i o d want) (h : readBit s o = .ok v) :
    exec i s = outcome (if v = want then jumpChecked s (s.next i + d.signExtend 20) else .ok (s.begin.goto (s.next i))) := by
  obtain ⟨rfl, rfl⟩ | ⟨rfl, rfl⟩ := hi
  · exact outcome_bind_of_ok _ h
  · exact outcome_bind_of_ok _ h

/-! ### BTCLR (R333) -/

theorem State.hold_of_intHold (h : s.intHold = true) : s.hold = s := by
  obtain ⟨_, _, _, _, _, _, _, _, _, _, _, _, _, _, _, _, _⟩ := s
  cases h
  rfl

/-- A 0 bit passes on; the PSW form holds interrupts all the same (R60). -/
theorem exec_btclr_pass (h : readBit s o = .ok false) : exec (.btclr o d) s =
    .next { s.advance (Instr.btclr o d).len with intHold := isPswBit o } := by
  refine (outcome_bind_of_ok _ h).trans ?_
  cases o <;> rfl

theorem exec_btclr_prohibited (h : readBit s o = .ok true)
    (hp : fromRamToFlash s (s.next (.btclr o d) + d.signExtend 20) = true) :
    exec (.btclr o d) s = .refused (.prohibitedBranch (s.next (.btclr o d) + d.signExtend 20)) := by
  have hb : branchCheck s (rel8 (s.next (.btclr o d)) d) =
      refusing (.prohibitedBranch (s.next (.btclr o d) + d.signExtend 20)) :=
    (branchCheck_eq s _).trans (if_pos hp)
  refine (outcome_bind_of_ok _ h).trans ?_
  simp only [if_true, hb]
  rfl

/-- A 1 bit is cleared and the branch taken; the state after the store holds interrupts already where it is the PSW's. -/
theorem exec_btclr_taken {u : State} (h : readBit s o = .ok true)
    (hp : fromRamToFlash s (s.next (.btclr o d) + d.signExtend 20) = false)
    (hu : writeBit s (s.next (.btclr o d)) s.begin o false = .ok u) :
    exec (.btclr o d) s = .next (u.goto (s.next (.btclr o d) + d.signExtend 20)) ∧ u.intHold = isPswBit o := by
  have hh : u.intHold = isPswBit o := (effect_writeBit (s := s) (b := s.begin) rfl hu).intHold
  have hb : branchCheck s (rel8 (s.next (.btclr o d)) d) = .ok () :=
    (branchCheck_eq s _).trans (if_neg (by rw [Bool.not_eq_true]; exact hp))
  refine ⟨(outcome_bind_of_ok _ h).trans ?_, hh⟩
  simp only [if_true, hb, hu]
  cases ho : isPswBit o with
  | false => rfl
  | true =>
    refine congrArg Host.Outcome.next (State.hold_of_intHold ?_)
    exact hh.trans ho

/-- The PSW bit that BTCLR clears is the one bit that changes: on S1 bits 5 and 3 are 0 anyway. -/
theorem Psw.masked_clearBit_getBit (p : Psw) (c : CoreVariant)
    (hb : c ≠ .s1 ∨ p.rbs1 = false ∧ p.rbs0 = false) (n k : BitVec 3) :
    ((p.setBit n false).masked c).getBit k = (decide (k ≠ n) && p.getBit k) := by
  have hs : c = .s1 → (p.setBit n false).rbs1 = false ∧ (p.setBit n false).rbs0 = false := fun hc => by
    obtain ⟨h1, h0⟩ := hb.resolve_left fun hn => hn hc
    revert n
    simp [forall_bit3, Psw.setBit, h1, h0]
  rw [Psw.masked_of_s1 hs, Psw.setBit_getBit]
  by_cases h : k = n <;> simp [h]

end

/-! ### The byte that holds the cleared bit (R270) -/

/-- A storage SFR is an SFR of the product, with a storage entry (R86). -/
theorem productSfr_of_storage {s : State} {a : Addr} {r : Byte} (h : storageOf s.product a = some (.sfr r)) :
    ProductSfr s a ∧ ∃ e, sfrEntry s.product a = some e ∧ e.behaviour = .storage r := by
  have entry : ∀ {q : Option Byte}, q = sfrStorage s.product a → q.map Storage.sfr = some (.sfr r) →
      ∃ e, sfrEntry s.product a = some e ∧ e.behaviour = .storage r := by
    rintro _ rfl hq
    simp only [sfrStorage] at hq
    cases he : sfrEntry s.product a with
    | none => simp [he] at hq
    | some e =>
      cases hb : e.behaviour with
      | device => simp [he, hb] at hq
      | storage x =>
        simp only [he, hb, Option.map_some, Option.some.injEq, Storage.sfr.injEq] at hq
        exact ⟨e, rfl, hq ▸ hb⟩
  simp only [storageOf] at h
  simp only [ProductSfr, State.region, regionOf]
  split at h
  · next h1 =>
    split at h
    · next hk => exact ⟨.inr ⟨by simp [h1], hk⟩, entry rfl h⟩
    · cases h
  split at h
  · cases h
  split at h
  · cases h
  split at h
  · next h1 h2 h3 h4 => exact ⟨.inl (by simp [h1, h2, h3, h4]), entry rfl h⟩
  repeat' (split at h <;> try cases h)

section
variable {s u : State} {a : Addr} {w x : Byte}

/-- All that a read, and all that a write of a storage SFR can give (R86). -/
theorem productRead_storage_ok {unit : AccessUnit} {e : SfrEntry} {r : Byte} (he : sfrEntry s.product a = some e)
    (hb : e.behaviour = .storage r) (h : productRead unit s a = .ok w) : w = (s.byteAt a).getD r := by
  simp only [productRead, he, hb] at h
  split at h <;> cases h
  rfl

theorem productWrite_storage_ok {unit : AccessUnit} {e : SfrEntry} {r : Byte} (he : sfrEntry s.product a = some e)
    (hb : e.behaviour = .storage r) (h : productWrite unit s a x = .ok u) : u = s.setCell a x := by
  simp only [productWrite, he, hb] at h
  split at h <;> cases h
  rfl

/-- A byte that is stored, that can be read and written, is what was written (R86, R91). -/
theorem byteAt_of_putByte (hinv : Inv s) (hst : (storageOf s.product a).isSome = true)
    (hw : memReadBit s a = .ok w) (hu : putByte .bit s.begin a x = .ok u) :
    s.byteAt a = some w ∧ u.byteAt a = some x := by
  have back : (s.begin.setCell a x).byteAt a = some x :=
    State.setCell_byteAt_self (s := s.begin) (Memory.wf_rising hinv.memory) a x
  rw [memReadBit] at hw
  cases hk : storageOf s.product a with
  | none => simp [hk] at hst
  | some k =>
    cases k with
    | flash => exact absurd hk (storage_ne_flash_of_putByte (b := s.begin) hu)
    | ram =>
      have hr : s.region a = .ram := region_of_storage_ram hk _
      rw [putByte_ram (s := s.begin) hr] at hu
      cases hu
      refine ⟨?_, back⟩
      cases hv : s.byteAt a with
      | none => rw [byteRead_unwritten hr hv] at hw; cases hw
      | some v => rw [byteRead_ram hr hv] at hw; cases hw; rfl
    | sfr r =>
      obtain ⟨hp, e, he, hb⟩ := productSfr_of_storage hk
      rw [byteRead_productSfr hp] at hw
      rw [putByte_productSfr (s := s.begin) hp] at hu
      rw [productRead_storage_ok he hb hw, productWrite_storage_ok (s := s.begin) he hb hu]
      exact ⟨byteAt_storage hp he hb, back⟩

end

/-- Settles O51: the check of the branch, the write of the byte with the bit cleared, and then the jump. -/
theorem bitTestBranchResults : Obligations.BitTestBranchResults := by
  refine ⟨?branches, ?btclr⟩
  case branches =>
    rintro s o d v want i target h hi rfl
    rw [exec_bitBranch hi h]
    refine ⟨fun hv => ?_, fun hv hp => ?_, fun hv hp => ?_⟩
    · rw [if_neg hv]
      rfl
    · rw [if_pos hv, jumpChecked_of_allowed hp]
    · rw [if_pos hv, jumpChecked_of_prohibited hp]
  case btclr =>
    rintro s o d target rfl
    refine ⟨exec_btclr_pass, exec_btclr_prohibited, fun u h hp hu => ?_⟩
    obtain ⟨hexec, hhold⟩ := exec_btclr_taken h hp hu
    refine ⟨hexec, hhold, ?a, ?psw, ?mem⟩
    case a =>
      rintro n rfl k
      cases hu
      rw [State.setR8_r8, if_pos rfl, withBit_false_getLsbD]
    case psw =>
      rintro n rfl hc k
      cases hu
      refine Psw.masked_clearBit_getBit s.psw _ ?_ n k
      by_cases hs : s.product.core = .s1
      · exact .inr ((hc.resolve_left fun hn => hn hs).banksS1 hs)
      · exact .inl hs
    case mem =>
      rintro m n a w rfl ha hw
      rw [writeBit_mem _ ha hw] at hu
      refine ⟨withBit w n false, withBit_false_getLsbD w n, hu, ?_⟩
      obtain ⟨_, -, hput⟩ := bind_ok.mp hu
      refine ⟨fun hr => ?gpr, ?pmc, ?es, ?cs, fun hst hinv => byteAt_of_putByte hinv hst hw hput⟩
      case gpr =>
        have hc : gprCheck s a = .ok () := gprCheck_of_read hr hw
        rw [putByte_of_gprCheck (s := s.begin) hr hc] at hput
        cases hput
        exact State.setGpr_gpr_self _ _ _
      case pmc =>
        rintro rfl
        obtain ⟨rfl, -, -⟩ := writePmc_ok ((putByte_pmc _ _ _).symm.trans hput)
        exact ⟨rfl, rfl⟩
      case es =>
        rintro rfl
        cases (putByte_es _ _ _).symm.trans hput
        rfl
      case cs =>
        rintro rfl
        cases (putByte_cs _ _ _).symm.trans hput
        rfl

end Sys2Proof.Machine

/-! PROOFS. The statements of 46_call_stack.md about single instructions: calls, returns, PUSH and POP, and the faults of
the stack (R47, R49, R83, R99, R290 to R301, R383). Every push is `pushBelow`, bytes written downwards from SP - 1, which
goes as far as the stack has room; every pop reads upwards from SP. -/

namespace Sys2Proof.Machine

/-! ### Bytes pushed one below the other (R99, R290, R300) -/

/-- Writes bytes downwards from below a stack address. -/
def pushBelow (win : Option Addr) (b : State) (p : Word) : List Byte → Result State
  | [] => .ok b
  | v :: vs => do
    let t ← stackWrite win b (p - 1#16) v
    pushBelow win t (p - 1#16) vs

/-- The stack address `k + 1` below `p`. -/
def belowAddr (p : Word) (k : Nat) : Addr := addrOf 0xF#4 (p - BitVec.ofNat 16 (k + 1))

/-- The `n` bytes below `p` are stack bytes, and no store to them is stopped by the fetch window. -/
def Pushable (win : Option Addr) (b : State) (p : Word) (n : Nat) : Prop :=
  ∀ k, k < n → within b.product.ramStart 0xFFEDF#20 (belowAddr p k) = true ∧ windowCheck win b (belowAddr p k) = .ok ()

theorem belowAddr_zero (p : Word) : belowAddr p 0 = addrOf 0xF#4 (p - 1#16) := rfl

theorem belowAddr_sub_one (p : Word) (k : Nat) : belowAddr (p - 1#16) k = belowAddr p (k + 1) := by
  have h : p - 1#16 - BitVec.ofNat 16 (k + 1) = p - BitVec.ofNat 16 (k + 1 + 1) := by
    rw [BitVec.ofNat_add (k + 1) 1, BitVec.sub_sub, BitVec.add_comm]
  rw [belowAddr, h]
  rfl

section
variable {win : Option Addr} {b : State} {p : Word} {v : Byte} {vs : List Byte} {k n : Nat}

theorem stackWrite_of_pushable (h : Pushable win b p (n + 1)) (v : Byte) :
    ∃ t, stackWrite win b (p - 1#16) v = .ok t ∧ Pushable win t (p - 1#16) n := by
  obtain ⟨hr, hw⟩ := h 0 (Nat.succ_pos n)
  rw [belowAddr_zero] at hr hw
  rw [stackWrite_eq, if_pos hr, hw]
  refine ⟨_, rfl, fun k hk => ?_⟩
  rw [belowAddr_sub_one]
  exact h (k + 1) (Nat.succ_lt_succ hk)

/-- With room for all of them the bytes are pushed. -/
theorem pushBelow_of_pushable (h : Pushable win b p vs.length) : ∃ t, pushBelow win b p vs = .ok t := by
  induction vs generalizing b p with
  | nil => exact ⟨b, rfl⟩
  | cons v vs ih =>
    obtain ⟨t, ht, hn⟩ := stackWrite_of_pushable h v
    obtain ⟨u, hu⟩ := ih hn
    exact ⟨u, bind_ok.mpr ⟨t, ht, hu⟩⟩

/-- The first byte outside RAM is the fault of the push (R49). -/
theorem pushBelow_fault (hk : k < vs.length) (h : Pushable win b p k)
    (ho : within b.product.ramStart 0xFFEDF#20 (belowAddr p k) = false) :
    pushBelow win b p vs = .error (.fault (.stackOutsideRam (belowAddr p k))) := by
  induction vs generalizing b p k with
  | nil => cases hk
  | cons v vs ih =>
    cases k with
    | zero =>
      rw [belowAddr_zero] at ho ⊢
      rw [pushBelow, stackWrite_eq, if_neg (by rw [ho]; exact Bool.false_ne_true)]
      rfl
    | succ k =>
      obtain ⟨t, ht, hn⟩ := stackWrite_of_pushable h v
      have hp : t.product = b.product := (wrote_stackWrite ht).frame.product
      rw [← belowAddr_sub_one, ← hp] at ho
      rw [pushBelow, ht, ← belowAddr_sub_one]
      exact ih (Nat.lt_of_succ_lt_succ hk) hn ho

end

/-! ### The room of the statements (R49, R440) -/

theorem mem_belowSp {s : State} {n : Nat} {a : Addr} : a ∈ belowSp s n ↔ ∃ k, k < n ∧ a = belowAddr s.sp k := by
  induction n with
  | zero => simp [belowSp]
  | succ n ih =>
    rw [belowSp, List.mem_cons, ih]
    constructor
    · rintro (rfl | ⟨k, hk, rfl⟩)
      · exact ⟨n, Nat.lt_succ_self n, rfl⟩
      · exact ⟨k, Nat.lt_succ_of_lt hk, rfl⟩
    · rintro ⟨k, hk, rfl⟩
      obtain hk | rfl := Nat.lt_succ_iff_lt_or_eq.mp hk
      · exact .inr ⟨k, hk, rfl⟩
      · exact .inl rfl

section
variable {s : State} {next : Addr} {n : Nat}

theorem pushable_of_stackRoom (h : stackRoom s n = true) : Pushable none s s.sp n :=
  fun k hk => ⟨List.all_eq_true.mp h _ (mem_belowSp.mpr ⟨k, hk, rfl⟩), rfl⟩

theorem pushable_of_stackFree (h : stackFree s next n = true) : Pushable (some next) s.begin s.sp n := by
  simp only [stackFree, stackRoom, Bool.and_eq_true, List.all_eq_true, Bool.not_eq_true'] at h
  intro k hk
  have hm : belowAddr s.sp k ∈ belowSp s n := mem_belowSp.mpr ⟨k, hk, rfl⟩
  exact ⟨h.1 _ hm, windowCheck_free (s := s.begin) (h.2 _ hm)⟩

end

section
variable {win : Option Addr} {b : State} {top : Byte} {ret : Addr} {k : Nat}

/-- The frame of CALL, BRK and interrupts is four bytes pushed, and SP moved (R290). -/
theorem push4_eq : push4 win b top ret =
    (pushBelow win b b.sp [top, (ret.extractLsb' 16 4).setWidth 8, ret.extractLsb' 8 8, ret.extractLsb' 0 8]).bind
      fun t : State => .ok (t.setSp (b.sp - 4#16)) := by
  have h2 : b.sp - 1#16 - 1#16 = b.sp - 2#16 := BitVec.sub_sub _ _ _
  have h3 : b.sp - 2#16 - 1#16 = b.sp - 3#16 := BitVec.sub_sub _ _ _
  have h4 : b.sp - 3#16 - 1#16 = b.sp - 4#16 := BitVec.sub_sub _ _ _
  simp only [pushBelow, h2, h3, h4]
  change _ = (_ >>= fun t : State => (.ok (t.setSp (b.sp - 4#16)) : Result State))
  simp only [bind_assoc]
  rfl

theorem push4_of_pushable (h : Pushable win b b.sp 4) : ∃ t, push4 win b top ret = .ok t := by
  obtain ⟨t, ht⟩ := pushBelow_of_pushable (vs := [top, (ret.extractLsb' 16 4).setWidth 8, ret.extractLsb' 8 8,
    ret.extractLsb' 0 8]) h
  rw [push4_eq, ht]
  exact ⟨_, rfl⟩

theorem push4_fault (hk : k < 4) (h : Pushable win b b.sp k)
    (ho : within b.product.ramStart 0xFFEDF#20 (belowAddr b.sp k) = false) :
    push4 win b top ret = .error (.fault (.stackOutsideRam (belowAddr b.sp k))) := by
  rw [push4_eq, pushBelow_fault hk h ho]
  rfl

end
end Sys2Proof.Machine

namespace Sys2Proof.Machine

/-! ### Calls and BRK (R290 to R293) -/

theorem addrOf_wordOf (x : BitVec 4) (l h : Byte) : addrOf x (wordOf l h) = x ++ h ++ l := by
  apply BitVec.eq_of_toNat_eq
  simp only [addrOf, wordOf, BitVec.toNat_append, Nat.shiftLeft_or_distrib, ← Nat.shiftLeft_add, Nat.or_assoc]

/-- The target of CALL, and the check of the relative form before it (R291, R321). -/
theorem callTarget_eq (s : State) (c : CallTarget) : callTarget s (s.next (.call c)) c =
    if callRelative c = true ∧ fromRamToFlash s (callGoal s c) = true then refusing (.prohibitedBranch (callGoal s c))
    else .ok (callGoal s c) := by
  cases c with
  | rp p => rfl
  | abs16 a => rw [callGoal, BitVec.setWidth_eq_append (by decide)]; rfl
  | abs20 a => rfl
  | rel16 d =>
    have hb := branchCheck_eq s (callGoal s (.rel16 d))
    change (branchCheck s (callGoal s (.rel16 d)) >>= fun _ => _) = _
    rw [hb]
    by_cases hp : fromRamToFlash s (callGoal s (.rel16 d)) = true
    · rw [if_pos hp, if_pos ⟨rfl, hp⟩]
      rfl
    · rw [if_neg hp, if_neg fun h => hp h.2]
      rfl

theorem callTarget_allowed {s : State} {c : CallTarget}
    (h : callRelative c = true → fromRamToFlash s (callGoal s c) = false) :
    callTarget s (s.next (.call c)) c = .ok (callGoal s c) := by
  rw [callTarget_eq, if_neg]
  rintro ⟨hr, hp⟩
  rw [h hr] at hp
  cases hp

section
variable {s t : State}

theorem exec_call {c : CallTarget} (hc : callTarget s (s.next (.call c)) c = .ok (callGoal s c))
    (h : push4 (some (s.next (.call c))) s.begin 0x00#8 (s.next (.call c)) = .ok t) :
    exec (.call c) s = .next (t.goto (callGoal s c)) :=
  (outcome_bind_of_ok _ hc).trans (outcome_bind_of_ok _ h)

theorem exec_callt {n : BitVec 5} (h : push4 (some (s.pc + 2#20)) s.begin 0x00#8 (s.pc + 2#20) = .ok t) :
    exec (.callt n) s = .next (t.goto (addrOf 0x0#4 (s.tableWord (calltAddr n)))) :=
  outcome_bind_of_ok _ h

theorem exec_brk (h : push4 (some (s.pc + 2#20)) s.begin s.psw.toByte (s.pc + 2#20) = .ok t) :
    exec .brk s = .next ({ t with psw := entryPsw s none }.goto (addrOf 0x0#4 (s.tableWord brkVector))) :=
  outcome_next.mpr (bind_ok.mpr ⟨t, h, rfl⟩)

/-- A push of a frame from the beginning of an instruction: SP, the PSW and the four bytes. -/
theorem push4_begin {win : Option Addr} {top : Byte} {ret : Addr} (hi : Inv s)
    (h : push4 win s.begin top ret = .ok t) : t.sp = s.sp - 4#16 ∧ t.psw = s.psw ∧ HoldsFrame t top ret := by
  refine ⟨push4_sp (b := s.begin) hi.begin h, ?_, holdsFrame_of_push4 hi.begin h⟩
  rw [(push4_ok h).2]
  rfl

end

theorem calltAddr_eq {n : BitVec 5} {a : Addr} (h : a.toNat = 0x80 + 2 * n.toNat) : calltAddr n = a := by
  have hn := n.isLt
  apply BitVec.eq_of_toNat_eq
  simp only [calltAddr, BitVec.toNat_add, BitVec.toNat_mul, BitVec.toNat_setWidth, BitVec.toNat_ofNat]
  omega

theorem tableWord_goal (s : State) (a : Addr) :
    addrOf 0x0#4 (s.tableWord a) = 0x0#4 ++ s.image (a + 1#20) ++ s.image a := addrOf_wordOf _ _ _

/-- Settles O42: the frame is pushed where there is room, and pc is the target. -/
theorem callResults : Obligations.CallResults := by
  refine ⟨fun s c hi hf hp => ?call, fun s c hr hp => ?prohibited, fun s n a hi ha hf => ?callt⟩
  case call =>
    obtain ⟨t, ht⟩ := push4_of_pushable (b := s.begin) (top := 0x00#8) (ret := s.next (.call c)) (pushable_of_stackFree hf)
    obtain ⟨hsp, hpsw, hframe⟩ := push4_begin hi ht
    exact ⟨_, exec_call (callTarget_allowed hp) ht, rfl, hsp, hpsw, hframe.topByte, hframe.upper, hframe.high, hframe.low⟩
  case prohibited =>
    have hc := (callTarget_eq s c).trans (if_pos ⟨hr, hp⟩)
    change outcome (callTarget s (s.next (.call c)) c >>= _) = _
    rw [hc]
    rfl
  case callt =>
    obtain ⟨t, ht⟩ := push4_of_pushable (b := s.begin) (top := 0x00#8) (ret := s.pc + 2#20) (pushable_of_stackFree hf)
    obtain ⟨hsp, hpsw, hframe⟩ := push4_begin hi ht
    refine ⟨_, exec_callt ht, ?_, hsp, hpsw, hframe.topByte, hframe.upper, hframe.high, hframe.low⟩
    exact (tableWord_goal s _).trans (by rw [calltAddr_eq ha])

/-- Settles O43: the frame with the PSW as it is, then the PSW of an entry. -/
theorem brkEntry : Obligations.BrkEntry := by
  intro s hi hf
  obtain ⟨t, ht⟩ := push4_of_pushable (b := s.begin) (top := s.psw.toByte) (ret := s.pc + 2#20) (pushable_of_stackFree hf)
  obtain ⟨hsp, -, hframe⟩ := push4_begin hi ht
  exact ⟨_, exec_brk ht, tableWord_goal s _, hsp, rfl, hframe.topByte, hframe.upper, hframe.high, hframe.low⟩

/-! ### Returns (R294 to R296) -/

section
variable {s : State} {l h x : Byte} (h0 : stackByte s 0 = some l) (h1 : stackByte s 1 = some h)
  (h2 : stackByte s 2 = some x)
include h0 h1 h2

theorem pop3_of_stackBytes : pop3 s = .ok (x.extractLsb' 0 4 ++ h ++ l) := by
  have hl := stackByte_eq_some.mp h0
  rw [BitVec.add_zero] at hl
  exact pop3_ok.mpr ⟨l, h, x, hl, stackByte_eq_some.mp h1, stackByte_eq_some.mp h2, (addrOf_wordOf _ _ _).symm⟩

theorem exec_ret : exec .ret s =
    .next { s.advance 0 with pc := x.extractLsb' 0 4 ++ h ++ l, sp := (s.sp + 4#16) &&& 0xFFFE#16 } :=
  outcome_bind_of_ok _ (pop3_of_stackBytes h0 h1 h2)

theorem leaveVector_of_stackBytes {p : Byte} (h3 : stackByte s 3 = some p) : leaveVector s s.begin =
    .ok (((s.begin.setPsw (Psw.ofByte p)).setSp (s.sp + 4#16)).goto (x.extractLsb' 0 4 ++ h ++ l)).hold := by
  have hp : stackRead s (s.sp + 3#16) = .ok p := stackByte_eq_some.mp h3
  exact bind_ok.mpr ⟨_, pop3_of_stackBytes h0 h1 h2, bind_ok.mpr ⟨p, hp, rfl⟩⟩

end

section

set_option maxRecDepth 10000

theorem decode_ret : decode [0xD7#8] = .done .ret := rfl

end

/-- Settles O44: the bytes are read upwards from SP. -/
theorem returnResults : Obligations.ReturnResults := by
  refine ⟨fun s l h x h0 h1 h2 => ⟨decode_ret, exec_ret h0 h1 h2⟩, fun s l h x p h0 h1 h2 h3 => ?_⟩
  have hv := leaveVector_of_stackBytes h0 h1 h2 h3
  exact ⟨_, outcome_next.mpr hv, outcome_bind_of_ok _ hv, rfl, rfl, rfl, Psw.masked_toByte _ p,
    acknowledgeable_of_intHold rfl⟩

/-- Settles O47: the frame of the call is the return address that RET takes. -/
theorem callReturns : Obligations.CallReturns := by
  intro s t u i hi hcall ht hp hsp hb
  have hpush : ∃ f, push4 (some (s.next i)) s.begin 0x00#8 (s.next i) = .ok f ∧ t.sp = f.sp ∧
      ∀ k, stackByte t k = stackByte f k := by
    obtain ⟨c, rfl⟩ | ⟨n, rfl⟩ := hcall
    · obtain ⟨_, -, h⟩ := bind_ok.mp (outcome_next.mp ht)
      obtain ⟨f, hf, h⟩ := bind_ok.mp h
      cases h
      exact ⟨f, hf, rfl, fun _ => rfl⟩
    · obtain ⟨f, hf, h⟩ := bind_ok.mp (outcome_next.mp ht)
      cases h
      exact ⟨f, hf, rfl, fun _ => rfl⟩
  obtain ⟨f, hf, htf, hbf⟩ := hpush
  obtain ⟨hfsp, -, hframe⟩ := push4_begin hi hf
  have byte : ∀ k, k < 3 → stackByte u k = stackByte f k := fun k hk => (hb k hk).trans (hbf k)
  have hback : u.sp + 4#16 = s.sp := by rw [hsp, htf, hfsp, BitVec.sub_add_cancel]
  refine ⟨_, exec_ret ((byte 0 (by decide)).trans hframe.low) ((byte 1 (by decide)).trans hframe.high)
    ((byte 2 (by decide)).trans hframe.upper), ?_, ?_⟩
  · exact (addrOf_wordOf _ _ _).symm.trans (addrOf_frame _)
  · change (u.sp + 4#16) &&& 0xFFFE#16 = s.sp
    rw [hback]
    exact clearBit0_of_even hi.spEven

/-! ### PUSH and POP (R300, R301) -/

theorem Inv.setSp_sub_two {s : State} (hi : Inv s) : (s.sp - 2#16) &&& 0xFFFE#16 = s.sp - 2#16 := by
  have heven : s.sp.toNat % 2 = 0 := by simpa [BitVec.getLsbD, Nat.testBit_zero] using hi.spEven
  have hlow : (s.sp - 2#16).toNat % 2 = 0 := by bv_omega
  exact clearBit0_of_even (by simpa [BitVec.getLsbD, Nat.testBit_zero] using hlow)

section
variable {s t : State} {o : StackOpd}

/-- PUSH is two bytes pushed, and SP moved. -/
theorem exec_push : exec (.push o) s = outcome
    ((pushBelow (some (s.next (.push o))) s.begin s.sp [(pushBytes s o).1, (pushBytes s o).2]).bind fun u : State =>
      .ok ((u.setSp (s.sp - 2#16)).goto (s.next (.push o)))) := by
  have h2 : s.sp - 1#16 - 1#16 = s.sp - 2#16 := BitVec.sub_sub _ _ _
  simp only [pushBelow, h2]
  change _ = outcome (_ >>= fun u : State => (.ok ((u.setSp (s.sp - 2#16)).goto (s.next (.push o))) : Result State))
  simp only [bind_assoc]
  rfl

/-- What PUSH leaves: SP two lower, the two bytes there, and the rest as it was. -/
structure Pushed (o : StackOpd) (s t : State) : Prop where
  pc : t.pc = s.next (.push o)
  sp : t.sp = s.sp - 2#16
  psw : t.psw = s.psw
  regs : t.regs = s.regs
  product : t.product = s.product
  high : stackByte t 1 = some (pushBytes s o).1
  low : stackByte t 0 = some (pushBytes s o).2

theorem pushed_of_exec (hi : Inv s) (h : exec (.push o) s = .next t) : Pushed o s t := by
  obtain ⟨t1, h1, h⟩ := bind_ok.mp (outcome_next.mp h)
  obtain ⟨t2, h2, h⟩ := bind_ok.mp h
  have hi1 : Inv t1 := (wrote_stackWrite h1).inv hi.begin
  have hread : ∀ q, stackRead ((t2.setSp (s.sp - 2#16)).goto (s.next (.push o))) q = stackRead t2 q := fun _ => rfl
  have e1 := (stackWrite_ok h1).2
  have e2 := (stackWrite_ok h2).2
  have hsp : (s.sp - 2#16) &&& 0xFFFE#16 = s.sp - 2#16 := hi.setSp_sub_two
  cases h
  refine ⟨rfl, hsp, ?_, ?_, ?_, ?_, ?_⟩
  · change t2.psw = s.psw
    rw [e2, e1]
    rfl
  · change t2.regs = s.regs
    rw [e2, e1]
    rfl
  · change t2.product = s.product
    rw [e2, e1]
    rfl
  · rw [stackByte_eq_some, hread, State.goto_sp, State.setSp_sp, hsp]
    rw [show s.sp - 2#16 + BitVec.ofNat 16 1 = s.sp - 1#16 by bv_omega, stackRead_stackWrite_ne h2 (by bv_omega)]
    exact stackRead_stackWrite_self h1 hi.begin
  · rw [stackByte_eq_some, hread, State.goto_sp, State.setSp_sp, hsp]
    rw [show s.sp - 2#16 + BitVec.ofNat 16 0 = s.sp - 2#16 by bv_omega]
    exact stackRead_stackWrite_self h2 hi1

theorem exec_push_of_stackFree (hf : stackFree s (s.next (.push o)) 2 = true) : ∃ t, exec (.push o) s = .next t := by
  obtain ⟨u, hu⟩ := pushBelow_of_pushable (vs := [(pushBytes s o).1, (pushBytes s o).2]) (pushable_of_stackFree hf)
  rw [exec_push, hu]
  exact ⟨_, rfl⟩

theorem exec_popRp {p : RegPair} {l h : Byte} (h0 : stackByte s 0 = some l) (h1 : stackByte s 1 = some h) :
    exec (.pop (.rp p)) s = .next ({ s.advance 1 with sp := (s.sp + 2#16) &&& 0xFFFE#16 }.setRp p (h ++ l)) := by
  have hl := stackByte_eq_some.mp h0
  rw [BitVec.add_zero] at hl
  exact (outcome_bind_of_ok _ hl).trans (outcome_bind_of_ok _ (stackByte_eq_some.mp h1))

theorem exec_popPsw {h : Byte} (h1 : stackByte s 1 = some h) : exec (.pop .psw) s =
    .next (((s.begin.setPsw (Psw.ofByte h)).hold.setSp (s.sp + 2#16)).goto (s.pc + 2#20)) :=
  outcome_bind_of_ok _ (stackByte_eq_some.mp h1)

end

/-- Settles O45: the two bytes below SP, and the bytes read upwards from SP. -/
theorem pushPopResults : Obligations.PushPopResults := by
  refine ⟨fun s o hi hf => ?push, fun s h h1 => ⟨fun p l h0 => exec_popRp h0 h1, ?popPsw⟩⟩
  case push =>
    obtain ⟨t, ht⟩ := exec_push_of_stackFree hf
    have r := pushed_of_exec hi ht
    refine ⟨t, ht, r.pc, r.sp, r.psw, ?_, ?_⟩
    · rintro p rfl
      exact ⟨r.high, r.low⟩
    · rintro rfl
      exact ⟨r.high, r.low⟩
  case popPsw =>
    exact ⟨_, exec_popPsw h1, rfl, rfl, Psw.masked_toByte _ h, acknowledgeable_of_intHold rfl⟩

/-- The register file is known by its registers. -/
theorem State.regs_ext {s t : State} (h : ∀ k, t.gpr k = s.gpr k) : t.regs = s.regs := by
  refine Vector.ext fun i hi => ?_
  have hk := h (BitVec.ofNat 5 i)
  have hn : (BitVec.ofNat 5 i).toNat = i := by
    rw [BitVec.toNat_ofNat]
    omega
  simpa only [State.gpr, hn] using hk

/-- A pair written with the value it has changes no register. -/
theorem State.setRp_regs_self {s t : State} (p : RegPair) (hb : t.bank = s.bank) (hr : t.regs = s.regs) :
    (t.setRp p (s.r8 (pairHi p) ++ s.r8 (pairLo p))).regs = s.regs := by
  refine State.regs_ext fun k => ?_
  have hh : hiByte (s.r8 (pairHi p) ++ s.r8 (pairLo p)) = s.r8 (pairHi p) := hiByte_wordOf _ _
  have hl : loByte (s.r8 (pairHi p) ++ s.r8 (pairLo p)) = s.r8 (pairLo p) := loByte_wordOf _ _
  rw [State.setRp_gpr, hb, hh, hl]
  split
  · next h => rw [h]; rfl
  split
  · next h => rw [h]; rfl
  · exact State.gpr_of_regs hr k

/-- Settles O46: POP reads what PUSH has left. -/
theorem pushPopRoundTrip : Obligations.PushPopRoundTrip := by
  intro s t o hi h
  have r := pushed_of_exec hi h
  have hback : (t.sp + 2#16) &&& 0xFFFE#16 = s.sp := by
    rw [r.sp, BitVec.sub_add_cancel]
    exact clearBit0_of_even hi.spEven
  cases o with
  | rp p =>
    refine ⟨_, exec_popRp r.low r.high, hback, r.psw, State.setRp_regs_self p ?_ r.regs⟩
    exact State.bank_of r.product r.psw
  | psw =>
    refine ⟨_, exec_popPsw r.high, hback, ?_, r.regs⟩
    change (Psw.ofByte s.psw.toByte).masked t.product.core = s.psw
    rw [Psw.ofByte_toByte, r.product]
    exact Psw.masked_of_s1 hi.banksS1

end Sys2Proof.Machine

namespace Sys2Proof.Machine

/-! ### The faults of the stack (R49, R83, R99) -/

theorem bind_of_error {α β : Type} {x : Result α} {e : Stop} (h : x = .error e) (f : α → Result β) :
    (x >>= f) = .error e := by
  rw [h]
  rfl

theorem bind_of_ok {α β : Type} {x : Result α} {a : α} (h : x = .ok a) (f : α → Result β) : (x >>= f) = f a := by
  rw [h]
  rfl

section
variable {s : State} {k : Nat}

theorem exec_push_fault (o : StackOpd) (hk : k < 2) (hf : stackFree s (s.next (.push o)) k = true)
    (ho : within s.product.ramStart 0xFFEDF#20 (belowAddr s.sp k) = false) :
    exec (.push o) s = .fault (.stackOutsideRam (belowAddr s.sp k)) := by
  rw [exec_push, pushBelow_fault hk (pushable_of_stackFree hf) ho]
  rfl

/-- The frame of an instruction does not fit. -/
theorem push4_begin_fault {next : Addr} (top : Byte) (ret : Addr) (hk : k < 4) (hf : stackFree s next k = true)
    (ho : within s.product.ramStart 0xFFEDF#20 (belowAddr s.sp k) = false) :
    push4 (some next) s.begin top ret = .error (.fault (.stackOutsideRam (belowAddr s.sp k))) :=
  push4_fault (b := s.begin) hk (pushable_of_stackFree hf) ho

/-- Nor does that of an interrupt entry. -/
theorem acknowledge_fault {r : IrqRequest} (hk : k < 4) (hr : stackRoom s k = true) (hd : divisionExposed s = false)
    (ho : within s.product.ramStart 0xFFEDF#20 (belowAddr s.sp k) = false) :
    acknowledge s r = .error (.fault (.stackOutsideRam (belowAddr s.sp k))) := by
  have hp := push4_fault (top := s.psw.toByte) (ret := s.pc) hk (pushable_of_stackRoom hr) ho
  rw [acknowledge, if_neg (by rw [hd]; exact Bool.false_ne_true)]
  exact bind_of_error (bind_of_error hp _) _

/-- The fault of reading the stack byte at SP + k, where there is none. -/
def readFault (s : State) (k : Nat) : Fault :=
  if within s.product.ramStart 0xFFEDF#20 (stackAddr s k) then .unwrittenRead (stackAddr s k)
  else .stackOutsideRam (stackAddr s k)

theorem stackRead_of_none (h : stackByte s k = none) :
    stackRead s (s.sp + BitVec.ofNat 16 k) = .error (.fault (readFault s k)) := by
  have ha : addrOf 0xF#4 (s.sp + BitVec.ofNat 16 k) = stackAddr s k := rfl
  rw [stackByte] at h
  rw [stackRead_eq, ha, readFault]
  by_cases hw : within s.product.ramStart 0xFFEDF#20 (stackAddr s k) = true
  · rw [if_pos hw] at h
    rw [if_pos hw, if_pos hw, h]
  · rw [if_neg hw, if_neg hw]

theorem stackRead_of_isSome (h : (stackByte s k).isSome = true) :
    ∃ v, stackRead s (s.sp + BitVec.ofNat 16 k) = .ok v := by
  obtain ⟨v, hv⟩ := Option.isSome_iff_exists.mp h
  exact ⟨v, stackByte_eq_some.mp hv⟩

variable (hs : ∀ j, j < k → (stackByte s j).isSome = true) (hn : stackByte s k = none)
include hs hn

theorem pop3_fault (hk : k < 3) : pop3 s = .error (.fault (readFault s k)) := by
  have hr := stackRead_of_none hn
  rw [pop3]
  match k, hk with
  | 0, _ =>
    rw [BitVec.add_zero] at hr
    exact bind_of_error hr _
  | 1, _ =>
    obtain ⟨l, hl⟩ := stackRead_of_isSome (hs 0 (by decide))
    rw [BitVec.add_zero] at hl
    exact (bind_of_ok hl _).trans (bind_of_error hr _)
  | 2, _ =>
    obtain ⟨l, hl⟩ := stackRead_of_isSome (hs 0 (by decide))
    obtain ⟨h, hh⟩ := stackRead_of_isSome (hs 1 (by decide))
    rw [BitVec.add_zero] at hl
    exact (bind_of_ok hl _).trans ((bind_of_ok hh _).trans (bind_of_error hr _))

theorem leaveVector_fault (hk : k < 4) (b : State) : leaveVector s b = .error (.fault (readFault s k)) := by
  obtain hk | rfl := Nat.lt_succ_iff_lt_or_eq.mp hk
  · exact bind_of_error (pop3_fault hs hn hk) _
  · obtain ⟨l, hl⟩ := Option.isSome_iff_exists.mp (hs 0 (by decide))
    obtain ⟨h, hh⟩ := Option.isSome_iff_exists.mp (hs 1 (by decide))
    obtain ⟨x, hx⟩ := Option.isSome_iff_exists.mp (hs 2 (by decide))
    exact (bind_of_ok (pop3_of_stackBytes hl hh hx) _).trans (bind_of_error (stackRead_of_none hn) _)

theorem exec_popRp_fault (hk : k < 2) (p : RegPair) : exec (.pop (.rp p)) s = .fault (readFault s k) := by
  have hr := stackRead_of_none hn
  match k, hk with
  | 0, _ =>
    rw [BitVec.add_zero] at hr
    exact congrArg outcome (bind_of_error hr _)
  | 1, _ =>
    obtain ⟨l, hl⟩ := stackRead_of_isSome (hs 0 (by decide))
    rw [BitVec.add_zero] at hl
    exact (outcome_bind_of_ok _ hl).trans (congrArg outcome (bind_of_error hr _))

end

/-- Settles O49: the pushes stop at the first byte they cannot write, the pops at the first they cannot read. -/
theorem stackFaults : Obligations.StackFaults := by
  refine ⟨?pushes, ?pops, ?popPsw⟩
  case pushes =>
    rintro s k _ rfl ho
    refine ⟨fun o hk hf => exec_push_fault o hk hf ho, fun hk hf => ⟨?brk, fun n => ?callt⟩, fun c hk hf hp => ?call,
      fun r hk hr ha hd => ?interrupt⟩
    case brk =>
      exact congrArg outcome (bind_of_error (push4_begin_fault s.psw.toByte (s.pc + 2#20) hk hf ho) _)
    case callt => exact congrArg outcome (bind_of_error (push4_begin_fault 0x00#8 (s.pc + 2#20) hk hf ho) _)
    case call =>
      refine (outcome_bind_of_ok _ (callTarget_allowed hp)).trans ?_
      exact congrArg outcome (bind_of_error (push4_begin_fault 0x00#8 (s.next (.call c)) hk hf ho) _)
    case interrupt =>
      rw [step_of_acknowledgeable ha, acknowledge_fault hk hr hd ho]
      rfl
  case pops =>
    rintro s k _ _ hs hn rfl rfl
    refine ⟨fun hk => ?ret, fun hk => ⟨?reti, ?retb⟩, fun hk p => exec_popRp_fault hs hn hk p⟩
    case ret => exact congrArg outcome (bind_of_error (pop3_fault hs hn hk) _)
    case reti => exact congrArg outcome (bind_of_error (leaveVector_fault hs hn hk s.begin) _)
    case retb => exact congrArg outcome (leaveVector_fault hs hn hk s.begin)
  case popPsw =>
    rintro s _ _ hn rfl rfl
    exact congrArg outcome (bind_of_error (stackRead_of_none hn) _)

end Sys2Proof.Machine

/-! PROOFS. The statements of 47_branch_skip.md about the skips (R340 to R346) and of 48_cpu_control.md about SEL (R22,
R351). The six skips are one shape with six conditions, so that their outcomes are those of finding the length of the
instruction behind. -/

namespace Sys2Proof.Machine

/-! ### The skips (R340 to R346) -/

/-- A skip: two bytes, and the shape with its condition. -/
structure Skips (s : State) (i : Instr) (cond : Cond) : Prop where
  shape : exec i s = outcome (skipIf s i cond)
  len : i.len = 2

section

set_option maxRecDepth 10000

/-- The rows of R341 to R346: instruction, condition, second byte. -/
theorem skips_of_row {s : State} {i : Instr} {c : Bool} {b : Byte} (h : (i, c, b) ∈ [(Instr.skc, s.psw.cy, 0xC8#8),
    (.sknc, !s.psw.cy, 0xD8#8), (.skz, s.psw.z, 0xE8#8), (.sknz, !s.psw.z, 0xF8#8),
    (.skh, !s.psw.z && !s.psw.cy, 0xE3#8), (.sknh, s.psw.z || s.psw.cy, 0xF3#8)]) :
    decode [0x61#8, b] = .done i ∧ ∃ cond, condHolds s.psw cond = c ∧ Skips s i cond := by
  simp only [List.mem_cons, Prod.mk.injEq, List.not_mem_nil, or_false] at h
  obtain ⟨rfl, rfl, rfl⟩ | ⟨rfl, rfl, rfl⟩ | ⟨rfl, rfl, rfl⟩ | ⟨rfl, rfl, rfl⟩ | ⟨rfl, rfl, rfl⟩ | ⟨rfl, rfl, rfl⟩ := h
  · exact ⟨rfl, .c, rfl, rfl, rfl⟩
  · exact ⟨rfl, .nc, rfl, rfl, rfl⟩
  · exact ⟨rfl, .z, rfl, rfl, rfl⟩
  · exact ⟨rfl, .nz, rfl, rfl, rfl⟩
  · exact ⟨rfl, .h, Bool.not_or _ _, rfl, rfl⟩
  · exact ⟨rfl, .nh, rfl, rfl, rfl⟩

theorem decode_sel : ∀ n : BitVec 2, decode [0x61#8, (3#2 ++ n ++ 0xF#4 : Byte)] = .done (.sel n) := by decide

end

section
variable {s : State} {i : Instr} {cond : Cond} (h : Skips s i cond)
include h

theorem Skips.next_eq : s.next i = s.pc + 2#20 := by
  simp only [State.next, State.nextOf, h.len]

theorem Skips.of_false (hc : condHolds s.psw cond = false) : exec i s = .next { s.advance 2 with intHold := true } := by
  rw [h.shape, skipIf, h.next_eq, hc]
  rfl

theorem Skips.of_length {n : Nat} (hc : condHolds s.psw cond = true) (hl : fetchLength s (s.pc + 2#20) = .ok n) :
    exec i s = .next (s.advance (2 + n)) := by
  have hpc : s.pc + 2#20 + BitVec.ofNat 20 n = s.pc + BitVec.ofNat 20 (2 + n) := by
    rw [BitVec.ofNat_add, BitVec.add_assoc]
  rw [h.shape, skipIf, h.next_eq, hc, if_pos rfl, bind_of_ok hl, hpc]
  rfl

theorem Skips.of_stop {e : Stop} (hc : condHolds s.psw cond = true)
    (hl : fetchLength s (s.pc + 2#20) = .error e) : exec i s = outcome (.error e) := by
  rw [h.shape, skipIf, h.next_eq, hc, if_pos rfl, bind_of_error hl]

end

/-- Settles O52: a false skip holds, a true one goes as the length of what follows is found. -/
theorem skipResults : Obligations.SkipResults := by
  intro s i c b hm
  obtain ⟨hd, cond, rfl, h⟩ := skips_of_row hm
  refine ⟨hd, h.of_false, fun j hc hw hb hon => ?passes, fun bytes hc hl hb => ⟨fun hu => ?undefined, fun j hj hon => ?lacking,
    ?runsOut⟩⟩
  case passes =>
    obtain ⟨-, hlen, -, -⟩ := instructionLength j hw
    refine h.of_length hc ?_
    rw [fetchLength_of_fetch (fetchInstr_of_bytes hlen hb (decode_encode hw)), if_pos hon]
    rfl
  case undefined => exact h.of_stop hc (fetchLength_of_stop (fetchInstr_of_undefined hl hb hu))
  case lacking =>
    refine h.of_stop (e := .refuse .undefinedInstruction) hc ?_
    rw [fetchLength_of_fetch (fetchInstr_of_bytes hl hb hj), if_neg (by rw [hon]; exact Bool.false_ne_true)]
  case runsOut =>
    rintro _ hmore hlt rfl
    exact ⟨fun hf hr => h.of_stop hc (fetchLength_of_stop
        (fetchInstr_of_more hlt hb hmore (fetchByte_of_prohibited hf hr))),
      fun hr hn => h.of_stop hc (fetchLength_of_stop
        (fetchInstr_of_more hlt hb hmore (fetchByte_of_unwritten hr hn)))⟩

/-! ### SEL (R351) -/

theorem onCore_sel {c : CoreVariant} (h : c ≠ .s1) (n : BitVec 2) : Instr.onCore (.sel n) c = true := by
  cases c with
  | s1 => exact absurd rfl h
  | s2 | s3 => rfl

theorem exec_sel {s : State} (h : s.product.core ≠ .s1) (n : BitVec 2) : exec (.sel n) s =
    .next { s.advance 2 with psw := { s.psw with rbs1 := n.getLsbD 1, rbs0 := n.getLsbD 0 } } :=
  congrArg outcome (checkCore_bind_of_onCore _ (onCore_sel h n))

theorem ofBool_append_bits : ∀ n : BitVec 2, BitVec.ofBool (n.getLsbD 1) ++ BitVec.ofBool (n.getLsbD 0) = n := by decide

/-- The bank that two PSW bits select (R22). -/
theorem bank_of_bits {t : State} {n : BitVec 2} (h : t.product.core ≠ .s1) (h1 : t.psw.rbs1 = n.getLsbD 1)
    (h0 : t.psw.rbs0 = n.getLsbD 0) : t.bank = n := by
  rw [State.bank, h1, h0]
  cases hc : t.product.core with
  | s1 => exact absurd hc h
  | s2 | s3 => exact ofBool_append_bits n

theorem State.r8_of_bank {t : State} {n : BitVec 2} (h : t.bank = n) (r : Reg8) : t.r8 r = t.gpr (gprIndex n r) := by
  rw [State.r8, h]

/-- Settles O54: SEL writes the two bank bits, and the registers of a bank are found by its number. -/
theorem selResult : Obligations.SelResult := by
  refine ⟨decode_sel, fun s n hc => ?_⟩
  have hb : { s.advance 2 with psw := { s.psw with rbs1 := n.getLsbD 1, rbs0 := n.getLsbD 0 } }.bank = n :=
    bank_of_bits hc rfl rfl
  exact ⟨_, exec_sel hc n, rfl, hb, rfl, rfl, by simp [forall_bit3, Psw.getBit], State.r8_of_bank hb⟩

end Sys2Proof.Machine

/-! PROOFS. The statements of 60_exceptions.md and 70_reset_and_hazards.md: when a request is acknowledged (R39, R234, R382,
R438), interrupt entry (R383), reset (R32, R43, R65, R421), and the stores of another bus master (R108). -/

namespace Sys2Proof.Machine

/-! ### Acknowledgement (R234, R382) -/

theorem Psw.toNat_isp (p : Psw) (h : Bool) :
    (p.isp h).toNat = (if h then 2 * p.isp1.toNat else 0) + p.isp0.toNat := by
  obtain ⟨ie, z, rbs1, ac, rbs0, isp1, isp0, cy⟩ := p
  revert h isp1 isp0
  simp only [Psw.isp]
  decide

theorem acknowledgeable_iff {s : State} {r : IrqRequest} : acknowledgeable s r = true ↔
    s.mode = .run ∧ s.intHold = false ∧ (r.maskable = false ∨ s.psw.ie = true ∧
      r.level.toNat ≤ (if s.product.hasIsp1 then 2 * s.psw.isp1.toNat else 0) + s.psw.isp0.toNat) := by
  simp only [acknowledgeable, Bool.and_eq_true, Bool.or_eq_true, Bool.not_eq_true', decide_eq_true_eq, Psw.toNat_isp,
    and_assoc]

/-- A request that cannot be acknowledged does nothing. -/
theorem step_of_not_acknowledgeable {s : State} {r : IrqRequest} (h : acknowledgeable s r = false) :
    step (s.offered (requestInput r)) = stepWith s quietInput := by
  rw [step_offered]
  simp only [stepWith, requestInput, quietInput, dmaStores, List.foldl_nil, released, Bool.false_eq_true, if_false,
    boundary, h]

theorem divisionExposed_of {s : State} {d : Addr} (hd : s.afterDiv = some d)
    (h : s.region d = .ram ∨ fetchByte s s.pc ≠ .ok 0x00#8) : divisionExposed s = true := by
  simp only [divisionExposed, hd, Bool.or_eq_true, decide_eq_true_eq]
  refine h.imp_right fun hn => ?_
  cases hf : fetchByte s s.pc with
  | error e => rfl
  | ok v => exact decide_eq_true fun hv => hn (by rw [hf, hv])

/-- Settles O56: by the condition of the model, and by its check of the division before the entry. -/
theorem acknowledgeResult : Obligations.AcknowledgeResult := by
  refine ⟨fun s r => ⟨acknowledgeable_iff, step_of_not_acknowledgeable⟩, fun s d r hd ha h => ?_⟩
  rw [step_of_acknowledgeable ha, acknowledge, if_pos (divisionExposed_of hd h)]
  rfl

/-! ### Interrupt entry (R383) -/

theorem toNat_vectorOf (r : IrqRequest) : (vectorOf r).toNat = 2 * r.entry.toNat := by
  have hr := r.entry.isLt
  simp only [vectorOf, BitVec.toNat_mul, BitVec.toNat_setWidth, BitVec.toNat_ofNat]
  omega

section
variable (p : Psw) (h : Bool) (v : BitVec 2)

theorem Psw.withIsp_ie : (p.withIsp h v).ie = p.ie := by cases h <;> rfl

theorem Psw.withIsp_isp : (p.withIsp h v).isp h = if h then v else v &&& 1#2 := by
  cases h with
  | true => exact ofBool_append_bits v
  | false => exact (by decide : ∀ w : BitVec 2, (BitVec.ofBool (w.getLsbD 0)).setWidth 2 = w &&& 1#2) v

theorem Psw.withIsp_isp1 (hh : h = false) : (p.withIsp h v).isp1 = p.isp1 := by
  subst hh
  rfl

end

section
variable (s : State) (isp : Option (BitVec 2))

theorem entryPsw_ie : (entryPsw s isp).ie = false := by
  cases isp with
  | none => rfl
  | some v => exact Psw.withIsp_ie _ _ _

theorem entryPsw_getBit {k : BitVec 3} (h7 : k ≠ 7#3) (h2 : k ≠ 2#3) (h1 : k ≠ 1#3) :
    (entryPsw s isp).getBit k = s.psw.getBit k := by
  have hie : ({ s.psw with ie := false } : Psw).getBit k = s.psw.getBit k := by
    revert k
    simp [forall_bit3, Psw.getBit]
  cases isp with
  | none => exact hie
  | some v => exact (Psw.withIsp_getBit _ _ v k h2 h1).trans hie

theorem entryPsw_isp1 (h : s.product.hasIsp1 = false) : (entryPsw s isp).isp1 = s.psw.isp1 := by
  cases isp with
  | none => rfl
  | some v => exact Psw.withIsp_isp1 _ _ v h

end

/-- Everything a taken request leaves: the frame, the PSW of an entry, pc, and the rest as it was. -/
theorem takeInterrupt_of_push4 {s u : State} {r : IrqRequest} (h : push4 none s s.psw.toByte s.pc = .ok u) :
    takeInterrupt s r = .ok
      { u with
        psw := entryPsw s (if r.maskable then some (ispOnAck s.product r.level) else none)
        pc := addrOf 0x0#4 (s.tableWord (vectorOf r))
        intHold := false
        afterDiv := none
        notices := .ack r :: u.notices } :=
  bind_ok.mpr ⟨_, bind_ok.mpr ⟨u, h, rfl⟩, rfl⟩

/-- Settles O57: the frame is pushed where there is room; all else comes from the state before. -/
theorem interruptEntry : Obligations.InterruptEntry := by
  intro s r hi ha hd hr
  obtain ⟨u, hu⟩ := push4_of_pushable (top := s.psw.toByte) (ret := s.pc) (pushable_of_stackRoom hr)
  have w := wrote_push4 hu
  have f := holdsFrame_of_push4 hi hu
  have hstep : step (s.offered (requestInput r)) = outcome (takeInterrupt s r) := by
    rw [step_of_acknowledgeable ha, acknowledge, if_neg (by rw [hd]; exact Bool.false_ne_true)]
  have keeps : u.regs = s.regs ∧ u.es = s.es ∧ u.cs = s.cs ∧ u.pmc = s.pmc ∧ u.macr = s.macr ∧
      u.pmcWait = s.pmcWait := by
    rw [(push4_ok hu).2]
    exact ⟨rfl, rfl, rfl, rfl, rfl, rfl⟩
  obtain ⟨hregs, hes, hcs, hpmc, hmacr, hwait⟩ := keeps
  have hsp : u.sp = s.sp - 4#16 := push4_sp hi hu
  refine ⟨_, vectorOf r, hstep.trans (congrArg outcome (takeInterrupt_of_push4 hu)), toNat_vectorOf r,
    tableWord_goal s _, hsp, hregs, f.topByte, f.upper, f.high, f.low, entryPsw_ie _ _,
    fun k h7 h2 h1 => entryPsw_getBit _ _ h7 h2 h1, fun hm => ?notMaskable, fun hm => ?maskable,
    fun hh => entryPsw_isp1 _ _ hh, hes, hcs, hpmc, hmacr, w.control.mode, w.frame.product, rfl, hwait,
    congrArg _ w.control.notices, fun b hb => ?memory⟩
  case notMaskable => simp only [hm, Bool.false_eq_true, if_false, entryPsw]
  case maskable =>
    simp only [hm, if_true, entryPsw]
    exact Psw.withIsp_isp _ _ _
  case memory =>
    exact w.frame.memory b (by simpa [Footprint.and, Footprint.ofBytes, Footprint.stackPointer, Footprint.none] using hb)

/-! ### Reset (R43, R421) -/

theorem step_reset {s : State} {e : EnvInput} (h : e.reset = true) :
    step (s.offered e) = .next (resetEvent (dmaStores s e.dma)) := by
  rw [step_offered, stepWith, if_pos h]

theorem afterReset_toByte : Psw.afterReset.toByte = 0x06#8 := by decide

theorem bank_afterReset {t : State} (h : t.psw = Psw.afterReset) : t.bank = 0#2 := by
  rw [State.bank, h]
  cases t.product.core <;> rfl

/-- Settles O58: the PSW of the reset event is that of the reset state. -/
theorem resetPsw : Obligations.ResetPsw := by
  refine ⟨afterReset_toByte, fun s t e he ht => ?_⟩
  rw [step_reset he] at ht
  cases ht
  have hpsw : (resetEvent (dmaStores s e.dma)).psw = Psw.afterReset := rfl
  refine ⟨afterReset_toByte, rfl, bank_afterReset hpsw, fun r hm => ?_⟩
  simp only [acknowledgeable, hpsw, hm, Psw.afterReset, Bool.not_true, Bool.false_and, Bool.false_or, Bool.and_false]

/-- A dropped cell is not listed. -/
theorem lookup_filter_dropped (f : Host.Cell → Bool) (m : List Host.Cell) {a : Nat} (h : ∀ v, f (a, v) = false) :
    lookup (m.filter f) a = none := by
  induction m with
  | nil => rfl
  | cons c t ih =>
    obtain ⟨b, w⟩ := c
    rw [List.filter_cons]
    split
    · next hf =>
      have hab : a ≠ b := by
        rintro rfl
        rw [h] at hf
        cases hf
      rw [lookup, if_neg hab, ih]
    · exact ih

/-- What a reset does not keep reads as a blank address (R421). -/
theorem resetEvent_byteAt_blank {s : State} {a : Addr} (h : storageOf s.product a ≠ some .flash) :
    (resetEvent s).byteAt a = blank s.product a := by
  have hk : ∀ v, keptByReset s.product (a.toNat, v) = false := fun v => by
    simp only [keptByReset, BitVec.ofNat_toNat, BitVec.setWidth_eq]
    split
    · next hf => exact absurd hf h
    all_goals rfl
  change readCell s.product (s.mem.filter (keptByReset s.product)) a = _
  simp only [readCell, lookup_filter_dropped _ s.mem hk]

/-- The tables of a legal product lie in the code flash (R70, R78). -/
theorem storageOf_table {p : Product} {a : Addr} (h : Product.legal p = true) (ha : a.toNat ≤ 0xBF) :
    storageOf p a = some .flash := by
  obtain ⟨hlow, -, -, hdata⟩ := legal_bounds h
  simp only [Product.legal, Bool.and_eq_true, decide_eq_true_eq] at h
  obtain ⟨⟨⟨⟨-, htables⟩, -⟩, -⟩, -⟩ := h
  have hd : ¬inDataFlash p a = true := fun hin => by
    have := (hdata a hin).1
    omega
  simp only [storageOf, within_iff, BitVec.reduceToNat, decide_eq_true_eq]
  rw [if_neg (by omega), if_neg (by omega), if_neg (by omega), if_neg (by omega), if_neg hd, if_pos (by omega)]

theorem KeepsFlash.image {s t : State} (h : KeepsFlash s t) {a : Addr} (ha : storageOf s.product a = some .flash) :
    t.image a = s.image a := by
  have hb : readCell t.product t.mem a = readCell s.product s.mem a := h.bytes a ha
  rw [State.image, State.image, hb, h.product]

end Sys2Proof.Machine

namespace Sys2Proof

open Machine

/-- Settles O59: the flash is kept, so is the reset vector in it, and all else is blank or a value of reset. -/
theorem resetEvent : Obligations.ResetEvent := by
  intro s e hl he
  have hp : (dmaStores s e.dma).product = s.product := (dmaStores_keepsFlash s e.dma).product
  have k : KeepsFlash s (Machine.resetEvent (dmaStores s e.dma)) :=
    (dmaStores_keepsFlash s e.dma).trans (resetEvent_keepsFlash _)
  have hblank : ∀ {a}, storageOf s.product a ≠ some .flash →
      (Machine.resetEvent (dmaStores s e.dma)).byteAt a = blank s.product a := fun hn => by
    rw [resetEvent_byteAt_blank (by rwa [hp]), hp]
  refine ⟨_, step_reset he, ?pc, afterReset_toByte, rfl, rfl, rfl, rfl, rfl, rfl, k.product, fun a ha => ?ram, k.bytes,
    fun a v ha => ?sfr⟩
  case pc =>
    refine (tableWord_goal (Machine.resetEvent (dmaStores s e.dma)) 0x00000#20).trans ?_
    rw [k.image (storageOf_table hl (by decide)), k.image (storageOf_table hl (by decide))]
    rfl
  case ram => rw [hblank (by rw [ha]; nofun), blank, ha]
  case sfr => rw [hblank (by rw [ha]; nofun), blank, ha]

end Sys2Proof

namespace Sys2Proof.Machine

/-! ### The stores of another bus master (R108) -/

section
variable {s : State} {a : Addr} (v : Byte)

theorem dmaStore_stored {k : Storage} (h : storageOf s.product a = some k) (hk : k ≠ .flash) :
    dmaStore s (a.toNat, v) = s.setCell a v := by
  simp only [dmaStore, BitVec.ofNat_toNat, BitVec.setWidth_eq, h, State.setCell]
  cases k with
  | flash => exact absurd rfl hk
  | ram | sfr r => rfl

theorem dmaStore_atFlash (h : storageOf s.product a = some .flash) : dmaStore s (a.toNat, v) = s := by
  simp only [dmaStore, BitVec.ofNat_toNat, BitVec.setWidth_eq, h]

section
variable (h : storageOf s.product a = none)
include h

theorem dmaStore_unstored_gpr (hr : s.region a = .gpr) : dmaStore s (a.toNat, v) = dmaGpr s a v := by
  simp only [dmaStore, BitVec.ofNat_toNat, BitVec.setWidth_eq, h, hr]

theorem dmaStore_unstored_sfr (hr : s.region a = .sfr) : dmaStore s (a.toNat, v) = dmaSfr s a v := by
  simp only [dmaStore, BitVec.ofNat_toNat, BitVec.setWidth_eq, h, hr]

theorem dmaStore_unstored_other (hg : s.region a ≠ .gpr) (hs : s.region a ≠ .sfr) : dmaStore s (a.toNat, v) = s := by
  simp only [dmaStore, BitVec.ofNat_toNat, BitVec.setWidth_eq, h]
  cases hr : s.region a with
  | gpr => exact absurd hr hg
  | sfr => exact absurd hr hs
  | ram | sfr2 | cflash | dflash | mirror | reserved => rfl

end

theorem storageOf_gpr (h : s.region a = .gpr) : storageOf s.product a = none := by
  have hw := regionOf_gpr h
  have hn : within 0xFFF00#20 0xFFFFF#20 a = false := by
    rw [within_iff] at hw
    rw [← Bool.not_eq_true, within_iff]
    simp only [BitVec.reduceToNat] at hw ⊢
    omega
  simp only [storageOf, hw, hn, Bool.false_eq_true, if_false, if_true]

/-- An SFR of the core stores no byte of the memory list. -/
theorem storageOf_coreSfr (h : 0xFFF00 ≤ a.toNat) (hk : sfrKind s.product.core a ≠ .product) :
    storageOf s.product a = none := by
  have ha := a.isLt
  have hw : within 0xFFF00#20 0xFFFFF#20 a = true := within_iff.mpr ⟨h, by simp only [BitVec.reduceToNat]; omega⟩
  simp only [storageOf, hw, if_true, if_neg hk]

theorem dmaStore_coreSfr (h : 0xFFF00 ≤ a.toNat) (hk : sfrKind s.product.core a ≠ .product) :
    dmaStore s (a.toNat, v) = dmaSfr s a v := by
  rw [dmaStore_unstored_sfr v (storageOf_coreSfr h hk) (region_of_sfr_le h)]

theorem dmaStore_gpr (h : s.region a = .gpr) : dmaStore s (a.toNat, v) = dmaGpr s a v := by
  rw [dmaStore_unstored_gpr v (storageOf_gpr h) h]

end

theorem dmaStore_register {s : State} {k : BitVec 5} (v : Byte) (h : s.product.core ≠ .s1 ∨ k.toNat < 8) :
    dmaStore s ((fileAddr k).toNat, v) = s.setGpr k v := by
  have hb : ∀ j : BitVec 5, j.toNat < 8 → ¬(fileAddr j).toNat < 0xFFEF8 := by decide
  rw [dmaStore_gpr v (region_fileAddr s k), dmaGpr, gprIndexAt_fileAddr, if_neg]
  rintro ⟨hc, hlt⟩
  exact hb k (h.resolve_left fun hn => hn hc) hlt

/-- The registers of banks that S1 has not are nowhere (R24). -/
theorem dmaStore_reservedRegister {s : State} {a : Addr} (v : Byte) (hc : s.product.core = .s1)
    (hlo : 0xFFEE0 ≤ a.toNat) (hhi : a.toNat ≤ 0xFFEF7) : dmaStore s (a.toNat, v) = s := by
  have hr : s.region a = .gpr := by
    rw [State.region, regionOf_eq, if_neg (by omega), if_pos hlo]
  rw [dmaStore_gpr v hr, dmaGpr, if_pos ⟨hc, by omega⟩]

/-- The bits of a long word with the byte that starts at bit `c` replaced. -/
theorem getLsbD_replaced {h c : Nat} (m : DWord) (v : Byte) (hw : h + 8 + c = 32) {i : Nat} (hi : i < 32) :
    (m.extractLsb' (c + 8) h ++ v ++ m.extractLsb' 0 c).getLsbD i =
      if c ≤ i ∧ i < c + 8 then v.getLsbD (i - c) else m.getLsbD i := by
  rw [BitVec.getLsbD_append, BitVec.getLsbD_append, BitVec.getLsbD_extractLsb', BitVec.getLsbD_extractLsb']
  by_cases h1 : i < c
  · rw [if_pos h1, if_neg (by omega), decide_eq_true h1, Bool.true_and, Nat.zero_add]
  · by_cases h2 : i < c + 8
    · rw [if_neg h1, if_pos (by omega), if_pos (by omega)]
    · rw [if_neg h1, if_neg (by omega), if_neg (by omega), decide_eq_true (by omega), Bool.true_and]
      congr 1
      omega

/-- A byte stored to MACR (R58). -/
theorem macrWithByte_getLsbD (m : DWord) (v : Byte) {j i : Nat} (hj : j < 4) (hi : i < 32) :
    (macrWithByte m (BitVec.ofNat 20 (0xFFFF0 + j)) v).getLsbD i =
      if 8 * j ≤ i ∧ i < 8 * j + 8 then v.getLsbD (i - 8 * j) else m.getLsbD i := by
  match j, hj with
  | 0, _ =>
    have e := getLsbD_replaced (h := 24) (c := 0) m v rfl hi
    have e0 : (m.extractLsb' 8 24 ++ v ++ m.extractLsb' 0 0) = m.extractLsb' 8 24 ++ v := BitVec.append_zero_width _ _
    rw [e0] at e
    exact e
  | 1, _ => exact getLsbD_replaced (h := 16) (c := 8) m v rfl hi
  | 2, _ => exact getLsbD_replaced (h := 8) (c := 16) m v rfl hi
  | 3, _ =>
    have e : (v ++ m.extractLsb' 0 24).getLsbD i =
        if 8 * 3 ≤ i ∧ i < 8 * 3 + 8 then v.getLsbD (i - 8 * 3) else m.getLsbD i := by
      rw [BitVec.getLsbD_append, BitVec.getLsbD_extractLsb']
      by_cases h : i < 24
      · rw [if_pos h, if_neg (by omega), decide_eq_true h, Bool.true_and, Nat.zero_add]
      · rw [if_neg h, if_pos (by omega)]
    exact e

theorem macrWithByte_byte (m : DWord) (v : Byte) {j n : Nat} (hj : j < 4) (hn : n < 4) :
    (macrWithByte m (BitVec.ofNat 20 (0xFFFF0 + j)) v).extractLsb' (8 * n) 8 =
      if n = j then v else m.extractLsb' (8 * n) 8 := by
  refine BitVec.eq_of_getLsbD_eq fun i hi => ?_
  rw [BitVec.getLsbD_extractLsb', decide_eq_true hi, Bool.true_and, macrWithByte_getLsbD m v hj (by omega)]
  by_cases h : n = j
  · subst h
    rw [if_pos rfl, if_pos (by omega), Nat.add_sub_cancel_left]
  · rw [if_neg h, if_neg (by omega), BitVec.getLsbD_extractLsb', decide_eq_true hi, Bool.true_and]

/-- An address at which there is nothing: no RAM, no register, no SFR of the core, no storage SFR. -/
theorem dmaStore_nothing {s : State} {a : Addr} (v : Byte) (hram : s.region a ≠ .ram) (hgpr : s.region a ≠ .gpr)
    (hsfr : s.region a = .sfr → sfrKind s.product.core a = .product)
    (hst : sfrStorage s.product a = none ∨ ¬ProductSfr s a) : dmaStore s (a.toNat, v) = s := by
  cases hs : storageOf s.product a with
  | none =>
    by_cases hr : s.region a = .sfr
    · rw [dmaStore_unstored_sfr v hs hr, dmaSfr, hsfr hr]
    · exact dmaStore_unstored_other v hs hgpr hr
  | some k =>
    cases k with
    | flash => exact dmaStore_atFlash v hs
    | ram => exact absurd (region_of_storage_ram hs _) hram
    | sfr r =>
      obtain ⟨hp, e, he, hb⟩ := productSfr_of_storage hs
      obtain hn | hn := hst
      · rw [sfrStorage_isSome he hb] at hn
        cases hn
      · exact absurd hp hn

/-- Settles O60: the store by the kind of its address. -/
theorem busMasterStores : Obligations.BusMasterStores := by
  refine ⟨fun s e c rest => rfl, ?_⟩
  rintro s _ a v rfl
  refine ⟨fun k hk hf hinv => ?stored, ?register, ?psw, ?spl, ?sph, ?cs, ?es, ?pmc, fun j hj hc ha => ?macr, ?nothing⟩
  case stored =>
    rw [dmaStore_stored v hk hf]
    exact ⟨rfl, State.setCell_byteAt_self (Memory.wf_rising hinv.memory) a v, fun b hb => State.setCell_byteAt_ne hb v⟩
  case register => rintro k rfl h; exact dmaStore_register v h
  case psw =>
    rintro rfl
    rw [dmaStore_coreSfr v (by decide) (by simp [sfrKind, pswAddr])]
    exact ⟨rfl, Psw.masked_toByte _ v⟩
  case spl | sph | cs | es =>
    rintro rfl
    rw [dmaStore_coreSfr v (by decide) (by simp [sfrKind, csAddr, esAddr])]
    rfl
  case pmc =>
    rintro rfl
    rw [dmaStore_coreSfr v (by decide) (by simp [sfrKind, pmcAddr])]
    change dmaPmc s v = _
    rw [dmaPmc]
    cases s.product.core <;> rfl
  case macr =>
    obtain rfl : a = BitVec.ofNat 20 (0xFFFF0 + j) := BitVec.eq_of_toNat_eq (by rw [ha, BitVec.toNat_ofNat]; omega)
    have hk := sfrKind_macr (a := BitVec.ofNat 20 (0xFFFF0 + j)) hc (by omega) (by omega)
    rw [dmaStore_coreSfr v (by rw [ha]; omega) (by rw [hk]; nofun), dmaSfr, hk]
    exact ⟨rfl, fun n hn => macrWithByte_byte s.macr v hj hn⟩
  case nothing =>
    rintro (hf | hr | hr | ⟨hc, hlo, hhi⟩ | rfl | rfl | ⟨hn, hp⟩)
    · exact dmaStore_atFlash v hf
    · exact dmaStore_nothing v (by simp [hr]) (by simp [hr]) (by simp [hr]) (.inr (by simp [ProductSfr, hr]))
    · exact dmaStore_nothing v (by simp [hr]) (by simp [hr]) (by simp [hr]) (.inr (by simp [ProductSfr, hr]))
    · exact dmaStore_reservedRegister v hc hlo (by omega)
    · rw [dmaStore_coreSfr v (by decide) (by simp [sfrKind])]
      rfl
    · rw [dmaStore_coreSfr v (by decide) (by simp [sfrKind])]
      rfl
    · obtain hr | ⟨hr, hk⟩ := hp
      · exact dmaStore_nothing v (by simp [hr]) (by simp [hr]) (by simp [hr]) (.inl hn)
      · exact dmaStore_nothing v (by simp [hr]) (by simp [hr]) (fun _ => hk) (.inl hn)

end Sys2Proof.Machine
